-- ==== Sys2Proof/Word.lean ====
section
/-! DEFINITION. The word types of the block. -/

namespace Sys2Proof

/-- One byte of the byte-addressed view of `TW` and `SIG` (20_memory.md R65). -/
abbrev Byte := BitVec 8

/-- One control register, operand register or command word: `XLEN` = 32 bits (R7, R20). -/
abbrev Reg := BitVec 32

/-- One `PREC` value in its IEEE 754 interchange encoding (R65), in the low `FLEN` bits: all 64 bits in
`binary64`, bits 31:0 in `binary32` with bits 63:32 zero. log 6 -/
abbrev Word := BitVec 64

end Sys2Proof
end

