-- ==== Sys2Proof/Config.lean ====
section
/-! DEFINITION. What an instance of the block fixes (00_scope.md R7), and the free values: what the spec leaves open. -/

namespace Sys2Proof.Config

/-- The parameter `PREC` (R7): the format of every signal word, twiddle entry and operation. -/
inductive Prec where
  | binary32
  | binary64
  deriving DecidableEq, Repr

/-- A sign of the exponent of e^(s·2πi·jk/n) (R7, R225). -/
inductive Sign where
  | minus
  | plus
  deriving DecidableEq, Repr

/-- The parameter `TWGEN` (R143): the correctly rounded generator, or another one, named by a number so that the
parameter stays plain data. -/
inductive TwGen where
  | correctlyRounded
  | alternative (generator : Nat)
  deriving DecidableEq, Repr

/-- The parameters of R7 that are not fixed to one value. `PARTS` and `NPLANS` have one legal value, 1. -/
structure Params where
  prec : Prec
  fwdSign : Sign
  /-- the register `LVR` -/
  lvr : Reg
  /-- the register `TW_DEPTH`: entries of `TW` -/
  twDepth : Reg
  /-- the register `SIG_DEPTH`: words of `SIG` -/
  sigDepth : Reg
  twgen : TwGen
  deriving DecidableEq, Repr

/-- The defaults of R7, "the value the test vectors of 95_test_vectors.md assume". -/
def defaults : Params where
  prec := .binary64
  fwdSign := .minus
  lvr := 64#32
  twDepth := 65536#32
  sigDepth := 1048576#32
  twgen := .correctlyRounded

/-- The legal values of R7: `LVR` ≥ 1, `TW_DEPTH` ≥ 6, `SIG_DEPTH` ≥ 2. -/
def Params.legal (p : Params) : Bool :=
  decide (1 ≤ p.lvr.toNat) && decide (6 ≤ p.twDepth.toNat) && decide (2 ≤ p.sigDepth.toNat)

/-- The parameter `PARTS`, fixed to 1 (R7, R238). -/
def parts : Nat := 1

/-- The three floating-point operations of R160, as the names a free NaN depends on. -/
inductive FpOp where
  | add
  | sub
  | mul
  deriving DecidableEq, Repr

/-- The two word-addressed memories (R60). -/
inductive Space where
  | tw
  | sig
  deriving DecidableEq, Repr

/-! ### Free values: opaque, so that nothing can be proved of them -/

/-- The sign and fraction of the NaN that an operation on these operands gives (U3). log 12. -/
opaque nanWord : Prec → FpOp → Word → Word → Word

/-- What a command computes on where it reads a word of a memory that nothing has written, and what it leaves in every word
that depends on such a word of `SIG` (U1, R287): the value of the counter `free`, the memory and the word index. log 4. -/
opaque unwrittenWord : Nat → Space → Nat → Word

/-- What an execution command whose footprint words are not pairwise distinct leaves in one of them (U2, R283): the
value of the counter `free` and the word index. log 7. -/
opaque aliasedWord : Nat → Nat → Word

/-- What a host read returns where the spec says any value (U1, U4, U6): the value of the counter `free`. log 13. -/
opaque openRead : Nat → Word

/-- Which of the encodings within one unit in the last place of the exact value an alternative `TWGEN` returns (R143, U5),
counted from the one below the correctly rounded one: the generator's number, the format, sine (true) or cosine, K and
ni. log 11. -/
opaque twStep : Nat → Prec → Bool → Nat → Nat → Fin 3

end Sys2Proof.Config
end

