-- ==== Sys2Proof/Machine/Float.lean ====
section
/-! DEFINITION. The floating-point arithmetic of the engines (42_engine_common.md R160 to R163) on interchange encodings. -/

namespace Sys2Proof.Machine

open Config (Prec FpOp)

/-! ### The two formats (R65: binary64 is 1 + 11 + 52 bits, binary32 is 1 + 8 + 23 bits) -/

/-- `FLEN` (R7). -/
def flen : Prec → Nat
  | .binary32 => 32
  | .binary64 => 64

/-- Bytes of one word (R65). -/
def wordBytes : Prec → Nat
  | .binary32 => 4
  | .binary64 => 8

def fracBits : Prec → Nat
  | .binary32 => 23
  | .binary64 => 52

def expBits : Prec → Nat
  | .binary32 => 8
  | .binary64 => 11

/-- The smallest subnormal is 2^(-unitExp): 2^-149 in binary32, 2^-1074 in binary64. -/
def unitExp : Prec → Nat
  | .binary32 => 149
  | .binary64 => 1074

/-- The low `FLEN` bits of a word. -/
def truncWord (f : Prec) (v : Word) : Word := BitVec.ofNat 64 (v.toNat % 2 ^ flen f)

/-! ### Fields of an encoding -/

def fpSign (f : Prec) (v : Word) : Bool := v.getLsbD (flen f - 1)

def fpExp (f : Prec) (v : Word) : Nat := v.toNat / 2 ^ fracBits f % 2 ^ expBits f

def fpFrac (f : Prec) (v : Word) : Nat := v.toNat % 2 ^ fracBits f

/-- The exponent field of infinities and NaNs. -/
def expMax (f : Prec) : Nat := 2 ^ expBits f - 1

/-- The encoding of +∞. -/
def infBits (f : Prec) : Nat := expMax f * 2 ^ fracBits f

def isNaN (f : Prec) (v : Word) : Bool := fpExp f v == expMax f && fpFrac f v != 0

def isInf (f : Prec) (v : Word) : Bool := fpExp f v == expMax f && fpFrac f v == 0

def isZero (f : Prec) (v : Word) : Bool := fpExp f v == 0 && fpFrac f v == 0

/-- A word from a sign and the bits below it. -/
def signed (f : Prec) (neg : Bool) (bits : Nat) : Word :=
  BitVec.ofNat 64 (if neg then bits + 2 ^ (flen f - 1) else bits)

/-- `neg` of R160: "flips the sign bit". -/
def fpNeg (f : Prec) (v : Word) : Word := v ^^^ BitVec.ofNat 64 (2 ^ (flen f - 1))

/-- The magnitude of a finite value, in units of the smallest subnormal: an exact integer. -/
def magUnits (f : Prec) (v : Word) : Nat :=
  (fpFrac f v + if fpExp f v = 0 then 0 else 2 ^ fracBits f) * 2 ^ (fpExp f v - 1)

/-- A finite value in units of the smallest subnormal. -/
def signedUnits (f : Prec) (v : Word) : Int :=
  if fpSign f v then -(magUnits f v : Int) else magUnits f v

/-! ### Rounding -/

/-- m / 2^k rounded to an integer, to nearest, ties to even. -/
def roundNearestEven (m k : Nat) : Nat :=
  let quot := m / 2 ^ k
  let rest2 := m % 2 ^ k * 2
  if rest2 > 2 ^ k ∨ (rest2 = 2 ^ k ∧ quot % 2 = 1) then quot + 1 else quot

/-- Number of bits of a natural number; 0 has none. -/
def bitLength (m : Nat) : Nat := if m = 0 then 0 else m.log2 + 1

/-- The encoding, without the sign, of the value m / 2^k (in units of the smallest subnormal) rounded once to the format
by roundTiesToEven (R160): the significand is rounded to `fracBits + 1` bits, or to a whole unit where the value is
subnormal; a carry runs on into the exponent field, and what leaves the exponent range is an infinity. -/
def roundUnits (f : Prec) (m k : Nat) : Nat :=
  let shift := bitLength (m / 2 ^ k) - (fracBits f + 1)
  let bits := roundNearestEven m (k + shift) + shift * 2 ^ fracBits f
  if infBits f ≤ bits then infBits f else bits

/-! ### The operations -/

/-- The NaN an operation gives: all exponent bits 1, a fraction that is not 0; its sign and fraction are the free value
`Config.nanWord` (R162, U3). log 12 -/
def nanResult (f : Prec) (op : FpOp) (a b : Word) : Word :=
  let w := truncWord f (Config.nanWord f op a b)
  let frac := if fpFrac f w = 0 then 1 else fpFrac f w
  signed f (fpSign f w) (infBits f + frac)

/-- a + b with the NaN it gives where it gives one. An exact zero sum is -0 where both operands are negative, else +0. -/
def fpSum (f : Prec) (nan a b : Word) : Word :=
  if isNaN f a || isNaN f b then nan
  else if isInf f a then if isInf f b && (fpSign f a != fpSign f b) then nan else a
  else if isInf f b then b
  else
    let sum := signedUnits f a + signedUnits f b
    if sum = 0 then signed f (fpSign f a && fpSign f b) 0
    else signed f (decide (sum < 0)) (roundUnits f sum.natAbs 0)

/-- `⊕` (R160). -/
def fpAdd (f : Prec) (a b : Word) : Word := fpSum f (nanResult f .add a b) a b

/-- `⊖` (R160). -/
def fpSub (f : Prec) (a b : Word) : Word := fpSum f (nanResult f .sub a b) a (fpNeg f b)

/-- `⊗` (R160). -/
def fpMul (f : Prec) (a b : Word) : Word :=
  let neg := fpSign f a != fpSign f b
  if isNaN f a || isNaN f b then nanResult f .mul a b
  else if isInf f a then if isZero f b then nanResult f .mul a b else signed f neg (infBits f)
  else if isInf f b then if isZero f a then nanResult f .mul a b else signed f neg (infBits f)
  else signed f neg (roundUnits f (magUnits f a * magUnits f b) (unitExp f))

/-! ### Constants -/

def fpOne : Prec → Word
  | .binary32 => 0x3F800000#64
  | .binary64 => 0x3FF0000000000000#64

def fpHalf : Prec → Word
  | .binary32 => 0x3F000000#64
  | .binary64 => 0x3FE0000000000000#64

def fpQuarter : Prec → Word
  | .binary32 => 0x3E800000#64
  | .binary64 => 0x3FD0000000000000#64

/-- `SQRT_HALF` (R163). -/
def fpSqrtHalf : Prec → Word
  | .binary32 => 0x3F3504F3#64
  | .binary64 => 0x3FE6A09E667F3BCD#64

/-- `SIN60` (R163). -/
def fpSin60 : Prec → Word
  | .binary32 => 0x3F5DB3D7#64
  | .binary64 => 0x3FEBB67AE8584CAA#64

/-- `QRT5` (R163). -/
def fpQrt5 : Prec → Word
  | .binary32 => 0x3F0F1BBD#64
  | .binary64 => 0x3FE1E3779B97F4A8#64

/-- `SIN36` (R163). -/
def fpSin36 : Prec → Word
  | .binary32 => 0x3F167918#64
  | .binary64 => 0x3FE2CF2304755A5E#64

/-- `SIN72` (R163). -/
def fpSin72 : Prec → Word
  | .binary32 => 0x3F737871#64
  | .binary64 => 0x3FEE6F0E134454FF#64

end Sys2Proof.Machine
end

