-- ==== Sys2Proof/Machine/Kernels.lean ====
section
/-! DEFINITION. The butterfly kernels (R182 to R185, R202, R203, R212, R213) over any arithmetic: the block's own is
`fpArith`, and exact arithmetic is another, so that the rules' exact-arithmetic meanings can be stated of the same text. -/

namespace Sys2Proof.Machine

open Config (Prec Sign)

/-- A complex value (re, im) (R11). -/
abbrev Cpx (α : Type) := α × α

/-- The operations and constants the kernels use (R160, R163). -/
structure Arith (α : Type) where
  add : α → α → α
  sub : α → α → α
  mul : α → α → α
  neg : α → α
  one : α
  half : α
  quarter : α
  sqrtHalf : α
  sin60 : α
  qrt5 : α
  sin36 : α
  sin72 : α

/-- The block's arithmetic: every operation rounded once to `PREC` (R160). -/
def fpArith (f : Prec) : Arith Word where
  add := fpAdd f
  sub := fpSub f
  mul := fpMul f
  neg := fpNeg f
  one := fpOne f
  half := fpHalf f
  quarter := fpQuarter f
  sqrtHalf := fpSqrtHalf f
  sin60 := fpSin60 f
  qrt5 := fpQrt5 f
  sin36 := fpSin36 f
  sin72 := fpSin72 f

section

variable {α : Type} (A : Arith α)

/-- `cmul(co, si, (xr, xi))` of R161: four products, then one difference and one sum. -/
def cmul (co si : α) (x : Cpx α) : Cpx α :=
  (A.sub (A.mul co x.1) (A.mul si x.2), A.add (A.mul si x.1) (A.mul co x.2))

/-- a + b, componentwise. -/
def cadd (a b : Cpx α) : Cpx α := (A.add a.1 b.1, A.add a.2 b.2)

/-- a - b, componentwise. -/
def csub (a b : Cpx α) : Cpx α := (A.sub a.1 b.1, A.sub a.2 b.2)

/-- `kernel_2` (R182). -/
def kernel2 (a0 a1 : Cpx α) : List (Cpx α) := [cadd A a0 a1, csub A a0 a1]

/-- `kernel_4` (R183). -/
def kernel4 (ss : α) (a0 a1 a2 a3 : Cpx α) : List (Cpx α) :=
  let t0 := A.add a0.1 a2.1
  let t2 := A.sub a0.1 a2.1
  let t1 := A.add a1.1 a3.1
  let t3 := A.mul ss (A.sub a1.1 a3.1)
  let u0 := A.add a0.2 a2.2
  let u2 := A.sub a0.2 a2.2
  let u1 := A.add a1.2 a3.2
  let u3 := A.mul ss (A.sub a1.2 a3.2)
  [(A.add t0 t1, A.add u0 u1),
   (A.sub t2 u3, A.add u2 t3),
   (A.sub t0 t1, A.sub u0 u1),
   (A.add t2 u3, A.sub u2 t3)]

/-- y = (ye[0], yo[0], ye[1], yo[1], ...), the last line of R184. -/
def interleave : List (Cpx α) → List (Cpx α) → List (Cpx α)
  | e :: es, o :: os => e :: o :: interleave es os
  | _, _ => []

/-- `kernel_8` (R184). -/
def kernel8 (c1 c2 c3 : α) (a0 a1 a2 a3 a4 a5 a6 a7 : Cpx α) : List (Cpx α) :=
  let g1 := csub A a1 a5
  let g2 := csub A a2 a6
  let g3 := csub A a3 a7
  let ye := kernel4 A c1 (cadd A a0 a4) (cadd A a1 a5) (cadd A a2 a6) (cadd A a3 a7)
  let yo := kernel4 A c1 (csub A a0 a4) (cmul A c2 c3 g1) (A.mul (A.neg c1) g2.2, A.mul c1 g2.1)
    (cmul A (A.neg c2) c3 g3)
  interleave ye yo

/-- `kernel_3` (R202). -/
def kernel3 (c1 : α) (a0 a1 a2 : Cpx α) : List (Cpx α) :=
  let t1 := A.add a1.1 a2.1
  let t2 := A.sub a0.1 (A.mul A.half t1)
  let t3 := A.mul c1 (A.sub a1.1 a2.1)
  let u1 := A.add a1.2 a2.2
  let u2 := A.sub a0.2 (A.mul A.half u1)
  let u3 := A.mul c1 (A.sub a1.2 a2.2)
  [(A.add a0.1 t1, A.add a0.2 u1),
   (A.sub t2 u3, A.add u2 t3),
   (A.add t2 u3, A.sub u2 t3)]

/-- `kernel_5` (R212). -/
def kernel5 (c1 c2 c3 : α) (a0 a1 a2 a3 a4 : Cpx α) : List (Cpx α) :=
  let t1 := A.add a1.1 a4.1
  let t2 := A.add a2.1 a3.1
  let t3 := A.sub a1.1 a4.1
  let t4 := A.sub a2.1 a3.1
  let t5 := A.add t1 t2
  let t6 := A.mul c1 (A.sub t1 t2)
  let t7 := A.sub a0.1 (A.mul A.quarter t5)
  let t8 := A.add t7 t6
  let t9 := A.sub t7 t6
  let t10 := A.sub (A.mul c3 t3) (A.mul c2 t4)
  let t11 := A.add (A.mul c2 t3) (A.mul c3 t4)
  let u1 := A.add a1.2 a4.2
  let u2 := A.add a2.2 a3.2
  let u3 := A.sub a1.2 a4.2
  let u4 := A.sub a2.2 a3.2
  let u5 := A.add u1 u2
  let u6 := A.mul c1 (A.sub u1 u2)
  let u7 := A.sub a0.2 (A.mul A.quarter u5)
  let u8 := A.add u7 u6
  let u9 := A.sub u7 u6
  let u10 := A.sub (A.mul c3 u3) (A.mul c2 u4)
  let u11 := A.add (A.mul c2 u3) (A.mul c3 u4)
  [(A.add a0.1 t5, A.add a0.2 u5),
   (A.sub t8 u11, A.add u8 t11),
   (A.sub t9 u10, A.add u9 t10),
   (A.add t9 u10, A.sub u9 t10),
   (A.add t8 u11, A.sub u8 t11)]

end

/-! ### Radices and the constants chosen by μ -/

/-- The radices of the passes (R181, R201, R211). -/
inductive Radix where
  | r2
  | r3
  | r4
  | r5
  | r8
  deriving DecidableEq, Repr

def radixVal : Radix → Nat
  | .r2 => 2
  | .r3 => 3
  | .r4 => 4
  | .r5 => 5
  | .r8 => 8

/-- The residue μ of R159: `inq` mod ρ, and ρ minus that where s = -1. -/
def residueMu (inq rho : Nat) (s : Sign) : Nat :=
  match s with
  | .plus => inq % rho
  | .minus => rho - inq % rho

/-- `ss` of R185. -/
def radix4Const {α : Type} (A : Arith α) (mu : Nat) : α := if mu = 3 then A.neg A.one else A.one

/-- (`C1`, `C2`, `C3`) of the table of R185. -/
def radix8Consts {α : Type} (A : Arith α) (mu : Nat) : α × α × α :=
  if mu = 3 then (A.neg A.one, A.neg A.sqrtHalf, A.sqrtHalf)
  else if mu = 5 then (A.one, A.neg A.sqrtHalf, A.neg A.sqrtHalf)
  else if mu = 7 then (A.neg A.one, A.sqrtHalf, A.neg A.sqrtHalf)
  else (A.one, A.sqrtHalf, A.sqrtHalf)

/-- `c1` of R203. -/
def radix3Const {α : Type} (A : Arith α) (mu : Nat) : α := if mu = 2 then A.neg A.sin60 else A.sin60

/-- (`c1`, `c2`, `c3`) of the table of R213. -/
def radix5Consts {α : Type} (A : Arith α) (mu : Nat) : α × α × α :=
  if mu = 2 then (A.neg A.qrt5, A.sin36, A.neg A.sin72)
  else if mu = 3 then (A.neg A.qrt5, A.neg A.sin36, A.sin72)
  else if mu = 4 then (A.qrt5, A.neg A.sin72, A.neg A.sin36)
  else (A.qrt5, A.sin72, A.sin36)

/-- `kernel_ρ(a)` with the constants of the residue μ. A list of another length than ρ, which no pass forms, is given
back. -/
def kernel {α : Type} (A : Arith α) (rho : Radix) (mu : Nat) (a : List (Cpx α)) : List (Cpx α) :=
  match rho, a with
  | .r2, [a0, a1] => kernel2 A a0 a1
  | .r3, [a0, a1, a2] => kernel3 A (radix3Const A mu) a0 a1 a2
  | .r4, [a0, a1, a2, a3] => kernel4 A (radix4Const A mu) a0 a1 a2 a3
  | .r5, [a0, a1, a2, a3, a4] =>
    kernel5 A (radix5Consts A mu).1 (radix5Consts A mu).2.1 (radix5Consts A mu).2.2 a0 a1 a2 a3 a4
  | .r8, [a0, a1, a2, a3, a4, a5, a6, a7] =>
    kernel8 A (radix8Consts A mu).1 (radix8Consts A mu).2.1 (radix8Consts A mu).2.2 a0 a1 a2 a3 a4 a5 a6 a7
  | _, a => a

end Sys2Proof.Machine
end

