-- ==== Sys2Proof/Syntax.lean ====
section
/-! DEFINITION. The twelve commands of the block (30_encoding.md R96), as data. -/

namespace Sys2Proof

/-- The 2-bit field `DIR` (R92): 01 is Forward, 11 is Inverse; 00 and 10 decode and make the command raise
InvalidDirection. -/
inductive Dir where
  | d0
  | forward
  | d2
  | inverse
  deriving DecidableEq, Repr

/-- One constructor per row of spec/opcode_table.json. `axis` is the field `AXIS`, of which 0 is illegal (R93);
`split` and `rowMajor` are the one-bit fields of R94. -/
inductive Instr where
  | nop
  | factorize
  | createPlan1
  | createPlan2
  | createPlan3
  | setLayout (rowMajor : Bool)
  | getLayout
  | transform (dir : Dir) (split : Bool)
  | dispatch (axis : BitVec 2) (dir : Dir) (split : Bool)
  | run2 (axis : BitVec 2) (dir : Dir) (split : Bool)
  | run3 (axis : BitVec 2) (dir : Dir) (split : Bool)
  | run5 (axis : BitVec 2) (dir : Dir) (split : Bool)
  deriving DecidableEq, Repr

end Sys2Proof
end

