-- ==== Sys2Proof/WellFormed.lean ====
section
/-! DEFINITION. The terms of Instr that some command word stands for. -/

namespace Sys2Proof

/-- `AXIS` names axis 1, 2 or 3 (R93): "The value 0 in one of these four commands is an illegal encoding". -/
def axisOk (axis : BitVec 2) : Bool := axis != 0#2

/-- The instruction has an encoding. -/
def Instr.wf : Instr → Bool
  | .nop => true
  | .factorize => true
  | .createPlan1 => true
  | .createPlan2 => true
  | .createPlan3 => true
  | .setLayout _ => true
  | .getLayout => true
  | .transform _ _ => true
  | .dispatch axis _ _ => axisOk axis
  | .run2 axis _ _ => axisOk axis
  | .run3 axis _ _ => axisOk axis
  | .run5 axis _ _ => axisOk axis

end Sys2Proof
end

