-- ==== Sys2Proof/Decode.lean ====
section
/-! DEFINITION. Format C (30_encoding.md R91): the decoder, total on 32-bit words, and the encoder. -/

namespace Sys2Proof

/-- Why a word is an illegal command: the clauses of R97. -/
inductive Illegal where
  /-- (a) `OPC` in 0x0C .. 0xFF -/
  | reservedOpcode
  /-- (b) a bit of [31:14] is 1 -/
  | reservedBits
  /-- (c) a field the command does not use is not 0 -/
  | unusedField
  /-- (d) `AXIS` = 0 in a direct command -/
  | axisZero
  deriving DecidableEq, Repr

/-! ### The fields of R91 -/

def fieldOpc (w : Reg) : BitVec 8 := w.extractLsb' 0 8
def fieldAxis (w : Reg) : BitVec 2 := w.extractLsb' 8 2
def fieldDir (w : Reg) : BitVec 2 := w.extractLsb' 10 2
def fieldSplit (w : Reg) : Bool := w.getLsbD 12
def fieldRowMajor (w : Reg) : Bool := w.getLsbD 13
def fieldZero (w : Reg) : BitVec 18 := w.extractLsb' 14 18

/-- R92. -/
def dirOfBits (b : BitVec 2) : Dir :=
  match b.toNat with
  | 0 => .d0
  | 1 => .forward
  | 2 => .d2
  | _ => .inverse

def bitsOfDir : Dir → BitVec 2
  | .d0 => 0b00#2
  | .forward => 0b01#2
  | .d2 => 0b10#2
  | .inverse => 0b11#2

/-- A command that uses none of the fields `AXIS`, `DIR`, `SPLIT`, `ROWMAJOR` (R96, R97 c). -/
def decodePlain (w : Reg) (i : Instr) : Except Illegal Instr :=
  if fieldAxis w = 0#2 ∧ fieldDir w = 0#2 ∧ fieldSplit w = false ∧ fieldRowMajor w = false then .ok i
  else .error .unusedField

/-- `SETLAYOUT` uses `ROWMAJOR` only. -/
def decodeSetLayout (w : Reg) : Except Illegal Instr :=
  if fieldAxis w = 0#2 ∧ fieldDir w = 0#2 ∧ fieldSplit w = false then .ok (.setLayout (fieldRowMajor w))
  else .error .unusedField

/-- `TRANSFORM` uses `DIR` and `SPLIT`. -/
def decodeTransform (w : Reg) : Except Illegal Instr :=
  if fieldAxis w = 0#2 ∧ fieldRowMajor w = false then .ok (.transform (dirOfBits (fieldDir w)) (fieldSplit w))
  else .error .unusedField

/-- The four direct commands use `AXIS`, `DIR` and `SPLIT`; `AXIS` = 0 is illegal (R97 d). -/
def decodeDirect (w : Reg) (make : BitVec 2 → Dir → Bool → Instr) : Except Illegal Instr :=
  if fieldRowMajor w = true then .error .unusedField
  else if fieldAxis w = 0#2 then .error .axisZero
  else .ok (make (fieldAxis w) (dirOfBits (fieldDir w)) (fieldSplit w))

/-- The decoder of R96, R97 and R99: "every 32-bit word is exactly one of the twelve commands or illegal, and the
verdict depends on the word alone". -/
def decodeWord (w : Reg) : Except Illegal Instr :=
  if fieldZero w ≠ 0#18 then .error .reservedBits
  else
    match (fieldOpc w).toNat with
    | 0x00 => decodePlain w .nop
    | 0x01 => decodePlain w .factorize
    | 0x02 => decodePlain w .createPlan1
    | 0x03 => decodePlain w .createPlan2
    | 0x04 => decodePlain w .createPlan3
    | 0x05 => decodeSetLayout w
    | 0x06 => decodePlain w .getLayout
    | 0x07 => decodeTransform w
    | 0x08 => decodeDirect w .dispatch
    | 0x09 => decodeDirect w .run2
    | 0x0A => decodeDirect w .run3
    | 0x0B => decodeDirect w .run5
    | _ => .error .reservedOpcode

/-- A word of format C from its fields, most significant first (R91). -/
def formatC (rowMajor split : Bool) (dir axis : BitVec 2) (opc : BitVec 8) : Reg :=
  0#18 ++ BitVec.ofBool rowMajor ++ BitVec.ofBool split ++ dir ++ axis ++ opc

/-- The command word of an instruction (R96); the fields it does not use are 0. -/
def encode : Instr → Reg
  | .nop => formatC false false 0#2 0#2 0x00#8
  | .factorize => formatC false false 0#2 0#2 0x01#8
  | .createPlan1 => formatC false false 0#2 0#2 0x02#8
  | .createPlan2 => formatC false false 0#2 0#2 0x03#8
  | .createPlan3 => formatC false false 0#2 0#2 0x04#8
  | .setLayout rowMajor => formatC rowMajor false 0#2 0#2 0x05#8
  | .getLayout => formatC false false 0#2 0#2 0x06#8
  | .transform dir split => formatC false split (bitsOfDir dir) 0#2 0x07#8
  | .dispatch axis dir split => formatC false split (bitsOfDir dir) axis 0x08#8
  | .run2 axis dir split => formatC false split (bitsOfDir dir) axis 0x09#8
  | .run3 axis dir split => formatC false split (bitsOfDir dir) axis 0x0A#8
  | .run5 axis dir split => formatC false split (bitsOfDir dir) axis 0x0B#8

/-- The command word a table row's bits stand for: bits from `nbits` up are 0, and a command is one 32-bit word (R90). -/
def tableWord (nbits w : Nat) : Reg := BitVec.ofNat 32 (w % 2 ^ nbits)

/-- The instruction the decoder reads from the table's bits. -/
def decodeTableWord (nbits w : Nat) : Option Instr :=
  match decodeWord (tableWord nbits w) with
  | .ok i => some i
  | .error _ => none

end Sys2Proof
end

