-- ==== Sys2Proof/Machine/State.lean ====
section
/-! DEFINITION. The state of the block (10_state.md), as plain data, and its value after reset (R43). -/

namespace Sys2Proof.Machine

/-- A memory as (byte offset, byte) pairs with strictly rising offsets (`Memory.wf`). Word w of `TW` or `SIG` lies at
byte offsets w·`FLEN`/8 and up, least significant byte first (R65). An unlisted byte has no value (U1), so no entry can
equal what an unlisted offset reads as. logs 4 and 6 -/
abbrev Memory := List Host.Cell

/-- The result codes of R250; the numbers are in `ErrCode.code`. Codes 7 to 15 are never produced (U13). -/
inductive ErrCode where
  | ok
  | invalidLength
  | invalidDirection
  | uninitializedPlan
  | invalidLeadingDimension
  | capacity
  | illegalCommand
  deriving DecidableEq, Repr

/-- The fields of `STATUS` (R24); every other bit of the register reads 0. -/
structure Status where
  busy : Bool
  done : Bool
  err : ErrCode
  deriving DecidableEq, Repr

/-- The operand registers x[0..7] under their aliases (R20). -/
structure Regs where
  arg0 : Reg
  arg1 : Reg
  arg2 : Reg
  arg3 : Reg
  arg4 : Reg
  res0 : Reg
  res1 : Reg
  res2 : Reg
  deriving DecidableEq, Repr

/-- The plan registers of one axis: `PLAN_Na` (R31), the fields P, Q, R of `PLAN_PQRa` (R32) and `PLAN_TWBASEa` (R33). -/
structure AxisPlan where
  n : Reg
  p : BitVec 5
  q : BitVec 5
  r : BitVec 5
  twBase : Reg
  deriving DecidableEq, Repr

/-- The registers of R30 to R33. `naxes` is bits [1:0] of `PLAN_NAXES`. -/
structure Plan where
  naxes : BitVec 2
  axis1 : AxisPlan
  axis2 : AxisPlan
  axis3 : AxisPlan
  deriving DecidableEq, Repr

/-- One access of the host (R61), or a reset (R280). Offsets are byte offsets in `CTRL`, indices count words (R60). -/
inductive HostAccess where
  | writeCtrl (offset : Nat) (value : Reg)
  | readCtrl (offset : Nat)
  | writeSig (index : Nat) (value : Word)
  | readSig (index : Nat)
  | writeTw (index : Nat) (value : Word)
  | readTw (index : Nat)
  | reset
  deriving DecidableEq, Repr

/-- The state of the block between two host accesses. -/
structure State where
  /-- the constants behind `CONFIG`, `LVR`, `TW_DEPTH` and `SIG_DEPTH` (R38), and `TWGEN`. log 10 -/
  par : Config.Params
  /-- `CMD` (R23) -/
  cmd : Reg
  /-- `STATUS` (R24) -/
  status : Status
  /-- x[0..7] (R20) -/
  regs : Regs
  /-- `PLAN_NAXES`, `PLAN_N1..3`, `PLAN_PQR1..3`, `PLAN_TWBASE1..3` (R30 to R33) -/
  plan : Plan
  /-- `LAYOUT.ROWMAJOR` (R34) -/
  rowMajor : Bool
  /-- `LEADDIM` (R35) -/
  leadDim : Reg
  /-- the twiddle memory (R40) -/
  tw : Memory
  /-- the signal memory (R41) -/
  sig : Memory
  /-- the model's own: the index of the next free values. log 5 -/
  free : Nat
  /-- the model's own: the host accesses not yet made, the next one first. log 1 -/
  host : List HostAccess
  /-- the model's own: the data of the last host read. log 2 -/
  rdata : Word
  deriving DecidableEq, Repr

/-- Nothing stops the machine with a fault: every command completes (R289), and a failure is a completion with a code in
`STATUS.ERR` (R253). No constructor, so nothing can raise one. log 9 -/
inductive Fault where
  deriving DecidableEq, Repr

/-- Why a step has no meaning. -/
inductive Refusal where
  /-- The instruction has no meaning in the model. Raised by an arm of exec only; no arm does. Safe. -/
  | notModelled (mnemonic : String)
  /-- A host access to `CTRL` that is not aligned or lies at or above offset 0x100: "outside the spec; the platform bus
  decides" (U7). Raised by a step on such an access, never by a command. Safe. log 8 -/
  | ctrlAccessOutsideSpec (offset : Nat)
  deriving DecidableEq, Repr

def Status.reset : Status where
  busy := false
  done := false
  err := .ok

def Regs.reset : Regs where
  arg0 := 0#32
  arg1 := 0#32
  arg2 := 0#32
  arg3 := 0#32
  arg4 := 0#32
  res0 := 0#32
  res1 := 0#32
  res2 := 0#32

/-- The registers of an axis that is not configured (R31 to R33: "holds 0"). -/
def AxisPlan.none : AxisPlan where
  n := 0#32
  p := 0#5
  q := 0#5
  r := 0#5
  twBase := 0#32

def Plan.reset : Plan where
  naxes := 0#2
  axis1 := AxisPlan.none
  axis2 := AxisPlan.none
  axis3 := AxisPlan.none

/-- The state of R43 for an instance with the parameters `par`. `TW` and `SIG` are unspecified: no byte is listed. -/
def State.resetWith (par : Config.Params) : State where
  par := par
  cmd := 0#32
  status := Status.reset
  regs := Regs.reset
  plan := Plan.reset
  rowMajor := false
  leadDim := 0#32
  tw := []
  sig := []
  free := 0
  host := []
  rdata := 0#64

/-- The machine right after reset (R43, R280), with the default parameters of R7. -/
def State.reset : State := State.resetWith Config.defaults

end Sys2Proof.Machine
end

