-- ==== Sys2Proof/Machine/Flags.lean ====
section
/-! DEFINITION. The fields of `STATUS`, the only flags of the block (10_state.md R24 to R26). -/

namespace Sys2Proof.Machine

/-- The numbers of R250. -/
def ErrCode.code : ErrCode → BitVec 4
  | .ok => 0#4
  | .invalidLength => 1#4
  | .invalidDirection => 2#4
  | .uninitializedPlan => 3#4
  | .invalidLeadingDimension => 4#4
  | .capacity => 5#4
  | .illegalCommand => 6#4

/-- `STATUS` as the host reads it (R24): BUSY [0], DONE [1], ERR [7:4], every other bit 0. -/
def statusWord (st : Status) : Reg :=
  0#24 ++ st.err.code ++ 0#2 ++ BitVec.ofBool st.done ++ BitVec.ofBool st.busy

/-- From the issue of a command to its completion: `BUSY` = 1, `DONE` = 0 (R24), `ERR` = 0 (R286). -/
def statusIssued : Status where
  busy := true
  done := false
  err := .ok

/-- At a completion with result code `e`: `DONE` = 1, `BUSY` = 0 (R251, R253); `ERR` is overwritten (R25). -/
def statusCompleted (e : ErrCode) : Status where
  busy := false
  done := true
  err := e

end Sys2Proof.Machine
end

