-- ==== Sys2Proof/Machine/Ops.lean ====
section
/-! DEFINITION. The named operations over memories and registers, and the two completions of a command. -/

namespace Sys2Proof.Machine

open Config (Prec Space)

/-! ### Loops -/

/-- `for i in 0 .. n-1: f i`, in rising order of i. -/
def loop {σ : Type} : (n : Nat) → (f : Nat → σ → σ) → σ → σ
  | 0, _, st => st
  | n + 1, f, st => f n (loop n f st)

/-! ### Bytes of a memory -/

/-- The byte at a byte offset; none where nothing has written it (U1). -/
def memRead : Memory → Nat → Option Byte
  | [], _ => none
  | (a, b) :: rest, x => if x = a then some b else if x < a then none else memRead rest x

/-- Store a byte; the offsets stay strictly rising. -/
def memWrite : Memory → Nat → Byte → Memory
  | [], x, v => [(x, v)]
  | (a, b) :: rest, x, v =>
    if x = a then (a, v) :: rest
    else if x < a then (x, v) :: (a, b) :: rest
    else (a, b) :: memWrite rest x v

/-- Every offset is above `low`, and the offsets strictly rise. -/
def risingFrom : (low : Nat) → Memory → Bool
  | _, [] => true
  | low, (a, _) :: rest => decide (low ≤ a) && risingFrom (a + 1) rest

/-- The canonical form: strictly rising offsets. (No entry can equal what an unlisted offset reads as: that is none.) -/
def Memory.wf (m : Memory) : Bool := risingFrom 0 m

/-- `count` bytes from an offset, least significant first, as a number; none where one of them has no value. -/
def readBytes (m : Memory) : (count : Nat) → (offset : Nat) → Option Nat
  | 0, _ => some 0
  | count + 1, offset =>
    match memRead m offset, readBytes m count (offset + 1) with
    | some b, some rest => some (b.toNat + 256 * rest)
    | _, _ => none

/-- Store the low `count` bytes of a number, least significant first (R65). -/
def writeBytes : (count : Nat) → Memory → (offset value : Nat) → Memory
  | 0, m, _, _ => m
  | count + 1, m, offset, value =>
    writeBytes count (memWrite m offset (BitVec.ofNat 8 value)) (offset + 1) (value / 256)

/-! ### Words of `TW` and `SIG` (R64, R65) -/

/-- The word at a word index; none where nothing has written it. -/
def wordAt (f : Prec) (m : Memory) (w : Nat) : Option Word :=
  match readBytes m (wordBytes f) (w * wordBytes f) with
  | some v => some (BitVec.ofNat 64 v)
  | none => none

/-- `MemRead(space, w, 1)` of a command: the word, or the free value it computes on where nothing has written the word
(R287; `spoil` says what it leaves then). log 4 -/
def loadWord (f : Prec) (free : Nat) (space : Space) (m : Memory) (w : Nat) : Word :=
  match wordAt f m w with
  | some v => v
  | none => truncWord f (Config.unwrittenWord free space w)

/-- `MemWrite(space, w, 1, v)`. -/
def storeWord (f : Prec) (m : Memory) (w : Nat) (v : Word) : Memory :=
  writeBytes (wordBytes f) m (w * wordBytes f) v.toNat

/-! ### Registers -/

/-- x[i] (R20): x[0..4] are `ARG0..4`, x[5..7] are `RES0..2`. -/
def xreg (s : State) (i : Fin 8) : Reg :=
  match i with
  | 0 => s.regs.arg0
  | 1 => s.regs.arg1
  | 2 => s.regs.arg2
  | 3 => s.regs.arg3
  | 4 => s.regs.arg4
  | 5 => s.regs.res0
  | 6 => s.regs.res1
  | 7 => s.regs.res2

/-- The three result registers, x[5..7]. -/
def setResults (g : Regs) (r0 r1 r2 : Reg) : Regs := { g with res0 := r0, res1 := r1, res2 := r2 }

/-- The plan registers of axis 1, 2 or 3. -/
def planAxis (pl : Plan) (axis : BitVec 2) : AxisPlan :=
  match axis.toNat with
  | 1 => pl.axis1
  | 2 => pl.axis2
  | _ => pl.axis3

/-! ### Issue and completion of a command -/

/-- A write of `CMD` while `BUSY` = 0 "stores the word and issues it as a command" (R23). -/
def issue (w : Reg) (s : State) : State := { s with cmd := w, status := statusIssued }

/-- Successful completion (R251): `RES0..2` receive the results, `ERR` = 0, `DONE` = 1, `BUSY` = 0. -/
def succeed (r0 r1 r2 : Reg) (s : State) : State :=
  { s with regs := setResults s.regs r0 r1 r2, status := statusCompleted .ok }

/-- Failure completion, `raise E` (R253), the block's equivalent of exception entry: `RES0..2` = 0, `ERR` = the code of
E, `DONE` = 1, `BUSY` = 0, and nothing else changes. There is nothing to return from: the block is idle (R258). -/
def raise (e : ErrCode) (s : State) : State :=
  { s with regs := setResults s.regs 0#32 0#32 0#32, status := statusCompleted e }

/-! ### Running on the signal memory -/

/-- No number occurs twice. -/
def allDistinct : List Nat → Bool
  | [] => true
  | a :: rest => !rest.contains a && allDistinct rest

/-- A free value in each of the words; every other word as it was. -/
def scramble (f : Prec) (value : Nat → Word) : List Nat → Memory → Memory
  | [], m => m
  | w :: rest, m => scramble f value rest (storeWord f m w (truncWord f (value w)))

/-- Every word has a value. -/
def written (f : Prec) (m : Memory) (words : List Nat) : Bool := words.all fun w => (wordAt f m w).isSome

/-- What a command that found `before` leaves in the words that depend on one another (`groups`): where a group held a word
that nothing had written, every word of it is unspecified, a free value each, and "other units are unaffected" (R287).
log 4 -/
def spoil (f : Prec) (free : Nat) (before : Memory) : List (List Nat) → Memory → Memory
  | [], m => m
  | ws :: rest, m =>
    spoil f free before rest (if written f before ws then m else scramble f (Config.unwrittenWord free .sig) ws m)

/-- Run `f` on `SIG`. `active` says that some engine runs, so that the footprint `words` is accessed at all (R164, R165);
if then two of its words are the same, the command leaves free values in it and nothing else (R283, U2, log 7). `groups` are
the parts of the footprint that depend on one another (R287, log 4). Where the command left a free value the counter moves
on, so that the next command leaves another one, in the same word too (log 5). -/
def onSignal (active : Bool) (words : List Nat) (groups : List (List Nat)) (f : Memory → Memory) (s : State) : State :=
  if active = false then { s with sig := f s.sig }
  else if allDistinct words = false then
    { s with sig := scramble s.par.prec (Config.aliasedWord s.free) words s.sig, free := s.free + 1 }
  else
    { s with
      sig := spoil s.par.prec s.free s.sig groups (f s.sig)
      free := if groups.all (written s.par.prec s.sig) then s.free else s.free + 1 }

end Sys2Proof.Machine
end

