-- ==== Sys2Proof/Machine/Engine.lean ====
section
/-! DEFINITION. The three butterfly engines (42_engine_common.md, and the pass lists R181, R201, R211) and the dispatcher
call (R221). The values of the hidden sequencer state of R28 (engine, lot, `la`, pass type, radix, `js`) are the arguments
and loop variables here. log 3 -/

namespace Sys2Proof.Machine

open Config (Prec Sign Params)

/-! ### Pass lists -/

/-- The prime b of an engine (R150). -/
inductive Prime where
  | two
  | three
  | five
  deriving DecidableEq, Repr

def primeVal : Prime → Nat
  | .two => 2
  | .three => 3
  | .five => 5

/-- One pass (R154): its radix, and whether it is of type II. -/
structure Pass where
  radix : Radix
  typeII : Bool
  deriving DecidableEq, Repr

/-- `count` passes of one kind. -/
def passes (count : Nat) (radix : Radix) (typeII : Bool) : List Pass :=
  List.replicate count { radix := radix, typeII := typeII }

/-- The central pass of the radix-2 engine (R181): none for even p, radix 2 for p mod 4 = 1, radix 8 for p mod 4 = 3. -/
def centralPass (p : Nat) : List Pass :=
  if p % 2 = 0 then [] else if p % 4 = 1 then passes 1 .r2 false else passes 1 .r8 false

/-- The number m of radix-4 passes (R181). -/
def radix4Count (p : Nat) : Nat :=
  if p % 2 = 0 then p / 2 else if p % 4 = 1 then (p - 1) / 2 else (p - 3) / 2

/-- `PassList(2, p)` (R181). -/
def passList2 (p : Nat) : List Pass :=
  let m := radix4Count p
  let mh := (m + 1) / 2
  passes mh .r4 false ++ centralPass p ++ passes (m - mh) .r4 true

/-- `PassList(3, q)` (R201) and `PassList(5, r)` (R211): ⌈e/2⌉ passes of type I, then ⌊e/2⌋ of type II. -/
def passListOdd (radix : Radix) (e : Nat) : List Pass :=
  let mh := (e + 1) / 2
  passes mh radix false ++ passes (e - mh) radix true

def passList (b : Prime) (mm : Nat) : List Pass :=
  match b with
  | .two => passList2 mm
  | .three => passListOdd .r3 mm
  | .five => passListOdd .r5 mm

/-! ### Passes over a unit

A unit is any store of `ni` complex elements: the block's is a coset of the signal memory (`unitStore`). -/

/-- Access to the elements z[u] of a unit. -/
structure UnitStore (σ α : Type) where
  get : σ → Nat → Cpx α
  set : σ → Nat → Cpx α → σ

/-- What the passes of one unit share: the arithmetic, the store, the pairs (cos, sin) of the engine's sub-table by pair
index (R147), the sign s, and `ni` and `inq` (R151). -/
structure UnitEnv (σ α : Type) where
  A : Arith α
  store : UnitStore σ α
  twiddle : Nat → α × α
  sign : Sign
  ni : Nat
  inq : Nat

section

variable {σ α : Type} (E : UnitEnv σ α)

/-- `twid(k, d, y)` (R157): no multiplication when k = 0 or d = 0. -/
def twid (la k d : Nat) (y : Cpx α) : Cpx α :=
  if k = 0 ∨ d = 0 then y
  else
    let pair := E.twiddle (la * k * d)
    let si := match E.sign with
      | .plus => pair.2
      | .minus => E.A.neg pair.2
    cmul E.A pair.1 si y

/-- z[place d] <- twid(k, d, y[d]) for the values of a list, d counting from the given number. -/
def storeTwiddled (la k : Nat) (place : Nat → Nat) : (d : Nat) → List (Cpx α) → σ → σ
  | _, [], st => st
  | d, y :: ys, st => storeTwiddled la k place (d + 1) ys (E.store.set st (place d) (twid E la k d y))

/-- The kernel of the pass on the elements z[place c], c = 0 .. ρ-1. -/
def butterfly (rho : Radix) (place : Nat → Nat) (st : σ) : List (Cpx α) :=
  kernel E.A rho (residueMu E.inq (radixVal rho) E.sign)
    ((List.range (radixVal rho)).map fun c => E.store.get st (place c))

/-- `PassI(ρ, la)` (R155). -/
def passI (rho : Radix) (la : Nat) (st : σ) : σ :=
  let js := E.ni / (radixVal rho * la)
  loop la (fun blk st =>
    loop js (fun k st =>
      let place := fun c => blk * radixVal rho * js + k + c * js
      storeTwiddled E la k place 0 (butterfly E rho place st) st) st) st

/-- The rows y[e] of one butterfly group, stored transposed: row e, output d at base + e·js + d·la (R156). -/
def storeSquare (la k js base : Nat) : (e : Nat) → List (List (Cpx α)) → σ → σ
  | _, [], st => st
  | e, row :: rows, st =>
    storeSquare la k js base (e + 1) rows
      (storeTwiddled E la k (fun d => base + e * js + d * la) 0 row st)

/-- `PassII(ρ, la)` (R156). All ρ·ρ reads of a group come before its writes. -/
def passII (rho : Radix) (la : Nat) (st : σ) : σ :=
  let js := E.ni / (radixVal rho * la)
  let nb := la / (radixVal rho * js)
  loop js (fun k st =>
    loop nb (fun bl st =>
      loop js (fun g st =>
        let base := k + bl * radixVal rho * js + g * radixVal rho * la
        let rows := (List.range (radixVal rho)).map fun e =>
          butterfly E rho (fun c => base + c * js + e * la) st
        storeSquare E la k js base 0 rows st) st) st) st

def runPass (p : Pass) (la : Nat) (st : σ) : σ :=
  if p.typeII then passII E p.radix la st else passI E p.radix la st

/-- The passes of a unit in list order; `la` is multiplied by the radix after each (R154). -/
def runPasses : List Pass → (la : Nat) → σ → σ
  | [], _, st => st
  | p :: rest, la, st => runPasses rest (la * radixVal p.radix) (runPass E p la st)

end

/-! ### Engine runs on the signal memory -/

/-- The descriptor of one engine run (R150), less the prime, the exponent and the sub-table, which the dispatcher adds. -/
structure EngineDesc where
  A : Nat
  B : Nat
  incw : Nat
  jumpw : Nat
  n : Nat
  lot : Nat
  sign : Sign
  deriving DecidableEq, Repr

/-- The ring index t(ν, u) (R152). -/
def ringIndex (n ni inq nu u : Nat) : Nat := (nu * ni + u * inq) % n

/-- The elements of coset ν of lot l (R152). -/
def unitStore (f : Prec) (free : Nat) (d : EngineDesc) (ni inq l nu : Nat) : UnitStore Memory Word where
  get sig u :=
    let off := ringIndex d.n ni inq nu u * d.incw + l * d.jumpw
    (loadWord f free .sig sig (d.A + off), loadWord f free .sig sig (d.B + off))
  set sig u v :=
    let off := ringIndex d.n ni inq nu u * d.incw + l * d.jumpw
    storeWord f (storeWord f sig (d.A + off) v.1) (d.B + off) v.2

/-- Pair `idx` of the sub-table that starts at entry T (R147). -/
def twiddlePair (f : Prec) (free : Nat) (tw : Memory) (T idx : Nat) : Word × Word :=
  (loadWord f free .tw tw (T + 2 * idx), loadWord f free .tw tw (T + 2 * idx + 1))

/-- The environment of one unit of an engine run. -/
def unitEnv (f : Prec) (free : Nat) (tw : Memory) (d : EngineDesc) (T ni inq l nu : Nat) : UnitEnv Memory Word where
  A := fpArith f
  store := unitStore f free d ni inq l nu
  twiddle := twiddlePair f free tw T
  sign := d.sign
  ni := ni
  inq := inq

/-- `EngineRun` (R158) of the engine of `b` with exponent `mm` and sub-table start T: the lots in turn, the cosets of each
in turn. With exponent 0 it does nothing (R164). -/
def engineRun (f : Prec) (free : Nat) (tw : Memory) (d : EngineDesc) (b : Prime) (mm T : Nat) (sig : Memory) : Memory :=
  if mm = 0 then sig
  else
    let ni := primeVal b ^ mm
    let inq := d.n / ni
    loop d.lot (fun l sig =>
      loop inq (fun nu sig => runPasses (unitEnv f free tw d T ni inq l nu) (passList b mm) 1 sig) sig) sig

/-! ### What depends on what (R151: "a unit works on `ni` complex elements and on no others") -/

/-- The two words of the element at index t of lot l. -/
def descWords (d : EngineDesc) (l t : Nat) : List Nat :=
  [d.A + (t * d.incw + l * d.jumpw), d.B + (t * d.incw + l * d.jumpw)]

/-- The words of each unit of an engine run. -/
def unitGroups (b : Prime) (mm : Nat) (d : EngineDesc) : List (List Nat) :=
  let ni := primeVal b ^ mm
  let inq := d.n / ni
  (List.range d.lot).flatMap fun l => (List.range inq).map fun nu =>
    (List.range ni).flatMap fun u => descWords d l (ringIndex d.n ni inq nu u)

/-- The words of each lot of a dispatcher call: the units of its engines, one engine after another, join every two elements
of a lot. -/
def lotGroups (d : EngineDesc) : List (List Nat) :=
  (List.range d.lot).map fun l => (List.range d.n).flatMap (descWords d l)

/-! ### The dispatcher call -/

/-- T2(axis) (R222). -/
def tableStart2 (ax : AxisPlan) : Nat := ax.twBase.toNat

/-- T3(axis) (R222). -/
def tableStart3 (ax : AxisPlan) : Nat := ax.twBase.toNat + 2 * 2 ^ ax.p.toNat

/-- T5(axis) (R222). -/
def tableStart5 (ax : AxisPlan) : Nat := ax.twBase.toNat + 2 * 2 ^ ax.p.toNat + 2 * 3 ^ ax.q.toNat

/-- The radix-2/4/8 engine over one axis. -/
def engine2 (f : Prec) (free : Nat) (tw : Memory) (ax : AxisPlan) (d : EngineDesc) (sig : Memory) : Memory :=
  engineRun f free tw d .two ax.p.toNat (tableStart2 ax) sig

/-- The radix-3 engine over one axis. -/
def engine3 (f : Prec) (free : Nat) (tw : Memory) (ax : AxisPlan) (d : EngineDesc) (sig : Memory) : Memory :=
  engineRun f free tw d .three ax.q.toNat (tableStart3 ax) sig

/-- The radix-5 engine over one axis. -/
def engine5 (f : Prec) (free : Nat) (tw : Memory) (ax : AxisPlan) (d : EngineDesc) (sig : Memory) : Memory :=
  engineRun f free tw d .five ax.r.toNat (tableStart5 ax) sig

/-- `DispatchCall` (R221): the engines 2, 3 and 5 whose exponent is not 0, each over the whole batch. (An engine with
exponent 0 does nothing, R164, so calling it is the same as not calling it.) -/
def dispatchCall (f : Prec) (free : Nat) (tw : Memory) (ax : AxisPlan) (d : EngineDesc) (sig : Memory) : Memory :=
  engine5 f free tw ax d (engine3 f free tw ax d (engine2 f free tw ax d sig))

/-- Some engine runs on this axis. -/
def axisActive (ax : AxisPlan) : Bool := ax.p != 0#5 || ax.q != 0#5 || ax.r != 0#5

end Sys2Proof.Machine
end

