-- ==== Sys2Proof/Machine/Operands.lean ====
section
/-! DEFINITION. The operand forms (R21, R22, R66, R92, R95) and the checks of the execution commands (R226). -/

namespace Sys2Proof.Machine

open Config (Sign)

/-! ### Reading an operand register whole (R21, R95) -/

/-- `s32(x[i])`. -/
def argSigned (s : State) (i : Fin 8) : Int := (xreg s i).toInt

/-- `zext_32(x[i])`. -/
def argUnsigned (s : State) (i : Fin 8) : Nat := (xreg s i).toNat

/-! ### The signal's shape (R66) -/

/-- The bases A and B of the real and the imaginary part and the scale sc of an element index. -/
structure Shape where
  A : Nat
  B : Nat
  sc : Nat
  deriving DecidableEq, Repr

/-- R66: interleaved (`SPLIT` = 0) takes A from `ARG0` with B = A + 1 and sc = 2; split takes B from `ARG1` with sc = 1. -/
def signalShape (split : Bool) (s : State) : Shape :=
  if split then { A := argUnsigned s 0, B := argUnsigned s 1, sc := 1 }
  else { A := argUnsigned s 0, B := argUnsigned s 0 + 1, sc := 2 }

/-- `reAddr(e)`. -/
def reAddr (sh : Shape) (e : Nat) : Nat := sh.A + sh.sc * e

/-- `imAddr(e)`. -/
def imAddr (sh : Shape) (e : Nat) : Nat := sh.B + sh.sc * e

/-- The words of the elements with the given indices. -/
def elementWords (sh : Shape) (es : List Nat) : List Nat := es.flatMap fun e => [reAddr sh e, imAddr sh e]

/-- `InRange(A, B, sc, Emax)` of R226, on exact integers. -/
def inRange (sigDepth : Nat) (sh : Shape) (emax : Nat) : Bool :=
  if sh.sc = 2 then decide (sh.A + 2 * emax + 1 < sigDepth)
  else decide (sh.A + emax < sigDepth) && decide (sh.B + emax < sigDepth)

/-! ### Direction (R92, R225) -/

def flipSign : Sign → Sign
  | .minus => .plus
  | .plus => .minus

/-- Forward takes s = `FWD_SIGN`, Inverse -`FWD_SIGN`; the other two values of `DIR` have no direction. -/
def directionSign (fwd : Sign) (dir : Dir) : Option Sign :=
  match dir with
  | .forward => some fwd
  | .inverse => some (flipSign fwd)
  | .d0 => none
  | .d2 => none

/-! ### The prologue of `DISPATCH`, `RUN2`, `RUN3` and `RUN5` (R226) -/

/-- What `ExecPrologue` returns. -/
structure Request where
  axis : AxisPlan
  sign : Sign
  shape : Shape
  inc : Nat
  jump : Nat
  lot : Nat
  deriving DecidableEq, Repr

/-- How `ExecPrologue` ends. -/
inductive Prologue where
  /-- a check failed -/
  | fails (e : ErrCode)
  /-- lot = 0: "complete with success; nothing else happens" -/
  | nothing
  | run (d : Request)
  deriving DecidableEq, Repr

/-- The largest element index a direct command touches: (n - 1)·inc + (lot - 1)·jump (R226). -/
def directEmax (n inc jump lot : Nat) : Nat := (n - 1) * inc + (lot - 1) * jump

/-- `ExecPrologue()`; the order of the checks is the priority of R255. `AXIS` = 0 does not decode (R93); a term that holds
it fails as the illegal command it is. log 16 -/
def execPrologue (axis : BitVec 2) (dir : Dir) (split : Bool) (s : State) : Prologue :=
  if axis = 0#2 then .fails .illegalCommand
  else if s.plan.naxes = 0#2 ∨ s.plan.naxes < axis then .fails .uninitializedPlan
  else
    match directionSign s.par.fwdSign dir with
    | none => .fails .invalidDirection
    | some sign =>
      let shape := signalShape split s
      let inc := argUnsigned s 2
      let jump := argUnsigned s 3
      let lot := argUnsigned s 4
      if lot = 0 then .nothing
      else if inRange s.par.sigDepth.toNat shape (directEmax (planAxis s.plan axis).n.toNat inc jump lot) then
        .run { axis := planAxis s.plan axis, sign := sign, shape := shape, inc := inc, jump := jump, lot := lot }
      else .fails .capacity

/-- The element indices j·inc + l·jump of `lot` transforms of length n (R220). -/
def directElements (n inc jump lot : Nat) : List Nat :=
  (List.range lot).flatMap fun l => (List.range n).map fun j => j * inc + l * jump

/-- The footprint of a direct command (R165). -/
def requestWords (d : Request) : List Nat :=
  elementWords d.shape (directElements d.axis.n.toNat d.inc d.jump d.lot)

end Sys2Proof.Machine
end

