-- ==== Sys2Proof/Machine/DirectCommands.lean ====
section
/-! DEFINITION. `DISPATCH`, `RUN2`, `RUN3` and `RUN5` (R220, R180, R200, R210): the common prologue, then an engine run or a
dispatcher call on the batch the host describes. -/

namespace Sys2Proof.Machine

/-- The descriptor the direct commands build (R220). -/
def requestDesc (d : Request) : EngineDesc where
  A := d.shape.A
  B := d.shape.B
  incw := d.shape.sc * d.inc
  jumpw := d.shape.sc * d.jump
  n := d.axis.n.toNat
  lot := d.lot
  sign := d.sign

/-- The prologue, then `run` on the signal memory. `active` says, for the axis, whether `run` runs an engine at all, and
`groups` which words depend on one another in it. -/
def directCommand (active : AxisPlan → Bool) (groups : AxisPlan → EngineDesc → List (List Nat))
    (run : Config.Prec → (free : Nat) → (tw : Memory) → AxisPlan → EngineDesc → Memory → Memory)
    (axis : BitVec 2) (dir : Dir) (split : Bool) (s : State) : State :=
  match execPrologue axis dir split s with
  | .fails e => raise e s
  | .nothing => succeed 0#32 0#32 0#32 s
  | .run d =>
    succeed 0#32 0#32 0#32
      (onSignal (active d.axis) (requestWords d) (groups d.axis (requestDesc d))
        (run s.par.prec s.free s.tw d.axis (requestDesc d)) s)

/-- `DISPATCH` (R220): engines 2, 3, 5 in order. -/
def execDispatch (axis : BitVec 2) (dir : Dir) (split : Bool) (s : State) : Host.Outcome State Fault Refusal :=
  .next (directCommand axisActive (fun _ => lotGroups) dispatchCall axis dir split s)

/-- `RUN2` (R180): the radix-2/4/8 engine alone. -/
def execRun2 (axis : BitVec 2) (dir : Dir) (split : Bool) (s : State) : Host.Outcome State Fault Refusal :=
  .next (directCommand (fun ax => ax.p != 0#5) (fun ax => unitGroups .two ax.p.toNat) engine2 axis dir split s)

/-- `RUN3` (R200): the radix-3 engine alone. -/
def execRun3 (axis : BitVec 2) (dir : Dir) (split : Bool) (s : State) : Host.Outcome State Fault Refusal :=
  .next (directCommand (fun ax => ax.q != 0#5) (fun ax => unitGroups .three ax.q.toNat) engine3 axis dir split s)

/-- `RUN5` (R210): the radix-5 engine alone. -/
def execRun5 (axis : BitVec 2) (dir : Dir) (split : Bool) (s : State) : Host.Outcome State Fault Refusal :=
  .next (directCommand (fun ax => ax.r != 0#5) (fun ax => unitGroups .five ax.r.toNat) engine5 axis dir split s)

end Sys2Proof.Machine
end

