-- ==== Sys2Proof/Machine/Orchestrator.lean ====
section
/-! DEFINITION. `TRANSFORM` (47_orchestrator.md): element indices, the schedule of dispatcher calls, the command. -/

namespace Sys2Proof.Machine

/-- One dispatcher call of the schedule, in element units (R232). -/
structure Call where
  axis : BitVec 2
  off : Nat
  inc : Nat
  jump : Nat
  lot : Nat
  deriving DecidableEq, Repr

/-- The element index of the logical element (i1, i2, i3) (R231); the indices of axes that are not configured are 0. -/
def elementIndex (naxes : BitVec 2) (rowMajor : Bool) (n2 ld i1 i2 i3 : Nat) : Nat :=
  match naxes.toNat with
  | 1 => i1
  | 2 => if rowMajor then i1 * ld + i2 else i1 + i2 * ld
  | _ => if rowMajor then (i1 * n2 + i2) * ld + i3 else i1 + ld * (i2 + n2 * i3)

/-- The largest element index a `TRANSFORM` touches (R240). -/
def transformEmax (naxes : BitVec 2) (rowMajor : Bool) (n1 n2 n3 ld : Nat) : Nat :=
  match naxes.toNat with
  | 1 => n1 - 1
  | 2 => if rowMajor then (n1 - 1) * ld + (n2 - 1) else n1 - 1 + (n2 - 1) * ld
  | _ => if rowMajor then (n1 * n2 - 1) * ld + (n3 - 1) else n1 - 1 + ld * (n2 * n3 - 1)

/-- `Schedule()` (R232 to R235): the last axis first. -/
def schedule (naxes : BitVec 2) (rowMajor : Bool) (n1 n2 n3 ld : Nat) : List Call :=
  match naxes.toNat with
  | 1 => [{ axis := 1#2, off := 0, inc := 1, jump := 0, lot := 1 }]
  | 2 =>
    if rowMajor then
      [{ axis := 2#2, off := 0, inc := 1, jump := ld, lot := n1 }, { axis := 1#2, off := 0, inc := ld, jump := 1, lot := n2 }]
    else
      [{ axis := 2#2, off := 0, inc := ld, jump := 1, lot := n1 }, { axis := 1#2, off := 0, inc := 1, jump := ld, lot := n2 }]
  | _ =>
    if rowMajor then
      [{ axis := 3#2, off := 0, inc := 1, jump := ld, lot := n1 * n2 }]
        ++ (List.range n1).map (fun i1 => { axis := 2#2, off := i1 * n2 * ld, inc := ld, jump := 1, lot := n3 })
        ++ (List.range n2).map (fun i2 => { axis := 1#2, off := i2 * ld, inc := n2 * ld, jump := 1, lot := n3 })
    else
      (List.range n2).map (fun i2 => { axis := 3#2, off := i2 * ld, inc := ld * n2, jump := 1, lot := n1 })
        ++ (List.range n3).map (fun i3 => { axis := 2#2, off := i3 * ld * n2, inc := ld, jump := 1, lot := n1 })
        ++ [{ axis := 1#2, off := 0, inc := 1, jump := ld, lot := n2 * n3 }]

/-- The length of an axis for the schedule: 1 for an axis that is not configured (R236). -/
def axisLength (pl : Plan) (axis : BitVec 2) : Nat := if pl.naxes < axis then 1 else (planAxis pl axis).n.toNat

/-- The element indices of all logical elements (R231, R236). -/
def transformElements (naxes : BitVec 2) (rowMajor : Bool) (n1 n2 n3 ld : Nat) : List Nat :=
  (List.range n1).flatMap fun i1 => (List.range n2).flatMap fun i2 =>
    (List.range n3).map fun i3 => elementIndex naxes rowMajor n2 ld i1 i2 i3

/-- The descriptor of a call: `DispatchCall(axis, A + sc*off, B + sc*off, sc*inc, sc*jump, lot, s)` (R230). -/
def callDesc (pl : Plan) (shape : Shape) (sign : Config.Sign) (c : Call) : EngineDesc where
  A := shape.A + shape.sc * c.off
  B := shape.B + shape.sc * c.off
  incw := shape.sc * c.inc
  jumpw := shape.sc * c.jump
  n := (planAxis pl c.axis).n.toNat
  lot := c.lot
  sign := sign

/-- The calls of a schedule, one after another on the same buffer. -/
def runCalls (f : Config.Prec) (free : Nat) (tw : Memory) (pl : Plan) (shape : Shape) (sign : Config.Sign) :
    List Call → Memory → Memory
  | [], sig => sig
  | c :: rest, sig =>
    runCalls f free tw pl shape sign rest
      (dispatchCall f free tw (planAxis pl c.axis) (callDesc pl shape sign c) sig)

/-- Some engine runs in a `TRANSFORM`: some configured axis has a length other than 1. -/
def planActive (pl : Plan) : Bool :=
  match pl.naxes.toNat with
  | 1 => axisActive pl.axis1
  | 2 => axisActive pl.axis1 || axisActive pl.axis2
  | _ => axisActive pl.axis1 || axisActive pl.axis2 || axisActive pl.axis3

/-- The footprint of a `TRANSFORM` (R236). -/
def transformWords (s : State) (shape : Shape) : List Nat :=
  elementWords shape
    (transformElements s.plan.naxes s.rowMajor (axisLength s.plan 1#2) (axisLength s.plan 2#2) (axisLength s.plan 3#2)
      s.leadDim.toNat)

/-- The effect of a `TRANSFORM` that has passed its checks. Its passes, one axis after another, join every two of its
elements, so its footprint is one group. -/
def runTransform (shape : Shape) (sign : Config.Sign) (s : State) : State :=
  onSignal (planActive s.plan) (transformWords s shape) [transformWords s shape]
    (runCalls s.par.prec s.free s.tw s.plan shape sign
      (schedule s.plan.naxes s.rowMajor (axisLength s.plan 1#2) (axisLength s.plan 2#2) (axisLength s.plan 3#2)
        s.leadDim.toNat)) s

/-- `TRANSFORM` on a state (R230). -/
def transform (dir : Dir) (split : Bool) (s : State) : State :=
  if s.plan.naxes = 0#2 then raise .uninitializedPlan s
  else
    match directionSign s.par.fwdSign dir with
    | none => raise .invalidDirection s
    | some sign =>
      if inRange s.par.sigDepth.toNat (signalShape split s)
          (transformEmax s.plan.naxes s.rowMajor (axisLength s.plan 1#2) (axisLength s.plan 2#2) (axisLength s.plan 3#2)
            s.leadDim.toNat) then
        succeed 0#32 0#32 0#32 (runTransform (signalShape split s) sign s)
      else raise .capacity s

/-- `TRANSFORM` (R230). -/
def execTransform (dir : Dir) (split : Bool) (s : State) : Host.Outcome State Fault Refusal :=
  .next (transform dir split s)

end Sys2Proof.Machine
end

