-- ==== Sys2Proof/Machine/Twiddle.lean ====
section
/-! DEFINITION. `TWGEN`: the value of one twiddle entry (41_twiddle_builder.md R143, R144). -/

namespace Sys2Proof.Machine

open Config (Prec TwGen)

/-! ### Cosine and sine of 2π·K/ni in fixed point -/

/-- Fraction bits of the fixed-point values below. -/
def fixBits : Nat := 320

/-- ⌊2π · 2^320⌋. log 14 -/
def twoPiFix : Nat := 0x6487ed5110b4611a62633145c06e0e68948127044533e63a0105df531d89cd9128a5043cc71a026ef

/-- The sums of the Taylor series of cosine and sine from term j on: `term` is x^j/j! in fixed point, and the next one is
`term`·x/(j + 1). -/
def taylor (x : Nat) : (fuel : Nat) → (j term : Nat) → Int × Int
  | 0, _, _ => (0, 0)
  | fuel + 1, j, term =>
    let rest := taylor x fuel (j + 1) (term * x / ((j + 1) * 2 ^ fixBits))
    match j % 4 with
    | 0 => (rest.1 + term, rest.2)
    | 1 => (rest.1, rest.2 + term)
    | 2 => (rest.1 - term, rest.2)
    | _ => (rest.1, rest.2 - term)

/-- (cos, sin) of 2π·K/ni in fixed point. 128 terms leave a remainder below 2^-320 for every angle below 2π. -/
def cosSinFix (K ni : Nat) : Int × Int := taylor (twoPiFix * K / ni) 128 0 (2 ^ fixBits)

/-- A fixed-point value rounded once to the format. -/
def roundFix (f : Prec) (c : Int) : Word :=
  signed f (decide (c < 0)) (roundUnits f (c.natAbs * 2 ^ unitExp f) fixBits)

/-! ### The entries -/

/-- The cosines that R144 makes exact. -/
def exactCos (f : Prec) (K ni : Nat) : Option Word :=
  if K = 0 then some (fpOne f)
  else if 2 * K = ni then some (fpNeg f (fpOne f))
  else if 4 * K = ni ∨ 4 * K = 3 * ni then some 0#64
  else if 3 * K = ni ∨ 3 * K = 2 * ni then some (fpNeg f (fpHalf f))
  else none

/-- The sines that R144 makes exact. -/
def exactSin (f : Prec) (K ni : Nat) : Option Word :=
  if K = 0 ∨ 2 * K = ni then some 0#64
  else if 4 * K = ni then some (fpOne f)
  else if 4 * K = 3 * ni then some (fpNeg f (fpOne f))
  else none

/-- One unit in the last place of a fixed-point value, in units of the smallest subnormal. -/
def ulpUnits (f : Prec) (c : Int) : Nat := 2 ^ (bitLength (c.natAbs * 2 ^ unitExp f / 2 ^ fixBits) - (fracBits f + 1))

/-- "within 1 unit in the last place of the exact value" (R143), on exact integers. -/
def withinUlp (f : Prec) (c : Int) (v : Word) : Bool :=
  decide ((signedUnits f v * 2 ^ fixBits - c * 2 ^ unitExp f).natAbs ≤ ulpUnits f c * 2 ^ fixBits)

/-- What the generator makes of the entry whose exact value is the irrational cosine or sine `c`. An alternative one gives
the correctly rounded encoding or one next to it, where that one is within the bound of R143: these are all the encodings
within the bound. log 11 -/
def generated (g : TwGen) (f : Prec) (sine : Bool) (K ni : Nat) (c : Int) : Word :=
  match g with
  | .correctlyRounded => roundFix f c
  | .alternative k =>
    let v := BitVec.ofNat 64 ((roundFix f c).toNat + (Config.twStep k f sine K ni).val - 1)
    if withinUlp f c v then v else roundFix f c

/-- `TWGEN_cos(K, ni)` (R143). -/
def twgenCos (g : TwGen) (f : Prec) (K ni : Nat) : Word :=
  match exactCos f K ni with
  | some v => v
  | none => generated g f false K ni (cosSinFix K ni).1

/-- `TWGEN_sin(K, ni)` (R143). -/
def twgenSin (g : TwGen) (f : Prec) (K ni : Nat) : Word :=
  match exactSin f K ni with
  | some v => v
  | none => generated g f true K ni (cosSinFix K ni).2

end Sys2Proof.Machine
end

