-- ==== Sys2Proof/Machine/PlanCommands.lean ====
section
/-! DEFINITION. `NOP`, `FACTORIZE`, `CREATEPLAN1/2/3`, `SETLAYOUT`, `GETLAYOUT` (40_plan_commands.md), with the table
builder they run (41_twiddle_builder.md). -/

namespace Sys2Proof.Machine

open Config (Prec TwGen Params)

/-! ### Factorization (R122) -/

/-- `while n mod b = 0: n = n / b`, counting: the count and what is left. -/
def stripFactor (b : Nat) : (fuel : Nat) → (n : Nat) → Nat × Nat
  | 0, n => (0, n)
  | fuel + 1, n => if n % b = 0 then ((stripFactor b fuel (n / b)).1 + 1, (stripFactor b fuel (n / b)).2) else (0, n)

/-- Divisions by 2 or more that any n ≥ 1 allows. -/
def stripFuel (n : Nat) : Nat := n.log2 + 1

/-- (p, q, r, rest) of `factor235`. -/
structure Factors where
  p : Nat
  q : Nat
  r : Nat
  rest : Nat
  deriving DecidableEq, Repr

/-- `factor235(n)` (R122), for n ≥ 1. -/
def factor235 (n : Nat) : Factors :=
  let by2 := stripFactor 2 (stripFuel n) n
  let by3 := stripFactor 3 (stripFuel n) by2.2
  let by5 := stripFactor 5 (stripFuel n) by3.2
  { p := by2.1, q := by3.1, r := by5.1, rest := by5.2 }

/-- The exponents of a length read as `s32`; none where the command raises InvalidLength (R121, R128). -/
def factorLength (n : Int) : Option Factors :=
  if n ≤ 0 then none
  else if (factor235 n.toNat).rest = 1 then some (factor235 n.toNat) else none

/-! ### The twiddle table (R140, R141, R146) -/

/-- The sub-range of one group: `ni` = b^e pairs from entry `off`, pair k rotated to K(k) = (k·kink) mod ni (R141). -/
def buildGroup (f : Prec) (g : TwGen) (n b e off : Nat) (tw : Memory) : Memory :=
  let ni := b ^ e
  let kink := n / ni % ni
  loop ni (fun k tw =>
    let K := k * kink % ni
    storeWord f (storeWord f tw (off + 2 * k) (twgenCos g f K ni)) (off + 2 * k + 1) (twgenSin g f K ni)) tw

/-- `BuildTable(n, p, q, r, T)` (R146): the 2-group, the 3-group, the 5-group, one after another. -/
def buildTable (f : Prec) (g : TwGen) (n p q r T : Nat) (tw : Memory) : Memory :=
  let tw2 := buildGroup f g n 2 p T tw
  let tw3 := buildGroup f g n 3 q (T + 2 * 2 ^ p) tw2
  buildGroup f g n 5 r (T + 2 * 2 ^ p + 2 * 3 ^ q) tw3

/-- size = 2·(2^p + 3^q + 5^r) entries (R140). -/
def tableSize (p q r : Nat) : Nat := 2 * (2 ^ p + 3 ^ q + 5 ^ r)

def axisTableSize (ax : AxisPlan) : Nat := tableSize ax.p.toNat ax.q.toNat ax.r.toNat

/-- The tables of all axes, back to back in axis order; the entries from the total on stay as they were (R40, R146).
log 17 -/
def buildTables (par : Params) : List AxisPlan → Memory → Memory
  | [], tw => tw
  | ax :: rest, tw =>
    buildTables par rest
      (buildTable par.prec par.twgen ax.n.toNat ax.p.toNat ax.q.toNat ax.r.toNat ax.twBase.toNat tw)

/-! ### Building a plan (R128) -/

/-- The plan registers of the axes with the given lengths, the first table at entry `base`; none where a length is ≤ 0 or
has another prime factor. -/
def planAxes : (base : Nat) → List Reg → Option (List AxisPlan)
  | _, [] => some []
  | base, x :: xs =>
    match factorLength x.toInt with
    | none => none
    | some F =>
      match planAxes (base + tableSize F.p F.q F.r) xs with
      | none => none
      | some rest =>
        some ({ n := x, p := BitVec.ofNat 5 F.p, q := BitVec.ofNat 5 F.q, r := BitVec.ofNat 5 F.r,
                twBase := BitVec.ofNat 32 base } :: rest)

/-- Entries of `TW` the axes use. -/
def tableTotal : List AxisPlan → Nat
  | [] => 0
  | ax :: rest => axisTableSize ax + tableTotal rest

/-- The plan registers; an axis beyond the last holds 0 (R31 to R33). -/
def planOf (axes : List AxisPlan) : Plan where
  naxes := BitVec.ofNat 2 axes.length
  axis1 := axes.getD 0 AxisPlan.none
  axis2 := axes.getD 1 AxisPlan.none
  axis3 := axes.getD 2 AxisPlan.none

/-- The writes of a successful `BuildPlan` before its results: plan registers, tables, row-major layout with the natural
leading dimension. -/
def commitPlan (axes : List AxisPlan) (s : State) : State :=
  { s with
    plan := planOf axes
    tw := buildTables s.par axes s.tw
    rowMajor := true
    leadDim := (axes.getLastD AxisPlan.none).n }

/-- `BuildPlan(k)` (R128) on the k lengths: every length is checked, then the capacity, and only then state is written. -/
def buildPlan (lengths : List Reg) (s : State) : State :=
  match planAxes 0 lengths with
  | none => raise .invalidLength s
  | some axes =>
    if s.par.twDepth.toNat < tableTotal axes then raise .capacity s
    else succeed (BitVec.ofNat 32 (tableTotal axes)) 0#32 0#32 (commitPlan axes s)

/-! ### Layout -/

/-- natural(rm) (R35): n of the last axis for row-major, n1 for column-major. -/
def naturalDim (pl : Plan) (rowMajor : Bool) : Reg :=
  if rowMajor then (planAxis pl pl.naxes).n else pl.axis1.n

/-- `SETLAYOUT` on a state (R126). -/
def setLayout (rowMajor : Bool) (s : State) : State :=
  if s.plan.naxes = 0#2 then raise .uninitializedPlan s
  else if argSigned s 0 ≤ 0 then
    succeed 0#32 0#32 0#32 { s with rowMajor := rowMajor, leadDim := naturalDim s.plan rowMajor }
  else if argSigned s 0 < (naturalDim s.plan rowMajor).toNat then raise .invalidLeadingDimension s
  else succeed 0#32 0#32 0#32 { s with rowMajor := rowMajor, leadDim := xreg s 0 }

/-! ### The meanings -/

/-- `NOP` (R120). -/
def execNop (s : State) : Host.Outcome State Fault Refusal := .next (succeed 0#32 0#32 0#32 s)

/-- `FACTORIZE` (R121). -/
def execFactorize (s : State) : Host.Outcome State Fault Refusal :=
  match factorLength (argSigned s 0) with
  | none => .next (raise .invalidLength s)
  | some F => .next (succeed (BitVec.ofNat 32 F.p) (BitVec.ofNat 32 F.q) (BitVec.ofNat 32 F.r) s)

/-- `CREATEPLAN1` (R123). -/
def execCreatePlan1 (s : State) : Host.Outcome State Fault Refusal := .next (buildPlan [xreg s 0] s)

/-- `CREATEPLAN2` (R124). -/
def execCreatePlan2 (s : State) : Host.Outcome State Fault Refusal := .next (buildPlan [xreg s 0, xreg s 1] s)

/-- `CREATEPLAN3` (R125). -/
def execCreatePlan3 (s : State) : Host.Outcome State Fault Refusal :=
  .next (buildPlan [xreg s 0, xreg s 1, xreg s 2] s)

/-- `SETLAYOUT` (R126). -/
def execSetLayout (rowMajor : Bool) (s : State) : Host.Outcome State Fault Refusal := .next (setLayout rowMajor s)

/-- `GETLAYOUT` (R127). -/
def execGetLayout (s : State) : Host.Outcome State Fault Refusal :=
  if s.plan.naxes = 0#2 then .next (raise .uninitializedPlan s)
  else .next (succeed (if s.rowMajor then 1#32 else 0#32) s.leadDim 0#32 s)

end Sys2Proof.Machine
end

