-- ==== Sys2Proof/Machine/Dispatch.lean ====
section
/-! DEFINITION. One arm per command. -/

namespace Sys2Proof.Machine

def exec (i : Instr) (s : State) : Host.Outcome State Fault Refusal :=
  match i with
  | .nop => Sys2Proof.Machine.execNop s
  | .factorize => Sys2Proof.Machine.execFactorize s
  | .createPlan1 => Sys2Proof.Machine.execCreatePlan1 s
  | .createPlan2 => Sys2Proof.Machine.execCreatePlan2 s
  | .createPlan3 => Sys2Proof.Machine.execCreatePlan3 s
  | .setLayout rowMajor => Sys2Proof.Machine.execSetLayout rowMajor s
  | .getLayout => Sys2Proof.Machine.execGetLayout s
  | .transform dir split => Sys2Proof.Machine.execTransform dir split s
  | .dispatch axis dir split => Sys2Proof.Machine.execDispatch axis dir split s
  | .run2 axis dir split => Sys2Proof.Machine.execRun2 axis dir split s
  | .run3 axis dir split => Sys2Proof.Machine.execRun3 axis dir split s
  | .run5 axis dir split => Sys2Proof.Machine.execRun5 axis dir split s

end Sys2Proof.Machine
end

