-- ==== Sys2Proof/Machine/HostPort.lean ====
section
/-! DEFINITION. The host's accesses to `CTRL`, `TW` and `SIG`, and reset (10_state.md R39, 20_memory.md R61 to R63,
70_reset_and_hazards.md R280, R286). -/

namespace Sys2Proof.Machine

open Config (Sign Prec Space)

/-! ### Registers as the host reads them -/

/-- `PLAN_PQRa` (R32): P [4:0], Q [12:8], R [20:16], every other bit 0. -/
def pqrWord (ax : AxisPlan) : Reg := 0#11 ++ ax.r ++ 0#3 ++ ax.q ++ 0#3 ++ ax.p

/-- `CONFIG` (R38): PREC64 [0], FWDPOS [1], PARTS [15:8]. -/
def configWord (par : Config.Params) : Reg :=
  let prec64 := match par.prec with
    | .binary64 => 1#1
    | .binary32 => 0#1
  let fwdPos := match par.fwdSign with
    | .plus => 1#1
    | .minus => 0#1
  0#16 ++ BitVec.ofNat 8 Config.parts ++ 0#6 ++ fwdPos ++ prec64

/-- What a read of `CTRL` at a byte offset returns (R39); an aligned offset the map does not list reads 0. -/
def ctrlValue (s : State) (offset : Nat) : Reg :=
  match offset with
  | 0x00 => s.cmd
  | 0x04 => statusWord s.status
  | 0x08 => s.regs.arg0
  | 0x0C => s.regs.arg1
  | 0x10 => s.regs.arg2
  | 0x14 => s.regs.arg3
  | 0x18 => s.regs.arg4
  | 0x1C => s.regs.res0
  | 0x20 => s.regs.res1
  | 0x24 => s.regs.res2
  | 0x28 => s.plan.naxes.setWidth 32
  | 0x2C => s.plan.axis1.n
  | 0x30 => s.plan.axis2.n
  | 0x34 => s.plan.axis3.n
  | 0x38 => pqrWord s.plan.axis1
  | 0x3C => pqrWord s.plan.axis2
  | 0x40 => pqrWord s.plan.axis3
  | 0x44 => s.plan.axis1.twBase
  | 0x48 => s.plan.axis2.twBase
  | 0x4C => s.plan.axis3.twBase
  | 0x50 => if s.rowMajor then 1#32 else 0#32
  | 0x54 => s.leadDim
  | 0x58 => configWord s.par
  | 0x5C => s.par.lvr
  | 0x60 => s.par.twDepth
  | 0x64 => s.par.sigDepth
  | _ => 0#32

/-- One aligned 32-bit word below 0x100 (R39, R67, U7). -/
def ctrlInside (offset : Nat) : Bool := offset % 4 == 0 && decide (offset < 0x100)

/-! ### Commands -/

/-- What a write of `CMD` causes while `BUSY` = 0 (R23): the word is stored and issued, decoded, and executed to its
completion as one atomic step (R70). An illegal word completes with IllegalCommand (R97). -/
def runCommand (w : Reg) (s : State) : Host.Outcome State Fault Refusal :=
  match decodeWord w with
  | .ok i => exec i (issue w s)
  | .error _ => .next (raise .illegalCommand (issue w s))

/-! ### Host accesses -/

/-- An operand register written by the host (R20, R39); every other register of the map ignores the write. -/
def writeArg (offset : Nat) (v : Reg) (s : State) : State :=
  match offset with
  | 0x08 => { s with regs := { s.regs with arg0 := v } }
  | 0x0C => { s with regs := { s.regs with arg1 := v } }
  | 0x10 => { s with regs := { s.regs with arg2 := v } }
  | 0x14 => { s with regs := { s.regs with arg3 := v } }
  | 0x18 => { s with regs := { s.regs with arg4 := v } }
  | _ => s

/-- A host read returns a word. -/
def returnWord (v : Word) (s : State) : State := { s with rdata := v }

/-- A host read of a word of `bits` bits returns any value (U1, U4, U6): a free one. log 13 -/
def returnAny (bits : Nat) (s : State) : State :=
  { s with rdata := BitVec.ofNat 64 ((Config.openRead s.free).toNat % 2 ^ bits), free := s.free + 1 }

/-- A host write of `CTRL` (R23, R39). While `BUSY` = 1 it is ignored (R286). -/
def hostWriteCtrl (offset : Nat) (v : Reg) (s : State) : Host.Outcome State Fault Refusal :=
  if ctrlInside offset = false then .refused (.ctrlAccessOutsideSpec offset)
  else if s.status.busy then .next s
  else if offset = 0 then runCommand v s
  else .next (writeArg offset v s)

/-- A host read of `CTRL` (R39). While `BUSY` = 1 only `STATUS` has a value (R286). -/
def hostReadCtrl (offset : Nat) (s : State) : Host.Outcome State Fault Refusal :=
  if ctrlInside offset = false then .refused (.ctrlAccessOutsideSpec offset)
  else if s.status.busy && offset != 0x04 then .next (returnAny 32 s)
  else .next (returnWord ((ctrlValue s offset).setWidth 64) s)

/-- A host write of `SIG` (R63): ignored at or beyond the depth (U6), and while `BUSY` = 1 (one of the two outcomes R286
allows). log 13 -/
def hostWriteSig (index : Nat) (v : Word) (s : State) : State :=
  if s.status.busy then s
  else if index < s.par.sigDepth.toNat then { s with sig := storeWord s.par.prec s.sig index v }
  else s

/-- A host read of a memory (R62, R63): any value where the index is at or beyond the depth (U6), where nothing has
written the word (U1), and while `BUSY` = 1 (U4). -/
def hostReadMemory (m : Memory) (depth index : Nat) (s : State) : State :=
  if s.status.busy then returnAny (flen s.par.prec) s
  else if index < depth then
    match wordAt s.par.prec m index with
    | some v => returnWord v s
    | none => returnAny (flen s.par.prec) s
  else returnAny (flen s.par.prec) s

/-- Reset (R280): the state of R43. The instance's parameters stay; so do the host's own fields; the contents of the
memories are unspecified anew, so the counter of free values moves on. log 15 -/
def resetBlock (s : State) : State :=
  { State.resetWith s.par with free := s.free + 1, host := s.host, rdata := s.rdata }

/-- One access of the host. -/
def hostStep (a : HostAccess) (s : State) : Host.Outcome State Fault Refusal :=
  match a with
  | .writeCtrl offset v => hostWriteCtrl offset v s
  | .readCtrl offset => hostReadCtrl offset s
  | .writeSig index v => .next (hostWriteSig index v s)
  | .readSig index => .next (hostReadMemory s.sig s.par.sigDepth.toNat index s)
  | .writeTw _ _ => .next s
  | .readTw index => .next (hostReadMemory s.tw s.par.twDepth.toNat index s)
  | .reset => .next (resetBlock s)

/-- Where step finds its next command: a pending write of the word to `CMD`, with the block idle. -/
def placeCommand (w : Reg) (s : State) : State :=
  { s with status := { s.status with busy := false }, host := .writeCtrl 0 w :: s.host }

end Sys2Proof.Machine
end

