-- ==== Sys2Proof/Machine/Step.lean ====
section
/-! DEFINITION. One step of the machine: the next access of the host. -/

namespace Sys2Proof.Machine

/-- The host's next access is made. With none pending the block is idle and keeps its state (R265). log 1 -/
def step (s : State) : Host.Outcome State Fault Refusal :=
  match s.host with
  | [] => .next s
  | a :: rest => hostStep a { s with host := rest }

/-- The state with the command word `w` as the host's next access, a write of `CMD`. log 1 -/
def State.withFetchWord (s : State) (nbits w : Nat) : State := placeCommand (tableWord nbits w) s

end Sys2Proof.Machine
end

