-- ==== Sys2Proof/Safety.lean ====
section
/-! DEFINITION. The terms the claims use: what a good state is, footprints, and what the rules that speak of exact or of
correctly rounded arithmetic mean. -/

namespace Sys2Proof.Machine

open Config (Prec Sign TwGen)

/-! ### Memories -/

/-- Every listed byte belongs to a word below the depth (R40, R41). -/
def Memory.inside (f : Prec) (depth : Nat) (m : Memory) : Prop := ∀ c ∈ m, c.1 < depth * wordBytes f

/-- A byte has a value only where its whole word has one: every access of the block moves one word (R64). -/
def Memory.whole (f : Prec) (m : Memory) : Prop := ∀ x, memRead m x ≠ none → wordAt f m (x / wordBytes f) ≠ none

/-! ### The plan registers -/

/-- The registers of the configured axes, in axis order. -/
def Plan.axes (pl : Plan) : List AxisPlan :=
  match pl.naxes.toNat with
  | 0 => []
  | 1 => [pl.axis1]
  | 2 => [pl.axis1, pl.axis2]
  | _ => [pl.axis1, pl.axis2, pl.axis3]

/-- R31 and R32 of a configured axis: n = 2^p·3^q·5^r exactly, and n < 2^31. -/
def AxisPlan.good (ax : AxisPlan) : Prop :=
  ax.n.toNat = 2 ^ ax.p.toNat * 3 ^ ax.q.toNat * 5 ^ ax.r.toNat ∧ ax.n.toNat < 2 ^ 31

/-- R31, R32 and R33: the configured axes are good, the registers of the other axes hold 0, and the tables lie back to back
from entry 0. -/
structure Plan.good (pl : Plan) : Prop where
  axes : ∀ ax ∈ pl.axes, ax.good
  absent1 : pl.naxes.toNat < 1 → pl.axis1 = AxisPlan.none
  absent2 : pl.naxes.toNat < 2 → pl.axis2 = AxisPlan.none
  absent3 : pl.naxes.toNat < 3 → pl.axis3 = AxisPlan.none
  base1 : pl.axis1.twBase.toNat = 0
  base2 : 2 ≤ pl.naxes.toNat → pl.axis2.twBase.toNat = axisTableSize pl.axis1
  base3 : 3 ≤ pl.naxes.toNat → pl.axis3.twBase.toNat = axisTableSize pl.axis1 + axisTableSize pl.axis2

/-! ### The twiddle tables -/

/-- The sub-range of the group b^e of an axis of length n, at entry `off`, holds the pairs of R141. -/
def holdsGroup (f : Prec) (g : TwGen) (tw : Memory) (n b e off : Nat) : Prop :=
  ∀ k, k < b ^ e →
    wordAt f tw (off + 2 * k) = some (twgenCos g f (k * (n / b ^ e % b ^ e) % b ^ e) (b ^ e)) ∧
    wordAt f tw (off + 2 * k + 1) = some (twgenSin g f (k * (n / b ^ e % b ^ e) % b ^ e) (b ^ e))

/-- The table of an axis (R140, R141): the 2-group, the 3-group, the 5-group, back to back from `PLAN_TWBASE`. -/
def holdsTable (f : Prec) (g : TwGen) (tw : Memory) (ax : AxisPlan) : Prop :=
  holdsGroup f g tw ax.n.toNat 2 ax.p.toNat ax.twBase.toNat ∧
  holdsGroup f g tw ax.n.toNat 3 ax.q.toNat (ax.twBase.toNat + 2 * 2 ^ ax.p.toNat) ∧
  holdsGroup f g tw ax.n.toNat 5 ax.r.toNat (ax.twBase.toNat + 2 * 2 ^ ax.p.toNat + 2 * 3 ^ ax.q.toNat)

/-! ### Good states -/

/-- What holds of the block between two host accesses. -/
structure Inv (s : State) : Prop where
  /-- the parameters are legal (R7) -/
  legal : s.par.legal = true
  /-- no command executes (R70) -/
  idle : s.status.busy = false
  /-- an error code, and 0 in the results with it (R253), only after a completion (R24) -/
  failed : s.status.err ≠ .ok →
    s.status.done = true ∧ s.regs.res0 = 0#32 ∧ s.regs.res1 = 0#32 ∧ s.regs.res2 = 0#32
  twForm : s.tw.wf = true
  sigForm : s.sig.wf = true
  twInside : s.tw.inside s.par.prec s.par.twDepth.toNat
  sigInside : s.sig.inside s.par.prec s.par.sigDepth.toNat
  twWhole : s.tw.whole s.par.prec
  sigWhole : s.sig.whole s.par.prec
  plan : s.plan.good
  /-- the tables fit `TW` (R128) -/
  fits : tableTotal s.plan.axes ≤ s.par.twDepth.toNat
  /-- `TW` holds the table of every configured axis (R40) -/
  tables : ∀ ax ∈ s.plan.axes, holdsTable s.par.prec s.par.twgen s.tw ax
  /-- `LEADDIM` ≥ natural(`ROWMAJOR`) once there is a plan (R35), and it is a positive `s32` (R105) -/
  layout : s.plan.naxes ≠ 0#2 →
    (naturalDim s.plan s.rowMajor).toNat ≤ s.leadDim.toNat ∧ s.leadDim.toNat < 2 ^ 31

/-! ### Footprints -/

/-- The byte at offset x lies in one of the words. -/
def inWords (f : Prec) (words : List Nat) (x : Nat) : Prop := x / wordBytes f ∈ words

/-- The words of a direct command on `lot` transforms of length n with the operands of the state (R165, R220):
`reAddr` and `imAddr` of j·inc + l·jump for j < n and l < lot. -/
def directWords (n : Nat) (split : Bool) (s : State) : List Nat :=
  elementWords (signalShape split s)
    (directElements n (argUnsigned s 2) (argUnsigned s 3) (argUnsigned s 4))

/-- `InRange` of R226 for the bases and the shape of a command, with the largest element index: exact integers against
`SIG_DEPTH`. -/
def fits (s : State) (split : Bool) (emax : Nat) : Prop :=
  if split then
    s.regs.arg0.toNat + emax < s.par.sigDepth.toNat ∧ s.regs.arg1.toNat + emax < s.par.sigDepth.toNat
  else s.regs.arg0.toNat + 2 * emax + 1 < s.par.sigDepth.toNat

/-- The four direct commands, by what makes an instruction of `AXIS`, `DIR` and `SPLIT`. -/
def directMakers : List (BitVec 2 → Dir → Bool → Instr) := [Instr.dispatch, Instr.run2, Instr.run3, Instr.run5]

/-- The element index of a logical element under the state's plan and layout (R231). -/
def planElement (s : State) (i1 i2 i3 : Nat) : Nat :=
  elementIndex s.plan.naxes s.rowMajor (axisLength s.plan 2#2) s.leadDim.toNat i1 i2 i3

/-- `Emax` of the state's plan and layout (R240). -/
def planEmax (s : State) : Nat :=
  transformEmax s.plan.naxes s.rowMajor (axisLength s.plan 1#2) (axisLength s.plan 2#2) (axisLength s.plan 3#2)
    s.leadDim.toNat

/-- The words of a `TRANSFORM` on the state (R236). -/
def planWords (split : Bool) (s : State) : List Nat := transformWords s (signalShape split s)

/-- Element e of the signal that the operands of `s` describe holds the value in the memory. -/
def holdsElement (s : State) (split : Bool) (sig : Memory) (e : Nat) (v : Cpx Word) : Prop :=
  wordAt s.par.prec sig (reAddr (signalShape split s) e) = some v.1 ∧
  wordAt s.par.prec sig (imAddr (signalShape split s) e) = some v.2

/-- A direct command on one lot of an axis of length n, that passes its checks, on words that are pairwise distinct. -/
structure oneLot (s : State) (axis : BitVec 2) (dir : Dir) (split : Bool) (n : Nat) : Prop where
  configured : axis ≠ 0#2 ∧ axis ≤ s.plan.naxes
  direction : dir = .forward ∨ dir = .inverse
  length : (planAxis s.plan axis).n.toNat = n
  lot : argUnsigned s 4 = 1
  inRange : fits s split ((n - 1) * argUnsigned s 2)
  distinct : (directWords n split s).Nodup

/-- The same, where element j·inc holds x j. -/
structure singleLot (s : State) (axis : BitVec 2) (dir : Dir) (split : Bool) (n : Nat) (x : Nat → Cpx Word) : Prop
    extends oneLot s axis dir split n where
  holds : ∀ j, j < n → holdsElement s split s.sig (j * argUnsigned s 2) (x j)

/-- The operands written for one dispatcher call of a schedule, in a host program that makes the call by `DISPATCH`
(R232): bases moved by sc·off, then inc, jump and lot. -/
def withCall (split : Bool) (c : Call) (s : State) : State :=
  { s with
    regs :=
      { s.regs with
        arg0 := s.regs.arg0 + BitVec.ofNat 32 ((signalShape split s).sc * c.off)
        arg1 := s.regs.arg1 + BitVec.ofNat 32 ((signalShape split s).sc * c.off)
        arg2 := BitVec.ofNat 32 c.inc
        arg3 := BitVec.ofNat 32 c.jump
        arg4 := BitVec.ofNat 32 c.lot } }

/-- `SIG` after a list of calls, each made by `DISPATCH` on what the one before left; none if one of them fails. -/
def dispatchAll (dir : Dir) (split : Bool) (s : State) : List Call → Memory → Option Memory
  | [], sig => some sig
  | c :: rest, sig =>
    match exec (.dispatch c.axis dir split) (withCall split c { s with sig := sig }) with
    | .next t => if t.status.err = .ok then dispatchAll dir split s rest t.sig else none
    | _ => none

/-! ### Correct rounding (R160) -/

/-- A word that is neither an infinity nor a NaN. -/
def fpFinite (f : Prec) (v : Word) : Bool := decide (fpExp f v < expMax f)

/-- The least magnitude, in units of the smallest subnormal, that roundTiesToEven takes to an infinity: the largest finite
number and half a unit in its last place. -/
def overflowUnits (f : Prec) : Nat := (2 ^ (fracBits f + 2) - 1) * 2 ^ (expMax f - 3)

/-- `r` is the number num / 2^k (in units of the smallest subnormal) rounded once by roundTiesToEven: an infinity of its sign
from the overflow threshold on; below it a finite number, no finite number nearer, and of two equally near the one with an
even significand. -/
def roundsTo (f : Prec) (num : Int) (k : Nat) (r : Word) : Prop :=
  if overflowUnits f * 2 ^ k ≤ num.natAbs then isInf f r = true ∧ fpSign f r = decide (num < 0)
  else
    fpFinite f r = true ∧
    ∀ y : Word, fpFinite f y = true →
      |num - signedUnits f r * 2 ^ k| ≤ |num - signedUnits f y * 2 ^ k| ∧
      (|num - signedUnits f r * 2 ^ k| = |num - signedUnits f y * 2 ^ k| → signedUnits f y ≠ signedUnits f r →
        fpFrac f r % 2 = 0)

/-- The real number that a finite word encodes. -/
noncomputable def wordReal (f : Prec) (v : Word) : ℝ := (signedUnits f v : ℝ) / 2 ^ unitExp f

/-- `v` is a finite word within `c` units in the last place of the real number x, the unit being that of the binade of x. With
c = 1/2 that is "rounded once" for an x that lies halfway between no two encodings (R143, R163). -/
def withinUlps (f : Prec) (c x : ℝ) (v : Word) : Prop :=
  fpFinite f v = true ∧
  ∃ k : ℤ, (2 : ℝ) ^ k ≤ |x| ∧ |x| < (2 : ℝ) ^ (k + 1) ∧ |wordReal f v - x| ≤ c * (2 : ℝ) ^ (k - fracBits f)

/-! ### Exact arithmetic (R11, R153, R159) -/

/-- The arithmetic of the real numbers, with the constants of R163 before they are rounded. -/
noncomputable def realArith : Arith ℝ where
  add a b := a + b
  sub a b := a - b
  mul a b := a * b
  neg a := -a
  one := 1
  half := 1 / 2
  quarter := 1 / 4
  sqrtHalf := Real.sqrt (1 / 2)
  sin60 := Real.sqrt 3 / 2
  qrt5 := Real.sqrt 5 / 4
  sin36 := Real.sin (Real.pi / 5)
  sin72 := Real.sin (2 * Real.pi / 5)

/-- A pair as a complex number. -/
noncomputable def toComplex (z : Cpx ℝ) : ℂ := z.1 + z.2 * Complex.I

/-- The sign s as a number. -/
def signVal : Sign → ℤ
  | .minus => -1
  | .plus => 1

/-- ω_n^k. -/
noncomputable def omega (n : Nat) (k : ℤ) : ℂ := Complex.exp (2 * Real.pi * Complex.I * k / n)

/-- A unit of the engine of b with exponent mm in an axis of length b^mm·inq, on elements that are pairs of real numbers, with
the exact twiddle pairs of R141. -/
noncomputable def realUnit (b : Prime) (mm inq : Nat) (sign : Sign) : UnitEnv (Nat → Cpx ℝ) ℝ where
  A := realArith
  store := { get := fun z u => z u, set := fun z u v => Function.update z u v }
  twiddle := fun k =>
    let ni := primeVal b ^ mm
    let K := k * (inq % ni) % ni
    (Real.cos (2 * Real.pi * K / ni), Real.sin (2 * Real.pi * K / ni))
  sign := sign
  ni := primeVal b ^ mm
  inq := inq

end Sys2Proof.Machine
end

