-- ==== Sys2Proof/Certificates/Slice0/Obligations.lean ====
section
/-! DEFINITION. The statements for the provers. Each docstring names the rules it formalises. -/

open Sys2Proof Sys2Proof.Machine
open Sys2Proof.Config (Prec Sign TwGen Params)

/-! ### Encoding -/

/-- The example words of 30_encoding.md R100 decode to the commands they are written for. -/
def Obligations.ExampleWordsDecode : Prop :=
  decodeWord 0x00000000#32 = .ok .nop ∧
  decodeWord 0x00000001#32 = .ok .factorize ∧
  decodeWord 0x00000003#32 = .ok .createPlan2 ∧
  decodeWord 0x00002005#32 = .ok (.setLayout true) ∧
  decodeWord 0x00000005#32 = .ok (.setLayout false) ∧
  decodeWord 0x00000006#32 = .ok .getLayout ∧
  decodeWord 0x00000407#32 = .ok (.transform .forward false) ∧
  decodeWord 0x00000C07#32 = .ok (.transform .inverse false) ∧
  decodeWord 0x00001407#32 = .ok (.transform .forward true) ∧
  decodeWord 0x00001C07#32 = .ok (.transform .inverse true) ∧
  decodeWord 0x00000007#32 = .ok (.transform .d0 false) ∧
  decodeWord 0x00000508#32 = .ok (.dispatch 1#2 .forward false) ∧
  decodeWord 0x00001E08#32 = .ok (.dispatch 2#2 .inverse true) ∧
  decodeWord 0x00000509#32 = .ok (.run2 1#2 .forward false) ∧
  decodeWord 0x0000050A#32 = .ok (.run3 1#2 .forward false) ∧
  decodeWord 0x00000D0B#32 = .ok (.run5 1#2 .inverse false)

/-- 30_encoding.md R98: the reserved opcodes are illegal, the all-zero word is `NOP`, the all-ones word is illegal. -/
def Obligations.ReservedOpcodesAreIllegal : Prop :=
  (∀ w : Reg, 0x0C ≤ (w.extractLsb' 0 8).toNat → ∃ e, decodeWord w = .error e) ∧
  decodeWord 0#32 = .ok .nop ∧
  ∃ e, decodeWord (BitVec.allOnes 32) = .error e

/-- Decode and encode agree in both directions (R91, R96, R99): a word decodes to an instruction exactly when the instruction
has an encoding and the word is that encoding. So every well-formed instruction decodes from its encoding, no bit of a
legal word is dropped, and no instruction has two words. -/
def Obligations.DecodeIffEncode : Prop :=
  ∀ (w : Reg) (i : Instr), decodeWord w = .ok i ↔ i.wf = true ∧ encode i = w

/-- 30_encoding.md R96: the match and mask of every row. -/
def Obligations.MatchAndMaskRows : Prop :=
  ∀ w : Reg,
    (decodeWord w = .ok .nop ↔ w &&& 0xFFFFFFFF#32 = 0x00000000#32) ∧
    (decodeWord w = .ok .factorize ↔ w &&& 0xFFFFFFFF#32 = 0x00000001#32) ∧
    (decodeWord w = .ok .createPlan1 ↔ w &&& 0xFFFFFFFF#32 = 0x00000002#32) ∧
    (decodeWord w = .ok .createPlan2 ↔ w &&& 0xFFFFFFFF#32 = 0x00000003#32) ∧
    (decodeWord w = .ok .createPlan3 ↔ w &&& 0xFFFFFFFF#32 = 0x00000004#32) ∧
    ((∃ rm, decodeWord w = .ok (.setLayout rm)) ↔ w &&& 0xFFFFDFFF#32 = 0x00000005#32) ∧
    (decodeWord w = .ok .getLayout ↔ w &&& 0xFFFFFFFF#32 = 0x00000006#32) ∧
    ((∃ dir sp, decodeWord w = .ok (.transform dir sp)) ↔ w &&& 0xFFFFE3FF#32 = 0x00000007#32) ∧
    ((∃ ax dir sp, decodeWord w = .ok (.dispatch ax dir sp)) ↔
      w &&& 0xFFFFE0FF#32 = 0x00000008#32 ∧ w.extractLsb' 8 2 ≠ 0#2) ∧
    ((∃ ax dir sp, decodeWord w = .ok (.run2 ax dir sp)) ↔
      w &&& 0xFFFFE0FF#32 = 0x00000009#32 ∧ w.extractLsb' 8 2 ≠ 0#2) ∧
    ((∃ ax dir sp, decodeWord w = .ok (.run3 ax dir sp)) ↔
      w &&& 0xFFFFE0FF#32 = 0x0000000A#32 ∧ w.extractLsb' 8 2 ≠ 0#2) ∧
    ((∃ ax dir sp, decodeWord w = .ok (.run5 ax dir sp)) ↔
      w &&& 0xFFFFE0FF#32 = 0x0000000B#32 ∧ w.extractLsb' 8 2 ≠ 0#2)

/-- 30_encoding.md R97: which words are illegal, clause by clause, and what such a word does when the host writes it to `CMD`
of the idle block: the completion with code 6 and nothing else. -/
def Obligations.IllegalCommands : Prop :=
  ∀ w : Reg,
    ((∃ e, decodeWord w = .error e) ↔
      0x0C ≤ (w.extractLsb' 0 8).toNat ∨
      w.extractLsb' 14 18 ≠ 0#18 ∨
      (w.extractLsb' 8 2 ≠ 0#2 ∧ (w.extractLsb' 0 8).toNat < 8) ∨
      (w.extractLsb' 10 2 ≠ 0#2 ∧ (w.extractLsb' 0 8).toNat < 7) ∨
      (w.extractLsb' 12 1 ≠ 0#1 ∧ (w.extractLsb' 0 8).toNat < 7) ∨
      (w.extractLsb' 13 1 ≠ 0#1 ∧ (w.extractLsb' 0 8).toNat ≠ 5) ∨
      (w.extractLsb' 8 2 = 0#2 ∧ 8 ≤ (w.extractLsb' 0 8).toNat ∧ (w.extractLsb' 0 8).toNat < 0x0C)) ∧
    ∀ (s : State) (rest : List HostAccess), s.host = .writeCtrl 0 w :: rest → s.status.busy = false →
      (∃ e, decodeWord w = .error e) →
      step s = .next
        { s with
          host := rest
          cmd := w
          regs := { s.regs with res0 := 0#32, res1 := 0#32, res2 := 0#32 }
          status := { busy := false, done := true, err := .illegalCommand } }

/-! ### The step -/

/-- A step runs the decoded instruction (R23, R27, R70, R90): where the host's next access is a write of `CMD` to the idle
block and the word decodes to i, the step is exec of i on the state with that access taken from the list, the word in `CMD`,
and `STATUS` as at the issue (BUSY = 1, DONE = 0). The state that `withFetchWord` makes steps so. (The list of the host's
accesses is the model's own, log 1.) -/
def Obligations.StepRunsDecodedCommand : Prop :=
  (∀ (s : State) (w : Reg) (rest : List HostAccess) (i : Instr),
    s.host = .writeCtrl 0 w :: rest → s.status.busy = false → decodeWord w = .ok i →
    step s = exec i
      { s with host := rest, cmd := w, status := { busy := true, done := false, err := .ok } }) ∧
  ∀ (s : State) (nbits v : Nat) (i : Instr), decodeTableWord nbits v = some i →
    step (s.withFetchWord nbits v) = exec i
      { s with
        cmd := BitVec.ofNat 32 (v % 2 ^ nbits)
        status := { busy := true, done := false, err := .ok } }

/-- With no host access pending the block is idle and keeps its state (R265). The model's choice: a step with nothing pending
is a step that changes nothing, log 1. -/
def Obligations.IdleBlockKeepsState : Prop :=
  ∀ s : State, s.host = [] → step s = .next s

/-! ### The host's accesses -/

/-- The registers of the map of R39 as the host reads them, field by field (R20, R23, R24 with the numbers of R250, R30 to R35,
R38), and 0 at every aligned offset from 0x68 to 0xFC. The read changes nothing but the data the host gets (log 2). -/
def Obligations.ControlRegisterReads : Prop :=
  ∀ (s : State) (rest : List HostAccess) (offset : Nat), s.host = .readCtrl offset :: rest → s.status.busy = false →
    offset % 4 = 0 → offset < 0x100 →
    ∃ v : Reg, step s = .next { s with host := rest, rdata := v.setWidth 64 } ∧
      (offset = 0x00 → v = s.cmd) ∧
      (offset = 0x04 →
        v.getLsbD 0 = s.status.busy ∧ v.getLsbD 1 = s.status.done ∧
        (∀ c ∈ [(ErrCode.ok, 0#4), (.invalidLength, 1#4), (.invalidDirection, 2#4), (.uninitializedPlan, 3#4),
            (.invalidLeadingDimension, 4#4), (.capacity, 5#4), (.illegalCommand, 6#4)],
          s.status.err = c.1 → v.extractLsb' 4 4 = c.2) ∧
        v.extractLsb' 2 2 = 0#2 ∧ v.extractLsb' 8 24 = 0#24) ∧
      (∀ k : Fin 8, offset = 0x08 + 4 * k.val → v = xreg s k) ∧
      (offset = 0x28 → v = s.plan.naxes.setWidth 32) ∧
      (∀ a : Fin 3, offset = 0x2C + 4 * a.val → v = (planAxis s.plan (BitVec.ofNat 2 (a.val + 1))).n) ∧
      (∀ a : Fin 3, offset = 0x38 + 4 * a.val →
        v.extractLsb' 0 5 = (planAxis s.plan (BitVec.ofNat 2 (a.val + 1))).p ∧
        v.extractLsb' 8 5 = (planAxis s.plan (BitVec.ofNat 2 (a.val + 1))).q ∧
        v.extractLsb' 16 5 = (planAxis s.plan (BitVec.ofNat 2 (a.val + 1))).r ∧
        v.extractLsb' 5 3 = 0#3 ∧ v.extractLsb' 13 3 = 0#3 ∧ v.extractLsb' 21 11 = 0#11) ∧
      (∀ a : Fin 3, offset = 0x44 + 4 * a.val → v = (planAxis s.plan (BitVec.ofNat 2 (a.val + 1))).twBase) ∧
      (offset = 0x50 → v = if s.rowMajor then 1#32 else 0#32) ∧
      (offset = 0x54 → v = s.leadDim) ∧
      (offset = 0x58 →
        v.getLsbD 0 = decide (s.par.prec = .binary64) ∧ v.getLsbD 1 = decide (s.par.fwdSign = .plus) ∧
        v.extractLsb' 8 8 = 1#8 ∧ v.extractLsb' 2 6 = 0#6 ∧ v.extractLsb' 16 16 = 0#16) ∧
      (offset = 0x5C → v = s.par.lvr) ∧
      (offset = 0x60 → v = s.par.twDepth) ∧
      (offset = 0x64 → v = s.par.sigDepth) ∧
      (0x68 ≤ offset → v = 0#32)

/-- R20 and R39: a host write to the idle block's `CTRL` at an aligned offset other than that of `CMD` replaces the operand
register at that offset and nothing else; a register marked RO and an offset the map does not list ignore it. -/
def Obligations.ControlRegisterWrites : Prop :=
  ∀ (s : State) (rest : List HostAccess) (offset : Nat) (v : Reg), s.host = .writeCtrl offset v :: rest →
    s.status.busy = false → offset % 4 = 0 → offset < 0x100 →
    (offset = 0x08 → step s = .next { s with host := rest, regs := { s.regs with arg0 := v } }) ∧
    (offset = 0x0C → step s = .next { s with host := rest, regs := { s.regs with arg1 := v } }) ∧
    (offset = 0x10 → step s = .next { s with host := rest, regs := { s.regs with arg2 := v } }) ∧
    (offset = 0x14 → step s = .next { s with host := rest, regs := { s.regs with arg3 := v } }) ∧
    (offset = 0x18 → step s = .next { s with host := rest, regs := { s.regs with arg4 := v } }) ∧
    (offset = 0x04 ∨ 0x1C ≤ offset → step s = .next { s with host := rest })

/-- 93_implementation_defined.md U7: a `CTRL` access that is not aligned, or at or above 0x100, is outside the spec; the model
refuses it by name (log 8). -/
def Obligations.OutsideControlAccessRefused : Prop :=
  ∀ (s : State) (rest : List HostAccess) (offset : Nat), offset % 4 ≠ 0 ∨ 0x100 ≤ offset →
    (∀ v, s.host = .writeCtrl offset v :: rest → step s = .refused (.ctrlAccessOutsideSpec offset)) ∧
    (s.host = .readCtrl offset :: rest → step s = .refused (.ctrlAccessOutsideSpec offset))

/-- R63 of `SIG`: a host write of a word below the depth replaces that word (its low `FLEN` bits) and leaves every other byte; a
host read of a word that has been written returns it and changes nothing else; at or beyond the depth a write is
ignored, and a read, like a read of a word that nothing has written (U1), returns some value of `FLEN` bits and changes
nothing but the data and the counter of free values (the model's choice, logs 5 and 13). -/
def Obligations.SignalWindow : Prop :=
  (∀ (s : State) (rest : List HostAccess) (a : Nat) (v : Word), s.host = .writeSig a v :: rest → s.status.busy = false →
    (a < s.par.sigDepth.toNat →
      ∃ t, step s = .next t ∧ t = { s with host := rest, sig := t.sig } ∧
        wordAt s.par.prec t.sig a = some (truncWord s.par.prec v) ∧
        ∀ x, x / wordBytes s.par.prec ≠ a → memRead t.sig x = memRead s.sig x) ∧
    (s.par.sigDepth.toNat ≤ a → step s = .next { s with host := rest })) ∧
  (∀ (s : State) (rest : List HostAccess) (a : Nat), s.host = .readSig a :: rest → s.status.busy = false →
    (∀ v, a < s.par.sigDepth.toNat → wordAt s.par.prec s.sig a = some v →
      step s = .next { s with host := rest, rdata := v }) ∧
    (s.par.sigDepth.toNat ≤ a ∨ wordAt s.par.prec s.sig a = none →
      ∃ v : Word, v.toNat < 2 ^ flen s.par.prec ∧ step s = .next { s with host := rest, rdata := v, free := s.free + 1 }))

/-- 20_memory.md R62 and R63: a host write of `TW` is ignored; a host read of a written entry of the idle block returns it; a
read at or beyond the depth (U6) or of an entry that nothing has written (U1) returns some value of `FLEN` bits and changes
nothing but the data and the counter of free values (the model's choice, logs 5 and 13). -/
def Obligations.TwiddleWindow : Prop :=
  (∀ (s : State) (rest : List HostAccess) (a : Nat) (v : Word), s.host = .writeTw a v :: rest →
    step s = .next { s with host := rest }) ∧
  (∀ (s : State) (rest : List HostAccess) (a : Nat) (v : Word), s.host = .readTw a :: rest → s.status.busy = false →
    a < s.par.twDepth.toNat → wordAt s.par.prec s.tw a = some v →
    step s = .next { s with host := rest, rdata := v }) ∧
  (∀ (s : State) (rest : List HostAccess) (a : Nat), s.host = .readTw a :: rest → s.status.busy = false →
    s.par.twDepth.toNat ≤ a ∨ wordAt s.par.prec s.tw a = none →
    ∃ v : Word, v.toNat < 2 ^ flen s.par.prec ∧ step s = .next { s with host := rest, rdata := v, free := s.free + 1 })

/-- 20_memory.md R76: no read has a side effect: whatever the host reads, in any state, the step changes only what the model
keeps for itself, the pending accesses, the data read and the counter of free values (logs 1, 2 and 5). -/
def Obligations.ReadsHaveNoSideEffect : Prop :=
  ∀ (s t : State) (rest : List HostAccess) (a : HostAccess), s.host = a :: rest →
    (∃ k, a = .readCtrl k) ∨ (∃ k, a = .readSig k) ∨ (∃ k, a = .readTw k) → step s = .next t →
    t = { s with host := rest, rdata := t.rdata, free := t.free }

/-- R286 and U4, for a state in which a command executes (no step of the atomic-command model leads to one): a write of `CTRL`
is ignored, and so is one of `SIG` (of the two outcomes R286 allows the model's choice, log 13); a read of `STATUS`
returns it. -/
def Obligations.BusyBlockIgnoresHost : Prop :=
  ∀ (s : State) (rest : List HostAccess), s.status.busy = true →
    (∀ offset v, offset % 4 = 0 → offset < 0x100 → s.host = .writeCtrl offset v :: rest →
      step s = .next { s with host := rest }) ∧
    (∀ a v, s.host = .writeSig a v :: rest → step s = .next { s with host := rest }) ∧
    (s.host = .readCtrl 0x04 :: rest →
      step s = .next { s with host := rest, rdata := (statusWord s.status).setWidth 64 })

/-- 10_state.md R43: the state after reset, both the state the machine starts in and the state any reset by the host leads to:
every register of R43 is 0, the four constants are the instance's, and no word of `TW` or `SIG` has a value. -/
def Obligations.ResetState : Prop :=
  ∀ (s : State) (par : Params),
    (s = State.reset ∧ par = Config.defaults) ∨
      (∃ (s0 : State) (rest : List HostAccess), s0.host = .reset :: rest ∧ step s0 = .next s ∧ par = s0.par) →
    s.par = par ∧ s.cmd = 0#32 ∧ s.status = { busy := false, done := false, err := .ok } ∧
    (∀ k : Fin 8, xreg s k = 0#32) ∧ s.plan.naxes = 0#2 ∧
    (∀ ax ∈ [s.plan.axis1, s.plan.axis2, s.plan.axis3],
      ax.n = 0#32 ∧ ax.p = 0#5 ∧ ax.q = 0#5 ∧ ax.r = 0#5 ∧ ax.twBase = 0#32) ∧
    s.rowMajor = false ∧ s.leadDim = 0#32 ∧
    ∀ f w, wordAt f s.tw w = none ∧ wordAt f s.sig w = none

/-- 10_state.md R38: the bits of `CONFIG`, the values the parameter registers read with the defaults, and that no step of any
kind, a command or a reset, changes a parameter. -/
def Obligations.ParametersAreConstants : Prop :=
  (∀ s t : State, step s = .next t → t.par = s.par) ∧
  (∀ s : State,
    (ctrlValue s 0x58).getLsbD 0 = decide (s.par.prec = .binary64) ∧
    (ctrlValue s 0x58).getLsbD 1 = decide (s.par.fwdSign = .plus) ∧
    (ctrlValue s 0x58).extractLsb' 8 8 = 1#8 ∧
    (ctrlValue s 0x58).extractLsb' 2 6 = 0#6 ∧ (ctrlValue s 0x58).extractLsb' 16 16 = 0#16 ∧
    ctrlValue s 0x5C = s.par.lvr ∧ ctrlValue s 0x60 = s.par.twDepth ∧ ctrlValue s 0x64 = s.par.sigDepth) ∧
  ctrlValue State.reset 0x58 = 0x00000101#32 ∧ ctrlValue State.reset 0x5C = 64#32 ∧
  ctrlValue State.reset 0x60 = 65536#32 ∧ ctrlValue State.reset 0x64 = 1048576#32

/-! ### Completion and failure -/

/-- R251, R253, R289 and R20: every command, in every state, completes: `BUSY` = 0, `DONE` = 1, and it leaves `CMD`, the
operand registers, the parameters and the host's accesses as they were. -/
def Obligations.EveryCommandCompletes : Prop :=
  ∀ (i : Instr) (s : State), ∃ t, exec i s = .next t ∧
    t.status.busy = false ∧ t.status.done = true ∧ t.cmd = s.cmd ∧
    t.regs = { s.regs with res0 := t.regs.res0, res1 := t.regs.res1, res2 := t.regs.res2 } ∧
    t.par = s.par ∧ t.host = s.host ∧ t.rdata = s.rdata

/-- 60_exceptions.md R253 (and R252): a command that completes with a code other than 0 has changed nothing but `RES0..2`, which
are 0, and `STATUS`. -/
def Obligations.FailureChangesNothing : Prop :=
  ∀ (i : Instr) (s t : State), exec i s = .next t → t.status.err ≠ .ok →
    t = { s with
      regs := { s.regs with res0 := 0#32, res1 := 0#32, res2 := 0#32 }
      status := { busy := false, done := true, err := t.status.err } }

/-- 10_state.md R26: no command reads a flag: with any other `STATUS` at the start, a command gives the same state. That the
NaNs (log 12), the free values of unwritten words (log 4) and the free values that a command leaves in a footprint with a word
twice (log 7, a case that R283 puts outside the spec) are the same too is the model's choice. -/
def Obligations.NoCommandReadsAFlag : Prop :=
  ∀ (i : Instr) (s : State) (st : Status), exec i { s with status := st } = exec i s

/-- 00_scope.md R8: `LVR` has no effect on any result: with another `LVR` a command gives the same state but for `LVR`. That
the NaNs (log 12), the free values of unwritten words (log 4) and the free values that a command leaves in a footprint with a
word twice (log 7) are the same too is the model's choice: there R283 lets the values depend on the order over the lots, which
`LVR` sets (R158). -/
def Obligations.VectorLengthHasNoEffect : Prop :=
  ∀ (i : Instr) (s t : State) (lvr : Reg), exec i s = .next t →
    exec i { s with par := { s.par with lvr := lvr } } = .next { t with par := { t.par with lvr := lvr } }

/-- 10_state.md R36: after a successful CREATEPLAN the plan registers and `TW` change only by another successful one, the layout
only by it or a successful SETLAYOUT; so no execution command writes a plan register or an entry of `TW`. -/
def Obligations.PlanIsImmutable : Prop :=
  ∀ (i : Instr) (s t : State), exec i s = .next t →
    (i ∉ [.createPlan1, .createPlan2, .createPlan3] ∨ t.status.err ≠ .ok → t.plan = s.plan ∧ t.tw = s.tw) ∧
    (i ∉ [.createPlan1, .createPlan2, .createPlan3, .setLayout true, .setLayout false] ∨ t.status.err ≠ .ok →
      t.rowMajor = s.rowMajor ∧ t.leadDim = s.leadDim)

/-! ### NOP, FACTORIZE -/

/-- R120: `NOP` changes nothing and completes with success. -/
def Obligations.NopDoesNothing : Prop :=
  ∀ s : State, exec .nop s = .next
    { s with
      regs := { s.regs with res0 := 0#32, res1 := 0#32, res2 := 0#32 }
      status := { busy := false, done := true, err := .ok } }

/-- R122: `factor235` of n ≥ 1: n is 2^p·3^q·5^r times the rest, the rest has none of the three factors, and a triple with
n = 2^p·3^q·5^r is the one it finds. -/
def Obligations.FactorizationIsRight : Prop :=
  ∀ n : Nat, 1 ≤ n →
    n = 2 ^ (factor235 n).p * 3 ^ (factor235 n).q * 5 ^ (factor235 n).r * (factor235 n).rest ∧
    Nat.Coprime (factor235 n).rest 30 ∧
    ∀ p q r, n = 2 ^ p * 3 ^ q * 5 ^ r →
      (factor235 n).p = p ∧ (factor235 n).q = q ∧ (factor235 n).r = r ∧ (factor235 n).rest = 1

/-- R121: `FACTORIZE` returns the exponents of s32(`ARG0`) in `RES0..2`, or fails with InvalidLength where it is not
2^p·3^q·5^r (so also where it is 0 or negative); nothing else changes. -/
def Obligations.FactorizeResult : Prop :=
  ∀ s : State,
    (∀ p q r : Nat, argSigned s 0 = ((2 ^ p * 3 ^ q * 5 ^ r : Nat) : Int) →
      exec .factorize s = .next
        { s with
          regs := { s.regs with res0 := BitVec.ofNat 32 p, res1 := BitVec.ofNat 32 q, res2 := BitVec.ofNat 32 r }
          status := { busy := false, done := true, err := .ok } }) ∧
    ((∀ p q r : Nat, argSigned s 0 ≠ ((2 ^ p * 3 ^ q * 5 ^ r : Nat) : Int)) →
      exec .factorize s = .next
        { s with
          regs := { s.regs with res0 := 0#32, res1 := 0#32, res2 := 0#32 }
          status := { busy := false, done := true, err := .invalidLength } })

/-! ### CREATEPLAN1/2/3 -/

/-- R123 with R128, R140, R141 and R146: `CREATEPLAN1` with n1 = 2^p·3^q·5^r whose table fits: the plan registers, the layout
and `RES0` are written as R128 says, `TW` holds the table of n1, every byte of `TW` from entry total on is as before (R40 and
R146 against U1, log 17), and nothing else changes. -/
def Obligations.CreatePlan1Succeeds : Prop :=
  ∀ (s : State) (p q r : Nat),
    argSigned s 0 = ((2 ^ p * 3 ^ q * 5 ^ r : Nat) : Int) →
    tableSize p q r ≤ s.par.twDepth.toNat →
    ∃ t, exec .createPlan1 s = .next t ∧
      t = { s with
        plan :=
          { naxes := 1#2
            axis1 := { n := s.regs.arg0, p := BitVec.ofNat 5 p, q := BitVec.ofNat 5 q, r := BitVec.ofNat 5 r, twBase := 0#32 }
            axis2 := { n := 0#32, p := 0#5, q := 0#5, r := 0#5, twBase := 0#32 }
            axis3 := { n := 0#32, p := 0#5, q := 0#5, r := 0#5, twBase := 0#32 } }
        rowMajor := true
        leadDim := s.regs.arg0
        tw := t.tw
        regs := { s.regs with res0 := BitVec.ofNat 32 (tableSize p q r), res1 := 0#32, res2 := 0#32 }
        status := { busy := false, done := true, err := .ok } } ∧
      holdsTable s.par.prec s.par.twgen t.tw t.plan.axis1 ∧
      ∀ x, tableSize p q r * wordBytes s.par.prec ≤ x → memRead t.tw x = memRead s.tw x

/-- R124 with R128, R140, R141 and R146: `CREATEPLAN2`, as `CREATEPLAN1` over two lengths (log 17). -/
def Obligations.CreatePlan2Succeeds : Prop :=
  ∀ (s : State) (p q r p' q' r' : Nat),
    argSigned s 0 = ((2 ^ p * 3 ^ q * 5 ^ r : Nat) : Int) →
    argSigned s 1 = ((2 ^ p' * 3 ^ q' * 5 ^ r' : Nat) : Int) →
    tableSize p q r + tableSize p' q' r' ≤ s.par.twDepth.toNat →
    ∃ t, exec .createPlan2 s = .next t ∧
      t = { s with
        plan :=
          { naxes := 2#2
            axis1 := { n := s.regs.arg0, p := BitVec.ofNat 5 p, q := BitVec.ofNat 5 q, r := BitVec.ofNat 5 r, twBase := 0#32 }
            axis2 := { n := s.regs.arg1, p := BitVec.ofNat 5 p', q := BitVec.ofNat 5 q', r := BitVec.ofNat 5 r',
                       twBase := BitVec.ofNat 32 (tableSize p q r) }
            axis3 := { n := 0#32, p := 0#5, q := 0#5, r := 0#5, twBase := 0#32 } }
        rowMajor := true
        leadDim := s.regs.arg1
        tw := t.tw
        regs := { s.regs with
          res0 := BitVec.ofNat 32 (tableSize p q r + tableSize p' q' r'), res1 := 0#32, res2 := 0#32 }
        status := { busy := false, done := true, err := .ok } } ∧
      holdsTable s.par.prec s.par.twgen t.tw t.plan.axis1 ∧
      holdsTable s.par.prec s.par.twgen t.tw t.plan.axis2 ∧
      ∀ x, (tableSize p q r + tableSize p' q' r') * wordBytes s.par.prec ≤ x → memRead t.tw x = memRead s.tw x

/-- R125 with R128, R140, R141 and R146: `CREATEPLAN3`, as `CREATEPLAN1` over three lengths (log 17). -/
def Obligations.CreatePlan3Succeeds : Prop :=
  ∀ (s : State) (p q r p' q' r' p'' q'' r'' : Nat),
    argSigned s 0 = ((2 ^ p * 3 ^ q * 5 ^ r : Nat) : Int) →
    argSigned s 1 = ((2 ^ p' * 3 ^ q' * 5 ^ r' : Nat) : Int) →
    argSigned s 2 = ((2 ^ p'' * 3 ^ q'' * 5 ^ r'' : Nat) : Int) →
    tableSize p q r + tableSize p' q' r' + tableSize p'' q'' r'' ≤ s.par.twDepth.toNat →
    ∃ t, exec .createPlan3 s = .next t ∧
      t = { s with
        plan :=
          { naxes := 3#2
            axis1 := { n := s.regs.arg0, p := BitVec.ofNat 5 p, q := BitVec.ofNat 5 q, r := BitVec.ofNat 5 r, twBase := 0#32 }
            axis2 := { n := s.regs.arg1, p := BitVec.ofNat 5 p', q := BitVec.ofNat 5 q', r := BitVec.ofNat 5 r',
                       twBase := BitVec.ofNat 32 (tableSize p q r) }
            axis3 := { n := s.regs.arg2, p := BitVec.ofNat 5 p'', q := BitVec.ofNat 5 q'', r := BitVec.ofNat 5 r'',
                       twBase := BitVec.ofNat 32 (tableSize p q r + tableSize p' q' r') } }
        rowMajor := true
        leadDim := s.regs.arg2
        tw := t.tw
        regs := { s.regs with
          res0 := BitVec.ofNat 32 (tableSize p q r + tableSize p' q' r' + tableSize p'' q'' r''), res1 := 0#32, res2 := 0#32 }
        status := { busy := false, done := true, err := .ok } } ∧
      holdsTable s.par.prec s.par.twgen t.tw t.plan.axis1 ∧
      holdsTable s.par.prec s.par.twgen t.tw t.plan.axis2 ∧
      holdsTable s.par.prec s.par.twgen t.tw t.plan.axis3 ∧
      ∀ x, (tableSize p q r + tableSize p' q' r' + tableSize p'' q'' r'') * wordBytes s.par.prec ≤ x →
        memRead t.tw x = memRead s.tw x

/-- R128, R254 and R255 for the three CREATEPLAN commands (k lengths, read from `ARG0` up): InvalidLength where some length is
not 2^p·3^q·5^r; Capacity where all are and the tables together do not fit. -/
def Obligations.CreatePlanFailures : Prop :=
  ∀ (s : State) (i : Instr) (lengths : List Int),
    (i, lengths) ∈
      [(.createPlan1, [argSigned s 0]), (.createPlan2, [argSigned s 0, argSigned s 1]),
        (.createPlan3, [argSigned s 0, argSigned s 1, argSigned s 2])] →
    ((∃ n ∈ lengths, ∀ p q r : Nat, n ≠ ((2 ^ p * 3 ^ q * 5 ^ r : Nat) : Int)) →
      exec i s = .next (raise .invalidLength s)) ∧
    (∀ es : List (Nat × Nat × Nat),
      lengths = es.map (fun e => ((2 ^ e.1 * 3 ^ e.2.1 * 5 ^ e.2.2 : Nat) : Int)) →
      s.par.twDepth.toNat < (es.map fun e => tableSize e.1 e.2.1 e.2.2).sum →
      exec i s = .next (raise .capacity s))

/-- R145: two plans, built by any successful CREATEPLAN commands in blocks with the same `PREC` and `TWGEN`, hold identical
tables for axes of the same length, whatever `TW` held before and whatever the other axes are. -/
def Obligations.TablesDependOnLengthOnly : Prop :=
  ∀ (s s' t t' : State) (i i' : Instr),
    i ∈ [.createPlan1, .createPlan2, .createPlan3] → i' ∈ [.createPlan1, .createPlan2, .createPlan3] →
    s.par.prec = s'.par.prec → s.par.twgen = s'.par.twgen →
    exec i s = .next t → t.status.err = .ok → exec i' s' = .next t' → t'.status.err = .ok →
    ∀ ax ∈ t.plan.axes, ∀ ax' ∈ t'.plan.axes, ax.n = ax'.n → ∀ e, e < axisTableSize ax →
      ∃ v, wordAt s.par.prec t.tw (ax.twBase.toNat + e) = some v ∧
        wordAt s.par.prec t'.tw (ax'.twBase.toNat + e) = some v

/-- The constants of the tables and the kernels. R144: the exact entries, for every generator. R143, for the groups of 3, 5, 8
and 16: the default generator's entries are the cosine and the sine rounded once, and every generator's are within 1 unit in
the last place (log 14: for larger groups that rests on no statement). R163: the five kernel constants are the named real
numbers rounded once, and 1.0, 0.5 and 0.25 are exact. -/
def Obligations.ExactTwiddleEntries : Prop :=
  (∀ (g : TwGen) (f : Prec) (K ni : Nat), 0 < ni → K < ni →
    (K = 0 → twgenCos g f K ni = fpOne f ∧ twgenSin g f K ni = 0#64) ∧
    (2 * K = ni → twgenCos g f K ni = fpNeg f (fpOne f) ∧ twgenSin g f K ni = 0#64) ∧
    (4 * K = ni → twgenCos g f K ni = 0#64 ∧ twgenSin g f K ni = fpOne f) ∧
    (4 * K = 3 * ni → twgenCos g f K ni = 0#64 ∧ twgenSin g f K ni = fpNeg f (fpOne f)) ∧
    (3 * K = ni ∨ 3 * K = 2 * ni → twgenCos g f K ni = fpNeg f (fpHalf f))) ∧
  (∀ (f : Prec) (K ni : Nat), ni ∈ [3, 5, 8, 16] → K < ni →
    (∀ x, x = Real.cos (2 * Real.pi * K / ni) → x ≠ 0 →
      withinUlps f (1 / 2) x (twgenCos .correctlyRounded f K ni) ∧ ∀ g, withinUlps f 1 x (twgenCos g f K ni)) ∧
    (∀ x, x = Real.sin (2 * Real.pi * K / ni) → x ≠ 0 →
      withinUlps f (1 / 2) x (twgenSin .correctlyRounded f K ni) ∧ ∀ g, withinUlps f 1 x (twgenSin g f K ni))) ∧
  ∀ f : Prec,
    withinUlps f (1 / 2) (Real.sqrt (1 / 2)) (fpSqrtHalf f) ∧ withinUlps f (1 / 2) (Real.sqrt 3 / 2) (fpSin60 f) ∧
    withinUlps f (1 / 2) (Real.sqrt 5 / 4) (fpQrt5 f) ∧ withinUlps f (1 / 2) (Real.sin (Real.pi / 5)) (fpSin36 f) ∧
    withinUlps f (1 / 2) (Real.sin (2 * Real.pi / 5)) (fpSin72 f) ∧
    wordReal f (fpOne f) = 1 ∧ wordReal f (fpHalf f) = 1 / 2 ∧ wordReal f (fpQuarter f) = 1 / 4

/-! ### SETLAYOUT, GETLAYOUT -/

/-- R126: `SETLAYOUT` in all its cases. natural(rm) is n of the last axis for row-major and n1 for column-major. -/
def Obligations.SetLayoutResult : Prop :=
  ∀ (s : State) (rm : Bool) (nat : Reg),
    nat = (if rm then (planAxis s.plan s.plan.naxes).n else s.plan.axis1.n) →
    (s.plan.naxes = 0#2 → exec (.setLayout rm) s = .next (raise .uninitializedPlan s)) ∧
    (s.plan.naxes ≠ 0#2 → argSigned s 0 ≤ 0 →
      exec (.setLayout rm) s = .next
        { s with
          rowMajor := rm
          leadDim := nat
          regs := { s.regs with res0 := 0#32, res1 := 0#32, res2 := 0#32 }
          status := { busy := false, done := true, err := .ok } }) ∧
    (s.plan.naxes ≠ 0#2 → 0 < argSigned s 0 → argSigned s 0 < nat.toNat →
      exec (.setLayout rm) s = .next (raise .invalidLeadingDimension s)) ∧
    (s.plan.naxes ≠ 0#2 → 0 < argSigned s 0 → (nat.toNat : Int) ≤ argSigned s 0 →
      exec (.setLayout rm) s = .next
        { s with
          rowMajor := rm
          leadDim := s.regs.arg0
          regs := { s.regs with res0 := 0#32, res1 := 0#32, res2 := 0#32 }
          status := { busy := false, done := true, err := .ok } })

/-- R127: `GETLAYOUT` returns the layout flag and the effective leading dimension, or fails with UninitializedPlan. -/
def Obligations.GetLayoutResult : Prop :=
  ∀ s : State,
    (s.plan.naxes = 0#2 → exec .getLayout s = .next (raise .uninitializedPlan s)) ∧
    (s.plan.naxes ≠ 0#2 → exec .getLayout s = .next
      { s with
        regs := { s.regs with res0 := (if s.rowMajor then 1#32 else 0#32), res1 := s.leadDim, res2 := 0#32 }
        status := { busy := false, done := true, err := .ok } })

/-! ### The execution commands: checks, completion, frame -/

/-- R230 with R240, R254 and R255: the failures of `TRANSFORM` in their priority, with `Emax` written out from the table of
R240. -/
def Obligations.TransformFailures : Prop :=
  ∀ (s : State) (dir : Dir) (split : Bool) (n1 n2 n3 ld emax : Nat),
    n1 = s.plan.axis1.n.toNat → n2 = s.plan.axis2.n.toNat → n3 = s.plan.axis3.n.toNat → ld = s.leadDim.toNat →
    (s.plan.naxes = 1#2 → emax = n1 - 1) →
    (s.plan.naxes = 2#2 → emax = if s.rowMajor then (n1 - 1) * ld + (n2 - 1) else n1 - 1 + (n2 - 1) * ld) →
    (s.plan.naxes = 3#2 → emax = if s.rowMajor then (n1 * n2 - 1) * ld + (n3 - 1) else n1 - 1 + ld * (n2 * n3 - 1)) →
    (s.plan.naxes = 0#2 → exec (.transform dir split) s = .next (raise .uninitializedPlan s)) ∧
    (s.plan.naxes ≠ 0#2 → dir = .d0 ∨ dir = .d2 →
      exec (.transform dir split) s = .next (raise .invalidDirection s)) ∧
    (s.plan.naxes ≠ 0#2 → dir = .forward ∨ dir = .inverse → ¬ fits s split emax →
      exec (.transform dir split) s = .next (raise .capacity s))

/-- R226, R254 and R255: the failures of `DISPATCH`, `RUN2`, `RUN3` and `RUN5` in their priority. The first clause is the
model's choice, log 16: a term with `AXIS` = 0 has no encoding (R93) and completes as the illegal command it would be. -/
def Obligations.DirectCommandFailures : Prop :=
  ∀ (s : State) (axis : BitVec 2) (dir : Dir) (split : Bool) (n emax : Nat),
    n = (planAxis s.plan axis).n.toNat →
    emax = (n - 1) * argUnsigned s 2 + (argUnsigned s 4 - 1) * argUnsigned s 3 →
    ∀ make ∈ directMakers,
      (axis = 0#2 → exec (make axis dir split) s = .next (raise .illegalCommand s)) ∧
      (axis ≠ 0#2 → s.plan.naxes < axis → exec (make axis dir split) s = .next (raise .uninitializedPlan s)) ∧
      (axis ≠ 0#2 → axis ≤ s.plan.naxes → dir = .d0 ∨ dir = .d2 →
        exec (make axis dir split) s = .next (raise .invalidDirection s)) ∧
      (axis ≠ 0#2 → axis ≤ s.plan.naxes → dir = .forward ∨ dir = .inverse → argUnsigned s 4 ≠ 0 → ¬ fits s split emax →
        exec (make axis dir split) s = .next (raise .capacity s))

/-- R230, R236 and R251: a `TRANSFORM` that passes its checks completes with success; it changes only bytes of the words of
R236, and no register but `RES0..2` and `STATUS`; where those words are pairwise distinct and all have a value the counter of
free values (the model's own, log 5) does not move either. Footprints with unwritten words and with a word twice are covered:
the model runs them, as R287 and R283 say the hardware does (the model's choice, logs 4 and 7). -/
def Obligations.TransformCompletes : Prop :=
  ∀ (s : State) (dir : Dir) (split : Bool), s.plan.good → s.plan.naxes ≠ 0#2 → dir = .forward ∨ dir = .inverse →
    fits s split (planEmax s) →
    ∃ t, exec (.transform dir split) s = .next t ∧
      t = { s with
        sig := t.sig
        free := t.free
        regs := { s.regs with res0 := 0#32, res1 := 0#32, res2 := 0#32 }
        status := { busy := false, done := true, err := .ok } } ∧
      (∀ x, ¬ inWords s.par.prec (planWords split s) x → memRead t.sig x = memRead s.sig x) ∧
      ((planWords split s).Nodup → (∀ w ∈ planWords split s, wordAt s.par.prec s.sig w ≠ none) → t.free = s.free)

/-- R165, R220, R226, R180, R200 and R210: a `DISPATCH`, `RUN2`, `RUN3` or `RUN5` that passes its checks, one with lot = 0
among them, completes with success; it changes only bytes of the words of its footprint (none for lot = 0), and no register
but `RES0..2` and `STATUS`; where those words are pairwise distinct and all have a value the counter of free values (the
model's own, log 5) does not move either. Footprints with unwritten words and with a word twice are covered: the model runs
them, as R287 and R283 say the hardware does (the model's choice, logs 4 and 7). -/
def Obligations.DirectCommandsComplete : Prop :=
  ∀ (s : State) (axis : BitVec 2) (dir : Dir) (split : Bool) (n : Nat), n = (planAxis s.plan axis).n.toNat →
    axis ≠ 0#2 → axis ≤ s.plan.naxes → dir = .forward ∨ dir = .inverse →
    argUnsigned s 4 = 0 ∨
      fits s split ((n - 1) * argUnsigned s 2 + (argUnsigned s 4 - 1) * argUnsigned s 3) →
    ∀ make ∈ directMakers, ∃ t, exec (make axis dir split) s = .next t ∧
      t = { s with
        sig := t.sig
        free := t.free
        regs := { s.regs with res0 := 0#32, res1 := 0#32, res2 := 0#32 }
        status := { busy := false, done := true, err := .ok } } ∧
      (∀ x, ¬ inWords s.par.prec (directWords n split s) x → memRead t.sig x = memRead s.sig x) ∧
      ((directWords n split s).Nodup → (∀ w ∈ directWords n split s, wordAt s.par.prec s.sig w ≠ none) → t.free = s.free)

/-- 42_engine_common.md R164: an engine whose exponent is 0 does nothing: `RUN2`, `RUN3` and `RUN5` on an axis without the
factor, `DISPATCH` on an axis of length 1, and a `TRANSFORM` whose axes all have length 1 (R230, R236: "it accesses none"),
complete with success and no effect, whatever the footprint. -/
def Obligations.AbsentGroupDoesNothing : Prop :=
  (∀ (s : State) (axis : BitVec 2) (dir : Dir) (split : Bool), axis ≠ 0#2 → axis ≤ s.plan.naxes →
    dir = .forward ∨ dir = .inverse →
    fits s split (((planAxis s.plan axis).n.toNat - 1) * argUnsigned s 2 + (argUnsigned s 4 - 1) * argUnsigned s 3) →
    ∀ t, t = { s with
        regs := { s.regs with res0 := 0#32, res1 := 0#32, res2 := 0#32 }
        status := { busy := false, done := true, err := .ok } } →
      ((planAxis s.plan axis).p = 0#5 → exec (.run2 axis dir split) s = .next t) ∧
      ((planAxis s.plan axis).q = 0#5 → exec (.run3 axis dir split) s = .next t) ∧
      ((planAxis s.plan axis).r = 0#5 → exec (.run5 axis dir split) s = .next t) ∧
      ((planAxis s.plan axis).p = 0#5 → (planAxis s.plan axis).q = 0#5 → (planAxis s.plan axis).r = 0#5 →
        exec (.dispatch axis dir split) s = .next t)) ∧
  ∀ (s : State) (dir : Dir) (split : Bool), s.plan.good → s.plan.naxes ≠ 0#2 → (∀ ax ∈ s.plan.axes, ax.n = 1#32) →
    dir = .forward ∨ dir = .inverse → fits s split (planEmax s) →
    exec (.transform dir split) s = .next
      { s with
        regs := { s.regs with res0 := 0#32, res1 := 0#32, res2 := 0#32 }
        status := { busy := false, done := true, err := .ok } }

/-- R221: `DISPATCH` is `RUN2`, `RUN3` and `RUN5` one after another with the same operands, in the whole state and bit for bit,
where the footprint's words are pairwise distinct (R283), and either all have a value (R287) or a check fails. That the
equality is bit for bit where a NaN arises is the model's choice (log 12); U3 compares modulo NaN identity. -/
def Obligations.DispatchIsRun2Run3Run5 : Prop :=
  ∀ (s : State) (axis : BitVec 2) (dir : Dir) (split : Bool),
    (directWords (planAxis s.plan axis).n.toNat split s).Nodup →
    (∀ w ∈ directWords (planAxis s.plan axis).n.toNat split s, wordAt s.par.prec s.sig w ≠ none) ∨
      (∃ t, exec (.dispatch axis dir split) s = .next t ∧ t.status.err ≠ .ok) →
    ∃ a b, exec (.run2 axis dir split) s = .next a ∧ exec (.run3 axis dir split) a = .next b ∧
      exec (.dispatch axis dir split) s = exec (.run5 axis dir split) b

/-- R233, R234 and R235: a `TRANSFORM` that passes its checks, on words that are pairwise distinct (R283) and have values
(R287), is its schedule: `SIG` is what the dispatcher calls of the rules' lists leave, each made by a `DISPATCH` with the
call's operands on what the call before it left. That the two are equal bit for bit where a NaN arises is the model's choice
(log 12); U3 compares modulo NaN identity. -/
def Obligations.TransformIsItsSchedule : Prop :=
  ∀ (s : State) (dir : Dir) (split : Bool) (n1 n2 n3 ld : Nat) (calls : List Call),
    s.plan.good → s.leadDim.toNat < 2 ^ 31 → s.plan.naxes ≠ 0#2 → dir = .forward ∨ dir = .inverse →
    fits s split (planEmax s) → (planWords split s).Nodup →
    (∀ w ∈ planWords split s, wordAt s.par.prec s.sig w ≠ none) →
    n1 = s.plan.axis1.n.toNat → n2 = s.plan.axis2.n.toNat → n3 = s.plan.axis3.n.toNat → ld = s.leadDim.toNat →
    (s.plan.naxes = 1#2 → calls = [{ axis := 1#2, off := 0, inc := 1, jump := 0, lot := 1 }]) →
    (s.plan.naxes = 2#2 → s.rowMajor = true → calls =
      [{ axis := 2#2, off := 0, inc := 1, jump := ld, lot := n1 }, { axis := 1#2, off := 0, inc := ld, jump := 1, lot := n2 }]) →
    (s.plan.naxes = 2#2 → s.rowMajor = false → calls =
      [{ axis := 2#2, off := 0, inc := ld, jump := 1, lot := n1 }, { axis := 1#2, off := 0, inc := 1, jump := ld, lot := n2 }]) →
    (s.plan.naxes = 3#2 → s.rowMajor = true → calls =
      [{ axis := 3#2, off := 0, inc := 1, jump := ld, lot := n1 * n2 }]
        ++ (List.range n1).map (fun i1 => { axis := 2#2, off := i1 * n2 * ld, inc := ld, jump := 1, lot := n3 })
        ++ (List.range n2).map (fun i2 => { axis := 1#2, off := i2 * ld, inc := n2 * ld, jump := 1, lot := n3 })) →
    (s.plan.naxes = 3#2 → s.rowMajor = false → calls =
      (List.range n2).map (fun i2 => { axis := 3#2, off := i2 * ld, inc := ld * n2, jump := 1, lot := n1 })
        ++ (List.range n3).map (fun i3 => { axis := 2#2, off := i3 * ld * n2, inc := ld, jump := 1, lot := n1 })
        ++ [{ axis := 1#2, off := 0, inc := 1, jump := ld, lot := n2 * n3 }]) →
    ∃ t, exec (.transform dir split) s = .next t ∧ t.status.err = .ok ∧ dispatchAll dir split s calls s.sig = some t.sig

/-! ### What the engines compute -/

/-- R180, R181 and R182: `RUN2` on one lot of an axis of length 2 leaves the sum and the difference of the two elements. R287:
where some word of the lot has no value, the command completes with success too, and every word of the lot holds a free value
that depends on nothing but the counter and the word, and the counter moves on, so that no later command leaves the same (the
model's choice, logs 4 and 5, where U1 would refuse). -/
def Obligations.Run2OfLengthTwo : Prop :=
  (∀ (s : State) (axis : BitVec 2) (dir : Dir) (split : Bool) (x : Nat → Cpx Word),
    singleLot s axis dir split 2 x → (planAxis s.plan axis).p = 1#5 →
    ∃ t, exec (.run2 axis dir split) s = .next t ∧ t.status.err = .ok ∧
      holdsElement s split t.sig 0
        (fpAdd s.par.prec (x 0).1 (x 1).1, fpAdd s.par.prec (x 0).2 (x 1).2) ∧
      holdsElement s split t.sig (argUnsigned s 2)
        (fpSub s.par.prec (x 0).1 (x 1).1, fpSub s.par.prec (x 0).2 (x 1).2)) ∧
  ∀ (s : State) (axis : BitVec 2) (dir : Dir) (split : Bool), oneLot s axis dir split 2 → (planAxis s.plan axis).p = 1#5 →
    (∃ w ∈ directWords 2 split s, wordAt s.par.prec s.sig w = none) →
    ∃ t, exec (.run2 axis dir split) s = .next t ∧ t.status.err = .ok ∧ t.free = s.free + 1 ∧
      ∀ w ∈ directWords 2 split s,
        wordAt s.par.prec t.sig w = some (truncWord s.par.prec (Config.unwrittenWord s.free .sig w))

/-- R180, R181, R183 and R185: `RUN2` on one lot of an axis of length 4 leaves `kernel_4` of the four elements, with ss = 1.0
for the sign +1 and ss = -1.0 for the sign -1. -/
def Obligations.Run2OfLengthFour : Prop :=
  ∀ (s : State) (axis : BitVec 2) (dir : Dir) (split : Bool) (x : Nat → Cpx Word) (f : Prec) (ss t0 t1 t2 t3 u0 u1 u2 u3 : Word),
    singleLot s axis dir split 4 x → (planAxis s.plan axis).p = 2#5 → f = s.par.prec →
    ss = (if directionSign s.par.fwdSign dir = some .plus then fpOne f else fpNeg f (fpOne f)) →
    t0 = fpAdd f (x 0).1 (x 2).1 → t2 = fpSub f (x 0).1 (x 2).1 →
    t1 = fpAdd f (x 1).1 (x 3).1 → t3 = fpMul f ss (fpSub f (x 1).1 (x 3).1) →
    u0 = fpAdd f (x 0).2 (x 2).2 → u2 = fpSub f (x 0).2 (x 2).2 →
    u1 = fpAdd f (x 1).2 (x 3).2 → u3 = fpMul f ss (fpSub f (x 1).2 (x 3).2) →
    ∃ t, exec (.run2 axis dir split) s = .next t ∧ t.status.err = .ok ∧
      holdsElement s split t.sig 0 (fpAdd f t0 t1, fpAdd f u0 u1) ∧
      holdsElement s split t.sig (argUnsigned s 2) (fpSub f t2 u3, fpAdd f u2 t3) ∧
      holdsElement s split t.sig (2 * argUnsigned s 2) (fpSub f t0 t1, fpSub f u0 u1) ∧
      holdsElement s split t.sig (3 * argUnsigned s 2) (fpAdd f t2 u3, fpSub f u2 t3)

/-- R200 to R203 (the value of `SIN60`, R163, is in ExactTwiddleEntries): `RUN3` on one lot of an axis of length 3 leaves
`kernel_3` of the three elements, with `SIN60` for the sign +1 and its negative for the sign -1. -/
def Obligations.Run3OfLengthThree : Prop :=
  ∀ (s : State) (axis : BitVec 2) (dir : Dir) (split : Bool) (x : Nat → Cpx Word) (f : Prec) (c1 t1 t2 t3 u1 u2 u3 : Word),
    singleLot s axis dir split 3 x → (planAxis s.plan axis).q = 1#5 → f = s.par.prec →
    c1 = (if directionSign s.par.fwdSign dir = some .plus then fpSin60 f else fpNeg f (fpSin60 f)) →
    t1 = fpAdd f (x 1).1 (x 2).1 → t2 = fpSub f (x 0).1 (fpMul f (fpHalf f) t1) →
    t3 = fpMul f c1 (fpSub f (x 1).1 (x 2).1) →
    u1 = fpAdd f (x 1).2 (x 2).2 → u2 = fpSub f (x 0).2 (fpMul f (fpHalf f) u1) →
    u3 = fpMul f c1 (fpSub f (x 1).2 (x 2).2) →
    ∃ t, exec (.run3 axis dir split) s = .next t ∧ t.status.err = .ok ∧
      holdsElement s split t.sig 0 (fpAdd f (x 0).1 t1, fpAdd f (x 0).2 u1) ∧
      holdsElement s split t.sig (argUnsigned s 2) (fpSub f t2 u3, fpAdd f u2 t3) ∧
      holdsElement s split t.sig (2 * argUnsigned s 2) (fpAdd f t2 u3, fpSub f u2 t3)

/-- R210 to R213 (the values of `QRT5`, `SIN36` and `SIN72`, R163, are in ExactTwiddleEntries): `RUN5` on one lot of an axis
of length 5 leaves `kernel_5` of the five elements, with the constants of the row μ = 1 for the sign +1 and of the row μ = 4
for the sign -1. -/
def Obligations.Run5OfLengthFive : Prop :=
  ∀ (s : State) (axis : BitVec 2) (dir : Dir) (split : Bool) (x : Nat → Cpx Word) (f : Prec)
    (c1 c2 c3 t1 t2 t3 t4 t5 t6 t7 t8 t9 t10 t11 u1 u2 u3 u4 u5 u6 u7 u8 u9 u10 u11 : Word),
    singleLot s axis dir split 5 x → (planAxis s.plan axis).r = 1#5 → f = s.par.prec →
    c1 = fpQrt5 f →
    c2 = (if directionSign s.par.fwdSign dir = some .plus then fpSin72 f else fpNeg f (fpSin72 f)) →
    c3 = (if directionSign s.par.fwdSign dir = some .plus then fpSin36 f else fpNeg f (fpSin36 f)) →
    t1 = fpAdd f (x 1).1 (x 4).1 → t2 = fpAdd f (x 2).1 (x 3).1 →
    t3 = fpSub f (x 1).1 (x 4).1 → t4 = fpSub f (x 2).1 (x 3).1 →
    t5 = fpAdd f t1 t2 → t6 = fpMul f c1 (fpSub f t1 t2) →
    t7 = fpSub f (x 0).1 (fpMul f (fpQuarter f) t5) → t8 = fpAdd f t7 t6 → t9 = fpSub f t7 t6 →
    t10 = fpSub f (fpMul f c3 t3) (fpMul f c2 t4) → t11 = fpAdd f (fpMul f c2 t3) (fpMul f c3 t4) →
    u1 = fpAdd f (x 1).2 (x 4).2 → u2 = fpAdd f (x 2).2 (x 3).2 →
    u3 = fpSub f (x 1).2 (x 4).2 → u4 = fpSub f (x 2).2 (x 3).2 →
    u5 = fpAdd f u1 u2 → u6 = fpMul f c1 (fpSub f u1 u2) →
    u7 = fpSub f (x 0).2 (fpMul f (fpQuarter f) u5) → u8 = fpAdd f u7 u6 → u9 = fpSub f u7 u6 →
    u10 = fpSub f (fpMul f c3 u3) (fpMul f c2 u4) → u11 = fpAdd f (fpMul f c2 u3) (fpMul f c3 u4) →
    ∃ t, exec (.run5 axis dir split) s = .next t ∧ t.status.err = .ok ∧
      holdsElement s split t.sig 0 (fpAdd f (x 0).1 t5, fpAdd f (x 0).2 u5) ∧
      holdsElement s split t.sig (argUnsigned s 2) (fpSub f t8 u11, fpAdd f u8 t11) ∧
      holdsElement s split t.sig (2 * argUnsigned s 2) (fpSub f t9 u10, fpAdd f u9 t10) ∧
      holdsElement s split t.sig (3 * argUnsigned s 2) (fpAdd f t9 u10, fpSub f u9 t10) ∧
      holdsElement s split t.sig (4 * argUnsigned s 2) (fpAdd f t8 u11, fpSub f u8 t11)

/-- R227: the impulse result is exact: on a one-axis plan a signal that is (1.0, +0.0) at index 0 and (+0.0, +0.0) elsewhere
becomes (1.0, +0.0) at every index, for every length, both directions, both shapes and every `TWGEN` of the model. -/
def Obligations.ImpulseIsExact : Prop :=
  ∀ (s : State) (dir : Dir) (split : Bool), s.plan.good → s.plan.naxes = 1#2 → dir = .forward ∨ dir = .inverse →
    holdsTable s.par.prec s.par.twgen s.tw s.plan.axis1 →
    fits s split (s.plan.axis1.n.toNat - 1) → (planWords split s).Nodup →
    holdsElement s split s.sig 0 (fpOne s.par.prec, 0#64) →
    (∀ j, 0 < j → j < s.plan.axis1.n.toNat → holdsElement s split s.sig j (0#64, 0#64)) →
    ∃ t, exec (.transform dir split) s = .next t ∧ t.status.err = .ok ∧
      ∀ j, j < s.plan.axis1.n.toNat → holdsElement s split t.sig j (fpOne s.par.prec, 0#64)

/-- R158 with R8 and R283: the lots of a batch are computed independently: what a direct command leaves in the elements of lot
l is what the same command leaves there run on that lot alone (bases moved to it, lot = 1), bit for bit. That the two agree
bit for bit where a NaN arises (log 12), and in the free values of a lot with an unwritten word (log 4), is the model's
choice. -/
def Obligations.BatchInvariance : Prop :=
  ∀ (s : State) (axis : BitVec 2) (dir : Dir) (split : Bool) (n l : Nat), n = (planAxis s.plan axis).n.toNat →
    axis ≠ 0#2 → axis ≤ s.plan.naxes → dir = .forward ∨ dir = .inverse → 0 < n →
    fits s split ((n - 1) * argUnsigned s 2 + (argUnsigned s 4 - 1) * argUnsigned s 3) →
    (directWords n split s).Nodup → l < argUnsigned s 4 →
    ∀ make ∈ directMakers, ∃ t t1, exec (make axis dir split) s = .next t ∧
      exec (make axis dir split)
        (withCall split { axis := axis, off := l * argUnsigned s 3, inc := argUnsigned s 2, jump := argUnsigned s 3, lot := 1 } s)
        = .next t1 ∧
      ∀ j, j < n → ∀ w ∈ elementWords (signalShape split s) [j * argUnsigned s 2 + l * argUnsigned s 3],
        wordAt s.par.prec t.sig w = wordAt s.par.prec t1.sig w

/-- R239 for the leading dimension and the layout, R66 with R230 to R236 for the shape and the place of the signal: none of
them changes a result: two `TRANSFORM` commands on blocks with the same parameters, plan and tables, whose logical elements
hold the same words, leave the same words in every logical element, bit for bit. That they do where a NaN arises is the
model's choice (log 12); U3 compares modulo NaN identity. -/
def Obligations.LayoutInvariance : Prop :=
  ∀ (s s' : State) (dir : Dir) (split split' : Bool),
    s.par = s'.par → s.plan = s'.plan → s.tw = s'.tw → s.plan.good → s.plan.naxes ≠ 0#2 →
    dir = .forward ∨ dir = .inverse →
    (∀ ax ∈ s.plan.axes, holdsTable s.par.prec s.par.twgen s.tw ax) →
    (naturalDim s.plan s.rowMajor).toNat ≤ s.leadDim.toNat → (naturalDim s'.plan s'.rowMajor).toNat ≤ s'.leadDim.toNat →
    fits s split (planEmax s) → fits s' split' (planEmax s') →
    (planWords split s).Nodup → (planWords split' s').Nodup →
    (∀ i1 i2 i3, i1 < axisLength s.plan 1#2 → i2 < axisLength s.plan 2#2 → i3 < axisLength s.plan 3#2 →
      ∃ v, holdsElement s split s.sig (planElement s i1 i2 i3) v ∧ holdsElement s' split' s'.sig (planElement s' i1 i2 i3) v) →
    ∃ t t', exec (.transform dir split) s = .next t ∧ exec (.transform dir split') s' = .next t' ∧
      ∀ i1 i2 i3, i1 < axisLength s.plan 1#2 → i2 < axisLength s.plan 2#2 → i3 < axisLength s.plan 3#2 →
        ∃ v, holdsElement s split t.sig (planElement s i1 i2 i3) v ∧
          holdsElement s' split' t'.sig (planElement s' i1 i2 i3) v

/-- R147 and R165: an engine reads `TW` only inside its own sub-table and never pair 0 of it: two twiddle memories that agree on
the entries T + 2 to T + 2·ni - 1 give the same result. That the NaNs and the free values of unwritten words are the
same too is the model's choice (logs 12 and 4); so is, where the descriptor reaches a word twice (R283), the order over the
lots in which both runs go (log 7). -/
def Obligations.EngineReadsOwnSubTable : Prop :=
  ∀ (f : Prec) (free : Nat) (tw tw' : Memory) (d : EngineDesc) (b : Prime) (mm T : Nat) (sig : Memory),
    (∀ e, 2 ≤ e → e < 2 * primeVal b ^ mm → wordAt f tw (T + e) = wordAt f tw' (T + e)) →
    engineRun f free tw d b mm T sig = engineRun f free tw' d b mm T sig

/-! ### Index arithmetic -/

/-- R154 with R181, R201 and R211: the radices of a pass list multiply to ni = b^mm; type I passes come first; every pass's
radix times the product `la` of the radices before it divides ni; and every type II pass has la² a multiple of ni. Which lists
they are: the first rows of the tables of R181, R201 and R211, and how every further list grows from an earlier one by their
formulas (four more binary digits, or two more of base 3 or 5, are one more type I pass in front and one more type II pass at
the end). -/
def Obligations.PassListsMultiplyToGroup : Prop :=
  (∀ (b : Prime) (mm : Nat), 0 < mm →
    ((passList b mm).map fun p => radixVal p.radix).prod = primeVal b ^ mm ∧
    ∀ (before after : List Pass) (p : Pass), passList b mm = before ++ p :: after →
      (before.map fun p => radixVal p.radix).prod * radixVal p.radix ∣ primeVal b ^ mm ∧
      (p.typeII = true → (∀ p' ∈ after, p'.typeII = true) ∧
        primeVal b ^ mm ∣ (before.map fun p => radixVal p.radix).prod ^ 2)) ∧
  (passList .two 1 = [⟨.r2, false⟩] ∧ passList .two 2 = [⟨.r4, false⟩] ∧ passList .two 3 = [⟨.r8, false⟩] ∧
    passList .two 4 = [⟨.r4, false⟩, ⟨.r4, true⟩] ∧
    ∀ p, 0 < p → passList .two (p + 4) = ⟨.r4, false⟩ :: (passList .two p ++ [⟨.r4, true⟩])) ∧
  (passList .three 1 = [⟨.r3, false⟩] ∧ passList .three 2 = [⟨.r3, false⟩, ⟨.r3, true⟩] ∧
    ∀ q, 0 < q → passList .three (q + 2) = ⟨.r3, false⟩ :: (passList .three q ++ [⟨.r3, true⟩])) ∧
  (passList .five 1 = [⟨.r5, false⟩] ∧ passList .five 2 = [⟨.r5, false⟩, ⟨.r5, true⟩] ∧
    ∀ r, 0 < r → passList .five (r + 2) = ⟨.r5, false⟩ :: (passList .five r ++ [⟨.r5, true⟩]))

/-- R152: t(ν, u) is a bijection from the pairs with ν < inq and u < ni onto 0 .. n - 1, where ni and inq are coprime. -/
def Obligations.RingIndexIsBijection : Prop :=
  ∀ (ni inq n : Nat), Nat.Coprime ni inq → n = ni * inq → 0 < n →
    (∀ nu u, ringIndex n ni inq nu u < n) ∧
    ∀ t, t < n → ∃! p : Nat × Nat, p.1 < inq ∧ p.2 < ni ∧ ringIndex n ni inq p.1 p.2 = t

/-- R240: `Emax` is the largest element index a `TRANSFORM` touches. -/
def Obligations.EmaxIsLargestIndex : Prop :=
  ∀ (naxes : BitVec 2) (rm : Bool) (n1 n2 n3 ld : Nat), naxes ≠ 0#2 → 0 < n1 → 0 < n2 → 0 < n3 →
    (naxes = 1#2 → n2 = 1 ∧ n3 = 1) → (naxes = 2#2 → n3 = 1) →
    transformEmax naxes rm n1 n2 n3 ld ∈ transformElements naxes rm n1 n2 n3 ld ∧
    ∀ e ∈ transformElements naxes rm n1 n2 n3 ld, e ≤ transformEmax naxes rm n1 n2 n3 ld

/-- R236: every schedule entry stays inside the element indices of R231. -/
def Obligations.ScheduleStaysInside : Prop :=
  ∀ (naxes : BitVec 2) (rm : Bool) (n1 n2 n3 ld : Nat), naxes ≠ 0#2 → 0 < n1 → 0 < n2 → 0 < n3 →
    (naxes = 1#2 → n2 = 1 ∧ n3 = 1) → (naxes = 2#2 → n3 = 1) →
    ∀ c ∈ schedule naxes rm n1 n2 n3 ld, ∀ t l,
      t < (match c.axis.toNat with | 1 => n1 | 2 => n2 | _ => n3) → l < c.lot →
      c.off + t * c.inc + l * c.jump ∈ transformElements naxes rm n1 n2 n3 ld

/-- R283 with R35: the orchestrator's own element indices are pairwise distinct where `LEADDIM` ≥ natural, so an interleaved
signal never has a word twice in its footprint. -/
def Obligations.LegalLayoutsDoNotAlias : Prop :=
  ∀ (s : State), s.plan.good → s.plan.naxes ≠ 0#2 → (naturalDim s.plan s.rowMajor).toNat ≤ s.leadDim.toNat →
    (transformElements s.plan.naxes s.rowMajor (axisLength s.plan 1#2) (axisLength s.plan 2#2) (axisLength s.plan 3#2)
      s.leadDim.toNat).Nodup ∧
    (planWords false s).Nodup

/-! ### Arithmetic -/

/-- 42_engine_common.md R160: `⊕` and `⊖` of finite values are the exact sum and difference rounded once by roundTiesToEven; an
exact zero sum is -0 where both operands are negative (for `⊖`, the first and the negated second), else +0; and `neg` flips
the sign bit and keeps every other bit. -/
def Obligations.SumsAreCorrectlyRounded : Prop :=
  ∀ (f : Prec) (a b : Word), fpFinite f a = true → fpFinite f b = true →
    roundsTo f (signedUnits f a + signedUnits f b) 0 (fpAdd f a b) ∧
    roundsTo f (signedUnits f a - signedUnits f b) 0 (fpSub f a b) ∧
    (signedUnits f a + signedUnits f b = 0 → fpSign f (fpAdd f a b) = (fpSign f a && fpSign f b)) ∧
    (signedUnits f a - signedUnits f b = 0 → fpSign f (fpSub f a b) = (fpSign f a && !fpSign f b)) ∧
    fpSign f (fpNeg f a) = !fpSign f a ∧ ∀ k, k ≠ flen f - 1 → (fpNeg f a).getLsbD k = a.getLsbD k

/-- 42_engine_common.md R160: `⊗` of finite values is the exact product rounded once by roundTiesToEven; its sign is the
exclusive or of the signs, of a zero product too. -/
def Obligations.ProductsAreCorrectlyRounded : Prop :=
  ∀ (f : Prec) (a b : Word), fpFinite f a = true → fpFinite f b = true →
    roundsTo f (signedUnits f a * signedUnits f b) (unitExp f) (fpMul f a b) ∧
    fpSign f (fpMul f a b) = (fpSign f a != fpSign f b)

/-- 42_engine_common.md R162: where the three operations give a NaN: a NaN operand, ∞ ⊖ ∞ (the sum of opposite infinities), 0
⊗ ∞; and nowhere else. -/
def Obligations.WhereNaNsArise : Prop :=
  ∀ (f : Prec) (a b : Word),
    (isNaN f (fpAdd f a b) = true ↔ isNaN f a = true ∨ isNaN f b = true ∨
      (isInf f a = true ∧ isInf f b = true ∧ fpSign f a ≠ fpSign f b)) ∧
    (isNaN f (fpSub f a b) = true ↔ isNaN f a = true ∨ isNaN f b = true ∨
      (isInf f a = true ∧ isInf f b = true ∧ fpSign f a = fpSign f b)) ∧
    (isNaN f (fpMul f a b) = true ↔ isNaN f a = true ∨ isNaN f b = true ∨
      (isInf f a = true ∧ isZero f b = true) ∨ (isZero f a = true ∧ isInf f b = true))

/-- R159 with R182 to R185, R202, R203, R212 and R213: in exact arithmetic the kernel of radix ρ with the constants of the
residue μ computes y[d] = Σ_c a[c]·ω_ρ^(μ·c·d). -/
def Obligations.KernelsAreRotatedDfts : Prop :=
  ∀ (rho : Radix) (mu : Nat) (a : Nat → Cpx ℝ), 0 < mu → mu < radixVal rho → Nat.Coprime mu (radixVal rho) →
    (kernel realArith rho mu ((List.range (radixVal rho)).map a)).length = radixVal rho ∧
    ∀ d, d < radixVal rho →
      toComplex ((kernel realArith rho mu ((List.range (radixVal rho)).map a)).getD d (0, 0)) =
        ∑ c ∈ Finset.range (radixVal rho), toComplex (a c) * omega (radixVal rho) (mu * c * d)

/-- R153: what a unit computes in exact arithmetic: the passes of the engine's list turn z into
Z[v] = Σ_u z[u]·ω_ni^(s·kink·u·v), in natural order. -/
def Obligations.UnitIsRotatedDft : Prop :=
  ∀ (b : Prime) (mm inq : Nat) (sign : Sign) (z : Nat → Cpx ℝ), 0 < mm → 0 < inq → Nat.Coprime inq (primeVal b) →
    ∀ v, v < primeVal b ^ mm →
      toComplex (runPasses (realUnit b mm inq sign) (passList b mm) 1 z v) =
        ∑ u ∈ Finset.range (primeVal b ^ mm),
          toComplex (z u) * omega (primeVal b ^ mm) (signVal sign * (inq % primeVal b ^ mm : Nat) * u * v)

/-! ### Invariants -/

/-- Every step keeps the canonical form of both memories (strictly rising byte offsets), from every state. The byte list is the
model's choice, log 6; the byte order is R65's. -/
def Obligations.StepKeepsMemoryForm : Prop :=
  ∀ s t : State, s.tw.wf = true → s.sig.wf = true → step s = .next t → t.tw.wf = true ∧ t.sig.wf = true

/-- Every step keeps the invariant `Inv`: the plan registers are those of a validated plan (R31 to R33, R35), `TW` holds its
tables (R40), the memories stay inside their depths, word by word (R40, R41, R64), the block is idle (R70), and a failure
left 0 in `RES0..2` (R253). -/
def Obligations.StepKeepsInvariant : Prop :=
  ∀ s t : State, Inv s → step s = .next t → Inv t

/-- The state after reset of an instance with legal parameters meets the invariant. -/
def Obligations.ResetMeetsInvariant : Prop :=
  ∀ par : Params, par.legal = true → Inv (State.resetWith par)
end

