-- ==== Sys2Proof/Laws/Memory.lean ====
section
/-! SUPPORT. What each memory operation does, said once: read after write, frames, and the canonical form. -/

namespace Sys2Proof.Machine

open Config (Prec Space)

/-! ### Bytes -/

/-- Read after write, at every offset. -/
theorem memRead_memWrite (m : Memory) (x y : Nat) (v : Byte) :
    memRead (memWrite m x v) y = if y = x then some v else memRead m y := by
  induction m with
  | nil =>
    by_cases h : y = x <;> simp [memWrite, memRead, h]
  | cons c rest ih =>
    obtain ⟨a, b⟩ := c
    rcases Nat.lt_trichotomy x a with h | h | h
    · have h1 : x ≠ a := by omega
      by_cases hy : y = x
      · simp [memWrite, memRead, h, h1, hy]
      · by_cases hyx : y < x
        · have : y ≠ a := by omega
          have : y < a := by omega
          simp [memWrite, memRead, *]
        · simp [memWrite, memRead, *]
    · subst h
      by_cases hy : y = x <;> simp [memWrite, memRead, hy]
    · have h1 : x ≠ a := by omega
      have h2 : ¬ x < a := by omega
      simp only [memWrite, h1, h2, if_false, memRead, ih]
      by_cases hy : y = a
      · simp [hy, Ne.symm h1]
      · by_cases hya : y < a
        · have : y ≠ x := by omega
          simp [*]
        · simp [*]

@[simp] theorem memRead_memWrite_same (m : Memory) (x : Nat) (v : Byte) : memRead (memWrite m x v) x = some v := by
  simp [memRead_memWrite]

theorem memRead_memWrite_ne (m : Memory) {x y : Nat} (v : Byte) (h : y ≠ x) :
    memRead (memWrite m x v) y = memRead m y := by
  simp [memRead_memWrite, h]

/-! ### The canonical form -/

theorem risingFrom_mono {m : Memory} {low low' : Nat} (h : risingFrom low m = true) (hle : low' ≤ low) :
    risingFrom low' m = true := by
  cases m with
  | nil => rfl
  | cons c rest =>
    simp only [risingFrom, Bool.and_eq_true, decide_eq_true_eq] at h ⊢
    exact ⟨by omega, h.2⟩

theorem risingFrom_memWrite {m : Memory} {low x : Nat} (v : Byte) (h : risingFrom low m = true) (hx : low ≤ x) :
    risingFrom low (memWrite m x v) = true := by
  induction m generalizing low with
  | nil => simpa [memWrite, risingFrom] using hx
  | cons c rest ih =>
    obtain ⟨a, b⟩ := c
    simp only [risingFrom, Bool.and_eq_true, decide_eq_true_eq] at h
    simp only [memWrite]
    split
    · simpa [risingFrom] using h
    · split
      · simp only [risingFrom, Bool.and_eq_true, decide_eq_true_eq]
        exact ⟨hx, by omega, h.2⟩
      · simp only [risingFrom, Bool.and_eq_true, decide_eq_true_eq]
        exact ⟨h.1, ih h.2 (by omega)⟩

@[simp] theorem wf_nil : Memory.wf [] = true := rfl

theorem wf_memWrite {m : Memory} (x : Nat) (v : Byte) (h : m.wf = true) : (memWrite m x v).wf = true :=
  risingFrom_memWrite v h (Nat.zero_le x)

/-- In canonical form a listed byte is what its offset reads as. -/
theorem memRead_of_mem {m : Memory} {low : Nat} (h : risingFrom low m = true) {c : Host.Cell} (hc : c ∈ m) :
    memRead m c.1 = some c.2 := by
  induction m generalizing low with
  | nil => simp at hc
  | cons d rest ih =>
    obtain ⟨a, b⟩ := d
    simp only [risingFrom, Bool.and_eq_true, decide_eq_true_eq] at h
    rcases List.mem_cons.1 hc with rfl | hc
    · simp [memRead]
    · have hlow : ∀ {m' : Memory} {l : Nat}, risingFrom l m' = true → ∀ c' ∈ m', l ≤ c'.1 := by
        intro m'
        induction m' with
        | nil => simp
        | cons d' r' ih' =>
          intro l hl c' hc'
          simp only [risingFrom, Bool.and_eq_true, decide_eq_true_eq] at hl
          rcases List.mem_cons.1 hc' with rfl | hc'
          · exact hl.1
          · exact Nat.le_trans (by omega) (ih' hl.2 c' hc')
      have := hlow h.2 c hc
      have h1 : c.1 ≠ a := by omega
      have h2 : ¬ c.1 < a := by omega
      simp only [memRead, h1, h2, if_false]
      exact ih h.2 hc

/-- A byte that reads as a value is listed. -/
theorem mem_of_memRead {m : Memory} {x : Nat} {v : Byte} (h : memRead m x = some v) : (x, v) ∈ m := by
  induction m with
  | nil => simp [memRead] at h
  | cons d rest ih =>
    obtain ⟨a, b⟩ := d
    simp only [memRead] at h
    split at h
    · rename_i hx
      simp_all
    · split at h
      · simp at h
      · exact List.mem_cons_of_mem _ (ih h)

/-! ### Runs of bytes -/

theorem memRead_writeBytes (count : Nat) (m : Memory) (off value x : Nat) :
    memRead (writeBytes count m off value) x =
      if off ≤ x ∧ x < off + count then some (BitVec.ofNat 8 (value / 256 ^ (x - off))) else memRead m x := by
  induction count generalizing m off value with
  | zero => simp [writeBytes]
  | succ n ih =>
    simp only [writeBytes, ih, memRead_memWrite]
    by_cases hx : x = off
    · subst hx
      simp
    · by_cases hin : off + 1 ≤ x ∧ x < off + 1 + n
      · have h1 : off ≤ x ∧ x < off + (n + 1) := by omega
        have h2 : x - off = (x - (off + 1)) + 1 := by omega
        rw [if_pos hin, if_pos h1, h2, Nat.pow_succ, Nat.div_div_eq_div_mul, Nat.mul_comm]
      · have h1 : ¬ (off ≤ x ∧ x < off + (n + 1)) := by omega
        rw [if_neg hin, if_neg h1, if_neg hx]

theorem wf_writeBytes (count : Nat) {m : Memory} (off value : Nat) (h : m.wf = true) :
    (writeBytes count m off value).wf = true := by
  induction count generalizing m off value with
  | zero => exact h
  | succ n ih => exact ih (off + 1) (value / 256) (wf_memWrite off _ h)

/-- A read of bytes depends on those bytes only. -/
theorem readBytes_congr {m m' : Memory} {count off : Nat}
    (h : ∀ x, off ≤ x → x < off + count → memRead m' x = memRead m x) : readBytes m' count off = readBytes m count off := by
  induction count generalizing off with
  | zero => rfl
  | succ n ih =>
    simp only [readBytes]
    rw [h off (Nat.le_refl _) (by omega), ih fun x h1 h2 => h x (by omega) (by omega)]

theorem readBytes_eq_of_bytes {m : Memory} {count off value : Nat}
    (h : ∀ i, i < count → memRead m (off + i) = some (BitVec.ofNat 8 (value / 256 ^ i))) :
    readBytes m count off = some (value % 256 ^ count) := by
  induction count generalizing off value with
  | zero => simp [readBytes, Nat.mod_one]
  | succ n ih =>
    have h0 := h 0 (by omega)
    have hr : readBytes m n (off + 1) = some (value / 256 % 256 ^ n) := by
      apply ih
      intro i hi
      have := h (i + 1) (by omega)
      rw [show off + (i + 1) = off + 1 + i by omega, Nat.pow_succ, Nat.mul_comm] at this
      rw [this, Nat.div_div_eq_div_mul]
    simp only [Nat.add_zero, Nat.pow_zero, Nat.div_one] at h0
    simp only [readBytes, h0, hr, BitVec.toNat_ofNat]
    refine congrArg some ?_
    show value % 256 + 256 * (value / 256 % 256 ^ n) = value % 256 ^ (n + 1)
    rw [show 256 ^ (n + 1) = 256 * 256 ^ n from Nat.pow_succ', Nat.mod_mul]

theorem readBytes_writeBytes_same (count : Nat) (m : Memory) (off value : Nat) :
    readBytes (writeBytes count m off value) count off = some (value % 256 ^ count) := by
  apply readBytes_eq_of_bytes
  intro i hi
  rw [memRead_writeBytes, if_pos (by omega)]
  simp

theorem readBytes_writeBytes_disjoint {count n : Nat} (m : Memory) {off off' : Nat} (value : Nat)
    (h : off' + n ≤ off ∨ off + count ≤ off') :
    readBytes (writeBytes count m off value) n off' = readBytes m n off' := by
  apply readBytes_congr
  intro x h1 h2
  rw [memRead_writeBytes, if_neg (by omega)]

/-! ### Words -/

theorem wordBytes_pos (f : Prec) : 0 < wordBytes f := by cases f <;> decide

theorem pow_wordBytes (f : Prec) : 256 ^ wordBytes f = 2 ^ flen f := by cases f <;> decide

theorem flen_le (f : Prec) : flen f ≤ 64 := by cases f <;> decide

/-- A stored word reads back, cut to `FLEN` bits. -/
theorem wordAt_storeWord_same (f : Prec) (m : Memory) (w : Nat) (v : Word) :
    wordAt f (storeWord f m w v) w = some (truncWord f v) := by
  simp only [wordAt, storeWord, readBytes_writeBytes_same, pow_wordBytes, truncWord]

/-- A store leaves every other word alone. -/
theorem wordAt_storeWord_ne (f : Prec) (m : Memory) {w x : Nat} (v : Word) (h : x ≠ w) :
    wordAt f (storeWord f m w v) x = wordAt f m x := by
  have hb := wordBytes_pos f
  have : x * wordBytes f + wordBytes f ≤ w * wordBytes f ∨ w * wordBytes f + wordBytes f ≤ x * wordBytes f := by
    rcases Nat.lt_or_gt_of_ne h with h | h
    · exact .inl (by nlinarith [Nat.mul_le_mul_right (wordBytes f) (Nat.succ_le_of_lt h)])
    · exact .inr (by nlinarith [Nat.mul_le_mul_right (wordBytes f) (Nat.succ_le_of_lt h)])
  simp only [wordAt, storeWord, readBytes_writeBytes_disjoint m v.toNat this]

theorem wordAt_storeWord (f : Prec) (m : Memory) (w x : Nat) (v : Word) :
    wordAt f (storeWord f m w v) x = if x = w then some (truncWord f v) else wordAt f m x := by
  split
  · next h => rw [h, wordAt_storeWord_same]
  · next h => exact wordAt_storeWord_ne f m v h

/-- A store changes no byte outside its word. -/
theorem memRead_storeWord_outside (f : Prec) (m : Memory) (w : Nat) (v : Word) {x : Nat}
    (h : x / wordBytes f ≠ w) : memRead (storeWord f m w v) x = memRead m x := by
  have hb := wordBytes_pos f
  rw [storeWord, memRead_writeBytes, if_neg]
  rintro ⟨h1, h2⟩
  exact h (Nat.div_eq_of_lt_le h1 (by rw [Nat.succ_mul]; exact h2))

/-- A store gives every byte of its word a value. -/
theorem memRead_storeWord_inside (f : Prec) (m : Memory) (w : Nat) (v : Word) {x : Nat}
    (h : x / wordBytes f = w) : memRead (storeWord f m w v) x =
      some (BitVec.ofNat 8 (v.toNat / 256 ^ (x - w * wordBytes f))) := by
  have hb := wordBytes_pos f
  subst h
  have h1 := Nat.div_add_mod x (wordBytes f)
  have h2 := Nat.mod_lt x hb
  rw [Nat.mul_comm] at h1
  rw [storeWord, memRead_writeBytes, if_pos (by omega)]

theorem wf_storeWord (f : Prec) {m : Memory} (w : Nat) (v : Word) (h : m.wf = true) : (storeWord f m w v).wf = true :=
  wf_writeBytes _ _ _ h

theorem loadWord_storeWord (f : Prec) (free : Nat) (sp : Space) (m : Memory) (w x : Nat) (v : Word) :
    loadWord f free sp (storeWord f m w v) x = if x = w then truncWord f v else loadWord f free sp m x := by
  by_cases h : x = w <;> simp [loadWord, wordAt_storeWord, h]

/-- Two memories that agree on a word's value give the same load. -/
theorem loadWord_congr (f : Prec) (free : Nat) (sp : Space) {m m' : Memory} {w : Nat} (h : wordAt f m w = wordAt f m' w) :
    loadWord f free sp m w = loadWord f free sp m' w := by
  simp only [loadWord, h]

/-! ### Loops -/

/-- What holds at the start and is kept by every round holds at the end. -/
theorem loop_keeps {σ : Type} (P : σ → Prop) {n : Nat} {f : Nat → σ → σ} {st : σ} (h0 : P st)
    (hs : ∀ i, i < n → ∀ st, P st → P (f i st)) : P (loop n f st) := by
  induction n with
  | zero => exact h0
  | succ n ih => exact hs n (by omega) _ (ih fun i hi => hs i (by omega))

@[simp] theorem loop_zero {σ : Type} (f : Nat → σ → σ) (st : σ) : loop 0 f st = st := rfl

theorem loop_succ {σ : Type} (n : Nat) (f : Nat → σ → σ) (st : σ) : loop (n + 1) f st = f n (loop n f st) := rfl

/-! ### scramble and spoil -/

/-- What every store of the words keeps, `scramble` keeps. -/
theorem scramble_keeps (P : Memory → Prop) (f : Prec) (value : Nat → Word) {ws : List Nat} {m : Memory} (h0 : P m)
    (hs : ∀ m, ∀ w ∈ ws, ∀ v, P m → P (storeWord f m w v)) : P (scramble f value ws m) := by
  induction ws generalizing m with
  | nil => exact h0
  | cons w rest ih =>
    exact ih (hs m w (by simp) _ h0) fun m x hx v => hs m x (by simp [hx]) v

theorem wf_scramble (f : Prec) (value : Nat → Word) (ws : List Nat) {m : Memory} (h : m.wf = true) :
    (scramble f value ws m).wf = true :=
  scramble_keeps (fun m => m.wf = true) f value h fun _ w _ v hm => wf_storeWord f w v hm

/-- Every other word is as it was. -/
theorem wordAt_scramble_outside (f : Prec) (value : Nat → Word) {ws : List Nat} (m : Memory) {x : Nat} (h : x ∉ ws) :
    wordAt f (scramble f value ws m) x = wordAt f m x :=
  scramble_keeps (fun m' => wordAt f m' x = wordAt f m x) f value rfl fun m' w hw v hm => by
    rw [wordAt_storeWord_ne f m' v (fun he => h (by rw [he]; exact hw)), hm]

/-- Each of the words holds its free value. -/
theorem wordAt_scramble_inside (f : Prec) (value : Nat → Word) {ws : List Nat} (m : Memory) {x : Nat} (h : x ∈ ws) :
    wordAt f (scramble f value ws m) x = some (truncWord f (truncWord f (value x))) := by
  induction ws generalizing m with
  | nil => simp at h
  | cons w rest ih =>
    by_cases hx : x ∈ rest
    · exact ih _ hx
    · obtain rfl : x = w := by simpa [hx] using h
      rw [scramble, wordAt_scramble_outside f value _ hx, wordAt_storeWord_same]

/-- What every store of the groups' words keeps, `spoil` keeps. -/
theorem spoil_keeps (P : Memory → Prop) (f : Prec) (free : Nat) (before : Memory) {groups : List (List Nat)} {m : Memory}
    (h0 : P m) (hs : ∀ m, ∀ ws ∈ groups, ∀ w ∈ ws, ∀ v, P m → P (storeWord f m w v)) : P (spoil f free before groups m) := by
  induction groups generalizing m with
  | nil => exact h0
  | cons ws rest ih =>
    refine ih ?_ fun m ws' h' => hs m ws' (by simp [h'])
    split
    · exact h0
    · exact scramble_keeps P f _ h0 fun m w hw v => hs m ws (by simp) w hw v

/-- Where every word of the groups had a value, nothing is spoiled. -/
theorem spoil_written (f : Prec) (free : Nat) (before : Memory) {groups : List (List Nat)} (m : Memory)
    (h : ∀ ws ∈ groups, written f before ws = true) : spoil f free before groups m = m := by
  induction groups generalizing m with
  | nil => rfl
  | cons ws rest ih =>
    simp only [spoil, h ws (by simp), if_true]
    exact ih m fun ws' h' => h ws' (by simp [h'])

theorem written_iff {f : Prec} {m : Memory} {ws : List Nat} :
    written f m ws = true ↔ ∀ w ∈ ws, wordAt f m w ≠ none := by
  simp [written, Option.isSome_iff_ne_none]

/-- A number occurs in no later place of a list without repeats. -/
theorem allDistinct_iff (ws : List Nat) : allDistinct ws = true ↔ ws.Nodup := by
  induction ws with
  | nil => simp [allDistinct]
  | cons a rest ih => simp [allDistinct, ih]

end Sys2Proof.Machine
end

