-- ==== Sys2Proof/Laws/Engine.lean ====
section
/-! SUPPORT. What the passes, an engine run, a dispatcher call and a schedule can do to a memory: they keep whatever every
store of theirs keeps, and two runs whose stores correspond stay in correspondence. -/

namespace Sys2Proof.Machine

open Config (Prec Space Sign)

/-! ### Passes keep what stores keep -/

section

variable {σ α : Type} (E : UnitEnv σ α) (P : σ → Prop)

theorem storeTwiddled_keeps (hset : ∀ st u v, P st → P (E.store.set st u v)) (la k : Nat) (place : Nat → Nat)
    (ys : List (Cpx α)) (d : Nat) (st : σ) (h : P st) : P (storeTwiddled E la k place d ys st) := by
  induction ys generalizing d st with
  | nil => exact h
  | cons y ys ih => exact ih _ _ (hset _ _ _ h)

theorem storeSquare_keeps (hset : ∀ st u v, P st → P (E.store.set st u v)) (la k js base : Nat)
    (rows : List (List (Cpx α))) (e : Nat) (st : σ) (h : P st) : P (storeSquare E la k js base e rows st) := by
  induction rows generalizing e st with
  | nil => exact h
  | cons row rows ih => exact ih _ _ (storeTwiddled_keeps E P hset _ _ _ _ _ _ h)

theorem runPass_keeps (hset : ∀ st u v, P st → P (E.store.set st u v)) (p : Pass) (la : Nat) (st : σ) (h : P st) :
    P (runPass E p la st) := by
  unfold runPass
  split
  · exact loop_keeps P h fun k _ st h => loop_keeps P h fun bl _ st h => loop_keeps P h fun g _ st h =>
      storeSquare_keeps E P hset _ _ _ _ _ _ _ h
  · exact loop_keeps P h fun blk _ st h => loop_keeps P h fun k _ st h => storeTwiddled_keeps E P hset _ _ _ _ _ _ h

/-- The passes of a unit keep whatever every store of an element of the unit keeps. -/
theorem runPasses_keeps (hset : ∀ st u v, P st → P (E.store.set st u v)) (ps : List Pass) (la : Nat) (st : σ) (h : P st) :
    P (runPasses E ps la st) := by
  induction ps generalizing la st with
  | nil => exact h
  | cons p ps ih => exact ih _ _ (runPass_keeps E P hset p la st h)

end

/-! ### Kernels -/

@[simp] theorem interleave_length {α : Type} (es os : List (Cpx α)) (h : es.length = os.length) :
    (interleave es os).length = es.length + os.length := by
  induction es generalizing os with
  | nil => cases os <;> simp_all [interleave]
  | cons e es ih =>
    cases os with
    | nil => simp at h
    | cons o os =>
      simp only [List.length_cons, Nat.add_right_cancel_iff] at h
      simp only [interleave, List.length_cons, ih os h]
      omega

/-- A kernel gives as many values as it takes. -/
theorem kernel_length {α : Type} (A : Arith α) (rho : Radix) (mu : Nat) (a : List (Cpx α)) :
    (kernel A rho mu a).length = a.length := by
  unfold kernel
  split <;> rfl

theorem butterfly_length {σ α : Type} (E : UnitEnv σ α) (rho : Radix) (place : Nat → Nat) (st : σ) :
    (butterfly E rho place st).length = radixVal rho := by
  simp [butterfly, kernel_length]

theorem radixVal_pos (rho : Radix) : 0 < radixVal rho := by cases rho <;> decide

/-- The pair index of a twiddle lies in its sub-table (R147). -/
theorem twiddle_index_lt {ni rho la k d : Nat} (hk : k < ni / (rho * la)) (hd : d < rho) : la * k * d < ni := by
  have hrho : 0 < rho := by omega
  have h1 := Nat.div_mul_le_self ni (rho * la)
  rcases Nat.eq_zero_or_pos la with rfl | hla
  · simp at hk
  · calc la * k * d ≤ la * k * rho := Nat.mul_le_mul_left _ hd.le
      _ < la * (ni / (rho * la)) * rho := by
        apply Nat.mul_lt_mul_of_pos_right _ hrho
        exact Nat.mul_lt_mul_of_pos_left hk hla
      _ = ni / (rho * la) * (rho * la) := by ring
      _ ≤ ni := h1

/-! ### Two runs in correspondence -/

/-- Two loops whose rounds keep a relation keep it. -/
theorem loop_sim {σ τ : Type} (R : σ → τ → Prop) {n : Nat} {f : Nat → σ → σ} {g : Nat → τ → τ} {st : σ} {st' : τ}
    (h0 : R st st') (hs : ∀ i, i < n → ∀ st st', R st st' → R (f i st) (g i st')) : R (loop n f st) (loop n g st') := by
  induction n with
  | zero => exact h0
  | succ n ih => exact hs n (by omega) _ _ (ih fun i hi => hs i (by omega))

section

variable {σ τ α : Type} (E : UnitEnv σ α) (E' : UnitEnv τ α) (R : σ → τ → Prop)

/-- Two units with the same arithmetic, sign, sizes and twiddles (of the pairs an engine reads), whose elements correspond
under a relation of their stores. -/
structure UnitSim : Prop where
  arith : E.A = E'.A
  twiddle : ∀ idx, 0 < idx → idx < E.ni → E.twiddle idx = E'.twiddle idx
  sign : E.sign = E'.sign
  ni : E.ni = E'.ni
  inq : E.inq = E'.inq
  get : ∀ st st' u, R st st' → E.store.get st u = E'.store.get st' u
  set : ∀ st st' u v, R st st' → R (E.store.set st u v) (E'.store.set st' u v)

variable {E E' R}

theorem twid_sim (h : UnitSim E E' R) {rho la k d : Nat} (hla : 0 < la) (hk : k < E.ni / (rho * la)) (hd : d < rho)
    (y : Cpx α) : twid E la k d y = twid E' la k d y := by
  unfold twid
  split
  · rfl
  · next h0 =>
    have hi := h.twiddle (la * k * d)
      (Nat.mul_pos (Nat.mul_pos hla (Nat.pos_of_ne_zero fun e => h0 (.inl e))) (Nat.pos_of_ne_zero fun e => h0 (.inr e)))
      (twiddle_index_lt hk hd)
    simp only [hi, h.arith, h.sign]

theorem butterfly_sim (h : UnitSim E E' R) (rho : Radix) (place : Nat → Nat) {st : σ} {st' : τ} (hR : R st st') :
    butterfly E rho place st = butterfly E' rho place st' := by
  simp only [butterfly, h.arith, h.sign, h.inq, h.get st st' _ hR]

theorem storeTwiddled_sim (h : UnitSim E E' R) {rho la k : Nat} (hla : 0 < la) (hk : k < E.ni / (rho * la))
    (place : Nat → Nat) (ys : List (Cpx α)) (d : Nat) (hd : d + ys.length ≤ rho) {st : σ} {st' : τ} (hR : R st st') :
    R (storeTwiddled E la k place d ys st) (storeTwiddled E' la k place d ys st') := by
  induction ys generalizing d st st' with
  | nil => exact hR
  | cons y ys ih =>
    simp only [List.length_cons] at hd
    simp only [storeTwiddled, twid_sim h hla hk (show d < rho by omega)]
    exact ih _ (by omega) (h.set _ _ _ _ hR)

theorem storeSquare_sim (h : UnitSim E E' R) {rho la k : Nat} (hla : 0 < la) (hk : k < E.ni / (rho * la))
    (js base : Nat) (rows : List (List (Cpx α))) (e : Nat) (hrows : ∀ row ∈ rows, row.length = rho) {st : σ}
    {st' : τ} (hR : R st st') : R (storeSquare E la k js base e rows st) (storeSquare E' la k js base e rows st') := by
  induction rows generalizing e st st' with
  | nil => exact hR
  | cons row rows ih =>
    exact ih _ (fun r hr => hrows r (by simp [hr]))
      (storeTwiddled_sim h hla hk _ _ _ (by rw [hrows row (by simp)]; omega) hR)

theorem runPass_sim (h : UnitSim E E' R) (p : Pass) {la : Nat} (hla : 0 < la) {st : σ} {st' : τ} (hR : R st st') :
    R (runPass E p la st) (runPass E' p la st') := by
  unfold runPass
  split
  · unfold passII
    rw [← h.ni]
    exact loop_sim R hR fun k hk st st' hR => loop_sim R hR fun bl _ st st' hR => loop_sim R hR fun g _ st st' hR => by
      simp only [butterfly_sim h _ _ hR]
      exact storeSquare_sim h hla hk _ _ _ _ (by simp [butterfly_length]) hR
  · unfold passI
    rw [← h.ni]
    exact loop_sim R hR fun blk _ st st' hR => loop_sim R hR fun k hk st st' hR => by
      simp only [butterfly_sim h _ _ hR]
      exact storeTwiddled_sim h hla hk _ _ _ (by simp [butterfly_length]) hR

/-- Corresponding units do the same: the relation holds after the passes of both. -/
theorem runPasses_sim (h : UnitSim E E' R) (ps : List Pass) {la : Nat} (hla : 0 < la) {st : σ} {st' : τ}
    (hR : R st st') : R (runPasses E ps la st) (runPasses E' ps la st') := by
  induction ps generalizing la st st' with
  | nil => exact hR
  | cons p ps ih => exact ih (Nat.mul_pos hla (radixVal_pos _)) (runPass_sim h p hla hR)

end

/-! ### Engine runs -/

theorem ringIndex_lt {n : Nat} (ni inq nu u : Nat) (h : 0 < n) : ringIndex n ni inq nu u < n := Nat.mod_lt _ h

/-- An engine run keeps whatever every store of its footprint (R165) keeps. -/
theorem engineRun_keeps (P : Memory → Prop) (f : Prec) (free : Nat) (tw : Memory) (d : EngineDesc) (b : Prime)
    (mm T : Nat) {sig : Memory} (h : P sig)
    (hs : ∀ t, t < d.n → ∀ l, l < d.lot → ∀ sig v, P sig →
      P (storeWord f sig (d.A + (t * d.incw + l * d.jumpw)) v) ∧ P (storeWord f sig (d.B + (t * d.incw + l * d.jumpw)) v)) :
    P (engineRun f free tw d b mm T sig) := by
  unfold engineRun
  split
  · exact h
  · refine loop_keeps P h fun l hl sig h => loop_keeps P h fun nu hnu sig h => runPasses_keeps _ P ?_ _ _ _ h
    intro st u v h
    have hn : 0 < d.n := by
      rcases Nat.eq_zero_or_pos d.n with h0 | h0
      · simp [h0] at hnu
      · exact h0
    have ht := ringIndex_lt (primeVal b ^ mm) (d.n / primeVal b ^ mm) nu u hn
    exact (hs _ ht l hl _ _ (hs _ ht l hl _ _ h).1).2

/-- With exponent 0 an engine does nothing (R164). -/
@[simp] theorem engineRun_zero (f : Prec) (free : Nat) (tw : Memory) (d : EngineDesc) (b : Prime) (T : Nat)
    (sig : Memory) : engineRun f free tw d b 0 T sig = sig := by
  simp [engineRun]

/-- A dispatcher call keeps whatever every store of its footprint keeps. -/
theorem dispatchCall_keeps (P : Memory → Prop) (f : Prec) (free : Nat) (tw : Memory) (ax : AxisPlan) (d : EngineDesc)
    {sig : Memory} (h : P sig)
    (hs : ∀ t, t < d.n → ∀ l, l < d.lot → ∀ sig v, P sig →
      P (storeWord f sig (d.A + (t * d.incw + l * d.jumpw)) v) ∧ P (storeWord f sig (d.B + (t * d.incw + l * d.jumpw)) v)) :
    P (dispatchCall f free tw ax d sig) :=
  engineRun_keeps P f free tw d _ _ _ (engineRun_keeps P f free tw d _ _ _ (engineRun_keeps P f free tw d _ _ _ h hs) hs) hs

/-- A dispatcher call on an axis without factors does nothing. -/
theorem dispatchCall_inactive (f : Prec) (free : Nat) (tw : Memory) {ax : AxisPlan} (d : EngineDesc) (sig : Memory)
    (h : axisActive ax = false) : dispatchCall f free tw ax d sig = sig := by
  simp only [axisActive, Bool.or_eq_false_iff, bne_eq_false_iff_eq] at h
  simp [dispatchCall, engine2, engine3, engine5, h.1.1, h.1.2, h.2]

/-- A schedule keeps whatever every store of its calls' footprints keeps. -/
theorem runCalls_keeps (P : Memory → Prop) (f : Prec) (free : Nat) (tw : Memory) (pl : Plan) (sh : Shape) (sign : Sign)
    {cs : List Call} {sig : Memory} (h : P sig)
    (hs : ∀ c ∈ cs, ∀ t, t < (planAxis pl c.axis).n.toNat → ∀ l, l < c.lot → ∀ sig v, P sig →
      P (storeWord f sig (reAddr sh (c.off + (t * c.inc + l * c.jump))) v) ∧
      P (storeWord f sig (imAddr sh (c.off + (t * c.inc + l * c.jump))) v)) :
    P (runCalls f free tw pl sh sign cs sig) := by
  induction cs generalizing sig with
  | nil => exact h
  | cons c cs ih =>
    refine ih (dispatchCall_keeps P f free tw _ _ h ?_) fun c' hc' => hs c' (by simp [hc'])
    intro t ht l hl sig v hP
    have := hs c (by simp) t ht l hl sig v hP
    have e1 : ∀ X : Nat, X + sh.sc * (c.off + (t * c.inc + l * c.jump)) =
        X + sh.sc * c.off + (t * (sh.sc * c.inc) + l * (sh.sc * c.jump)) := fun X => by ring
    simpa only [reAddr, imAddr, callDesc, e1] using this

/-! ### The groups lie in the footprint -/

/-- A word of a group is a word of the footprint (R165). -/
def GroupsInside (d : EngineDesc) (groups : List (List Nat)) : Prop :=
  ∀ ws ∈ groups, ∀ w ∈ ws, ∃ t, t < d.n ∧ ∃ l, l < d.lot ∧ w ∈ descWords d l t

theorem unitGroups_inside (b : Prime) (mm : Nat) (d : EngineDesc) : GroupsInside d (unitGroups b mm d) := by
  intro ws hws w hw
  simp only [unitGroups, List.mem_flatMap, List.mem_map, List.mem_range] at hws
  obtain ⟨l, hl, nu, hnu, rfl⟩ := hws
  simp only [List.mem_flatMap, List.mem_range] at hw
  obtain ⟨u, -, hw⟩ := hw
  have hn : 0 < d.n := by
    rcases Nat.eq_zero_or_pos d.n with h0 | h0
    · simp [h0] at hnu
    · exact h0
  exact ⟨_, ringIndex_lt _ _ _ _ hn, l, hl, hw⟩

theorem lotGroups_inside (d : EngineDesc) : GroupsInside d (lotGroups d) := by
  intro ws hws w hw
  simp only [lotGroups, List.mem_map, List.mem_range] at hws
  obtain ⟨l, hl, rfl⟩ := hws
  simp only [List.mem_flatMap, List.mem_range] at hw
  obtain ⟨t, ht, hw⟩ := hw
  exact ⟨t, ht, l, hl, hw⟩

/-! ### onSignal -/

/-- What running on the signal memory does where nothing is accessed: the run. -/
@[simp] theorem onSignal_inactive (words : List Nat) (groups : List (List Nat)) (f : Memory → Memory) (s : State) :
    onSignal false words groups f s = { s with sig := f s.sig } := rfl

/-- Where the footprint has no word twice: the run, and free values in the groups that held an unwritten word (R287); the
counter of free values moves on where there is such a group. -/
theorem onSignal_distinct {words : List Nat} (groups : List (List Nat)) (f : Memory → Memory) (s : State) (h : words.Nodup) :
    onSignal true words groups f s =
      { s with
        sig := spoil s.par.prec s.free s.sig groups (f s.sig)
        free := if groups.all (written s.par.prec s.sig) then s.free else s.free + 1 } := by
  simp [onSignal, (allDistinct_iff words).2 h]

/-- Where, besides, every word of the groups has a value: the run. -/
theorem onSignal_run (active : Bool) {words : List Nat} {groups : List (List Nat)} (f : Memory → Memory) (s : State)
    (h : words.Nodup) (hw : ∀ ws ∈ groups, ∀ w ∈ ws, wordAt s.par.prec s.sig w ≠ none) :
    onSignal active words groups f s = { s with sig := f s.sig } := by
  cases active
  · rfl
  · have hall : ∀ ws ∈ groups, written s.par.prec s.sig ws = true := fun ws hws => written_iff.2 (hw ws hws)
    rw [onSignal_distinct groups f s h, spoil_written _ _ _ _ hall, if_pos (List.all_eq_true.2 hall)]

/-- Where the footprint has a word twice: free values in it (R283). -/
theorem onSignal_aliased {words : List Nat} (groups : List (List Nat)) (f : Memory → Memory) (s : State)
    (h : ¬ words.Nodup) :
    onSignal true words groups f s =
      { s with sig := scramble s.par.prec (Config.aliasedWord s.free) words s.sig, free := s.free + 1 } := by
  have : allDistinct words = false := by rw [Bool.eq_false_iff]; exact fun hd => h ((allDistinct_iff words).1 hd)
  simp [onSignal, this]

/-- What the run keeps and every store of the footprint keeps, running on the signal memory keeps. -/
theorem onSignal_keeps (P : Memory → Prop) (active : Bool) (words : List Nat) (groups : List (List Nat))
    (f : Memory → Memory) (s : State) (h : P s.sig) (hf : P (f s.sig)) (hg : ∀ ws ∈ groups, ∀ w ∈ ws, w ∈ words)
    (hs : ∀ m, ∀ w ∈ words, ∀ v, P m → P (storeWord s.par.prec m w v)) : P (onSignal active words groups f s).sig := by
  unfold onSignal
  split
  · exact hf
  · split
    · exact scramble_keeps P _ _ h hs
    · exact spoil_keeps P _ _ _ hf fun m ws hws w hw => hs m w (hg ws hws w hw)

/-- Nothing but `SIG` and the counter of free values changes. -/
theorem onSignal_frame (active : Bool) (words : List Nat) (groups : List (List Nat)) (f : Memory → Memory) (s : State) :
    onSignal active words groups f s =
      { s with sig := (onSignal active words groups f s).sig, free := (onSignal active words groups f s).free } := by
  unfold onSignal
  split
  · rfl
  · split <;> rfl

end Sys2Proof.Machine
end

