-- ==== Sys2Proof/Laws/Good.lean ====
section
/-! SUPPORT. Stores keep a memory inside its depth and word by word; the words a command may touch lie inside `SIG`. -/

namespace Sys2Proof.Machine

open Config (Prec Space Sign)

/-! ### Stores -/

theorem mem_memWrite {m : Memory} {x : Nat} {v : Byte} {c : Host.Cell} (hc : c ∈ memWrite m x v) : c = (x, v) ∨ c ∈ m := by
  induction m with
  | nil => simpa [memWrite] using hc
  | cons d rest ih =>
    obtain ⟨a, b⟩ := d
    simp only [memWrite] at hc
    split at hc
    · next h =>
      rcases List.mem_cons.1 hc with rfl | hc
      · exact .inl (by rw [h])
      · exact .inr (List.mem_cons_of_mem _ hc)
    · split at hc
      · rcases List.mem_cons.1 hc with rfl | hc
        · exact .inl rfl
        · exact .inr hc
      · rcases List.mem_cons.1 hc with rfl | hc
        · exact .inr (by simp)
        · exact (ih hc).imp id (List.mem_cons_of_mem _)

theorem mem_writeBytes {count : Nat} {m : Memory} {off value : Nat} {c : Host.Cell}
    (hc : c ∈ writeBytes count m off value) : (off ≤ c.1 ∧ c.1 < off + count) ∨ c ∈ m := by
  induction count generalizing m off value with
  | zero => exact .inr hc
  | succ n ih =>
    rcases ih hc with h | h
    · exact .inl (by omega)
    · rcases mem_memWrite h with rfl | h
      · exact .inl (by simp)
      · exact .inr h

/-- A store below the depth keeps the memory inside it. -/
theorem inside_storeWord {f : Prec} {depth : Nat} {m : Memory} {w : Nat} (v : Word) (h : m.inside f depth) (hw : w < depth) :
    (storeWord f m w v).inside f depth := by
  intro c hc
  rcases mem_writeBytes hc with ⟨_, h2⟩ | hc
  · have := Nat.mul_le_mul_right (wordBytes f) (Nat.succ_le_of_lt hw)
    rw [Nat.succ_mul] at this
    omega
  · exact h c hc

/-- A store keeps the memory word by word. -/
theorem whole_storeWord {f : Prec} {m : Memory} (w : Nat) (v : Word) (h : m.whole f) : (storeWord f m w v).whole f := by
  intro x hx
  rw [wordAt_storeWord]
  split
  · simp
  · next hne =>
    rw [memRead_storeWord_outside f m w v hne] at hx
    exact h x hx

@[simp] theorem inside_nil (f : Prec) (depth : Nat) : Memory.inside f depth [] := by intro c hc; simp at hc

@[simp] theorem whole_nil (f : Prec) : Memory.whole f [] := by intro x hx; simp [memRead] at hx

/-- What the invariant asks of a memory. -/
structure goodMemory (f : Prec) (depth : Nat) (m : Memory) : Prop where
  form : m.wf = true
  inside : m.inside f depth
  whole : m.whole f

theorem goodMemory_storeWord {f : Prec} {depth : Nat} {m : Memory} {w : Nat} (v : Word) (h : goodMemory f depth m)
    (hw : w < depth) : goodMemory f depth (storeWord f m w v) :=
  ⟨wf_storeWord f w v h.form, inside_storeWord v h.inside hw, whole_storeWord w v h.whole⟩

/-! ### Footprints lie inside `SIG` -/

theorem inRange_eq (s : State) (split : Bool) (emax : Nat) :
    inRange s.par.sigDepth.toNat (signalShape split s) emax = true ↔ fits s split emax := by
  cases split <;> simp [inRange, signalShape, fits, argUnsigned, xreg]

/-- The two words of an element up to the largest lie below the depth. -/
theorem element_lt {s : State} {split : Bool} {emax e : Nat} (h : fits s split emax) (he : e ≤ emax) :
    reAddr (signalShape split s) e < s.par.sigDepth.toNat ∧ imAddr (signalShape split s) e < s.par.sigDepth.toNat := by
  cases split <;> simp only [fits, if_true, Bool.false_eq_true, if_false] at h <;>
    simp only [reAddr, imAddr, signalShape, argUnsigned, xreg, if_true, Bool.false_eq_true, if_false] <;> omega

theorem directEmax_ge {n inc jump lot j l : Nat} (hj : j < n) (hl : l < lot) :
    j * inc + l * jump ≤ directEmax n inc jump lot :=
  Nat.add_le_add (Nat.mul_le_mul_right _ (by omega)) (Nat.mul_le_mul_right _ (by omega))

theorem mem_directElements {n inc jump lot e : Nat} :
    e ∈ directElements n inc jump lot ↔ ∃ j, j < n ∧ ∃ l, l < lot ∧ e = j * inc + l * jump := by
  simp only [directElements, List.mem_flatMap, List.mem_range, List.mem_map]
  constructor
  · rintro ⟨l, hl, j, hj, rfl⟩
    exact ⟨j, hj, l, hl, rfl⟩
  · rintro ⟨j, hj, l, hl, rfl⟩
    exact ⟨l, hl, j, hj, rfl⟩

theorem mem_elementWords {sh : Shape} {es : List Nat} {w : Nat} :
    w ∈ elementWords sh es ↔ ∃ e ∈ es, w = reAddr sh e ∨ w = imAddr sh e := by
  simp [elementWords, List.mem_flatMap]

end Sys2Proof.Machine
end

