-- ==== Sys2Proof/Laws/State.lean ====
section
/-! SUPPORT. One lemma per field of State per update, so that no proof unfolds a record update. -/

namespace Sys2Proof.Machine

section

variable (s : State)

/-! ### issue -/

@[simp] theorem issue_par (w : Reg) : (issue w s).par = s.par := rfl
@[simp] theorem issue_cmd (w : Reg) : (issue w s).cmd = w := rfl
@[simp] theorem issue_status (w : Reg) : (issue w s).status = statusIssued := rfl
@[simp] theorem issue_regs (w : Reg) : (issue w s).regs = s.regs := rfl
@[simp] theorem issue_plan (w : Reg) : (issue w s).plan = s.plan := rfl
@[simp] theorem issue_rowMajor (w : Reg) : (issue w s).rowMajor = s.rowMajor := rfl
@[simp] theorem issue_leadDim (w : Reg) : (issue w s).leadDim = s.leadDim := rfl
@[simp] theorem issue_tw (w : Reg) : (issue w s).tw = s.tw := rfl
@[simp] theorem issue_sig (w : Reg) : (issue w s).sig = s.sig := rfl
@[simp] theorem issue_free (w : Reg) : (issue w s).free = s.free := rfl
@[simp] theorem issue_host (w : Reg) : (issue w s).host = s.host := rfl
@[simp] theorem issue_rdata (w : Reg) : (issue w s).rdata = s.rdata := rfl

/-! ### succeed -/

@[simp] theorem succeed_par (r0 r1 r2 : Reg) : (succeed r0 r1 r2 s).par = s.par := rfl
@[simp] theorem succeed_cmd (r0 r1 r2 : Reg) : (succeed r0 r1 r2 s).cmd = s.cmd := rfl
@[simp] theorem succeed_status (r0 r1 r2 : Reg) : (succeed r0 r1 r2 s).status = statusCompleted .ok := rfl
@[simp] theorem succeed_regs (r0 r1 r2 : Reg) : (succeed r0 r1 r2 s).regs = setResults s.regs r0 r1 r2 := rfl
@[simp] theorem succeed_plan (r0 r1 r2 : Reg) : (succeed r0 r1 r2 s).plan = s.plan := rfl
@[simp] theorem succeed_rowMajor (r0 r1 r2 : Reg) : (succeed r0 r1 r2 s).rowMajor = s.rowMajor := rfl
@[simp] theorem succeed_leadDim (r0 r1 r2 : Reg) : (succeed r0 r1 r2 s).leadDim = s.leadDim := rfl
@[simp] theorem succeed_tw (r0 r1 r2 : Reg) : (succeed r0 r1 r2 s).tw = s.tw := rfl
@[simp] theorem succeed_sig (r0 r1 r2 : Reg) : (succeed r0 r1 r2 s).sig = s.sig := rfl
@[simp] theorem succeed_free (r0 r1 r2 : Reg) : (succeed r0 r1 r2 s).free = s.free := rfl
@[simp] theorem succeed_host (r0 r1 r2 : Reg) : (succeed r0 r1 r2 s).host = s.host := rfl
@[simp] theorem succeed_rdata (r0 r1 r2 : Reg) : (succeed r0 r1 r2 s).rdata = s.rdata := rfl

/-! ### raise -/

@[simp] theorem raise_par (e : ErrCode) : (raise e s).par = s.par := rfl
@[simp] theorem raise_cmd (e : ErrCode) : (raise e s).cmd = s.cmd := rfl
@[simp] theorem raise_status (e : ErrCode) : (raise e s).status = statusCompleted e := rfl
@[simp] theorem raise_regs (e : ErrCode) : (raise e s).regs = setResults s.regs 0#32 0#32 0#32 := rfl
@[simp] theorem raise_plan (e : ErrCode) : (raise e s).plan = s.plan := rfl
@[simp] theorem raise_rowMajor (e : ErrCode) : (raise e s).rowMajor = s.rowMajor := rfl
@[simp] theorem raise_leadDim (e : ErrCode) : (raise e s).leadDim = s.leadDim := rfl
@[simp] theorem raise_tw (e : ErrCode) : (raise e s).tw = s.tw := rfl
@[simp] theorem raise_sig (e : ErrCode) : (raise e s).sig = s.sig := rfl
@[simp] theorem raise_free (e : ErrCode) : (raise e s).free = s.free := rfl
@[simp] theorem raise_host (e : ErrCode) : (raise e s).host = s.host := rfl
@[simp] theorem raise_rdata (e : ErrCode) : (raise e s).rdata = s.rdata := rfl

/-! ### commitPlan -/

@[simp] theorem commitPlan_par (axes : List AxisPlan) : (commitPlan axes s).par = s.par := rfl
@[simp] theorem commitPlan_cmd (axes : List AxisPlan) : (commitPlan axes s).cmd = s.cmd := rfl
@[simp] theorem commitPlan_status (axes : List AxisPlan) : (commitPlan axes s).status = s.status := rfl
@[simp] theorem commitPlan_regs (axes : List AxisPlan) : (commitPlan axes s).regs = s.regs := rfl
@[simp] theorem commitPlan_plan (axes : List AxisPlan) : (commitPlan axes s).plan = planOf axes := rfl
@[simp] theorem commitPlan_rowMajor (axes : List AxisPlan) : (commitPlan axes s).rowMajor = true := rfl
@[simp] theorem commitPlan_leadDim (axes : List AxisPlan) : (commitPlan axes s).leadDim = (axes.getLastD AxisPlan.none).n := rfl
@[simp] theorem commitPlan_tw (axes : List AxisPlan) : (commitPlan axes s).tw = buildTables s.par axes s.tw := rfl
@[simp] theorem commitPlan_sig (axes : List AxisPlan) : (commitPlan axes s).sig = s.sig := rfl
@[simp] theorem commitPlan_free (axes : List AxisPlan) : (commitPlan axes s).free = s.free := rfl
@[simp] theorem commitPlan_host (axes : List AxisPlan) : (commitPlan axes s).host = s.host := rfl
@[simp] theorem commitPlan_rdata (axes : List AxisPlan) : (commitPlan axes s).rdata = s.rdata := rfl

/-! ### returnWord -/

@[simp] theorem returnWord_par (v : Word) : (returnWord v s).par = s.par := rfl
@[simp] theorem returnWord_cmd (v : Word) : (returnWord v s).cmd = s.cmd := rfl
@[simp] theorem returnWord_status (v : Word) : (returnWord v s).status = s.status := rfl
@[simp] theorem returnWord_regs (v : Word) : (returnWord v s).regs = s.regs := rfl
@[simp] theorem returnWord_plan (v : Word) : (returnWord v s).plan = s.plan := rfl
@[simp] theorem returnWord_rowMajor (v : Word) : (returnWord v s).rowMajor = s.rowMajor := rfl
@[simp] theorem returnWord_leadDim (v : Word) : (returnWord v s).leadDim = s.leadDim := rfl
@[simp] theorem returnWord_tw (v : Word) : (returnWord v s).tw = s.tw := rfl
@[simp] theorem returnWord_sig (v : Word) : (returnWord v s).sig = s.sig := rfl
@[simp] theorem returnWord_free (v : Word) : (returnWord v s).free = s.free := rfl
@[simp] theorem returnWord_host (v : Word) : (returnWord v s).host = s.host := rfl
@[simp] theorem returnWord_rdata (v : Word) : (returnWord v s).rdata = v := rfl

/-! ### returnAny -/

@[simp] theorem returnAny_par (bits : Nat) : (returnAny bits s).par = s.par := rfl
@[simp] theorem returnAny_cmd (bits : Nat) : (returnAny bits s).cmd = s.cmd := rfl
@[simp] theorem returnAny_status (bits : Nat) : (returnAny bits s).status = s.status := rfl
@[simp] theorem returnAny_regs (bits : Nat) : (returnAny bits s).regs = s.regs := rfl
@[simp] theorem returnAny_plan (bits : Nat) : (returnAny bits s).plan = s.plan := rfl
@[simp] theorem returnAny_rowMajor (bits : Nat) : (returnAny bits s).rowMajor = s.rowMajor := rfl
@[simp] theorem returnAny_leadDim (bits : Nat) : (returnAny bits s).leadDim = s.leadDim := rfl
@[simp] theorem returnAny_tw (bits : Nat) : (returnAny bits s).tw = s.tw := rfl
@[simp] theorem returnAny_sig (bits : Nat) : (returnAny bits s).sig = s.sig := rfl
@[simp] theorem returnAny_free (bits : Nat) : (returnAny bits s).free = s.free + 1 := rfl
@[simp] theorem returnAny_host (bits : Nat) : (returnAny bits s).host = s.host := rfl
@[simp] theorem returnAny_rdata (bits : Nat) : (returnAny bits s).rdata =
    BitVec.ofNat 64 ((Config.openRead s.free).toNat % 2 ^ bits) := rfl

/-! ### placeCommand -/

@[simp] theorem placeCommand_par (w : Reg) : (placeCommand w s).par = s.par := rfl
@[simp] theorem placeCommand_cmd (w : Reg) : (placeCommand w s).cmd = s.cmd := rfl
@[simp] theorem placeCommand_status (w : Reg) : (placeCommand w s).status = { s.status with busy := false } := rfl
@[simp] theorem placeCommand_regs (w : Reg) : (placeCommand w s).regs = s.regs := rfl
@[simp] theorem placeCommand_plan (w : Reg) : (placeCommand w s).plan = s.plan := rfl
@[simp] theorem placeCommand_rowMajor (w : Reg) : (placeCommand w s).rowMajor = s.rowMajor := rfl
@[simp] theorem placeCommand_leadDim (w : Reg) : (placeCommand w s).leadDim = s.leadDim := rfl
@[simp] theorem placeCommand_tw (w : Reg) : (placeCommand w s).tw = s.tw := rfl
@[simp] theorem placeCommand_sig (w : Reg) : (placeCommand w s).sig = s.sig := rfl
@[simp] theorem placeCommand_free (w : Reg) : (placeCommand w s).free = s.free := rfl
@[simp] theorem placeCommand_host (w : Reg) : (placeCommand w s).host = .writeCtrl 0 w :: s.host := rfl
@[simp] theorem placeCommand_rdata (w : Reg) : (placeCommand w s).rdata = s.rdata := rfl

/-! ### resetBlock -/

@[simp] theorem resetBlock_par : (resetBlock s).par = s.par := rfl
@[simp] theorem resetBlock_cmd : (resetBlock s).cmd = 0#32 := rfl
@[simp] theorem resetBlock_status : (resetBlock s).status = Status.reset := rfl
@[simp] theorem resetBlock_regs : (resetBlock s).regs = Regs.reset := rfl
@[simp] theorem resetBlock_plan : (resetBlock s).plan = Plan.reset := rfl
@[simp] theorem resetBlock_rowMajor : (resetBlock s).rowMajor = false := rfl
@[simp] theorem resetBlock_leadDim : (resetBlock s).leadDim = 0#32 := rfl
@[simp] theorem resetBlock_tw : (resetBlock s).tw = [] := rfl
@[simp] theorem resetBlock_sig : (resetBlock s).sig = [] := rfl
@[simp] theorem resetBlock_free : (resetBlock s).free = s.free + 1 := rfl
@[simp] theorem resetBlock_host : (resetBlock s).host = s.host := rfl
@[simp] theorem resetBlock_rdata : (resetBlock s).rdata = s.rdata := rfl

/-! ### setResults: the operand registers -/

@[simp] theorem setResults_arg0 (g : Regs) (a b c : Reg) : (setResults g a b c).arg0 = g.arg0 := rfl
@[simp] theorem setResults_arg1 (g : Regs) (a b c : Reg) : (setResults g a b c).arg1 = g.arg1 := rfl
@[simp] theorem setResults_arg2 (g : Regs) (a b c : Reg) : (setResults g a b c).arg2 = g.arg2 := rfl
@[simp] theorem setResults_arg3 (g : Regs) (a b c : Reg) : (setResults g a b c).arg3 = g.arg3 := rfl
@[simp] theorem setResults_arg4 (g : Regs) (a b c : Reg) : (setResults g a b c).arg4 = g.arg4 := rfl
@[simp] theorem setResults_res0 (g : Regs) (a b c : Reg) : (setResults g a b c).res0 = a := rfl
@[simp] theorem setResults_res1 (g : Regs) (a b c : Reg) : (setResults g a b c).res1 = b := rfl
@[simp] theorem setResults_res2 (g : Regs) (a b c : Reg) : (setResults g a b c).res2 = c := rfl

/-! ### statusCompleted and statusIssued -/

@[simp] theorem statusCompleted_busy (e : ErrCode) : (statusCompleted e).busy = false := rfl
@[simp] theorem statusCompleted_done (e : ErrCode) : (statusCompleted e).done = true := rfl
@[simp] theorem statusCompleted_err (e : ErrCode) : (statusCompleted e).err = e := rfl
@[simp] theorem statusIssued_busy : statusIssued.busy = true := rfl
@[simp] theorem statusIssued_done : statusIssued.done = false := rfl
@[simp] theorem statusIssued_err : statusIssued.err = .ok := rfl

/-! ### onSignal: everything but `SIG` and the counter of free values stays -/

section

variable (active : Bool) (words : List Nat) (groups : List (List Nat)) (f : Memory → Memory)

@[simp] theorem onSignal_par : (onSignal active words groups f s).par = s.par := by
  unfold onSignal; split_ifs <;> rfl
@[simp] theorem onSignal_cmd : (onSignal active words groups f s).cmd = s.cmd := by
  unfold onSignal; split_ifs <;> rfl
@[simp] theorem onSignal_status : (onSignal active words groups f s).status = s.status := by
  unfold onSignal; split_ifs <;> rfl
@[simp] theorem onSignal_regs : (onSignal active words groups f s).regs = s.regs := by
  unfold onSignal; split_ifs <;> rfl
@[simp] theorem onSignal_plan : (onSignal active words groups f s).plan = s.plan := by
  unfold onSignal; split_ifs <;> rfl
@[simp] theorem onSignal_rowMajor : (onSignal active words groups f s).rowMajor = s.rowMajor := by
  unfold onSignal; split_ifs <;> rfl
@[simp] theorem onSignal_leadDim : (onSignal active words groups f s).leadDim = s.leadDim := by
  unfold onSignal; split_ifs <;> rfl
@[simp] theorem onSignal_tw : (onSignal active words groups f s).tw = s.tw := by
  unfold onSignal; split_ifs <;> rfl
@[simp] theorem onSignal_host : (onSignal active words groups f s).host = s.host := by
  unfold onSignal; split_ifs <;> rfl
@[simp] theorem onSignal_rdata : (onSignal active words groups f s).rdata = s.rdata := by
  unfold onSignal; split_ifs <;> rfl

/-- All that `onSignal` can do: run `f` where nothing is accessed; on a footprint with a word twice, leave free values; else run
`f` and leave free values in the groups that held an unwritten word. Where free values are left the counter moves on. -/
theorem onSignal_cases :
    (active = false ∧ onSignal active words groups f s = { s with sig := f s.sig }) ∨
    (active = true ∧ allDistinct words = false ∧
      onSignal active words groups f s =
        { s with sig := scramble s.par.prec (Config.aliasedWord s.free) words s.sig, free := s.free + 1 }) ∨
    (active = true ∧ allDistinct words = true ∧
      onSignal active words groups f s =
        { s with
          sig := spoil s.par.prec s.free s.sig groups (f s.sig)
          free := if groups.all (written s.par.prec s.sig) then s.free else s.free + 1 }) := by
  unfold onSignal
  cases active <;> cases allDistinct words <;> simp

end

/-! ### Two results written one after the other: the later one stands -/

@[simp] theorem setResults_setResults (g : Regs) (a b c d e f : Reg) :
    setResults (setResults g a b c) d e f = setResults g d e f := rfl

end

end Sys2Proof.Machine
end

