-- ==== Sys2Proof/Laws/Commands.lean ====
section
/-! SUPPORT. What the shared operations of the commands can do, each said once: the prologue, a direct command, a transform,
building a plan. -/

namespace Sys2Proof.Machine

open Config (Prec Space Sign)

/-! ### Directions -/

theorem directionSign_of_direction {fwd : Sign} {dir : Dir} (h : dir = .forward ∨ dir = .inverse) :
    ∃ sign, directionSign fwd dir = some sign := by
  rcases h with rfl | rfl
  · exact ⟨fwd, rfl⟩
  · exact ⟨flipSign fwd, rfl⟩

theorem directionSign_none {fwd : Sign} {dir : Dir} (h : dir = .d0 ∨ dir = .d2) : directionSign fwd dir = none := by
  rcases h with rfl | rfl <;> rfl

/-! ### The prologue -/

/-- The prologue where the plan and direction checks pass. -/
theorem execPrologue_checked {axis : BitVec 2} {dir : Dir} {split : Bool} {s : State} {sign : Sign} (ha : axis ≠ 0#2)
    (hn : axis ≤ s.plan.naxes) (hd : directionSign s.par.fwdSign dir = some sign) :
    execPrologue axis dir split s =
      if argUnsigned s 4 = 0 then .nothing
      else if inRange s.par.sigDepth.toNat (signalShape split s)
          (directEmax (planAxis s.plan axis).n.toNat (argUnsigned s 2) (argUnsigned s 3) (argUnsigned s 4)) then
        .run { axis := planAxis s.plan axis, sign := sign, shape := signalShape split s, inc := argUnsigned s 2,
               jump := argUnsigned s 3, lot := argUnsigned s 4 }
      else .fails .capacity := by
  have h1 : ¬ (s.plan.naxes = 0#2 ∨ s.plan.naxes < axis) := by
    rintro (h | h)
    · rw [h] at hn
      exact ha (by bv_omega)
    · exact absurd hn (by bv_omega)
  simp only [execPrologue, if_neg ha, if_neg h1, hd]

/-- Where the prologue gives a request, every check has passed, and the request is the operands. -/
theorem execPrologue_run {axis : BitVec 2} {dir : Dir} {split : Bool} {s : State} {d : Request}
    (h : execPrologue axis dir split s = .run d) :
    axis ≠ 0#2 ∧ axis ≤ s.plan.naxes ∧ directionSign s.par.fwdSign dir = some d.sign ∧ argUnsigned s 4 ≠ 0 ∧
    fits s split (directEmax (planAxis s.plan axis).n.toNat (argUnsigned s 2) (argUnsigned s 3) (argUnsigned s 4)) ∧
    d = { axis := planAxis s.plan axis, sign := d.sign, shape := signalShape split s, inc := argUnsigned s 2,
          jump := argUnsigned s 3, lot := argUnsigned s 4 } := by
  unfold execPrologue at h
  split at h
  · simp at h
  · next ha =>
    split at h
    · simp at h
    · next hp =>
      split at h
      · simp at h
      · next sign hs =>
        dsimp only at h
        split at h
        · simp at h
        · next hl =>
          split at h
          · next hr =>
            simp only [Prologue.run.injEq] at h
            subst h
            refine ⟨ha, ?_, hs, hl, (inRange_eq s split _).1 hr, rfl⟩
            simp only [not_or] at hp
            exact BitVec.not_lt.1 hp.2
          · simp at h

/-- The footprint of a request is the footprint that the operands describe. -/
theorem requestWords_eq {axis : BitVec 2} {dir : Dir} {split : Bool} {s : State} {d : Request}
    (h : execPrologue axis dir split s = .run d) :
    requestWords d = directWords (planAxis s.plan axis).n.toNat split s := by
  rw [(execPrologue_run h).2.2.2.2.2]
  rfl

/-! ### Direct commands -/

/-- What a run of a direct command keeps: whatever every store of its footprint keeps. -/
def RunKeeps (run : Prec → (free : Nat) → (tw : Memory) → AxisPlan → EngineDesc → Memory → Memory) : Prop :=
  ∀ (P : Memory → Prop) (f : Prec) (free : Nat) (tw : Memory) (ax : AxisPlan) (d : EngineDesc) (sig : Memory), P sig →
    (∀ t, t < d.n → ∀ l, l < d.lot → ∀ sig v, P sig →
      P (storeWord f sig (d.A + (t * d.incw + l * d.jumpw)) v) ∧ P (storeWord f sig (d.B + (t * d.incw + l * d.jumpw)) v)) →
    P (run f free tw ax d sig)

/-- Each direct command is the shared one, with a run that keeps what stores keep and does nothing where it is not active. -/
theorem exec_direct {make : BitVec 2 → Dir → Bool → Instr} (h : make ∈ directMakers) :
    ∃ active groups run,
      (∀ axis dir split s, exec (make axis dir split) s = .next (directCommand active groups run axis dir split s)) ∧
      (∀ ax d, GroupsInside d (groups ax d)) ∧ RunKeeps run ∧ ∀ ax, active ax = false → ∀ f free tw d sig, run f free tw ax d sig = sig := by
  simp only [directMakers, List.mem_cons, List.not_mem_nil, or_false] at h
  rcases h with rfl | rfl | rfl | rfl
  · exact ⟨axisActive, _, dispatchCall, fun _ _ _ _ => rfl, fun _ => lotGroups_inside,
      fun P f free tw ax d sig h hs => dispatchCall_keeps P f free tw ax d h hs,
      fun ax h f free tw d sig => dispatchCall_inactive f free tw d sig h⟩
  · exact ⟨_, _, engine2, fun _ _ _ _ => rfl, fun _ => unitGroups_inside _ _, fun P f free tw ax d sig h hs => engineRun_keeps P f free tw d _ _ _ h hs,
      fun ax h f free tw d sig => by simp_all [engine2]⟩
  · exact ⟨_, _, engine3, fun _ _ _ _ => rfl, fun _ => unitGroups_inside _ _, fun P f free tw ax d sig h hs => engineRun_keeps P f free tw d _ _ _ h hs,
      fun ax h f free tw d sig => by simp_all [engine3]⟩
  · exact ⟨_, _, engine5, fun _ _ _ _ => rfl, fun _ => unitGroups_inside _ _, fun P f free tw ax d sig h hs => engineRun_keeps P f free tw d _ _ _ h hs,
      fun ax h f free tw d sig => by simp_all [engine5]⟩

section

variable (active : AxisPlan → Bool) (groups : AxisPlan → EngineDesc → List (List Nat))
  (run : Prec → (free : Nat) → (tw : Memory) → AxisPlan → EngineDesc → Memory → Memory)

/-- A direct command changes `SIG`, the counter of free values, the results and `STATUS`, and nothing else. -/
theorem directCommand_frame (axis : BitVec 2) (dir : Dir) (split : Bool) (s : State) :
    directCommand active groups run axis dir split s =
      { s with
        sig := (directCommand active groups run axis dir split s).sig
        free := (directCommand active groups run axis dir split s).free
        regs := setResults s.regs 0#32 0#32 0#32
        status := (directCommand active groups run axis dir split s).status } := by
  unfold directCommand
  cases execPrologue axis dir split s with
  | fails e => rfl
  | nothing => rfl
  | run d =>
    dsimp only
    rw [onSignal_frame]
    rfl

/-- A direct command keeps of `SIG` whatever every store of its footprint keeps. -/
theorem directCommand_keeps (hg : ∀ ax d, GroupsInside d (groups ax d)) (hr : RunKeeps run) (P : Memory → Prop) (axis : BitVec 2) (dir : Dir) (split : Bool) (s : State)
    (h : P s.sig)
    (hs : fits s split
        (directEmax (planAxis s.plan axis).n.toNat (argUnsigned s 2) (argUnsigned s 3) (argUnsigned s 4)) →
      ∀ w ∈ directWords (planAxis s.plan axis).n.toNat split s, ∀ m v, P m → P (storeWord s.par.prec m w v)) :
    P (directCommand active groups run axis dir split s).sig := by
  unfold directCommand
  cases hp : execPrologue axis dir split s with
  | fails e => exact h
  | nothing => exact h
  | run d =>
    obtain ⟨-, -, -, -, hfit, hd⟩ := execPrologue_run hp
    have hw := hs hfit
    dsimp only [succeed_sig]
    refine onSignal_keeps P _ _ _ _ _ h (hr P _ _ _ _ _ _ h ?_) ?_ ?_
    · intro t ht l hl sig v hP
      rw [hd] at ht hl ⊢
      have he : t * argUnsigned s 2 + l * argUnsigned s 3 ∈
          directElements (planAxis s.plan axis).n.toNat (argUnsigned s 2) (argUnsigned s 3) (argUnsigned s 4) :=
        mem_directElements.2 ⟨t, ht, l, hl, rfl⟩
      have e1 : ∀ X sc : Nat, X + (t * (sc * argUnsigned s 2) + l * (sc * argUnsigned s 3)) =
          X + sc * (t * argUnsigned s 2 + l * argUnsigned s 3) := fun X sc => by ring
      simp only [requestDesc, e1]
      exact ⟨hw _ (mem_elementWords.2 ⟨_, he, .inl rfl⟩) _ _ hP, hw _ (mem_elementWords.2 ⟨_, he, .inr rfl⟩) _ _ hP⟩
    · intro ws hws w hw'
      obtain ⟨t, ht, l, hl, hw'⟩ := hg _ _ ws hws w hw'
      rw [requestWords_eq hp]
      rw [hd] at ht hl hw'
      have he : t * argUnsigned s 2 + l * argUnsigned s 3 ∈
          directElements (planAxis s.plan axis).n.toNat (argUnsigned s 2) (argUnsigned s 3) (argUnsigned s 4) :=
        mem_directElements.2 ⟨t, ht, l, hl, rfl⟩
      have e1 : ∀ X sc : Nat, X + (t * (sc * argUnsigned s 2) + l * (sc * argUnsigned s 3)) =
          X + sc * (t * argUnsigned s 2 + l * argUnsigned s 3) := fun X sc => by ring
      simp only [descWords, requestDesc, e1, List.mem_cons, List.not_mem_nil, or_false] at hw'
      exact mem_elementWords.2 ⟨_, he, hw'⟩
    · intro m w hm v hP
      exact hw w (by rw [← requestWords_eq hp]; exact hm) m v hP

end

/-! ### TRANSFORM -/

/-- A `TRANSFORM` changes `SIG`, the counter of free values, the results and `STATUS`, and nothing else. -/
theorem transform_frame (dir : Dir) (split : Bool) (s : State) :
    transform dir split s =
      { s with
        sig := (transform dir split s).sig
        free := (transform dir split s).free
        regs := setResults s.regs 0#32 0#32 0#32
        status := (transform dir split s).status } := by
  unfold transform
  split
  · rfl
  · split
    · rfl
    · split
      · rw [runTransform, onSignal_frame]
        rfl
      · rfl

/-- A `TRANSFORM` where its plan and direction checks pass. -/
theorem transform_checked {dir : Dir} {split : Bool} {s : State} {sign : Sign} (hn : s.plan.naxes ≠ 0#2)
    (hd : directionSign s.par.fwdSign dir = some sign) :
    transform dir split s =
      if inRange s.par.sigDepth.toNat (signalShape split s) (planEmax s) then
        succeed 0#32 0#32 0#32 (runTransform (signalShape split s) sign s)
      else raise .capacity s := by
  simp only [transform, if_neg hn, hd]
  rfl

/-- Where no axis of the plan has a factor, every call of the schedule does nothing. -/
theorem runCalls_inactive (f : Prec) (free : Nat) (tw : Memory) (pl : Plan) (sh : Shape) (sign : Sign) {cs : List Call}
    (sig : Memory) (h : ∀ c ∈ cs, axisActive (planAxis pl c.axis) = false) :
    runCalls f free tw pl sh sign cs sig = sig := by
  induction cs generalizing sig with
  | nil => rfl
  | cons c cs ih =>
    simp only [runCalls, dispatchCall_inactive f free tw _ sig (h c (by simp))]
    exact ih _ fun c' hc' => h c' (by simp [hc'])

end Sys2Proof.Machine
end

