-- ==== Sys2Proof/Laws/PerInstr.lean ====
section
/-! SUPPORT. Lemmas made once per instruction, for statements over all of them. -/

/-! ### Encodings are in format C: bits 31:14 are 0 and the opcode is below 0x0C (R91, R96, R97) -/

namespace Sys2Proof.Laws.FormatC

def Statement (i : Instr) : Prop :=
  fieldZero (encode i) = 0#18 ∧ (fieldOpc (encode i)).toNat < 0x0C

theorem nop : Statement .nop := ⟨by decide, by decide⟩
theorem factorize : Statement .factorize := ⟨by decide, by decide⟩
theorem createPlan1 : Statement .createPlan1 := ⟨by decide, by decide⟩
theorem createPlan2 : Statement .createPlan2 := ⟨by decide, by decide⟩
theorem createPlan3 : Statement .createPlan3 := ⟨by decide, by decide⟩
theorem setLayout (rowMajor : Bool) : Statement (.setLayout rowMajor) := by
  cases rowMajor <;> exact ⟨by decide, by decide⟩
theorem getLayout : Statement .getLayout := ⟨by decide, by decide⟩
theorem transform (dir : Dir) (split : Bool) : Statement (.transform dir split) := by
  cases dir <;> cases split <;> exact ⟨by decide, by decide⟩
theorem dispatch (axis : BitVec 2) (dir : Dir) (split : Bool) : Statement (.dispatch axis dir split) := by
  revert axis
  cases dir <;> cases split <;> intro axis <;> exact ⟨by revert axis; decide, by revert axis; decide⟩
theorem run2 (axis : BitVec 2) (dir : Dir) (split : Bool) : Statement (.run2 axis dir split) := by
  revert axis
  cases dir <;> cases split <;> intro axis <;> exact ⟨by revert axis; decide, by revert axis; decide⟩
theorem run3 (axis : BitVec 2) (dir : Dir) (split : Bool) : Statement (.run3 axis dir split) := by
  revert axis
  cases dir <;> cases split <;> intro axis <;> exact ⟨by revert axis; decide, by revert axis; decide⟩
theorem run5 (axis : BitVec 2) (dir : Dir) (split : Bool) : Statement (.run5 axis dir split) := by
  revert axis
  cases dir <;> cases split <;> intro axis <;> exact ⟨by revert axis; decide, by revert axis; decide⟩

end Sys2Proof.Laws.FormatC
end

