-- ==== Sys2Proof/Laws/Tables.lean ====
section
/-! SUPPORT. The twiddle entries fit a word of `TW`, and what building tables leaves in `TW`. -/

namespace Sys2Proof.Machine

open Config (Prec TwGen Params)

/-! ### Entries fit a word -/

theorem infBits_lt (f : Prec) : infBits f + 1 < 2 ^ (flen f - 1) := by cases f <;> decide

theorem two_pow_flen (f : Prec) : 2 ^ flen f = 2 ^ (flen f - 1) + 2 ^ (flen f - 1) := by cases f <;> decide

theorem roundUnits_le (f : Prec) (m k : Nat) : roundUnits f m k ≤ infBits f := by
  unfold roundUnits
  dsimp only
  split <;> omega

/-- A sign and bits below it fit `FLEN` bits. -/
theorem signed_toNat (f : Prec) (neg : Bool) {bits : Nat} (h : bits < 2 ^ (flen f - 1)) :
    (signed f neg bits).toNat = if neg then bits + 2 ^ (flen f - 1) else bits := by
  have h64 : 2 ^ flen f ≤ 2 ^ 64 := by cases f <;> decide
  have h2 := two_pow_flen f
  simp only [signed, BitVec.toNat_ofNat]
  cases neg <;> simp only [if_true, Bool.false_eq_true, if_false] <;> exact Nat.mod_eq_of_lt (by omega)

theorem signed_lt (f : Prec) (neg : Bool) {bits : Nat} (h : bits < 2 ^ (flen f - 1)) :
    (signed f neg bits).toNat < 2 ^ flen f := by
  have h2 := two_pow_flen f
  rw [signed_toNat f neg h]
  split <;> omega

/-- A rounded value has room for one more encoding above it. -/
theorem roundFix_lt (f : Prec) (c : Int) : (roundFix f c).toNat + 1 < 2 ^ flen f := by
  have h1 := roundUnits_le f (c.natAbs * 2 ^ unitExp f) fixBits
  have h2 := infBits_lt f
  have h3 := two_pow_flen f
  rw [roundFix, signed_toNat f _ (by omega)]
  split <;> omega

theorem generated_lt (g : TwGen) (f : Prec) (sine : Bool) (K ni : Nat) (c : Int) :
    (generated g f sine K ni c).toNat < 2 ^ flen f := by
  have h := roundFix_lt f c
  have h64 : 2 ^ flen f ≤ 2 ^ 64 := by cases f <;> decide
  unfold generated
  split
  · omega
  · next k =>
    have := (Config.twStep k f sine K ni).isLt
    dsimp only
    split
    · rw [BitVec.toNat_ofNat, Nat.mod_eq_of_lt (by omega)]
      omega
    · omega

/-- What a generator gives is the correctly rounded encoding, or one within the bound of R143. -/
theorem generated_cases (g : TwGen) (f : Prec) (sine : Bool) (K ni : Nat) (c : Int) :
    generated g f sine K ni c = roundFix f c ∨ withinUlp f c (generated g f sine K ni c) = true := by
  unfold generated
  split
  · exact .inl rfl
  · dsimp only
    split
    · next h => exact .inr h
    · exact .inl rfl

theorem exactCos_lt {f : Prec} {K ni : Nat} {v : Word} (h : exactCos f K ni = some v) : v.toNat < 2 ^ flen f := by
  unfold exactCos at h
  split at h
  · cases f <;> (cases h; decide)
  · split at h
    · cases f <;> (cases h; decide)
    · split at h
      · cases f <;> (cases h; decide)
      · split at h
        · cases f <;> (cases h; decide)
        · cases h

theorem exactSin_lt {f : Prec} {K ni : Nat} {v : Word} (h : exactSin f K ni = some v) : v.toNat < 2 ^ flen f := by
  unfold exactSin at h
  split at h
  · cases f <;> (cases h; decide)
  · split at h
    · cases f <;> (cases h; decide)
    · split at h
      · cases f <;> (cases h; decide)
      · cases h

theorem twgenCos_lt (g : TwGen) (f : Prec) (K ni : Nat) : (twgenCos g f K ni).toNat < 2 ^ flen f := by
  unfold twgenCos
  split
  · next h => exact exactCos_lt h
  · exact generated_lt g f false K ni _

theorem twgenSin_lt (g : TwGen) (f : Prec) (K ni : Nat) : (twgenSin g f K ni).toNat < 2 ^ flen f := by
  unfold twgenSin
  split
  · next h => exact exactSin_lt h
  · exact generated_lt g f true K ni _

theorem truncWord_of_lt {f : Prec} {v : Word} (h : v.toNat < 2 ^ flen f) : truncWord f v = v := by
  apply BitVec.eq_of_toNat_eq
  simp only [truncWord, BitVec.toNat_ofNat, Nat.mod_eq_of_lt h]
  exact Nat.mod_eq_of_lt v.isLt

/-! ### One group -/

section

variable (f : Prec) (g : TwGen)

/-- Building a group keeps whatever every store of an entry of its sub-range keeps. -/
theorem buildGroup_keeps (P : Memory → Prop) (n b e off : Nat) {tw : Memory} (h : P tw)
    (hs : ∀ w, off ≤ w → w < off + 2 * b ^ e → ∀ tw v, P tw → P (storeWord f tw w v)) :
    P (buildGroup f g n b e off tw) := by
  unfold buildGroup
  exact loop_keeps P h fun k hk tw hP =>
    hs _ (by omega) (by omega) _ _ (hs _ (by omega) (by omega) _ _ hP)

/-- Entries outside the sub-range are as before. -/
theorem wordAt_buildGroup_outside (n b e off : Nat) (tw : Memory) {w : Nat} (h : w < off ∨ off + 2 * b ^ e ≤ w) :
    wordAt f (buildGroup f g n b e off tw) w = wordAt f tw w :=
  buildGroup_keeps f g (fun m => wordAt f m w = wordAt f tw w) n b e off rfl fun x h1 h2 m v hm => by
    rw [wordAt_storeWord_ne f m v (by omega), hm]

/-- A built group holds its pairs. -/
theorem holdsGroup_buildGroup (n b e off : Nat) (tw : Memory) :
    holdsGroup f g (buildGroup f g n b e off tw) n b e off := by
  suffices h : ∀ c, ∀ k, k < c →
      wordAt f (loop c (fun k tw =>
          storeWord f (storeWord f tw (off + 2 * k) (twgenCos g f (k * (n / b ^ e % b ^ e) % b ^ e) (b ^ e)))
            (off + 2 * k + 1) (twgenSin g f (k * (n / b ^ e % b ^ e) % b ^ e) (b ^ e))) tw) (off + 2 * k) =
        some (twgenCos g f (k * (n / b ^ e % b ^ e) % b ^ e) (b ^ e)) ∧
      wordAt f (loop c (fun k tw =>
          storeWord f (storeWord f tw (off + 2 * k) (twgenCos g f (k * (n / b ^ e % b ^ e) % b ^ e) (b ^ e)))
            (off + 2 * k + 1) (twgenSin g f (k * (n / b ^ e % b ^ e) % b ^ e) (b ^ e))) tw) (off + 2 * k + 1) =
        some (twgenSin g f (k * (n / b ^ e % b ^ e) % b ^ e) (b ^ e)) by
    exact h (b ^ e)
  intro c
  induction c with
  | zero => intro k hk; omega
  | succ c ih =>
    intro k hk
    rw [loop_succ]
    rcases Nat.lt_or_ge k c with h | h
    · rw [wordAt_storeWord_ne f _ _ (by omega), wordAt_storeWord_ne f _ _ (by omega),
        wordAt_storeWord_ne f _ _ (by omega), wordAt_storeWord_ne f _ _ (by omega)]
      exact ih k h
    · obtain rfl : k = c := by omega
      rw [wordAt_storeWord_ne f _ _ (by omega), wordAt_storeWord_same, wordAt_storeWord_same,
        truncWord_of_lt (twgenCos_lt _ _ _ _), truncWord_of_lt (twgenSin_lt _ _ _ _)]
      exact ⟨rfl, rfl⟩

/-- Whether a group is held depends on the entries of its sub-range only. -/
theorem holdsGroup_congr {n b e off : Nat} {tw tw' : Memory} (h : holdsGroup f g tw n b e off)
    (hw : ∀ w, off ≤ w → w < off + 2 * b ^ e → wordAt f tw' w = wordAt f tw w) : holdsGroup f g tw' n b e off := by
  intro k hk
  rw [hw _ (by omega) (by omega), hw _ (by omega) (by omega)]
  exact h k hk

/-! ### One table -/

theorem tableSize_eq (p q r : Nat) : tableSize p q r = 2 * 2 ^ p + 2 * 3 ^ q + 2 * 5 ^ r := by
  unfold tableSize
  ring

/-- Building a table keeps whatever every store of one of its entries keeps. -/
theorem buildTable_keeps (P : Memory → Prop) (n p q r T : Nat) {tw : Memory} (h : P tw)
    (hs : ∀ w, T ≤ w → w < T + tableSize p q r → ∀ tw v, P tw → P (storeWord f tw w v)) :
    P (buildTable f g n p q r T tw) := by
  rw [tableSize_eq] at hs
  exact buildGroup_keeps f g P _ _ _ _
    (buildGroup_keeps f g P _ _ _ _ (buildGroup_keeps f g P _ _ _ _ h
      fun w h1 h2 => hs w (by omega) (by omega)) fun w h1 h2 => hs w (by omega) (by omega))
    fun w h1 h2 => hs w (by omega) (by omega)

theorem wordAt_buildTable_outside (n p q r T : Nat) (tw : Memory) {w : Nat} (h : w < T ∨ T + tableSize p q r ≤ w) :
    wordAt f (buildTable f g n p q r T tw) w = wordAt f tw w :=
  buildTable_keeps f g (fun m => wordAt f m w = wordAt f tw w) n p q r T rfl fun x h1 h2 m v hm => by
    rw [wordAt_storeWord_ne f m v (by omega), hm]

/-- A built table is held. -/
theorem holdsTable_buildTable (ax : AxisPlan) (tw : Memory) :
    holdsTable f g (buildTable f g ax.n.toNat ax.p.toNat ax.q.toNat ax.r.toNat ax.twBase.toNat tw) ax := by
  unfold holdsTable buildTable
  dsimp only
  refine ⟨holdsGroup_congr f g (holdsGroup_buildGroup f g _ _ _ _ tw) fun w h1 h2 => ?_,
    holdsGroup_congr f g (holdsGroup_buildGroup f g _ _ _ _
      (buildGroup f g ax.n.toNat 2 ax.p.toNat ax.twBase.toNat tw)) fun w h1 h2 => ?_, holdsGroup_buildGroup f g _ _ _ _ _⟩
  · rw [wordAt_buildGroup_outside f g _ _ _ _ _ (by omega), wordAt_buildGroup_outside f g _ _ _ _ _ (by omega)]
  · rw [wordAt_buildGroup_outside f g _ _ _ _ _ (by omega)]

theorem holdsTable_congr {ax : AxisPlan} {tw tw' : Memory} (h : holdsTable f g tw ax)
    (hw : ∀ w, ax.twBase.toNat ≤ w → w < ax.twBase.toNat + axisTableSize ax → wordAt f tw' w = wordAt f tw w) :
    holdsTable f g tw' ax := by
  unfold axisTableSize at hw
  rw [tableSize_eq] at hw
  exact ⟨holdsGroup_congr f g h.1 fun w h1 h2 => hw w (by omega) (by omega),
    holdsGroup_congr f g h.2.1 fun w h1 h2 => hw w (by omega) (by omega),
    holdsGroup_congr f g h.2.2 fun w h1 h2 => hw w (by omega) (by omega)⟩

end

/-! ### All tables of a plan -/

/-- The tables of a list of axes lie back to back from entry `base`. -/
def backToBack : (base : Nat) → List AxisPlan → Prop
  | _, [] => True
  | base, ax :: rest => ax.twBase.toNat = base ∧ backToBack (base + axisTableSize ax) rest

/-- Building the tables keeps whatever every store of one of their entries keeps. -/
theorem buildTables_keeps (par : Params) (P : Memory → Prop) {base : Nat} {axes : List AxisPlan} {tw : Memory}
    (hb : backToBack base axes) (h : P tw)
    (hs : ∀ w, base ≤ w → w < base + tableTotal axes → ∀ tw v, P tw → P (storeWord par.prec tw w v)) :
    P (buildTables par axes tw) := by
  induction axes generalizing base tw with
  | nil => exact h
  | cons ax rest ih =>
    obtain ⟨h1, h2⟩ := hb
    simp only [tableTotal] at hs
    refine ih h2 (buildTable_keeps _ _ P _ _ _ _ _ h ?_) fun w hw1 hw2 => hs w (by omega) (by omega)
    intro w hw1 hw2
    exact hs w (by omega) (by simp only [axisTableSize]; omega)

/-- After building, every axis of the plan finds its table. -/
theorem holdsTable_buildTables (par : Params) {base : Nat} {axes : List AxisPlan} (tw : Memory)
    (hb : backToBack base axes) : ∀ ax ∈ axes, holdsTable par.prec par.twgen (buildTables par axes tw) ax := by
  induction axes generalizing base tw with
  | nil => simp
  | cons ax rest ih =>
    obtain ⟨h1, h2⟩ := hb
    intro ax' hax'
    rcases List.mem_cons.1 hax' with rfl | hax'
    · refine holdsTable_congr _ _ (holdsTable_buildTable par.prec par.twgen ax' tw) fun w hw1 hw2 => ?_
      let tw1 := buildTable par.prec par.twgen ax'.n.toNat ax'.p.toNat ax'.q.toNat ax'.r.toNat ax'.twBase.toNat tw
      exact buildTables_keeps par (fun m => wordAt par.prec m w = wordAt par.prec tw1 w) (tw := tw1) h2 rfl
        fun x hx1 hx2 m v hm => by rw [wordAt_storeWord_ne _ m v (by omega), hm]
    · exact ih _ h2 ax' hax'

end Sys2Proof.Machine
end

