-- ==== Sys2Proof/Tests/Slice0.lean ====
section
/-! SUPPORT. Tests of the model against words and values written out from the spec, and a witness for the hypotheses of every
statement that has some. -/

namespace Sys2Proof.Tests

open Sys2Proof.Machine
open Sys2Proof.Config (Prec Sign TwGen Params)

/-! ### WellFormed: an ill-formed term for each check -/

theorem test_wf_refuses_dispatch_axis_zero : Instr.wf (.dispatch 0#2 .forward false) = false := by decide
theorem test_wf_refuses_run2_axis_zero : Instr.wf (.run2 0#2 .forward false) = false := by decide
theorem test_wf_refuses_run3_axis_zero : Instr.wf (.run3 0#2 .inverse true) = false := by decide
theorem test_wf_refuses_run5_axis_zero : Instr.wf (.run5 0#2 .d2 true) = false := by decide
theorem test_wf_accepts_axis_three : Instr.wf (.dispatch 3#2 .d0 false) = true := by decide

/-! ### Decode: words written out bit by bit from R91 and R96 (zero, ROWMAJOR, SPLIT, DIR, AXIS, OPC) -/

theorem test_decode_nop : decodeWord 0b000000000000000000_0_0_00_00_00000000#32 = .ok .nop := by decide
theorem test_decode_factorize : decodeWord 0b000000000000000000_0_0_00_00_00000001#32 = .ok .factorize := by decide
theorem test_decode_createPlan1 : decodeWord 0b000000000000000000_0_0_00_00_00000010#32 = .ok .createPlan1 := by decide
theorem test_decode_createPlan2 : decodeWord 0b000000000000000000_0_0_00_00_00000011#32 = .ok .createPlan2 := by decide
theorem test_decode_createPlan3 : decodeWord 0b000000000000000000_0_0_00_00_00000100#32 = .ok .createPlan3 := by decide
theorem test_decode_setLayout_row : decodeWord 0b000000000000000000_1_0_00_00_00000101#32 = .ok (.setLayout true) := by decide
theorem test_decode_setLayout_col : decodeWord 0b000000000000000000_0_0_00_00_00000101#32 = .ok (.setLayout false) := by decide
theorem test_decode_getLayout : decodeWord 0b000000000000000000_0_0_00_00_00000110#32 = .ok .getLayout := by decide
theorem test_decode_transform_inv_sp :
    decodeWord 0b000000000000000000_0_1_11_00_00000111#32 = .ok (.transform .inverse true) := by decide
theorem test_decode_transform_d2_il :
    decodeWord 0b000000000000000000_0_0_10_00_00000111#32 = .ok (.transform .d2 false) := by decide
theorem test_decode_dispatch_a2_inv_sp :
    decodeWord 0b000000000000000000_0_1_11_10_00001000#32 = .ok (.dispatch 2#2 .inverse true) := by decide
theorem test_decode_run2_a1_fwd_il :
    decodeWord 0b000000000000000000_0_0_01_01_00001001#32 = .ok (.run2 1#2 .forward false) := by decide
theorem test_decode_run3_a1_fwd_il :
    decodeWord 0b000000000000000000_0_0_01_01_00001010#32 = .ok (.run3 1#2 .forward false) := by decide
theorem test_decode_run5_a3_inv_sp :
    decodeWord 0b000000000000000000_0_1_11_11_00001011#32 = .ok (.run5 3#2 .inverse true) := by decide

/-! The illegal words of vector V60. -/

theorem test_decode_illegal_opcode : decodeWord 0x0000000C#32 = .error .reservedOpcode := by decide
theorem test_decode_illegal_ones : decodeWord 0xFFFFFFFF#32 = .error .reservedBits := by decide
theorem test_decode_illegal_bit14 : decodeWord 0x00004000#32 = .error .reservedBits := by decide
theorem test_decode_illegal_bit31 : decodeWord 0x80000007#32 = .error .reservedBits := by decide
theorem test_decode_illegal_nop_axis : decodeWord 0x00000100#32 = .error .unusedField := by decide
theorem test_decode_illegal_factorize_dir : decodeWord 0x00000401#32 = .error .unusedField := by decide
theorem test_decode_illegal_createPlan1_split : decodeWord 0x00001002#32 = .error .unusedField := by decide
theorem test_decode_illegal_getLayout_row : decodeWord 0x00002006#32 = .error .unusedField := by decide
theorem test_decode_illegal_setLayout_split : decodeWord 0x00001005#32 = .error .unusedField := by decide
theorem test_decode_illegal_transform_axis : decodeWord 0x00000507#32 = .error .unusedField := by decide
theorem test_decode_illegal_transform_row : decodeWord 0x00002407#32 = .error .unusedField := by decide
theorem test_decode_illegal_dispatch_axis0 : decodeWord 0x00000408#32 = .error .axisZero := by decide
theorem test_decode_illegal_run2_axis0 : decodeWord 0x00000409#32 = .error .axisZero := by decide
theorem test_decode_illegal_run2_row : decodeWord 0x00002509#32 = .error .unusedField := by decide
theorem test_decodeTableWord_run5 : decodeTableWord 32 0x00000D0B = some (.run5 1#2 .inverse false) := by decide

/-! ### States to test on -/

/-- A configured axis. -/
def axis (n p q r base : Nat) : AxisPlan where
  n := BitVec.ofNat 32 n
  p := BitVec.ofNat 5 p
  q := BitVec.ofNat 5 q
  r := BitVec.ofNat 5 r
  twBase := BitVec.ofNat 32 base

/-- Words stored from a word index on. -/
def memOf (f : Prec) : (w : Nat) → List Word → Memory
  | _, [] => []
  | w, v :: vs => storeWord f (memOf f (w + 1) vs) w v

/-- The operand registers with the given arguments. -/
def args (a0 a1 a2 a3 a4 : Nat) : Regs :=
  { Regs.reset with
    arg0 := BitVec.ofNat 32 a0, arg1 := BitVec.ofNat 32 a1, arg2 := BitVec.ofNat 32 a2, arg3 := BitVec.ofNat 32 a3
    arg4 := BitVec.ofNat 32 a4 }

/-- A block with a plan for the given axes, row-major and natural, operands, and words in `SIG` from word 0 on. -/
def planned (axes : List AxisPlan) (g : Regs) (words : List Word) : State :=
  { State.reset with
    plan := planOf axes
    rowMajor := true
    leadDim := (axes.getLastD AxisPlan.none).n
    regs := g
    sig := memOf .binary64 0 words }

/-- The same with the tables of the axes in `TW`. -/
def withTables (s : State) : State := { s with tw := buildTables s.par s.plan.axes [] }

/-- What a test looks at of an outcome that is a next state. -/
def after {β : Type} (o : Host.Outcome State Fault Refusal) (look : State → β) : Option β :=
  match o with
  | .next t => some (look t)
  | _ => none

/-- Code, `RES0..2`. -/
def report (t : State) : BitVec 4 × Reg × Reg × Reg := (t.status.err.code, t.regs.res0, t.regs.res1, t.regs.res2)

/-- Words of `SIG` from word 0 on. -/
def words (f : Prec) (count : Nat) (t : State) : List (Option Word) := (List.range count).map fun w => wordAt f t.sig w

/-! The binary64 encodings of some numbers. -/

def d1 : Word := 0x3FF0000000000000#64
def d2 : Word := 0x4000000000000000#64
def d3 : Word := 0x4008000000000000#64
def d4 : Word := 0x4010000000000000#64
def d10 : Word := 0x4024000000000000#64
def dNeg2 : Word := 0xC000000000000000#64

/-! ### One step of each command, on values of 95_test_vectors.md -/

/-- V14. -/
theorem test_nop_status : after (step (State.reset.withFetchWord 32 0)) (fun t => statusWord t.status) = some 0x00000002#32 := by
  decide

/-- V10. -/
theorem test_factorize_60 : after (exec .factorize { State.reset with regs := args 60 0 0 0 0 }) report = some (0#4, 2#32, 1#32, 1#32) := by
  decide

/-- V10: 0x80000000 is read as -2^31. -/
theorem test_factorize_negative :
    after (exec .factorize { State.reset with regs := args 0x80000000 0 0 0 0 }) report = some (1#4, 0#32, 0#32, 0#32) := by decide

/-- V11: `createplan1 1`. -/
theorem test_createPlan1_one : after (exec .createPlan1 { State.reset with regs := args 1 0 0 0 0 })
    (fun t => (report t, t.plan, t.rowMajor, t.leadDim)) =
      some ((0#4, 6#32, 0#32, 0#32), planOf [axis 1 0 0 0 0], true, 1#32) := by decide +kernel

/-- V20: the table of n = 1 is three pairs (1, 0). -/
theorem test_createPlan1_table : after (exec .createPlan1 { State.reset with regs := args 1 0 0 0 0 })
    (fun t => (List.range 7).map fun w => wordAt .binary64 t.tw w) =
      some [some d1, some 0#64, some d1, some 0#64, some d1, some 0#64, none] := by decide +kernel

/-- V11: `createplan2 4, 6`. -/
theorem test_createPlan2_registers : after (exec .createPlan2 { State.reset with regs := args 4 6 0 0 0 })
    (fun t => (report t, t.plan, t.leadDim)) =
      some ((0#4, 24#32, 0#32, 0#32), planOf [axis 4 2 0 0 0, axis 6 1 1 0 12], 6#32) := by decide +kernel

/-- V12: `createplan2 7, 32768`: InvalidLength before Capacity. -/
theorem test_createPlan2_priority : after (exec .createPlan2 { State.reset with regs := args 7 32768 0 0 0 }) report =
    some (1#4, 0#32, 0#32, 0#32) := by decide

/-- V11: `createplan3 2, 3, 4`. -/
theorem test_createPlan3_registers : after (exec .createPlan3 { State.reset with regs := args 2 3 4 0 0 })
    (fun t => (report t, t.plan, t.leadDim)) =
      some ((0#4, 30#32, 0#32, 0#32), planOf [axis 2 1 0 0 0, axis 3 0 1 0 8, axis 4 2 0 0 18], 4#32) := by decide +kernel

/-- V12: `createplan3 4, 6, 11`. -/
theorem test_createPlan3_third_length : after (exec .createPlan3 { State.reset with regs := args 4 6 11 0 0 }) report =
    some (1#4, 0#32, 0#32, 0#32) := by decide

/-- V13, steps 5 and 8. -/
theorem test_setLayout_col_default :
    after (exec (.setLayout false) (planned [axis 4 2 0 0 0, axis 6 1 1 0 12] (args 0 0 0 0 0) []))
      (fun t => (t.status.err.code, t.rowMajor, t.leadDim)) = some (0#4, false, 4#32) := by decide

theorem test_setLayout_row_too_small :
    after (exec (.setLayout true) (planned [axis 4 2 0 0 0, axis 6 1 1 0 12] (args 5 0 0 0 0) []))
      (fun t => (t.status.err.code, t.rowMajor, t.leadDim)) = some (4#4, true, 6#32) := by decide

/-- V13, steps 1 and 4. -/
theorem test_getLayout_no_plan : after (exec .getLayout State.reset) report = some (3#4, 0#32, 0#32, 0#32) := by decide

theorem test_getLayout_natural :
    after (exec .getLayout (planned [axis 4 2 0 0 0, axis 6 1 1 0 12] (args 0 0 0 0 0) [])) report =
      some (0#4, 1#32, 6#32, 0#32) := by decide

/-- V82 without its infinity, by hand: (1, 1) and (2, 3) become the sum (3, 4) and the difference (-1, -2). -/
theorem test_transform_length_two :
    after (exec (.transform .forward false) (planned [axis 2 1 0 0 0] (args 0 0 0 0 0) [d1, d1, d2, d3])) (words .binary64 4) =
      some [some d3, some d4, some 0xBFF0000000000000#64, some dNeg2] := by decide +kernel

/-- V62, row 5: the first base out of range. -/
theorem test_transform_capacity :
    after (exec (.transform .forward false) (planned [axis 4 2 0 0 0] (args 1048569 0 0 0 0) [])) report =
      some (5#4, 0#32, 0#32, 0#32) := by decide

/-- V44, n = 1: nothing is touched. -/
theorem test_dispatch_length_one :
    after (exec (.dispatch 1#2 .forward false) (planned [axis 1 0 0 0 0] (args 0 0 1 0 1) [d3, d4]))
      (fun t => (t.status.err.code, words .binary64 2 t)) = some (0#4, [some d3, some d4]) := by decide +kernel

/-- V62, row 13: lot = 0 succeeds before the range check. -/
theorem test_dispatch_lot_zero :
    after (exec (.dispatch 1#2 .forward false) (planned [axis 4 2 0 0 0] (args 4294967295 0 4294967295 4294967295 0) []))
      report = some (0#4, 0#32, 0#32, 0#32) := by decide

/-- V30. -/
theorem test_run2_length_four :
    after (exec (.run2 1#2 .forward false)
      (planned [axis 4 2 0 0 0] (args 0 0 1 0 1) [d1, 0#64, d2, 0#64, d3, 0#64, d4, 0#64])) (words .binary64 8) =
      some [some d10, some 0#64, some dNeg2, some d2, some dNeg2, some 0#64, some dNeg2, some dNeg2] := by decide +kernel

/-- V62, row 11: UninitializedPlan before InvalidDirection. -/
theorem test_run2_axis_not_configured :
    after (exec (.run2 2#2 .d0 false) (planned [axis 4 2 0 0 0] (args 0 0 1 0 1) [])) report =
      some (3#4, 0#32, 0#32, 0#32) := by decide

/-- V31. -/
theorem test_run3_length_three :
    after (exec (.run3 1#2 .forward false)
      (planned [axis 3 0 1 0 0] (args 0 0 1 0 1) [d1, 0#64, d2, 0#64, d3, 0#64])) (words .binary64 6) =
      some [some 0x4018000000000000#64, some 0#64, some 0xBFF8000000000000#64, some 0x3FEBB67AE8584CAA#64,
        some 0xBFF8000000000000#64, some 0xBFEBB67AE8584CAA#64] := by decide +kernel

/-- V62, row 20: the checks are made although q = 0. -/
theorem test_run3_direction :
    after (exec (.run3 1#2 .d0 false) (planned [axis 4 2 0 0 0] (args 0 0 1 0 1) [])) report =
      some (2#4, 0#32, 0#32, 0#32) := by decide

/-- V32. -/
theorem test_run5_impulse :
    after (exec (.run5 1#2 .forward false)
      (planned [axis 5 0 0 1 0] (args 0 0 1 0 1) [d1, 0#64, 0#64, 0#64, 0#64, 0#64, 0#64, 0#64, 0#64, 0#64]))
      (words .binary64 10) =
      some [some d1, some 0#64, some d1, some 0#64, some d1, some 0#64, some d1, some 0#64, some d1, some 0#64] := by
  decide +kernel

/-- V62, row 22: r = 0. -/
theorem test_run5_absent :
    after (exec (.run5 1#2 .inverse true) (planned [axis 4 2 0 0 0] (args 0 4 1 0 1) [d1]))
      (fun t => (t.status.err.code, words .binary64 1 t)) = some (0#4, [some d1]) := by decide +kernel

/-- R287: a unit that holds an unwritten word, and one that does not (two lots of length 2, the last word unwritten). -/
theorem test_spoil_by_unit :
    spoil .binary64 0 (memOf .binary64 0 [d1, d1, d1, d1, d1, d1, d1]) [[0, 1, 2, 3], [4, 5, 6, 7]] [] =
      scramble .binary64 (Config.unwrittenWord 0 .sig) [4, 5, 6, 7] [] := by
  have h : written .binary64 (memOf .binary64 0 [d1, d1, d1, d1, d1, d1, d1]) [4, 5, 6, 7] = false := by decide +kernel
  have h' : written .binary64 (memOf .binary64 0 [d1, d1, d1, d1, d1, d1, d1]) [0, 1, 2, 3] = true := by decide +kernel
  simp [spoil, h, h']

/-- R287: a command that spoils a word moves the counter, so that spoiling the word again leaves another free value. -/
theorem test_spoiling_moves_counter :
    (onSignal true [0, 1, 2, 3] [[0, 1, 2, 3]] id State.reset).free = 1 ∧
    (onSignal true [0] [[0]] id { State.reset with sig := memOf .binary64 0 [d1] }).free = 0 := by decide +kernel

/-! ### The table and the arithmetic -/

/-- V24: pair 1 of the 5-group of n = 5, correctly rounded. -/
theorem test_twgen_72_degrees :
    (twgenCos .correctlyRounded .binary64 1 5, twgenSin .correctlyRounded .binary64 1 5) =
      (0x3FD3C6EF372FE950#64, 0x3FEE6F0E134454FF#64) := by decide +kernel

/-- R143, U5 by hand: the exact cos 72° = 0.30901699437494742410… lies below the rounded entry 0.309016994374947451…, so the
encoding below that entry is within 1 unit in the last place and the one above is not. -/
theorem test_withinUlp_72_degrees :
    (withinUlp .binary64 (cosSinFix 1 5).1 0x3FD3C6EF372FE94F#64, withinUlp .binary64 (cosSinFix 1 5).1 0x3FD3C6EF372FE951#64) =
      (true, false) := by decide +kernel

/-- By hand from IEEE 754: 2^53 + 1 is a tie and goes to the even significand; 2^53 + 2 is exact. -/
theorem test_fpAdd_tie_to_even : fpAdd .binary64 0x4340000000000000#64 d1 = 0x4340000000000000#64 := by decide +kernel

/-- By hand: half of the smallest subnormal is a tie and goes to 0; the sign is kept. -/
theorem test_fpMul_underflow : fpMul .binary64 0x8000000000000001#64 (fpHalf .binary64) = 0x8000000000000000#64 := by
  decide +kernel

/-- By hand: the largest finite binary32 number and half a unit in its last place overflow. -/
theorem test_fpAdd_overflow : fpAdd .binary32 0x7F7FFFFF#64 0x73000000#64 = 0x7F800000#64 := by decide +kernel

/-- V85: (-0) + (-0) = -0 and (-0) - (-0) = +0. -/
theorem test_signed_zeros :
    (fpAdd .binary64 0x8000000000000000#64 0x8000000000000000#64, fpSub .binary64 0x8000000000000000#64 0x8000000000000000#64) =
      (0x8000000000000000#64, 0#64) := by decide +kernel

/-! ### Witnesses: for every statement with hypotheses, states and operands that meet them together, at the boundaries of each
clause -/

/-- A block whose host is about to make one access. -/
def about (a : HostAccess) (s : State) : State := { s with host := [a] }

theorem witness_ReservedOpcodesAreIllegal :
    0x0C ≤ ((0x0C#32 : Reg).extractLsb' 0 8).toNat ∧ 0x0C ≤ ((0xFF#32 : Reg).extractLsb' 0 8).toNat := by decide

theorem witness_IllegalCommands :
    (about (.writeCtrl 0 0x00004000#32) State.reset).host = .writeCtrl 0 0x00004000#32 :: [] ∧
    (about (.writeCtrl 0 0x00004000#32) State.reset).status.busy = false ∧
    ∃ e, decodeWord 0x00004000#32 = .error e := ⟨rfl, rfl, .reservedBits, by decide⟩

theorem witness_StepRunsDecodedCommand :
    ((about (.writeCtrl 0 0x00000407#32) State.reset).host = .writeCtrl 0 0x00000407#32 :: [] ∧
      (about (.writeCtrl 0 0x00000407#32) State.reset).status.busy = false ∧
      decodeWord 0x00000407#32 = .ok (.transform .forward false)) ∧
    decodeTableWord 32 0x0D0B = some (.run5 1#2 .inverse false) := ⟨⟨rfl, rfl, by decide⟩, by decide⟩

theorem witness_IdleBlockKeepsState : State.reset.host = [] := rfl

theorem witness_ControlRegisterReads : ∀ offset ∈ [0x00, 0x04, 0x08, 0x24, 0x28, 0x2C, 0x34, 0x38, 0x40, 0x44, 0x4C, 0x50, 0x54,
      0x58, 0x5C, 0x60, 0x64, 0x68, 0xFC],
    (about (.readCtrl offset) State.reset).host = .readCtrl offset :: [] ∧
    (about (.readCtrl offset) State.reset).status.busy = false ∧ offset % 4 = 0 ∧ offset < 0x100 := by decide

theorem witness_ControlRegisterWrites : ∀ offset ∈ [0x04, 0x08, 0x0C, 0x10, 0x14, 0x18, 0x1C, 0xFC],
    (about (.writeCtrl offset 7#32) State.reset).host = .writeCtrl offset 7#32 :: [] ∧
    (about (.writeCtrl offset 7#32) State.reset).status.busy = false ∧ offset % 4 = 0 ∧ offset < 0x100 := by decide

theorem witness_OutsideControlAccessRefused :
    ((0x02 % 4 ≠ 0 ∨ 0x100 ≤ 0x02) ∧ (0x100 % 4 ≠ 0 ∨ 0x100 ≤ 0x100)) ∧
    (about (.writeCtrl 0x02 7#32) State.reset).host = .writeCtrl 0x02 7#32 :: [] ∧
    (about (.readCtrl 0x100) State.reset).host = .readCtrl 0x100 :: [] := ⟨by decide, rfl, rfl⟩

/-- The last word of `SIG`, the first index beyond it, a written word and one that nothing has written. -/
theorem witness_SignalWindow :
    (State.reset.status.busy = false ∧ 1048575 < State.reset.par.sigDepth.toNat ∧
      State.reset.par.sigDepth.toNat ≤ 1048576) ∧
    ((about (.readSig 1048575) { State.reset with sig := memOf .binary64 1048575 [d3] }).host = .readSig 1048575 :: [] ∧
      wordAt .binary64 (memOf .binary64 1048575 [d3]) 1048575 = some d3 ∧
      wordAt .binary64 (memOf .binary64 1048575 [d3]) 0 = none) ∧
    (about (.writeSig 1048575 d3) State.reset).host = .writeSig 1048575 d3 :: [] := by
  refine ⟨by decide, ⟨rfl, by decide, by decide⟩, rfl⟩

/-- The last entry of `TW`, the first index beyond it, a written entry and one that nothing has written. -/
theorem witness_TwiddleWindow :
    (about (.writeTw 0 d3) State.reset).host = .writeTw 0 d3 :: [] ∧
    (about (.readTw 65535) { State.reset with tw := memOf .binary64 65535 [d3] }).host = .readTw 65535 :: [] ∧
    65535 < State.reset.par.twDepth.toNat ∧
    wordAt .binary64 (memOf .binary64 65535 [d3]) 65535 = some d3 ∧
    (about (.readTw 65536) State.reset).host = .readTw 65536 :: [] ∧ State.reset.par.twDepth.toNat ≤ 65536 ∧
    (about (.readTw 0) State.reset).host = .readTw 0 :: [] ∧ wordAt .binary64 State.reset.tw 0 = none := by
  refine ⟨rfl, rfl, by decide, by decide, rfl, by decide, rfl, by decide⟩

theorem witness_ReadsHaveNoSideEffect : ∃ t, step (about (.readCtrl 0x64) State.reset) = .next t := ⟨_, rfl⟩

theorem witness_BusyBlockIgnoresHost :
    (about (.writeCtrl 0xFC 1#32) (issue 0#32 State.reset)).status.busy = true ∧
    (about (.writeCtrl 0xFC 1#32) (issue 0#32 State.reset)).host = .writeCtrl 0xFC 1#32 :: [] ∧
    (about (.writeSig 0 d1) (issue 0#32 State.reset)).host = .writeSig 0 d1 :: [] ∧
    (about (.readCtrl 0x04) (issue 0#32 State.reset)).host = .readCtrl 0x04 :: [] := ⟨rfl, rfl, rfl, rfl⟩

theorem witness_ResetState :
    ∃ s, (about .reset (planned [axis 2 1 0 0 0] (args 1 2 3 4 5) [d1])).host = .reset :: [] ∧
      step (about .reset (planned [axis 2 1 0 0 0] (args 1 2 3 4 5) [d1])) = .next s := ⟨_, rfl, rfl⟩

theorem witness_ParametersAreConstants : ∃ t, step (about .reset State.reset) = .next t := ⟨_, rfl⟩

theorem witness_FailureChangesNothing :
    ∃ t, exec .getLayout State.reset = .next t ∧ t.status.err ≠ .ok := ⟨_, rfl, by decide⟩

theorem witness_VectorLengthHasNoEffect : ∃ t, exec .nop State.reset = .next t := ⟨_, rfl⟩

/-- A command that is none of CREATEPLAN, and a CREATEPLAN that fails. -/
theorem witness_PlanIsImmutable :
    (∃ t, exec (.run2 1#2 .forward false) State.reset = .next t) ∧
    ∃ t, exec .createPlan1 State.reset = .next t ∧ t.status.err ≠ .ok := ⟨⟨_, rfl⟩, _, rfl, by decide⟩

theorem witness_FactorizationIsRight : 1 ≤ 1 ∧ 1 = 2 ^ 0 * 3 ^ 0 * 5 ^ 0 := by decide

/-- The smallest and the largest power of 2, and 0. -/
theorem witness_FactorizeResult :
    argSigned { State.reset with regs := args 1 0 0 0 0 } 0 = ((2 ^ 0 * 3 ^ 0 * 5 ^ 0 : Nat) : Int) ∧
    argSigned { State.reset with regs := args 0x40000000 0 0 0 0 } 0 = ((2 ^ 30 * 3 ^ 0 * 5 ^ 0 : Nat) : Int) ∧
    ∀ p q r : Nat, argSigned State.reset 0 ≠ ((2 ^ p * 3 ^ q * 5 ^ r : Nat) : Int) := by
  refine ⟨by decide, by decide, fun p q r h => ?_⟩
  have h0 : argSigned State.reset 0 = 0 := by decide
  have : 0 < 2 ^ p * 3 ^ q * 5 ^ r := by positivity
  omega

/-- A block whose `TW` has a given number of entries. -/
def withDepth (twDepth : Nat) (g : Regs) : State :=
  { State.resetWith { Config.defaults with twDepth := BitVec.ofNat 32 twDepth } with regs := g }

/-- A table that just fits. -/
theorem witness_CreatePlan1Succeeds :
    argSigned (withDepth 12 (args 4 0 0 0 0)) 0 = ((2 ^ 2 * 3 ^ 0 * 5 ^ 0 : Nat) : Int) ∧
    tableSize 2 0 0 ≤ (withDepth 12 (args 4 0 0 0 0)).par.twDepth.toNat := by decide

theorem witness_CreatePlan2Succeeds :
    argSigned (withDepth 24 (args 4 6 0 0 0)) 0 = ((2 ^ 2 * 3 ^ 0 * 5 ^ 0 : Nat) : Int) ∧
    argSigned (withDepth 24 (args 4 6 0 0 0)) 1 = ((2 ^ 1 * 3 ^ 1 * 5 ^ 0 : Nat) : Int) ∧
    tableSize 2 0 0 + tableSize 1 1 0 ≤ (withDepth 24 (args 4 6 0 0 0)).par.twDepth.toNat := by decide

theorem witness_CreatePlan3Succeeds :
    argSigned (withDepth 30 (args 2 3 4 0 0)) 0 = ((2 ^ 1 * 3 ^ 0 * 5 ^ 0 : Nat) : Int) ∧
    argSigned (withDepth 30 (args 2 3 4 0 0)) 1 = ((2 ^ 0 * 3 ^ 1 * 5 ^ 0 : Nat) : Int) ∧
    argSigned (withDepth 30 (args 2 3 4 0 0)) 2 = ((2 ^ 2 * 3 ^ 0 * 5 ^ 0 : Nat) : Int) ∧
    tableSize 1 0 0 + tableSize 0 1 0 + tableSize 2 0 0 ≤ (withDepth 30 (args 2 3 4 0 0)).par.twDepth.toNat := by decide

/-- A length 0, and tables one entry too large. -/
theorem witness_CreatePlanFailures :
    (∃ n ∈ [argSigned State.reset 0], ∀ p q r : Nat, n ≠ ((2 ^ p * 3 ^ q * 5 ^ r : Nat) : Int)) ∧
    ([argSigned (withDepth 23 (args 4 6 0 0 0)) 0, argSigned (withDepth 23 (args 4 6 0 0 0)) 1] =
        [(2, 0, 0), (1, 1, 0)].map (fun e : Nat × Nat × Nat => ((2 ^ e.1 * 3 ^ e.2.1 * 5 ^ e.2.2 : Nat) : Int)) ∧
      (withDepth 23 (args 4 6 0 0 0)).par.twDepth.toNat <
        ([(2, 0, 0), (1, 1, 0)].map fun e : Nat × Nat × Nat => tableSize e.1 e.2.1 e.2.2).sum) :=
  ⟨⟨_, by simp, witness_FactorizeResult.2.2⟩, by decide⟩

theorem witness_TablesDependOnLengthOnly :
    ∃ t, exec .createPlan1 { State.reset with regs := args 1 0 0 0 0 } = .next t ∧ t.status.err = .ok ∧
      t.plan.axes = [axis 1 0 0 0 0] ∧ 0 < axisTableSize (axis 1 0 0 0 0) := by
  refine ⟨_, rfl, ?_, ?_, ?_⟩ <;> decide +kernel

theorem witness_ExactTwiddleEntries : ∀ c ∈ [(0, 1), (1, 2), (1, 4), (3, 4), (1, 3), (2, 3)], 0 < c.2 ∧ c.1 < c.2 := by decide

/-- The first entry of the smallest group, whose cosine is not 0. -/
theorem witness_ExactTwiddleEntries_rounded :
    3 ∈ [3, 5, 8, 16] ∧ 0 < 3 ∧ Real.cos (2 * Real.pi * (0 : Nat) / (3 : Nat)) ≠ 0 := by
  refine ⟨by decide, by decide, ?_⟩
  simp

/-- No plan; and for natural 6 the operands 0, 1, 5 and 6. -/
theorem witness_SetLayoutResult :
    (State.reset.plan.naxes = 0#2) ∧
    ∀ v ∈ [0, 1, 5, 6], (planned [axis 4 2 0 0 0, axis 6 1 1 0 12] (args v 0 0 0 0) []).plan.naxes ≠ 0#2 ∧
      argSigned (planned [axis 4 2 0 0 0, axis 6 1 1 0 12] (args v 0 0 0 0) []) 0 = v := by decide

theorem witness_GetLayoutResult :
    State.reset.plan.naxes = 0#2 ∧ (planned [axis 1 0 0 0 0] (args 0 0 0 0 0) []).plan.naxes ≠ 0#2 := by decide

/-- A plan of one axis of length 2, with its table, on a `SIG` that holds an impulse. -/
def two (g : Regs) : State := withTables (planned [axis 2 1 0 0 0] g [d1, 0#64, 0#64, 0#64])

theorem twoPlan_good : (planOf [axis 2 1 0 0 0]).good := by
  refine ⟨?_, ?_, ?_, ?_, rfl, ?_, ?_⟩
  · intro ax hax
    rw [show (planOf [axis 2 1 0 0 0]).axes = [axis 2 1 0 0 0] from rfl] at hax
    rw [List.mem_singleton.1 hax]
    exact ⟨by decide, by decide⟩
  all_goals intro h; first | rfl | exact absurd h (by decide)

theorem two_good (g : Regs) : (two g).plan.good := twoPlan_good

/-- No plan; a direction that is none; the first base out of range (vector V62 rows 1 and 5). -/
theorem witness_TransformFailures :
    State.reset.plan.naxes = 0#2 ∧ (two (args 1048573 0 0 0 0)).plan.naxes ≠ 0#2 ∧
    ¬ fits (two (args 1048573 0 0 0 0)) false ((two (args 1048573 0 0 0 0)).plan.axis1.n.toNat - 1) := by
  refine ⟨rfl, by decide, ?_⟩
  unfold fits
  decide

/-- `AXIS` = 0; `AXIS` beyond the plan; a configured axis; a footprint one word too long. -/
theorem witness_DirectCommandFailures :
    (two (args 0 0 1 0 1)).plan.naxes < 2#2 ∧ 1#2 ≤ (two (args 0 0 1 0 1)).plan.naxes ∧
    argUnsigned (two (args 1048573 0 1 0 1)) 4 ≠ 0 ∧ ¬ fits (two (args 1048573 0 1 0 1)) false ((2 - 1) * 1 + (1 - 1) * 0) := by
  refine ⟨by decide, by decide, by decide, ?_⟩
  unfold fits
  decide

/-- The last base in range. -/
theorem witness_TransformCompletes :
    (two (args 1048572 0 0 0 0)).plan.good ∧ (two (args 1048572 0 0 0 0)).plan.naxes ≠ 0#2 ∧
    fits (two (args 1048572 0 0 0 0)) false (planEmax (two (args 1048572 0 0 0 0))) ∧
    (planWords false (two (args 1048572 0 0 0 0))).Nodup := by
  refine ⟨two_good _, by decide, ?_, by decide⟩
  unfold fits
  decide

/-- The last base in range for two lots, and lot = 0. -/
theorem witness_DirectCommandsComplete :
    1#2 ≠ 0#2 ∧ 1#2 ≤ (two (args 1048568 0 1 2 2)).plan.naxes ∧
    fits (two (args 1048568 0 1 2 2)) false ((2 - 1) * argUnsigned (two (args 1048568 0 1 2 2)) 2 +
      (argUnsigned (two (args 1048568 0 1 2 2)) 4 - 1) * argUnsigned (two (args 1048568 0 1 2 2)) 3) ∧
    (directWords 2 false (two (args 1048568 0 1 2 2))).Nodup ∧ argUnsigned (two (args 0 0 1 2 0)) 4 = 0 := by
  refine ⟨by decide, by decide, ?_, by decide, by decide⟩
  unfold fits
  decide

/-- Footprints whose words are distinct and all have a value, for the clauses on the counter of free values. -/
theorem witness_written_footprints :
    (planWords false (two (args 0 0 1 0 1))).Nodup ∧ (directWords 2 false (two (args 0 0 1 0 1))).Nodup ∧
    written .binary64 (two (args 0 0 1 0 1)).sig (planWords false (two (args 0 0 1 0 1))) = true ∧
    written .binary64 (two (args 0 0 1 0 1)).sig (directWords 2 false (two (args 0 0 1 0 1))) = true := by
  refine ⟨by decide, by decide, by decide +kernel, by decide +kernel⟩

/-- An axis of length 1 has none of the groups; an axis of length 2 has no 3-group and no 5-group; an axis of length 3 has no
2-group. -/
theorem witness_AbsentGroupDoesNothing :
    (planAxis (planned [axis 1 0 0 0 0] (args 0 0 1 0 1) []).plan 1#2).p = 0#5 ∧
    fits (planned [axis 1 0 0 0 0] (args 0 0 1 0 1) []) false ((1 - 1) * 1 + (1 - 1) * 0) ∧
    (planAxis (two (args 0 0 1 0 1)).plan 1#2).q = 0#5 ∧ (planAxis (two (args 0 0 1 0 1)).plan 1#2).r = 0#5 ∧
    (planAxis (planned [axis 3 0 1 0 0] (args 0 0 1 0 1) []).plan 1#2).p = 0#5 := by
  refine ⟨rfl, ?_, rfl, rfl, rfl⟩
  unfold fits
  decide

/-- A `TRANSFORM` whose only axis has length 1. -/
theorem witness_AbsentGroupDoesNothing_transform :
    (planOf [axis 1 0 0 0 0]).good ∧ (planned [axis 1 0 0 0 0] (args 0 0 0 0 0) []).plan.naxes ≠ 0#2 ∧
    (∀ ax ∈ (planned [axis 1 0 0 0 0] (args 0 0 0 0 0) []).plan.axes, ax.n = 1#32) ∧
    fits (planned [axis 1 0 0 0 0] (args 0 0 0 0 0) []) false (planEmax (planned [axis 1 0 0 0 0] (args 0 0 0 0 0) [])) := by
  have hax : (planned [axis 1 0 0 0 0] (args 0 0 0 0 0) []).plan.axes = [axis 1 0 0 0 0] := rfl
  refine ⟨⟨?_, by decide, by decide, by decide, rfl, by decide, by decide⟩, by decide, ?_, ?_⟩
  · intro ax h
    rw [show (planOf [axis 1 0 0 0 0]).axes = [axis 1 0 0 0 0] from rfl] at h
    rw [List.mem_singleton.1 h]
    exact ⟨by decide, by decide⟩
  · rw [hax]
    decide
  · unfold fits
    decide

/-- A footprint whose words all have values; and a check that fails. -/
theorem witness_DispatchIsRun2Run3Run5 :
    (directWords (planAxis (two (args 0 0 1 0 1)).plan 1#2).n.toNat false (two (args 0 0 1 0 1))).Nodup ∧
    (∀ w ∈ directWords 2 false (two (args 0 0 1 0 1)), wordAt .binary64 (two (args 0 0 1 0 1)).sig w ≠ none) ∧
    ∃ t, exec (.dispatch 2#2 .forward false) (two (args 0 0 1 0 1)) = .next t ∧ t.status.err ≠ .ok :=
  ⟨by decide, by decide +kernel, _, rfl, by decide +kernel⟩

/-- A plan of two or three axes in either layout, padded, on split planes. -/
def grid (three rm : Bool) : State :=
  { planned (if three then [axis 2 1 0 0 0, axis 3 0 1 0 8, axis 4 2 0 0 18] else [axis 4 2 0 0 0, axis 6 1 1 0 12])
      (args 0 80 0 0 0) [] with
    rowMajor := rm
    leadDim := 7#32 }

theorem gridPlan2_good : (planOf [axis 4 2 0 0 0, axis 6 1 1 0 12]).good := by
  refine ⟨?_, by decide, by decide, by decide, rfl, by decide, by decide⟩
  intro ax hax
  have hax : ax ∈ [axis 4 2 0 0 0, axis 6 1 1 0 12] := hax
  simp only [List.mem_cons, List.not_mem_nil, or_false] at hax
  rcases hax with rfl | rfl <;> exact ⟨by decide, by decide⟩

theorem gridPlan3_good : (planOf [axis 2 1 0 0 0, axis 3 0 1 0 8, axis 4 2 0 0 18]).good := by
  refine ⟨?_, by decide, by decide, by decide, rfl, by decide, by decide⟩
  intro ax hax
  have hax : ax ∈ [axis 2 1 0 0 0, axis 3 0 1 0 8, axis 4 2 0 0 18] := hax
  simp only [List.mem_cons, List.not_mem_nil, or_false] at hax
  rcases hax with rfl | rfl | rfl <;> exact ⟨by decide, by decide⟩

theorem grid_good (three rm : Bool) : (grid three rm).plan.good := by
  cases three
  · exact gridPlan2_good
  · exact gridPlan3_good

/-- The same block with 1.0 in every word of the signal. -/
def fullGrid (three rm : Bool) : State :=
  { grid three rm with sig := scramble .binary64 (fun _ => d1) (planWords true (grid three rm)) [] }

theorem grid_checks : ∀ three rm : Bool,
    (grid three rm).leadDim.toNat < 2 ^ 31 ∧ (grid three rm).plan.naxes = (if three then 3#2 else 2#2) ∧
    (grid three rm).rowMajor = rm ∧ fits (grid three rm) true (planEmax (grid three rm)) ∧
    (planWords true (grid three rm)).Nodup := by
  unfold fits
  decide +kernel

theorem witness_TransformIsItsSchedule (three rm : Bool) : (fullGrid three rm).plan.good ∧
    ((fullGrid three rm).leadDim.toNat < 2 ^ 31 ∧ (fullGrid three rm).plan.naxes = (if three then 3#2 else 2#2) ∧
      (fullGrid three rm).rowMajor = rm ∧ fits (fullGrid three rm) true (planEmax (fullGrid three rm)) ∧
      (planWords true (fullGrid three rm)).Nodup) ∧
    ∀ w ∈ planWords true (fullGrid three rm), wordAt .binary64 (fullGrid three rm).sig w ≠ none := by
  refine ⟨grid_good three rm, grid_checks three rm, fun w hw => ?_⟩
  unfold fullGrid
  dsimp only
  rw [wordAt_scramble_inside .binary64 (fun _ => d1) [] (show w ∈ planWords true (grid three rm) from hw)]
  simp

/-- The same on one axis. -/
theorem witness_TransformIsItsSchedule_one :
    (two (args 0 0 0 0 0)).plan.good ∧ (two (args 0 0 0 0 0)).leadDim.toNat < 2 ^ 31 ∧
    (two (args 0 0 0 0 0)).plan.naxes = 1#2 ∧
    fits (two (args 0 0 0 0 0)) false (planEmax (two (args 0 0 0 0 0))) ∧ (planWords false (two (args 0 0 0 0 0))).Nodup ∧
    written .binary64 (two (args 0 0 0 0 0)).sig (planWords false (two (args 0 0 0 0 0))) = true := by
  refine ⟨two_good _, by decide, rfl, ?_, by decide, by decide +kernel⟩
  unfold fits
  decide

/-- The lengths, and the two words of each element in turn, of one-lot states that meet `singleLot`. -/
theorem witness_singleLot_two : ∃ x, singleLot (two (args 0 0 1 0 1)) 1#2 .forward false 2 x ∧
    (planAxis (two (args 0 0 1 0 1)).plan 1#2).p = 1#5 := by
  refine ⟨fun j => if j = 0 then (d1, 0#64) else (0#64, 0#64), ⟨⟨by decide, .inl rfl, by decide, by decide, ?_, by decide⟩, ?_⟩, rfl⟩
  · unfold fits; decide
  · unfold holdsElement; decide +kernel

/-- One lot of length 2 whose third word nothing has written. -/
theorem witness_oneLot_unwritten :
    oneLot (planned [axis 2 1 0 0 0] (args 0 0 1 0 1) [d1, d1]) 1#2 .forward false 2 ∧
    (planAxis (planned [axis 2 1 0 0 0] (args 0 0 1 0 1) [d1, d1]).plan 1#2).p = 1#5 ∧
    2 ∈ directWords 2 false (planned [axis 2 1 0 0 0] (args 0 0 1 0 1) [d1, d1]) ∧
    wordAt .binary64 (planned [axis 2 1 0 0 0] (args 0 0 1 0 1) [d1, d1]).sig 2 = none := by
  refine ⟨⟨by decide, .inl rfl, by decide, by decide, ?_, by decide⟩, rfl, by decide, by decide⟩
  unfold fits
  decide

theorem witness_singleLot_four :
    ∃ x, singleLot (planned [axis 4 2 0 0 0] (args 0 0 1 0 1) [d1, d1, d1, d1, d1, d1, d1, d1]) 1#2 .inverse false 4 x ∧
    (planAxis (planned [axis 4 2 0 0 0] (args 0 0 1 0 1) [d1, d1, d1, d1, d1, d1, d1, d1]).plan 1#2).p = 2#5 := by
  refine ⟨fun _ => (d1, d1), ⟨⟨by decide, .inr rfl, by decide, by decide, ?_, by decide⟩, ?_⟩, rfl⟩
  · unfold fits; decide
  · unfold holdsElement; decide +kernel

theorem witness_singleLot_three :
    ∃ x, singleLot (planned [axis 3 0 1 0 0] (args 0 0 1 0 1) [d1, d1, d1, d1, d1, d1]) 1#2 .forward false 3 x ∧
    (planAxis (planned [axis 3 0 1 0 0] (args 0 0 1 0 1) [d1, d1, d1, d1, d1, d1]).plan 1#2).q = 1#5 := by
  refine ⟨fun _ => (d1, d1), ⟨⟨by decide, .inl rfl, by decide, by decide, ?_, by decide⟩, ?_⟩, rfl⟩
  · unfold fits; decide
  · unfold holdsElement; decide +kernel

theorem witness_singleLot_five :
    ∃ x, singleLot (planned [axis 5 0 0 1 0] (args 0 5 1 0 1) [d1, d1, d1, d1, d1, d1, d1, d1, d1, d1]) 1#2 .inverse true 5 x ∧
    (planAxis (planned [axis 5 0 0 1 0] (args 0 5 1 0 1) [d1, d1, d1, d1, d1, d1, d1, d1, d1, d1]).plan 1#2).r = 1#5 := by
  refine ⟨fun _ => (d1, d1), ⟨⟨by decide, .inr rfl, by decide, by decide, ?_, by decide⟩, ?_⟩, rfl⟩
  · unfold fits; decide
  · unfold holdsElement; decide +kernel

theorem two_table : holdsTable .binary64 .correctlyRounded (two (args 0 0 0 0 0)).tw (two (args 0 0 0 0 0)).plan.axis1 := by
  unfold holdsTable holdsGroup
  exact ⟨by decide +kernel, by decide +kernel, by decide +kernel⟩

theorem witness_ImpulseIsExact :
    (two (args 0 0 0 0 0)).plan.good ∧ (two (args 0 0 0 0 0)).plan.naxes = 1#2 ∧
    holdsTable .binary64 .correctlyRounded (two (args 0 0 0 0 0)).tw (two (args 0 0 0 0 0)).plan.axis1 ∧
    fits (two (args 0 0 0 0 0)) false ((two (args 0 0 0 0 0)).plan.axis1.n.toNat - 1) ∧
    (planWords false (two (args 0 0 0 0 0))).Nodup ∧
    holdsElement (two (args 0 0 0 0 0)) false (two (args 0 0 0 0 0)).sig 0 (fpOne .binary64, 0#64) ∧
    ∀ j, j < (two (args 0 0 0 0 0)).plan.axis1.n.toNat → 0 < j →
      holdsElement (two (args 0 0 0 0 0)) false (two (args 0 0 0 0 0)).sig j (0#64, 0#64) := by
  refine ⟨two_good _, rfl, two_table, ?_, by decide, ?_, ?_⟩
  · unfold fits; decide
  · unfold holdsElement; decide +kernel
  · unfold holdsElement; decide +kernel

/-- The last of two lots. -/
theorem witness_BatchInvariance :
    0 < 2 ∧ 1#2 ≤ (two (args 0 0 1 2 2)).plan.naxes ∧ fits (two (args 0 0 1 2 2)) false ((2 - 1) * 1 + (2 - 1) * 2) ∧
    (directWords 2 false (two (args 0 0 1 2 2))).Nodup ∧ 1 < argUnsigned (two (args 0 0 1 2 2)) 4 := by
  refine ⟨by decide, by decide, ?_, by decide, by decide⟩
  unfold fits
  decide

/-- The same block with the signal on split planes and a padded leading dimension. -/
theorem witness_LayoutInvariance :
    ∃ s s' : State, s.par = s'.par ∧ s.plan = s'.plan ∧ s.tw = s'.tw ∧ s.plan.good ∧ s.plan.naxes ≠ 0#2 ∧
      (∀ ax ∈ s.plan.axes, holdsTable s.par.prec s.par.twgen s.tw ax) ∧
      (naturalDim s.plan s.rowMajor).toNat ≤ s.leadDim.toNat ∧ (naturalDim s'.plan s'.rowMajor).toNat ≤ s'.leadDim.toNat ∧
      fits s false (planEmax s) ∧ fits s' true (planEmax s') ∧ (planWords false s).Nodup ∧ (planWords true s').Nodup ∧
      ∀ i1, i1 < axisLength s.plan 1#2 →
        ∃ v, holdsElement s false s.sig (planElement s i1 0 0) v ∧ holdsElement s' true s'.sig (planElement s' i1 0 0) v := by
  refine ⟨two (args 0 0 0 0 0),
    { two (args 0 2 0 0 0) with rowMajor := false, leadDim := 9#32, sig := memOf .binary64 0 [d1, 0#64, 0#64, 0#64] },
    rfl, rfl, rfl, two_good _, by decide, ?_, by decide, by decide, ?_, ?_, by decide, by decide, ?_⟩
  · intro ax hax
    rw [show (two (args 0 0 0 0 0)).plan.axes = [axis 2 1 0 0 0] from rfl] at hax
    rw [List.mem_singleton.1 hax]
    exact two_table
  · unfold fits; decide
  · unfold fits; decide
  · intro i1 h
    refine ⟨if i1 = 0 then (d1, 0#64) else (0#64, 0#64), ?_⟩
    revert i1
    unfold holdsElement
    decide +kernel

theorem witness_EngineReadsOwnSubTable : ∀ e, 2 ≤ e → e < 2 * primeVal .two ^ 1 →
    wordAt .binary64 [] (0 + e) = wordAt .binary64 (memOf .binary64 4 [d1]) (0 + e) := by
  intro e h1 h2
  have : e = 2 ∨ e = 3 := by simp only [primeVal] at h2; omega
  rcases this with rfl | rfl <;> decide

/-- A list whose last pass is of type II. -/
theorem witness_PassListsMultiplyToGroup :
    0 < 4 ∧ passList .two 4 = [{ radix := .r4, typeII := false }] ++ { radix := .r4, typeII := true } :: [] := by decide

theorem witness_RingIndexIsBijection : Nat.Coprime 4 3 ∧ 12 = 4 * 3 ∧ 0 < 12 ∧ 11 < 12 := by decide

theorem witness_EmaxIsLargestIndex : ∀ naxes ∈ [1#2, 2#2, 3#2], naxes ≠ 0#2 ∧
    transformEmax naxes true 1 1 1 0 ∈ transformElements naxes true 1 1 1 0 := by decide

theorem witness_ScheduleStaysInside :
    { axis := 1#2, off := 7, inc := 21, jump := 1, lot := 4 } ∈ schedule 3#2 true 2 3 4 7 ∧ 1 < 2 ∧ 3 < 4 := by decide

theorem witness_LegalLayoutsDoNotAlias : ∀ three rm : Bool, (grid three rm).plan.good ∧ (grid three rm).plan.naxes ≠ 0#2 ∧
    (naturalDim (grid three rm).plan (grid three rm).rowMajor).toNat ≤ (grid three rm).leadDim.toNat := by
  refine fun three rm => ⟨grid_good three rm, ?_⟩
  revert three rm
  decide

/-- The largest finite number and the smallest subnormal. -/
theorem witness_finite_operands : fpFinite .binary64 0x7FEFFFFFFFFFFFFF#64 = true ∧ fpFinite .binary64 1#64 = true ∧
    fpFinite .binary32 0x7F7FFFFF#64 = true ∧ fpFinite .binary32 0x80000001#64 = true := by decide

/-- Exact zero sums: of -0 and -0, and of 1 and -1. -/
theorem witness_SumsAreCorrectlyRounded :
    signedUnits .binary64 0x8000000000000000#64 + signedUnits .binary64 0x8000000000000000#64 = 0 ∧
    signedUnits .binary64 d1 - signedUnits .binary64 d1 = 0 ∧ fpFinite .binary64 d1 = true := by decide +kernel

theorem witness_KernelsAreRotatedDfts : ∀ c ∈ [(Radix.r2, 1), (.r3, 2), (.r4, 3), (.r5, 4), (.r8, 7)],
    0 < c.2 ∧ c.2 < radixVal c.1 ∧ Nat.Coprime c.2 (radixVal c.1) := by decide

theorem witness_UnitIsRotatedDft : 0 < 4 ∧ 0 < 15 ∧ Nat.Coprime 15 (primeVal .two) ∧ 15 < primeVal .two ^ 4 := by decide

theorem witness_StepKeepsMemoryForm :
    (about (.writeSig 0 d1) (two (args 0 0 0 0 0))).tw.wf = true ∧
    (about (.writeSig 0 d1) (two (args 0 0 0 0 0))).sig.wf = true ∧
    ∃ t, step (about (.writeSig 0 d1) (two (args 0 0 0 0 0))) = .next t := ⟨by decide +kernel, by decide, _, rfl⟩

/-- A block that has just read a word of `SIG`, with the host about to issue a command that fails. -/
theorem witness_StepKeepsInvariant :
    Inv (about (.writeCtrl 0 0x00000006#32) { State.reset with sig := memOf .binary64 0 [d1], rdata := d1 }) ∧
    ∃ t, step (about (.writeCtrl 0 0x00000006#32) { State.reset with sig := memOf .binary64 0 [d1], rdata := d1 }) = .next t := by
  have hm : goodMemory .binary64 1048576 (memOf .binary64 0 [d1]) :=
    goodMemory_storeWord d1 ⟨rfl, inside_nil _ _, whole_nil _⟩ (by decide)
  refine ⟨⟨by decide, rfl, fun h => absurd rfl h, rfl, hm.form, inside_nil _ _, hm.inside, whole_nil _, hm.whole, ?_, by decide,
    fun ax hax => absurd hax (List.not_mem_nil), fun h => absurd rfl h⟩, _, rfl⟩
  refine ⟨fun ax hax => absurd hax (List.not_mem_nil), fun _ => rfl, fun _ => rfl, fun _ => rfl, rfl, ?_, ?_⟩ <;>
    intro h <;> exact absurd h (by decide)

theorem witness_ResetMeetsInvariant : Config.defaults.legal = true ∧
    Params.legal { Config.defaults with lvr := 1#32, twDepth := 6#32, sigDepth := 2#32 } = true := by decide

end Sys2Proof.Tests
end

section
/-! PROOF. `LVR` has no effect on any result (00_scope.md R8): every shared operation of the commands commutes with a change
of `LVR`. -/

namespace Sys2Proof.Proofs

open Sys2Proof Sys2Proof.Machine
open Sys2Proof.Config (Prec Sign Params)

/-- The same state of a block built with another `LVR`. -/
def withLvr (lvr : Reg) (s : State) : State := { s with par := { s.par with lvr := lvr } }

section

variable (lvr : Reg) (s : State)

theorem raise_withLvr (e : ErrCode) : raise e (withLvr lvr s) = withLvr lvr (raise e s) := rfl

theorem succeed_withLvr (r0 r1 r2 : Reg) : succeed r0 r1 r2 (withLvr lvr s) = withLvr lvr (succeed r0 r1 r2 s) := rfl

/-- The table builder uses `PREC` and `TWGEN` of the parameters only. -/
theorem buildTables_withLvr (par : Params) (axes : List AxisPlan) (tw : Memory) :
    buildTables { par with lvr := lvr } axes tw = buildTables par axes tw := by
  induction axes generalizing tw with
  | nil => rfl
  | cons ax rest ih => exact ih _

theorem commitPlan_withLvr (axes : List AxisPlan) : commitPlan axes (withLvr lvr s) = withLvr lvr (commitPlan axes s) := by
  simp only [commitPlan, withLvr, buildTables_withLvr]

theorem buildPlan_withLvr (lengths : List Reg) : buildPlan lengths (withLvr lvr s) = withLvr lvr (buildPlan lengths s) := by
  unfold buildPlan
  cases planAxes 0 lengths with
  | none => rfl
  | some axes =>
    dsimp only
    rw [apply_ite (withLvr lvr), commitPlan_withLvr]
    rfl

theorem setLayout_withLvr (rowMajor : Bool) : setLayout rowMajor (withLvr lvr s) = withLvr lvr (setLayout rowMajor s) := by
  simp only [setLayout, apply_ite (withLvr lvr)]
  rfl

theorem onSignal_withLvr (active : Bool) (words : List Nat) (groups : List (List Nat)) (f : Memory → Memory) :
    onSignal active words groups f (withLvr lvr s) = withLvr lvr (onSignal active words groups f s) := by
  simp only [onSignal, apply_ite (withLvr lvr)]
  rfl

theorem execPrologue_withLvr (axis : BitVec 2) (dir : Dir) (split : Bool) :
    execPrologue axis dir split (withLvr lvr s) = execPrologue axis dir split s := rfl

theorem directCommand_withLvr (active : AxisPlan → Bool) (groups : AxisPlan → EngineDesc → List (List Nat))
    (run : Prec → (free : Nat) → (tw : Memory) → AxisPlan → EngineDesc → Memory → Memory)
    (axis : BitVec 2) (dir : Dir) (split : Bool) :
    directCommand active groups run axis dir split (withLvr lvr s) =
      withLvr lvr (directCommand active groups run axis dir split s) := by
  unfold directCommand
  rw [execPrologue_withLvr]
  cases execPrologue axis dir split s with
  | fails e => rfl
  | nothing => rfl
  | run d =>
    dsimp only
    rw [onSignal_withLvr]
    rfl

theorem runTransform_withLvr (shape : Shape) (sign : Sign) :
    runTransform shape sign (withLvr lvr s) = withLvr lvr (runTransform shape sign s) :=
  onSignal_withLvr lvr s _ _ _ _

theorem transform_withLvr (dir : Dir) (split : Bool) :
    transform dir split (withLvr lvr s) = withLvr lvr (transform dir split s) := by
  by_cases hn : s.plan.naxes = 0#2
  · rw [transform, transform, if_pos hn, if_pos (show (withLvr lvr s).plan.naxes = 0#2 from hn)]
    rfl
  · cases hd : directionSign s.par.fwdSign dir with
    | none =>
      simp only [transform, withLvr, hn, hd, if_false]
      rfl
    | some sign =>
      rw [transform_checked hn hd, transform_checked (s := withLvr lvr s) hn hd, runTransform_withLvr,
        apply_ite (withLvr lvr)]
      rfl

/-- Each command completes, and with another `LVR` it completes in the same state but for `LVR`. -/
theorem exec_withLvr (i : Instr) :
    ∃ t, exec i s = .next t ∧ exec i (withLvr lvr s) = .next (withLvr lvr t) := by
  cases i with
  | nop => exact ⟨_, rfl, rfl⟩
  | factorize =>
    cases h : factorLength (argSigned s 0) with
    | none =>
      have h' : factorLength (argSigned (withLvr lvr s) 0) = none := h
      exact ⟨raise .invalidLength s, by simp only [exec, execFactorize, h], by
        simp only [exec, execFactorize, h', raise_withLvr]⟩
    | some F =>
      have h' : factorLength (argSigned (withLvr lvr s) 0) = some F := h
      exact ⟨succeed (BitVec.ofNat 32 F.p) (BitVec.ofNat 32 F.q) (BitVec.ofNat 32 F.r) s,
        by simp only [exec, execFactorize, h], by simp only [exec, execFactorize, h', succeed_withLvr]⟩
  | createPlan1 => exact ⟨_, rfl, congrArg _ (buildPlan_withLvr lvr s _)⟩
  | createPlan2 => exact ⟨_, rfl, congrArg _ (buildPlan_withLvr lvr s _)⟩
  | createPlan3 => exact ⟨_, rfl, congrArg _ (buildPlan_withLvr lvr s _)⟩
  | setLayout rowMajor => exact ⟨_, rfl, congrArg _ (setLayout_withLvr lvr s rowMajor)⟩
  | getLayout =>
    by_cases hn : s.plan.naxes = 0#2
    · exact ⟨_, if_pos hn, if_pos hn⟩
    · exact ⟨_, if_neg hn, if_neg hn⟩
  | transform dir split => exact ⟨_, rfl, congrArg _ (transform_withLvr lvr s dir split)⟩
  | dispatch axis dir split => exact ⟨_, rfl, congrArg _ (directCommand_withLvr lvr s _ _ _ axis dir split)⟩
  | run2 axis dir split => exact ⟨_, rfl, congrArg _ (directCommand_withLvr lvr s _ _ _ axis dir split)⟩
  | run3 axis dir split => exact ⟨_, rfl, congrArg _ (directCommand_withLvr lvr s _ _ _ axis dir split)⟩
  | run5 axis dir split => exact ⟨_, rfl, congrArg _ (directCommand_withLvr lvr s _ _ _ axis dir split)⟩

end

/-- Settles O20: every command commutes with a change of `LVR`. -/
theorem vectorLengthHasNoEffect : Obligations.VectorLengthHasNoEffect := by
  intro i s t lvr h
  obtain ⟨t', ht, htl⟩ := exec_withLvr lvr s i
  obtain rfl : t' = t := by simpa [ht] using h
  exact htl

end Sys2Proof.Proofs
end

section
/-! PROOF. The lots of a batch are computed independently (R158, R8). One lot of a batch is a batch of its own, with the
bases moved to it (`lotDesc`); an engine run on the batch runs these one after another, and none touches a word of another. -/

namespace Sys2Proof.Proofs

open Sys2Proof Sys2Proof.Machine
open Sys2Proof.Config (Prec Sign)

/-! ### Memories that agree on some words -/

/-- The words have the same values in both memories. -/
def AgreeOn (f : Prec) (words : List Nat) (m m' : Memory) : Prop := ∀ w ∈ words, wordAt f m w = wordAt f m' w

theorem agreeOn_storeWord {f : Prec} {words : List Nat} {m m' : Memory} (w : Nat) (v : Word) (h : AgreeOn f words m m') :
    AgreeOn f words (storeWord f m w v) (storeWord f m' w v) := by
  intro x hx
  rw [wordAt_storeWord, wordAt_storeWord, h x hx]

/-- A store outside the words does not disturb the agreement. -/
theorem agreeOn_storeWord_outside {f : Prec} {words : List Nat} {m m' : Memory} {w : Nat} (v : Word) (hw : w ∉ words)
    (h : AgreeOn f words m m') : AgreeOn f words (storeWord f m w v) m' := by
  intro x hx
  rw [wordAt_storeWord_ne f m v (ne_of_mem_of_not_mem hx hw), h x hx]

/-- What `spoil` leaves in a word: a free value where some group with the word held an unwritten one, else what was there. -/
theorem wordAt_spoil (f : Prec) (free : Nat) (before : Memory) (groups : List (List Nat)) (m : Memory) (w : Nat) :
    wordAt f (spoil f free before groups m) w =
      if ∃ ws ∈ groups, w ∈ ws ∧ written f before ws = false then
        some (truncWord f (truncWord f (Config.unwrittenWord free .sig w)))
      else wordAt f m w := by
  induction groups generalizing m with
  | nil => simp [spoil]
  | cons ws rest ih =>
    rw [spoil, ih]
    by_cases hrest : ∃ ws ∈ rest, w ∈ ws ∧ written f before ws = false
    · obtain ⟨ws', hws', hbad⟩ := hrest
      rw [if_pos ⟨ws', hws', hbad⟩, if_pos ⟨ws', List.mem_cons_of_mem _ hws', hbad⟩]
    · rw [if_neg hrest]
      simp only [List.exists_mem_cons_iff, hrest, or_false]
      cases hwr : written f before ws with
      | true => simp
      | false =>
        by_cases hw : w ∈ ws
        · simp [hw, wordAt_scramble_inside]
        · simp [hw, wordAt_scramble_outside]

/-! ### One lot of a batch -/

/-- Lot l of a batch as a batch of one lot. -/
def lotDesc (d : EngineDesc) (l : Nat) : EngineDesc :=
  { d with A := d.A + l * d.jumpw, B := d.B + l * d.jumpw, lot := 1 }

/-- The words of lot l. -/
def lotWords (d : EngineDesc) (l : Nat) : List Nat := (List.range d.n).flatMap (descWords d l)

/-- No word of lot l is a word of another lot. -/
def LotApart (d : EngineDesc) (l : Nat) : Prop := ∀ i, i < d.lot → i ≠ l → (lotWords d i).Disjoint (lotWords d l)

theorem lotDesc_offset (X t incw l jumpw : Nat) :
    X + l * jumpw + (t * incw + 0 * jumpw) = X + (t * incw + l * jumpw) := by ring

theorem descWords_lotDesc (d : EngineDesc) (l t : Nat) : descWords (lotDesc d l) 0 t = descWords d l t := by
  simp only [descWords, lotDesc, lotDesc_offset]

theorem lotWords_lotDesc (d : EngineDesc) (l : Nat) : lotWords (lotDesc d l) 0 = lotWords d l := by
  unfold lotWords
  rw [funext (descWords_lotDesc d l)]
  rfl

theorem mem_lotWords {d : EngineDesc} {l w : Nat} : w ∈ lotWords d l ↔ ∃ t, t < d.n ∧ w ∈ descWords d l t := by
  simp only [lotWords, List.mem_flatMap, List.mem_range]

theorem unitEnv_lotDesc (f : Prec) (free : Nat) (tw : Memory) (d : EngineDesc) (T ni inq l nu : Nat) :
    unitEnv f free tw (lotDesc d l) T ni inq 0 nu = unitEnv f free tw d T ni inq l nu := by
  simp only [unitEnv, unitStore, lotDesc, lotDesc_offset]

/-- An engine run on a batch (R158) is the runs on its lots, in turn. -/
theorem engineRun_eq_loop_lots (f : Prec) (free : Nat) (tw : Memory) (d : EngineDesc) (b : Prime) {mm : Nat} (T : Nat)
    (sig : Memory) (hmm : mm ≠ 0) :
    engineRun f free tw d b mm T sig = loop d.lot (fun l => engineRun f free tw (lotDesc d l) b mm T) sig := by
  have hlot : ∀ l, engineRun f free tw (lotDesc d l) b mm T =
      fun sig => loop (d.n / primeVal b ^ mm) (fun nu =>
        runPasses (unitEnv f free tw d T (primeVal b ^ mm) (d.n / primeVal b ^ mm) l nu) (passList b mm) 1) sig := by
    intro l
    funext sig
    rw [engineRun, if_neg hmm, show (lotDesc d l).lot = 1 from rfl, loop_succ, loop_zero]
    simp only [unitEnv_lotDesc]
    rfl
  rw [engineRun, if_neg hmm, funext hlot]

/-- A batch of one lot stores into the words of that lot only. -/
theorem engineRun_lotDesc_keeps (P : Memory → Prop) (f : Prec) (free : Nat) (tw : Memory) (d : EngineDesc) (l : Nat)
    (b : Prime) (mm T : Nat) {sig : Memory} (h : P sig) (hs : ∀ w ∈ lotWords d l, ∀ sig v, P sig → P (storeWord f sig w v)) :
    P (engineRun f free tw (lotDesc d l) b mm T sig) := by
  refine engineRun_keeps P f free tw _ b mm T h fun t ht i hi sig v hP => ?_
  obtain rfl : i = 0 := by simpa [lotDesc] using hi
  have hw : ∀ w ∈ descWords (lotDesc d l) 0 t, w ∈ lotWords d l := by
    intro w hw
    rw [descWords_lotDesc] at hw
    exact mem_lotWords.2 ⟨t, ht, hw⟩
  exact ⟨hs _ (hw _ (by simp [descWords])) sig v hP, hs _ (hw _ (by simp [descWords])) sig v hP⟩

/-- The loads and stores of a unit of lot l correspond on two memories that agree on the words of the lot. -/
theorem unitSim_agreeOn (f : Prec) (free : Nat) (tw : Memory) (d : EngineDesc) (T ni inq l nu : Nat) (hn : 0 < d.n) :
    UnitSim (unitEnv f free tw d T ni inq l nu) (unitEnv f free tw d T ni inq l nu) (AgreeOn f (lotWords d l)) where
  arith := rfl
  twiddle _ _ _ := rfl
  sign := rfl
  ni := rfl
  inq := rfl
  get m m' u h := by
    have ht := ringIndex_lt ni inq nu u hn
    exact Prod.ext (loadWord_congr f free _ (h _ (mem_lotWords.2 ⟨_, ht, by simp [descWords]⟩)))
      (loadWord_congr f free _ (h _ (mem_lotWords.2 ⟨_, ht, by simp [descWords]⟩)))
  set m m' u v h := agreeOn_storeWord _ _ (agreeOn_storeWord _ _ h)

/-- What a run on lot l alone leaves in the lot depends only on what the lot held. -/
theorem engineRun_lotDesc_agree (f : Prec) (free : Nat) (tw : Memory) (d : EngineDesc) (l : Nat) (b : Prime) (mm T : Nat)
    (hn : 0 < d.n) {m m' : Memory} (h : AgreeOn f (lotWords d l) m m') :
    AgreeOn f (lotWords d l) (engineRun f free tw (lotDesc d l) b mm T m) (engineRun f free tw (lotDesc d l) b mm T m') := by
  unfold engineRun
  split
  · exact h
  · refine loop_sim _ h fun i hi m m' h => loop_sim _ h fun nu _ m m' h => ?_
    obtain rfl : i = 0 := by simpa [lotDesc] using hi
    rw [unitEnv_lotDesc]
    exact runPasses_sim (unitSim_agreeOn f free tw d T _ _ l nu hn) _ Nat.one_pos h

/-- A loop of which only round l matters to a relation does what that round does. -/
theorem loop_single {σ τ : Type} (R : σ → τ → Prop) {f : Nat → σ → σ} {g : τ → τ} {st' : τ} {n l : Nat}
    (hother : ∀ i, i < n → i ≠ l → ∀ st st', R st st' → R (f i st) st')
    (hown : ∀ st, R st st' → R (f l st) (g st')) {st : σ} (h : R st st') :
    R (loop n f st) (if l < n then g st' else st') := by
  induction n with
  | zero => exact h
  | succ n ih =>
    have ih := ih fun i hi => hother i (by omega)
    rw [loop_succ]
    rcases Nat.lt_trichotomy l n with hl | rfl | hl
    · rw [if_pos hl] at ih
      rw [if_pos (by omega)]
      exact hother n (by omega) (by omega) _ _ ih
    · rw [if_neg (by omega)] at ih
      rw [if_pos (by omega)]
      exact hown _ ih
    · rw [if_neg (by omega)] at ih ⊢
      exact hother n (by omega) (by omega) _ _ ih

/-- In the words of a lot that no other lot touches, an engine run on the batch leaves what the run on that lot leaves. -/
theorem engineRun_agree_lotDesc (f : Prec) (free : Nat) (tw : Memory) {d : EngineDesc} {l : Nat} (b : Prime) (mm T : Nat)
    (hn : 0 < d.n) (hl : l < d.lot) (hapart : LotApart d l) {m m' : Memory} (h : AgreeOn f (lotWords d l) m m') :
    AgreeOn f (lotWords d l) (engineRun f free tw d b mm T m) (engineRun f free tw (lotDesc d l) b mm T m') := by
  rcases Nat.eq_zero_or_pos mm with rfl | hmm
  · simpa only [engineRun_zero] using h
  · have hother : ∀ i, i < d.lot → i ≠ l → ∀ m m', AgreeOn f (lotWords d l) m m' →
        AgreeOn f (lotWords d l) (engineRun f free tw (lotDesc d i) b mm T m) m' := fun i hi hne m m' h =>
      engineRun_lotDesc_keeps (AgreeOn f (lotWords d l) · m') f free tw d i b mm T h fun w hw _ v h =>
        agreeOn_storeWord_outside v (hapart i hi hne hw) h
    have hown : ∀ m, AgreeOn f (lotWords d l) m m' → AgreeOn f (lotWords d l)
        (engineRun f free tw (lotDesc d l) b mm T m) (engineRun f free tw (lotDesc d l) b mm T m') := fun m h =>
      engineRun_lotDesc_agree f free tw d l b mm T hn h
    have := loop_single (AgreeOn f (lotWords d l)) hother hown h
    rwa [if_pos hl, ← engineRun_eq_loop_lots f free tw d b T m hmm.ne'] at this

/-! ### The runs and groups of the direct commands -/

/-- In the words of a lot that no other lot touches, a run on the batch leaves what the run on that lot leaves. -/
def RunByLot (run : Prec → (free : Nat) → (tw : Memory) → AxisPlan → EngineDesc → Memory → Memory) : Prop :=
  ∀ (f : Prec) (free : Nat) (tw : Memory) (ax : AxisPlan) (d : EngineDesc) (l : Nat) (m m' : Memory),
    0 < d.n → l < d.lot → LotApart d l → AgreeOn f (lotWords d l) m m' →
    AgreeOn f (lotWords d l) (run f free tw ax d m) (run f free tw ax (lotDesc d l) m')

theorem engine2_byLot : RunByLot engine2 := fun f free tw _ _ _ _ _ hn hl hapart h =>
  engineRun_agree_lotDesc f free tw _ _ _ hn hl hapart h

theorem engine3_byLot : RunByLot engine3 := fun f free tw _ _ _ _ _ hn hl hapart h =>
  engineRun_agree_lotDesc f free tw _ _ _ hn hl hapart h

theorem engine5_byLot : RunByLot engine5 := fun f free tw _ _ _ _ _ hn hl hapart h =>
  engineRun_agree_lotDesc f free tw _ _ _ hn hl hapart h

theorem dispatchCall_byLot : RunByLot dispatchCall := fun f free tw ax d l _ _ hn hl hapart h =>
  engine5_byLot f free tw ax d l _ _ hn hl hapart
    (engine3_byLot f free tw ax d l _ _ hn hl hapart (engine2_byLot f free tw ax d l _ _ hn hl hapart h))

/-- The groups of a batch are the groups of its lots. -/
def GroupsByLot (groups : EngineDesc → List (List Nat)) : Prop :=
  ∀ d, groups d = (List.range d.lot).flatMap fun l => groups (lotDesc d l)

theorem unitGroups_byLot (b : Prime) (mm : Nat) : GroupsByLot (unitGroups b mm) := by
  intro d
  unfold unitGroups
  refine congrArg (List.flatMap · _) (funext fun l => ?_)
  simp only [show (lotDesc d l).lot = 1 from rfl, List.range_one, List.flatMap_singleton, descWords_lotDesc]
  rfl

theorem lotGroups_lotDesc (d : EngineDesc) (l : Nat) : lotGroups (lotDesc d l) = [lotWords d l] :=
  congrArg (fun ws => [ws]) (lotWords_lotDesc d l)

theorem lotGroups_byLot : GroupsByLot lotGroups := by
  intro d
  simp only [lotGroups_lotDesc, ← List.map_eq_flatMap]
  rfl

/-- The groups of a batch of one lot lie in the words of the lot. -/
theorem GroupsInside.subset_lotWords {d : EngineDesc} {l : Nat} {groups : List (List Nat)}
    (h : GroupsInside (lotDesc d l) groups) {ws : List Nat} (hws : ws ∈ groups) {w : Nat} (hw : w ∈ ws) :
    w ∈ lotWords d l := by
  obtain ⟨t, ht, i, hi, hw⟩ := h ws hws w hw
  obtain rfl : i = 0 := by simpa [lotDesc] using hi
  rw [descWords_lotDesc] at hw
  exact mem_lotWords.2 ⟨t, ht, hw⟩

/-- The groups with a word of lot l are groups of that lot alone. -/
theorem GroupsByLot.mem_iff {groups : EngineDesc → List (List Nat)} (h : GroupsByLot groups)
    (hin : ∀ d, GroupsInside d (groups d)) {d : EngineDesc} {l : Nat} (hl : l < d.lot) (hapart : LotApart d l)
    {ws : List Nat} {w : Nat} (hw : w ∈ lotWords d l) (hws : w ∈ ws) :
    ws ∈ groups d ↔ ws ∈ groups (lotDesc d l) := by
  rw [h d]
  simp only [List.mem_flatMap, List.mem_range]
  constructor
  · rintro ⟨i, hi, hmem⟩
    by_cases hne : i = l
    · rwa [hne] at hmem
    · exact absurd hw (hapart i hi hne (GroupsInside.subset_lotWords (hin _) hmem hws))
  · exact fun hmem => ⟨l, hl, hmem⟩

/-- Each direct command is the shared one, with a run and groups that go by lots. -/
theorem exec_direct_byLot {make : BitVec 2 → Dir → Bool → Instr} (h : make ∈ directMakers) :
    ∃ active groups run,
      (∀ axis dir split s, exec (make axis dir split) s = .next (directCommand active groups run axis dir split s)) ∧
      (∀ ax d, GroupsInside d (groups ax d)) ∧ (∀ ax, GroupsByLot (groups ax)) ∧ RunByLot run := by
  simp only [directMakers, List.mem_cons, List.not_mem_nil, or_false] at h
  rcases h with rfl | rfl | rfl | rfl
  · exact ⟨_, _, _, fun _ _ _ _ => rfl, fun _ => lotGroups_inside, fun _ => lotGroups_byLot, dispatchCall_byLot⟩
  · exact ⟨_, _, _, fun _ _ _ _ => rfl, fun _ => unitGroups_inside _ _, fun _ => unitGroups_byLot _ _, engine2_byLot⟩
  · exact ⟨_, _, _, fun _ _ _ _ => rfl, fun _ => unitGroups_inside _ _, fun _ => unitGroups_byLot _ _, engine3_byLot⟩
  · exact ⟨_, _, _, fun _ _ _ _ => rfl, fun _ => unitGroups_inside _ _, fun _ => unitGroups_byLot _ _, engine5_byLot⟩

/-! ### The footprint by lots -/

theorem descWords_requestDesc (r : Request) (l j : Nat) :
    descWords (requestDesc r) l j = elementWords r.shape [j * r.inc + l * r.jump] := by
  have e : ∀ X : Nat, X + (j * (r.shape.sc * r.inc) + l * (r.shape.sc * r.jump)) =
      X + r.shape.sc * (j * r.inc + l * r.jump) := fun X => by ring
  simp [descWords, requestDesc, elementWords, reAddr, imAddr, e]

theorem requestWords_eq_lots (r : Request) :
    requestWords r = (List.range r.lot).flatMap (lotWords (requestDesc r)) := by
  simp only [requestWords, elementWords, directElements, List.flatMap_assoc, List.flatMap_map]
  refine congrArg (List.flatMap · _) (funext fun l => ?_)
  rw [lotWords, funext (descWords_requestDesc r l)]
  simp only [elementWords, List.flatMap_singleton]
  rfl

theorem lotApart_of_nodup {r : Request} {l : Nat} (h : (requestWords r).Nodup) (hl : l < r.lot) :
    LotApart (requestDesc r) l := by
  intro i hi hne
  rw [requestWords_eq_lots, List.nodup_flatMap] at h
  have hsymm : Std.Symm (fun i l => (lotWords (requestDesc r) i).Disjoint (lotWords (requestDesc r) l)) :=
    ⟨fun _ _ h => h.symm⟩
  exact h.2.forall (List.mem_range.2 hi) (List.mem_range.2 hl) hne

/-- The request of one lot of a batch: the bases moved to it, lot = 1. -/
def lotRequest (r : Request) (l : Nat) : Request :=
  { r with
    shape :=
      { r.shape with A := r.shape.A + r.shape.sc * (l * r.jump), B := r.shape.B + r.shape.sc * (l * r.jump) }
    lot := 1 }

theorem requestDesc_lotRequest (r : Request) (l : Nat) : requestDesc (lotRequest r l) = lotDesc (requestDesc r) l := by
  simp only [requestDesc, lotRequest, lotDesc, Nat.mul_left_comm]

theorem requestWords_lotRequest (r : Request) (l : Nat) :
    requestWords (lotRequest r l) = lotWords (requestDesc r) l := by
  rw [requestWords_eq_lots, requestDesc_lotRequest, ← lotWords_lotDesc]
  exact List.flatMap_singleton _ _

/-- Running a batch and running one of its lots leave the same in the lot, free values of unwritten words included. -/
theorem onSignal_agree_lotRequest (active : Bool) {groups : EngineDesc → List (List Nat)}
    {run : Prec → (free : Nat) → (tw : Memory) → AxisPlan → EngineDesc → Memory → Memory}
    (hin : ∀ d, GroupsInside d (groups d)) (hgroups : GroupsByLot groups) (hrun : RunByLot run)
    {r : Request} {l : Nat} (hn : 0 < r.axis.n.toNat) (hl : l < r.lot) (hnd : (requestWords r).Nodup)
    (s s' : State) (hpar : s'.par = s.par) (hfree : s'.free = s.free) (htw : s'.tw = s.tw) (hsig : s'.sig = s.sig) :
    AgreeOn s.par.prec (lotWords (requestDesc r) l)
      (onSignal active (requestWords r) (groups (requestDesc r))
        (run s.par.prec s.free s.tw r.axis (requestDesc r)) s).sig
      (onSignal active (requestWords (lotRequest r l)) (groups (requestDesc (lotRequest r l)))
        (run s'.par.prec s'.free s'.tw r.axis (requestDesc (lotRequest r l))) s').sig := by
  have hapart := lotApart_of_nodup hnd hl
  have hagree := hrun s.par.prec s.free s.tw r.axis (requestDesc r) l s.sig s.sig hn hl hapart fun _ _ => rfl
  rw [requestWords_lotRequest, requestDesc_lotRequest, hpar, hfree, htw]
  cases active with
  | false =>
    simp only [onSignal_inactive, hsig]
    exact hagree
  | true =>
    have hnd1 : (lotWords (requestDesc r) l).Nodup := by
      rw [requestWords_eq_lots, List.nodup_flatMap] at hnd
      exact hnd.1 l (List.mem_range.2 hl)
    intro w hw
    have hiff : (∃ ws ∈ groups (requestDesc r), w ∈ ws ∧ written s.par.prec s.sig ws = false) ↔
        ∃ ws ∈ groups (lotDesc (requestDesc r) l), w ∈ ws ∧ written s.par.prec s.sig ws = false :=
      exists_congr fun ws => and_congr_left fun hws => hgroups.mem_iff hin hl hapart hw hws.1
    simp only [onSignal_distinct _ _ _ hnd, onSignal_distinct _ _ _ hnd1, hpar, hfree, hsig, wordAt_spoil, hiff,
      hagree w hw]

/-! ### The operands of one call -/

theorem toNat_add_ofNat {x : Reg} {k : Nat} (h : x.toNat + k < 2 ^ 32) : (x + BitVec.ofNat 32 k).toNat = x.toNat + k := by
  rw [BitVec.toNat_add, BitVec.toNat_ofNat, Nat.add_mod_mod, Nat.mod_eq_of_lt h]

/-- Where the call's offset lies within the depth, the bases of the signal move by it without wrapping. -/
theorem signalShape_withCall {split : Bool} {emax : Nat} {c : Call} {s : State} (hfit : fits s split emax)
    (hoff : c.off ≤ emax) :
    signalShape split (withCall split c s) =
      { signalShape split s with
        A := (signalShape split s).A + (signalShape split s).sc * c.off
        B := (signalShape split s).B + (signalShape split s).sc * c.off } := by
  have hdepth := s.par.sigDepth.isLt
  cases split with
  | false =>
    simp only [fits, Bool.false_eq_true, if_false] at hfit
    have hA : (s.regs.arg0 + BitVec.ofNat 32 (2 * c.off)).toNat = s.regs.arg0.toNat + 2 * c.off :=
      toNat_add_ofNat (by omega)
    simp only [signalShape, withCall, argUnsigned, xreg, Bool.false_eq_true, if_false, hA, Nat.add_right_comm]
  | true =>
    simp only [fits, if_true] at hfit
    have hA : (s.regs.arg0 + BitVec.ofNat 32 (1 * c.off)).toNat = s.regs.arg0.toNat + 1 * c.off :=
      toNat_add_ofNat (by omega)
    have hB : (s.regs.arg1 + BitVec.ofNat 32 (1 * c.off)).toNat = s.regs.arg1.toNat + 1 * c.off :=
      toNat_add_ofNat (by omega)
    simp only [signalShape, withCall, argUnsigned, xreg, if_true, hA, hB]

/-- What lies within the depth from the call's offset on, lies within it from the call's bases on. -/
theorem fits_withCall {split : Bool} {emax e : Nat} {c : Call} {s : State} (hfit : fits s split emax)
    (he : c.off + e ≤ emax) : fits (withCall split c s) split e := by
  rw [← inRange_eq, signalShape_withCall hfit (by omega)]
  cases split with
  | false =>
    simp only [fits, Bool.false_eq_true, if_false] at hfit
    simp only [inRange, signalShape, withCall, argUnsigned, xreg, Bool.false_eq_true, if_false, if_true, decide_eq_true_iff]
    omega
  | true =>
    simp only [fits, if_true] at hfit
    have h12 : (1 : Nat) ≠ 2 := by decide
    simp only [inRange, signalShape, withCall, argUnsigned, xreg, if_true, if_neg h12, Bool.and_eq_true, decide_eq_true_iff]
    omega

/-- The request that the operands describe. -/
def operandRequest (axis : BitVec 2) (sign : Sign) (split : Bool) (s : State) : Request :=
  { axis := planAxis s.plan axis, sign := sign, shape := signalShape split s, inc := argUnsigned s 2,
    jump := argUnsigned s 3, lot := argUnsigned s 4 }

/-- The prologue of a direct command that passes its checks, with a lot to run. -/
theorem execPrologue_fits {axis : BitVec 2} {dir : Dir} {split : Bool} {s : State} {sign : Sign} (ha : axis ≠ 0#2)
    (hn : axis ≤ s.plan.naxes) (hd : directionSign s.par.fwdSign dir = some sign) (hlot : argUnsigned s 4 ≠ 0)
    (hfit : fits s split
      (directEmax (planAxis s.plan axis).n.toNat (argUnsigned s 2) (argUnsigned s 3) (argUnsigned s 4))) :
    execPrologue axis dir split s = .run (operandRequest axis sign split s) := by
  rw [execPrologue_checked ha hn hd, if_neg hlot, if_pos ((inRange_eq s split _).2 hfit)]
  rfl

/-- The call on lot l alone, with the operands' strides. -/
def lotCall (axis : BitVec 2) (l : Nat) (s : State) : Call :=
  { axis := axis, off := l * argUnsigned s 3, inc := argUnsigned s 2, jump := argUnsigned s 3, lot := 1 }

section

variable {axis : BitVec 2} {split : Bool} {l : Nat} {s : State}

theorem argUnsigned_withCall_lotCall :
    argUnsigned (withCall split (lotCall axis l s) s) 2 = argUnsigned s 2 ∧
    argUnsigned (withCall split (lotCall axis l s) s) 3 = argUnsigned s 3 ∧
    argUnsigned (withCall split (lotCall axis l s) s) 4 = 1 := by
  simp [withCall, lotCall, argUnsigned, xreg]

theorem operandRequest_withCall_lotCall {emax : Nat} (sign : Sign) (hfit : fits s split emax)
    (hoff : l * argUnsigned s 3 ≤ emax) :
    operandRequest axis sign split (withCall split (lotCall axis l s) s) =
      lotRequest (operandRequest axis sign split s) l := by
  obtain ⟨hinc, hjump, hlot⟩ := argUnsigned_withCall_lotCall (axis := axis) (split := split) (l := l) (s := s)
  simp only [operandRequest, signalShape_withCall (c := lotCall axis l s) hfit hoff, hinc, hjump, hlot]
  rfl

/-- The prologue of the command on one lot of a batch that passes the checks. -/
theorem execPrologue_withCall_lotCall {dir : Dir} {sign : Sign} (ha : axis ≠ 0#2) (hn : axis ≤ s.plan.naxes)
    (hd : directionSign s.par.fwdSign dir = some sign) (hl : l < argUnsigned s 4)
    (hfit : fits s split
      (directEmax (planAxis s.plan axis).n.toNat (argUnsigned s 2) (argUnsigned s 3) (argUnsigned s 4))) :
    execPrologue axis dir split (withCall split (lotCall axis l s) s) =
      .run (lotRequest (operandRequest axis sign split s) l) := by
  obtain ⟨hinc, hjump, hlot⟩ := argUnsigned_withCall_lotCall (axis := axis) (split := split) (l := l) (s := s)
  have hstep : l * argUnsigned s 3 ≤ (argUnsigned s 4 - 1) * argUnsigned s 3 := Nat.mul_le_mul_right _ (by omega)
  rw [execPrologue_fits (s := withCall split (lotCall axis l s) s) ha hn hd (by omega),
    operandRequest_withCall_lotCall sign hfit (hstep.trans (Nat.le_add_left _ _))]
  rw [hinc, hjump, hlot]
  refine fits_withCall hfit ?_
  change l * argUnsigned s 3 + directEmax (planAxis s.plan axis).n.toNat _ _ 1 ≤ _
  simp only [directEmax]
  omega

end

/-- Settles O45: the words of each lot see only the rounds of that lot, on the batch and alone. -/
theorem batchInvariance : Obligations.BatchInvariance := by
  rintro s axis dir split n l rfl ha haxes hdir hn hfit hnd hl make hmake
  obtain ⟨sign, hsign⟩ := directionSign_of_direction (fwd := s.par.fwdSign) hdir
  obtain ⟨active, groups, run, hexec, hin, hgroups, hrun⟩ := exec_direct_byLot hmake
  refine ⟨_, _, hexec axis dir split s, hexec axis dir split (withCall split (lotCall axis l s) s), fun j hj w hw => ?_⟩
  have hbatch := execPrologue_fits ha haxes hsign (by omega) hfit
  have hlot := execPrologue_withCall_lotCall ha haxes hsign hl hfit
  simp only [directCommand, hbatch, hlot, succeed_sig]
  refine onSignal_agree_lotRequest (r := operandRequest axis sign split s) _ (hin _) (hgroups _) hrun hn hl hnd
    s (withCall split (lotCall axis l s) s) rfl rfl rfl rfl w (mem_lotWords.2 ⟨j, hj, ?_⟩)
  rw [descWords_requestDesc]
  exact hw

end Sys2Proof.Proofs
end

section
/-! PROOF. The element indices of a `TRANSFORM` (R231): the schedule stays inside them (R236), `Emax` bounds them (R240), and
under a legal layout no two logical elements share one (R283, R35). -/

namespace Sys2Proof.Proofs

open Sys2Proof Sys2Proof.Machine
open Sys2Proof.Config (Prec Sign Params)

theorem naxes_cases {naxes : BitVec 2} (h : naxes ≠ 0#2) : naxes = 1#2 ∨ naxes = 2#2 ∨ naxes = 3#2 := by
  revert naxes
  decide

/-! ### Rows of a table with `m` columns -/

theorem rowColumn_lt {n m i j : Nat} (hi : i < n) (hj : j < m) : i * m + j < n * m :=
  calc i * m + j < (i + 1) * m := by rw [Nat.succ_mul]; omega
    _ ≤ n * m := Nat.mul_le_mul_right m hi

theorem rowColumn_inj {m i j i' j' : Nat} (hj : j < m) (hj' : j' < m) (h : i * m + j = i' * m + j') : i = i' ∧ j = j' := by
  have hm : 0 < m := by omega
  have hdiv : ∀ a b, b < m → (a * m + b) / m = a := fun a b hb => by
    rw [Nat.mul_comm, Nat.mul_add_div hm, Nat.div_eq_of_lt hb, Nat.add_zero]
  obtain rfl : i = i' := by rw [← hdiv i j hj, h, hdiv i' j' hj']
  exact ⟨rfl, Nat.add_left_cancel h⟩

/-! ### Element indices -/

section

variable (rm : Bool) (n2 ld i1 i2 i3 : Nat)

theorem elementIndex_one : elementIndex 1#2 rm n2 ld i1 i2 i3 = i1 := rfl

theorem elementIndex_two_columns : elementIndex 2#2 false n2 ld i1 i2 i3 = i1 + i2 * ld := rfl

theorem elementIndex_two_rows : elementIndex 2#2 true n2 ld i1 i2 i3 = i1 * ld + i2 := rfl

theorem elementIndex_three_columns : elementIndex 3#2 false n2 ld i1 i2 i3 = i1 + ld * (i2 + n2 * i3) := rfl

theorem elementIndex_three_rows : elementIndex 3#2 true n2 ld i1 i2 i3 = (i1 * n2 + i2) * ld + i3 := rfl

end

theorem mem_transformElements {naxes : BitVec 2} {rm : Bool} {n1 n2 n3 ld e : Nat} :
    e ∈ transformElements naxes rm n1 n2 n3 ld ↔
      ∃ i1, i1 < n1 ∧ ∃ i2, i2 < n2 ∧ ∃ i3, i3 < n3 ∧ elementIndex naxes rm n2 ld i1 i2 i3 = e := by
  simp only [transformElements, List.mem_flatMap, List.mem_map, List.mem_range]

section

variable {naxes : BitVec 2} {rm : Bool} {n1 n2 n3 ld : Nat}

/-- `Emax` bounds the element indices (R240). -/
theorem transformElements_le_emax (hn : naxes ≠ 0#2) {e : Nat} (he : e ∈ transformElements naxes rm n1 n2 n3 ld) :
    e ≤ transformEmax naxes rm n1 n2 n3 ld := by
  obtain ⟨i1, h1, i2, h2, i3, h3, rfl⟩ := mem_transformElements.1 he
  rcases naxes_cases hn with rfl | rfl | rfl
  · exact Nat.le_sub_one_of_lt h1
  · cases rm
    · exact Nat.add_le_add (by omega) (Nat.mul_le_mul_right ld (by omega))
    · exact Nat.add_le_add (Nat.mul_le_mul_right ld (by omega)) (by omega)
  · cases rm
    · have h : i3 * n2 + i2 < n3 * n2 := rowColumn_lt h3 h2
      have h' : i2 + n2 * i3 ≤ n2 * n3 - 1 := by rw [Nat.mul_comm n2, Nat.mul_comm n2]; omega
      exact Nat.add_le_add (by omega) (Nat.mul_le_mul_left ld h')
    · have h : i1 * n2 + i2 < n1 * n2 := rowColumn_lt h1 h2
      exact Nat.add_le_add (Nat.mul_le_mul_right ld (by omega)) (by omega)

/-- The length of one of three axes. -/
def lengthOf (n1 n2 n3 : Nat) (axis : BitVec 2) : Nat :=
  match axis.toNat with
  | 1 => n1
  | 2 => n2
  | _ => n3

/-- The call is on a configured axis, and every element it reaches is a logical element (R236). -/
def CallInside (naxes : BitVec 2) (rm : Bool) (n1 n2 n3 ld : Nat) (c : Call) : Prop :=
  c.axis ≠ 0#2 ∧ c.axis ≤ naxes ∧ ∀ t l, t < lengthOf n1 n2 n3 c.axis → l < c.lot →
    c.off + (t * c.inc + l * c.jump) ∈ transformElements naxes rm n1 n2 n3 ld

/-- A lot number of a call over two axes at once, as a row and a column. -/
theorem lot_row_column {n m l : Nat} (h : l < n * m) : l / m < n ∧ l % m < m ∧ l / m * m + l % m = l := by
  have hm : 0 < m := Nat.pos_of_mul_pos_left (by omega : 0 < n * m)
  exact ⟨Nat.div_lt_of_lt_mul (by rwa [Nat.mul_comm]), Nat.mod_lt _ hm, Nat.div_add_mod' l m⟩

theorem schedule_one_inside (h2 : 0 < n2) (h3 : 0 < n3) :
    ∀ c ∈ schedule 1#2 rm n1 n2 n3 ld, CallInside 1#2 rm n1 n2 n3 ld c := by
  intro c hc
  obtain rfl := List.mem_singleton.1 hc
  refine ⟨(by decide : 1#2 ≠ 0#2), (by decide : 1#2 ≤ 1#2), fun t l ht hl => ?_⟩
  exact mem_transformElements.2 ⟨t, ht, 0, h2, 0, h3, by dsimp only [elementIndex_one]; ring⟩

theorem schedule_two_inside (h3 : 0 < n3) : ∀ c ∈ schedule 2#2 rm n1 n2 n3 ld, CallInside 2#2 rm n1 n2 n3 ld c := by
  intro c hc
  cases rm with
  | false =>
    rcases List.mem_pair.1 hc with rfl | rfl
    · refine ⟨(by decide : 2#2 ≠ 0#2), (by decide : 2#2 ≤ 2#2), fun t l ht hl => ?_⟩
      exact mem_transformElements.2 ⟨l, hl, t, ht, 0, h3, by dsimp only [elementIndex_two_columns]; ring⟩
    · refine ⟨(by decide : 1#2 ≠ 0#2), (by decide : 1#2 ≤ 2#2), fun t l ht hl => ?_⟩
      exact mem_transformElements.2 ⟨t, ht, l, hl, 0, h3, by dsimp only [elementIndex_two_columns]; ring⟩
  | true =>
    rcases List.mem_pair.1 hc with rfl | rfl
    · refine ⟨(by decide : 2#2 ≠ 0#2), (by decide : 2#2 ≤ 2#2), fun t l ht hl => ?_⟩
      exact mem_transformElements.2 ⟨l, hl, t, ht, 0, h3, by dsimp only [elementIndex_two_rows]; ring⟩
    · refine ⟨(by decide : 1#2 ≠ 0#2), (by decide : 1#2 ≤ 2#2), fun t l ht hl => ?_⟩
      exact mem_transformElements.2 ⟨t, ht, l, hl, 0, h3, by dsimp only [elementIndex_two_rows]; ring⟩

theorem schedule_three_columns_inside :
    ∀ c ∈ schedule 3#2 false n1 n2 n3 ld, CallInside 3#2 false n1 n2 n3 ld c := by
  intro c hc
  rcases List.mem_append.1 hc with hc | hc
  · rcases List.mem_append.1 hc with hc | hc
    · obtain ⟨i2, hi, rfl⟩ := List.mem_map.1 hc
      refine ⟨(by decide : 3#2 ≠ 0#2), (by decide : 3#2 ≤ 3#2), fun t l ht hl => ?_⟩
      exact mem_transformElements.2 ⟨l, hl, i2, List.mem_range.1 hi, t, ht, by dsimp only [elementIndex_three_columns]; ring⟩
    · obtain ⟨i3, hi, rfl⟩ := List.mem_map.1 hc
      refine ⟨(by decide : 2#2 ≠ 0#2), (by decide : 2#2 ≤ 3#2), fun t l ht hl => ?_⟩
      exact mem_transformElements.2 ⟨l, hl, t, ht, i3, List.mem_range.1 hi, by dsimp only [elementIndex_three_columns]; ring⟩
  · obtain rfl := List.mem_singleton.1 hc
    refine ⟨(by decide : 1#2 ≠ 0#2), (by decide : 1#2 ≤ 3#2), fun t l ht hl => ?_⟩
    obtain ⟨hrow, hcol, hl⟩ := lot_row_column (l := l) (m := n2) (by rwa [Nat.mul_comm])
    refine mem_transformElements.2 ⟨t, ht, l % n2, hcol, l / n2, hrow, ?_⟩
    nth_rw 3 [← hl]
    dsimp only [elementIndex_three_columns]
    ring

theorem schedule_three_rows_inside :
    ∀ c ∈ schedule 3#2 true n1 n2 n3 ld, CallInside 3#2 true n1 n2 n3 ld c := by
  intro c hc
  rcases List.mem_append.1 hc with hc | hc
  · rcases List.mem_append.1 hc with hc | hc
    · obtain rfl := List.mem_singleton.1 hc
      refine ⟨(by decide : 3#2 ≠ 0#2), (by decide : 3#2 ≤ 3#2), fun t l ht hl => ?_⟩
      obtain ⟨hrow, hcol, hl⟩ := lot_row_column hl
      refine mem_transformElements.2 ⟨l / n2, hrow, l % n2, hcol, t, ht, ?_⟩
      rw [elementIndex_three_rows, hl]
      ring
    · obtain ⟨i1, hi, rfl⟩ := List.mem_map.1 hc
      refine ⟨(by decide : 2#2 ≠ 0#2), (by decide : 2#2 ≤ 3#2), fun t l ht hl => ?_⟩
      exact mem_transformElements.2 ⟨i1, List.mem_range.1 hi, t, ht, l, hl, by dsimp only [elementIndex_three_rows]; ring⟩
  · obtain ⟨i2, hi, rfl⟩ := List.mem_map.1 hc
    refine ⟨(by decide : 1#2 ≠ 0#2), (by decide : 1#2 ≤ 3#2), fun t l ht hl => ?_⟩
    exact mem_transformElements.2 ⟨t, ht, i2, List.mem_range.1 hi, l, hl, by dsimp only [elementIndex_three_rows]; ring⟩

/-- Every call of the schedule stays inside the signal. -/
theorem schedule_inside (hn : naxes ≠ 0#2) (h2 : 0 < n2) (h3 : 0 < n3) :
    ∀ c ∈ schedule naxes rm n1 n2 n3 ld, CallInside naxes rm n1 n2 n3 ld c := by
  rcases naxes_cases hn with rfl | rfl | rfl
  · exact schedule_one_inside h2 h3
  · exact schedule_two_inside h3
  · cases rm with
    | false => exact schedule_three_columns_inside
    | true => exact schedule_three_rows_inside

/-! ### No two logical elements share an index -/

/-- natural(rm) of R35 in terms of the lengths. -/
def naturalLength (naxes : BitVec 2) (rm : Bool) (n1 n2 n3 : Nat) : Nat := if rm then lengthOf n1 n2 n3 naxes else n1

/-- With the leading dimension at or above natural, an element index is that of one logical element only. -/
theorem elementIndex_inj (hn : naxes ≠ 0#2) (hone : naxes = 1#2 → n2 = 1 ∧ n3 = 1) (htwo : naxes = 2#2 → n3 = 1)
    (hld : naturalLength naxes rm n1 n2 n3 ≤ ld) {i1 i2 i3 j1 j2 j3 : Nat}
    (hi1 : i1 < n1) (hi2 : i2 < n2) (hi3 : i3 < n3) (hj1 : j1 < n1) (hj2 : j2 < n2) (hj3 : j3 < n3)
    (h : elementIndex naxes rm n2 ld i1 i2 i3 = elementIndex naxes rm n2 ld j1 j2 j3) : i1 = j1 ∧ i2 = j2 ∧ i3 = j3 := by
  rcases naxes_cases hn with rfl | rfl | rfl
  · obtain ⟨rfl, rfl⟩ := hone rfl
    exact ⟨h, by omega, by omega⟩
  · obtain rfl := htwo rfl
    cases rm with
    | false =>
      have hld : n1 ≤ ld := hld
      have h : i2 * ld + i1 = j2 * ld + j1 := by simpa [elementIndex_two_columns, Nat.add_comm] using h
      obtain ⟨h2, h1⟩ := rowColumn_inj (by omega) (by omega) h
      exact ⟨h1, h2, by omega⟩
    | true =>
      have hld : n2 ≤ ld := hld
      have h : i1 * ld + i2 = j1 * ld + j2 := h
      obtain ⟨h1, h2⟩ := rowColumn_inj (by omega) (by omega) h
      exact ⟨h1, h2, by omega⟩
  · cases rm with
    | false =>
      have hld : n1 ≤ ld := hld
      have h : (i3 * n2 + i2) * ld + i1 = (j3 * n2 + j2) * ld + j1 := by
        simpa [elementIndex_three_columns, Nat.add_comm, Nat.mul_comm] using h
      obtain ⟨h32, h1⟩ := rowColumn_inj (by omega) (by omega) h
      obtain ⟨h3, h2⟩ := rowColumn_inj hi2 hj2 h32
      exact ⟨h1, h2, h3⟩
    | true =>
      have hld : n3 ≤ ld := hld
      have h : (i1 * n2 + i2) * ld + i3 = (j1 * n2 + j2) * ld + j3 := h
      obtain ⟨h12, h3⟩ := rowColumn_inj (by omega) (by omega) h
      obtain ⟨h1, h2⟩ := rowColumn_inj hi2 hj2 h12
      exact ⟨h1, h2, h3⟩

theorem transformElements_eq_map : transformElements naxes rm n1 n2 n3 ld =
    (List.range n1 ×ˢ (List.range n2 ×ˢ List.range n3)).map fun i => elementIndex naxes rm n2 ld i.1 i.2.1 i.2.2 := by
  simp [transformElements, SProd.sprod, List.product, List.map_flatMap, Function.comp_def]

theorem transformElements_nodup (hn : naxes ≠ 0#2) (hone : naxes = 1#2 → n2 = 1 ∧ n3 = 1) (htwo : naxes = 2#2 → n3 = 1)
    (hld : naturalLength naxes rm n1 n2 n3 ≤ ld) : (transformElements naxes rm n1 n2 n3 ld).Nodup := by
  rw [transformElements_eq_map]
  refine List.Nodup.map_on ?_ (List.nodup_range.product (List.nodup_range.product List.nodup_range))
  rintro ⟨i1, i2, i3⟩ hi ⟨j1, j2, j3⟩ hj h
  simp only [List.mem_product, List.mem_range] at hi hj
  obtain ⟨rfl, rfl, rfl⟩ :=
    elementIndex_inj hn hone htwo hld hi.1 hi.2.1 hi.2.2 hj.1 hj.2.1 hj.2.2 h
  rfl

end

/-- An interleaved signal has no word twice where it has no element index twice. -/
theorem elementWords_interleaved_nodup (A : Nat) {es : List Nat} (h : es.Nodup) :
    (elementWords { A := A, B := A + 1, sc := 2 } es).Nodup := by
  refine List.nodup_flatMap.2 ⟨fun e _ => by simp [reAddr, imAddr], h.imp fun {e e'} hne => ?_⟩
  simp [Function.onFun, List.Disjoint, reAddr, imAddr]
  omega

/-! ### The axes of a plan -/

section

variable {pl : Plan}

theorem axisLength_configured {axis : BitVec 2} (h : axis ≤ pl.naxes) :
    axisLength pl axis = (planAxis pl axis).n.toNat := if_neg (by bv_omega)

theorem axisLength_absent {axis : BitVec 2} (h : pl.naxes < axis) : axisLength pl axis = 1 := if_pos h

theorem axes_of_naxes_one (h : pl.naxes = 1#2) : pl.axes = [pl.axis1] := by simp [Plan.axes, h]

theorem axes_of_naxes_two (h : pl.naxes = 2#2) : pl.axes = [pl.axis1, pl.axis2] := by simp [Plan.axes, h]

theorem axes_of_naxes_three (h : pl.naxes = 3#2) : pl.axes = [pl.axis1, pl.axis2, pl.axis3] := by simp [Plan.axes, h]

/-- The registers of a configured axis are among `Plan.axes`. -/
theorem planAxis_mem_axes {axis : BitVec 2} (ha : axis ≠ 0#2) (h : axis ≤ pl.naxes) : planAxis pl axis ∈ pl.axes := by
  have hn : pl.naxes ≠ 0#2 := fun h0 => ha (by bv_omega)
  rcases naxes_cases hn with hn | hn | hn
  · obtain rfl : axis = 1#2 := by bv_omega
    simp [axes_of_naxes_one hn, planAxis]
  · obtain rfl | rfl : axis = 1#2 ∨ axis = 2#2 := by bv_omega
    all_goals simp [axes_of_naxes_two hn, planAxis]
  · rcases naxes_cases ha with rfl | rfl | rfl
    all_goals simp [axes_of_naxes_three hn, planAxis]

theorem axisLength_pos (hg : pl.good) {axis : BitVec 2} (ha : axis ≠ 0#2) : 0 < axisLength pl axis := by
  by_cases h : axis ≤ pl.naxes
  · rw [axisLength_configured h, (hg.axes _ (planAxis_mem_axes ha h)).1]
    positivity
  · rw [axisLength_absent (BitVec.not_le.1 h)]
    exact Nat.one_pos

theorem lengthOf_axisLength {axis : BitVec 2} (ha : axis ≠ 0#2) :
    lengthOf (axisLength pl 1#2) (axisLength pl 2#2) (axisLength pl 3#2) axis = axisLength pl axis := by
  rcases naxes_cases ha with rfl | rfl | rfl <;> rfl

theorem naturalDim_toNat (hn : pl.naxes ≠ 0#2) (rm : Bool) : (naturalDim pl rm).toNat =
    naturalLength pl.naxes rm (axisLength pl 1#2) (axisLength pl 2#2) (axisLength pl 3#2) := by
  cases rm with
  | false => exact (axisLength_configured (axis := 1#2) (by bv_omega)).symm
  | true => exact ((lengthOf_axisLength hn).trans (axisLength_configured (BitVec.le_refl _))).symm

end

/-- Settles O52: the element indices are injective under a legal layout, and two words of an interleaved signal differ where
their elements do. -/
theorem legalLayoutsDoNotAlias : Obligations.LegalLayoutsDoNotAlias := by
  intro s hg hn hld
  have hnodup : (transformElements s.plan.naxes s.rowMajor (axisLength s.plan 1#2) (axisLength s.plan 2#2)
      (axisLength s.plan 3#2) s.leadDim.toNat).Nodup := by
    refine transformElements_nodup hn (fun h => ⟨axisLength_absent ?_, axisLength_absent ?_⟩)
      (fun h => axisLength_absent ?_) (naturalDim_toNat hn _ ▸ hld)
    all_goals rw [h]; decide
  exact ⟨hnodup, elementWords_interleaved_nodup _ hnodup⟩

end Sys2Proof.Proofs
end

section
/-! PROOF. All that a command can do (`Completes`), said once: every command completes in one of five ways (R251, R253), and
what each leaves unchanged is read off from them (10_state.md R36, R289). -/

namespace Sys2Proof.Proofs

open Sys2Proof Sys2Proof.Machine
open Sys2Proof.Config (Prec Sign Params)

/-! ### What an execution command leaves in `SIG` -/

/-- `sig` is what some stores of words below the depth make of `SIG`. -/
def StoredInside (s : State) (sig : Memory) : Prop :=
  ∀ P : Memory → Prop, P s.sig →
    (∀ w, w < s.par.sigDepth.toNat → ∀ m v, P m → P (storeWord s.par.prec m w v)) → P sig

theorem elementWords_lt {s : State} {split : Bool} {emax : Nat} (hfit : fits s split emax) {es : List Nat}
    (hes : ∀ e ∈ es, e ≤ emax) : ∀ w ∈ elementWords (signalShape split s) es, w < s.par.sigDepth.toNat := by
  intro w hw
  obtain ⟨e, he, rfl | rfl⟩ := mem_elementWords.1 hw
  · exact (element_lt hfit (hes e he)).1
  · exact (element_lt hfit (hes e he)).2

theorem directWords_lt {s : State} {split : Bool} {n : Nat}
    (hfit : fits s split (directEmax n (argUnsigned s 2) (argUnsigned s 3) (argUnsigned s 4))) :
    ∀ w ∈ directWords n split s, w < s.par.sigDepth.toNat :=
  elementWords_lt hfit fun e he => by
    obtain ⟨j, hj, l, hl, rfl⟩ := mem_directElements.1 he
    exact directEmax_ge hj hl

theorem planWords_lt {s : State} {split : Bool} (hn : s.plan.naxes ≠ 0#2) (hfit : fits s split (planEmax s)) :
    ∀ w ∈ planWords split s, w < s.par.sigDepth.toNat :=
  elementWords_lt hfit fun _ he => transformElements_le_emax hn he

/-- The calls of a `TRANSFORM` store into the words of its footprint only. -/
theorem runCalls_schedule_keeps (P : Memory → Prop) {split : Bool} {s : State} (hg : s.plan.good)
    (hn : s.plan.naxes ≠ 0#2) (sign : Sign) {sig : Memory} (h : P sig)
    (hs : ∀ w ∈ planWords split s, ∀ m v, P m → P (storeWord s.par.prec m w v)) :
    P (runCalls s.par.prec s.free s.tw s.plan (signalShape split s) sign
      (schedule s.plan.naxes s.rowMajor (axisLength s.plan 1#2) (axisLength s.plan 2#2) (axisLength s.plan 3#2)
        s.leadDim.toNat) sig) := by
  refine runCalls_keeps P _ _ _ _ _ _ h fun c hc t ht l hl m v hP => ?_
  obtain ⟨ha, hle, hin⟩ :=
    schedule_inside hn (axisLength_pos hg (by decide)) (axisLength_pos hg (by decide)) c hc
  rw [← axisLength_configured hle, ← lengthOf_axisLength ha] at ht
  have he := hin t l ht hl
  exact ⟨hs _ (mem_elementWords.2 ⟨_, he, .inl rfl⟩) m v hP, hs _ (mem_elementWords.2 ⟨_, he, .inr rfl⟩) m v hP⟩

/-- A `TRANSFORM` keeps of `SIG` whatever every store of its footprint keeps. -/
theorem runTransform_keeps (P : Memory → Prop) {split : Bool} {s : State} (hg : s.plan.good) (hn : s.plan.naxes ≠ 0#2)
    (sign : Sign) (h : P s.sig) (hs : ∀ w ∈ planWords split s, ∀ m v, P m → P (storeWord s.par.prec m w v)) :
    P (runTransform (signalShape split s) sign s).sig :=
  onSignal_keeps P _ _ _ _ s h (runCalls_schedule_keeps P hg hn sign h hs)
    (fun _ hws _ hw => by rwa [List.mem_singleton.1 hws] at hw) fun m w hw v => hs w hw m v

/-! ### The five ways to complete -/

/-- The three CREATEPLAN commands. -/
def createPlans : List Instr := [.createPlan1, .createPlan2, .createPlan3]

/-- All that the command `i` can do in the state `s`. -/
inductive Completes (i : Instr) (s : State) : State → Prop
  /-- a failure (R253) -/
  | failed (e : ErrCode) (he : e ≠ .ok) : Completes i s (raise e s)
  /-- a success that only returns results -/
  | answered (r0 r1 r2 : Reg) : Completes i s (succeed r0 r1 r2 s)
  /-- a plan is built (R128) -/
  | planned (lengths : List Reg) (axes : List AxisPlan) (hi : i ∈ createPlans)
      (hk : lengths.length ∈ [1, 2, 3]) (hplan : planAxes 0 lengths = some axes)
      (hfit : tableTotal axes ≤ s.par.twDepth.toNat) :
      Completes i s (succeed (BitVec.ofNat 32 (tableTotal axes)) 0#32 0#32 (commitPlan axes s))
  /-- a layout is set (R126): the natural leading dimension, or a positive `s32` at or above it -/
  | laidOut (rm : Bool) (ld : Reg) (hi : i = .setLayout rm) (hn : s.plan.naxes ≠ 0#2)
      (hld : ld = naturalDim s.plan rm ∨ (naturalDim s.plan rm).toNat ≤ ld.toNat ∧ ld.toNat < 2 ^ 31) :
      Completes i s (succeed 0#32 0#32 0#32 { s with rowMajor := rm, leadDim := ld })
  /-- an execution command runs on `SIG` (R165) -/
  | ran (sig : Memory) (free : Nat) (hsig : s.plan.good → StoredInside s sig) :
      Completes i s (succeed 0#32 0#32 0#32 { s with sig := sig, free := free })

theorem buildPlan_completes {i : Instr} {lengths : List Reg} (s : State) (hi : i ∈ createPlans)
    (hk : lengths.length ∈ [1, 2, 3]) : Completes i s (buildPlan lengths s) := by
  unfold buildPlan
  cases hp : planAxes 0 lengths with
  | none => exact .failed _ (by decide)
  | some axes =>
    dsimp only
    split
    · exact .failed _ (by decide)
    · next hfit => exact .planned lengths axes hi hk hp (Nat.le_of_not_lt hfit)

/-- A positive `s32` reads the same without its sign. -/
theorem toNat_of_toInt_pos {x : Reg} (h : 0 < x.toInt) : (x.toNat : Int) = x.toInt ∧ x.toNat < 2 ^ 31 := by
  rw [BitVec.toInt_eq_toNat_cond] at h ⊢
  split at h <;> omega

theorem setLayout_completes (rm : Bool) (s : State) : Completes (.setLayout rm) s (setLayout rm s) := by
  unfold setLayout
  split
  · exact .failed _ (by decide)
  · next hn =>
    split
    · exact .laidOut rm _ rfl hn (.inl rfl)
    · next hpos =>
      split
      · exact .failed _ (by decide)
      · next hle =>
        obtain ⟨heq, hlt⟩ := toNat_of_toInt_pos (x := xreg s 0) (not_le.1 hpos)
        have hle : ((naturalDim s.plan rm).toNat : Int) ≤ (xreg s 0).toInt := not_lt.1 hle
        exact .laidOut rm _ rfl hn (.inr ⟨by omega, hlt⟩)

theorem transform_completes (i : Instr) (dir : Dir) (split : Bool) (s : State) : Completes i s (transform dir split s) := by
  by_cases hn : s.plan.naxes = 0#2
  · rw [transform, if_pos hn]
    exact .failed _ (by decide)
  · cases hd : directionSign s.par.fwdSign dir with
    | none =>
      simp only [transform, hn, hd, if_false]
      exact .failed _ (by decide)
    | some sign =>
      rw [transform_checked hn hd]
      split
      · next hfit =>
        rw [runTransform, onSignal_frame]
        refine .ran _ _ fun hg P h hs => runTransform_keeps P hg hn sign h fun w hw => ?_
        exact hs w (planWords_lt hn ((inRange_eq s split _).1 hfit) w hw)
      · exact .failed _ (by decide)

theorem execPrologue_fails {axis : BitVec 2} {dir : Dir} {split : Bool} {s : State} {e : ErrCode}
    (h : execPrologue axis dir split s = .fails e) : e ≠ .ok := by
  unfold execPrologue at h
  split at h
  · cases h; decide
  · split at h
    · cases h; decide
    · split at h
      · cases h; decide
      · dsimp only at h
        split at h
        · cases h
        · split at h <;> cases h
          decide

theorem directCommand_completes (i : Instr) {active : AxisPlan → Bool} {groups : AxisPlan → EngineDesc → List (List Nat)}
    {run : Prec → (free : Nat) → (tw : Memory) → AxisPlan → EngineDesc → Memory → Memory}
    (hg : ∀ ax d, GroupsInside d (groups ax d)) (hr : RunKeeps run) (axis : BitVec 2) (dir : Dir) (split : Bool)
    (s : State) : Completes i s (directCommand active groups run axis dir split s) := by
  have hkeeps : StoredInside s (directCommand active groups run axis dir split s).sig := fun P h hs =>
    directCommand_keeps active groups run hg hr P axis dir split s h fun hfit w hw => hs w (directWords_lt hfit w hw)
  revert hkeeps
  unfold directCommand
  cases hp : execPrologue axis dir split s with
  | fails e => exact fun _ => .failed e (execPrologue_fails hp)
  | nothing => exact fun _ => .answered _ _ _
  | run d =>
    dsimp only
    rw [onSignal_frame]
    exact fun hkeeps => .ran _ _ fun _ => hkeeps

theorem direct_completes {make : BitVec 2 → Dir → Bool → Instr} (h : make ∈ directMakers) (axis : BitVec 2) (dir : Dir)
    (split : Bool) (s : State) :
    ∃ t, exec (make axis dir split) s = .next t ∧ Completes (make axis dir split) s t := by
  obtain ⟨active, groups, run, hexec, hg, hr, -⟩ := exec_direct h
  exact ⟨_, hexec axis dir split s, directCommand_completes _ hg hr axis dir split s⟩

/-- Every command, in every state, completes in one of the five ways. -/
theorem exec_completes (i : Instr) (s : State) : ∃ t, exec i s = .next t ∧ Completes i s t := by
  cases i with
  | nop => exact ⟨_, rfl, .answered _ _ _⟩
  | factorize =>
    cases h : factorLength (argSigned s 0) with
    | none => exact ⟨raise .invalidLength s, by simp only [exec, execFactorize, h], .failed _ (by decide)⟩
    | some F =>
      exact ⟨succeed (BitVec.ofNat 32 F.p) (BitVec.ofNat 32 F.q) (BitVec.ofNat 32 F.r) s,
        by simp only [exec, execFactorize, h], .answered _ _ _⟩
  | createPlan1 => exact ⟨_, rfl, buildPlan_completes s (by decide) (by simp)⟩
  | createPlan2 => exact ⟨_, rfl, buildPlan_completes s (by decide) (by simp)⟩
  | createPlan3 => exact ⟨_, rfl, buildPlan_completes s (by decide) (by simp)⟩
  | setLayout rm => exact ⟨_, rfl, setLayout_completes rm s⟩
  | getLayout =>
    by_cases hn : s.plan.naxes = 0#2
    · exact ⟨_, if_pos hn, .failed _ (by decide)⟩
    · exact ⟨_, if_neg hn, .answered _ _ _⟩
  | transform dir split => exact ⟨_, rfl, transform_completes _ dir split s⟩
  | dispatch axis dir split => exact direct_completes (make := .dispatch) (by simp [directMakers]) axis dir split s
  | run2 axis dir split => exact direct_completes (make := .run2) (by simp [directMakers]) axis dir split s
  | run3 axis dir split => exact direct_completes (make := .run3) (by simp [directMakers]) axis dir split s
  | run5 axis dir split => exact direct_completes (make := .run5) (by simp [directMakers]) axis dir split s

theorem completes_of_exec {i : Instr} {s t : State} (h : exec i s = .next t) : Completes i s t := by
  obtain ⟨t', ht, hc⟩ := exec_completes i s
  obtain rfl : t' = t := by simpa [ht] using h
  exact hc

/-! ### What every completion leaves as it was -/

theorem Completes.par_eq {i : Instr} {s t : State} (h : Completes i s t) : t.par = s.par := by
  cases h <;> rfl

/-- Settles O17: in each of the five ways the command has completed, and only `RES0..2` of the operand registers move. -/
theorem everyCommandCompletes : Obligations.EveryCommandCompletes := by
  intro i s
  obtain ⟨t, ht, hc⟩ := exec_completes i s
  refine ⟨t, ht, ?_⟩
  cases hc <;> exact ⟨rfl, rfl, rfl, rfl, rfl, rfl, rfl⟩

/-- Settles O21: of the five ways only a built plan writes the plan registers or `TW`, and only it and a set layout write the
layout. -/
theorem planIsImmutable : Obligations.PlanIsImmutable := by
  intro i s t h
  cases completes_of_exec h with
  | failed e he => exact ⟨fun _ => ⟨rfl, rfl⟩, fun _ => ⟨rfl, rfl⟩⟩
  | answered r0 r1 r2 => exact ⟨fun _ => ⟨rfl, rfl⟩, fun _ => ⟨rfl, rfl⟩⟩
  | ran sig free hsig => exact ⟨fun _ => ⟨rfl, rfl⟩, fun _ => ⟨rfl, rfl⟩⟩
  | planned lengths axes hi hk hplan hfit =>
    have hsub : createPlans ⊆ [.createPlan1, .createPlan2, .createPlan3, .setLayout true, .setLayout false] := by decide
    exact ⟨fun hnot => absurd rfl (hnot.resolve_left (not_not.2 hi)),
      fun hnot => absurd rfl (hnot.resolve_left (not_not.2 (hsub hi)))⟩
  | laidOut rm ld hi hn hld =>
    have hmem : i ∈ [.createPlan1, .createPlan2, .createPlan3, .setLayout true, .setLayout false] := by
      subst hi
      cases rm <;> decide
    exact ⟨fun _ => ⟨rfl, rfl⟩, fun hnot => absurd rfl (hnot.resolve_left (not_not.2 hmem))⟩

end Sys2Proof.Proofs
end

section
/-! PROOF. The host's accesses to `CTRL` (R20, R23, R39), reset (R43), and what one step of any kind can do. -/

namespace Sys2Proof.Proofs

open Sys2Proof Sys2Proof.Machine
open Sys2Proof.Config (Prec Sign Params)

/-! ### One step -/

theorem step_cons {s : State} {a : HostAccess} {rest : List HostAccess} (h : s.host = a :: rest) :
    step s = hostStep a { s with host := rest } := by
  simp only [step, h]

theorem ctrlInside_iff {offset : Nat} : ctrlInside offset = true ↔ offset % 4 = 0 ∧ offset < 0x100 := by
  simp [ctrlInside]

theorem hostWriteCtrl_idle {offset : Nat} {v : Reg} {s : State} (hin : ctrlInside offset = true)
    (hidle : s.status.busy = false) :
    hostWriteCtrl offset v s = if offset = 0 then runCommand v s else .next (writeArg offset v s) := by
  simp [hostWriteCtrl, hin, hidle]

theorem hostReadCtrl_idle {offset : Nat} {s : State} (hin : ctrlInside offset = true) (hidle : s.status.busy = false) :
    hostReadCtrl offset s = .next (returnWord ((ctrlValue s offset).setWidth 64) s) := by
  simp [hostReadCtrl, hin, hidle]

theorem runCommand_of_decode {w : Reg} {i : Instr} (s : State) (h : decodeWord w = .ok i) :
    runCommand w s = exec i (issue w s) := by
  simp only [runCommand, h]

/-- A write of `CMD` to the idle block runs the word as a command (R23). -/
theorem step_writeCmd {s : State} {w : Reg} {rest : List HostAccess} (hhost : s.host = .writeCtrl 0 w :: rest)
    (hidle : s.status.busy = false) : step s = runCommand w { s with host := rest } := by
  rw [step_cons hhost]
  exact hostWriteCtrl_idle rfl hidle

theorem decodeWord_of_decodeTableWord {nbits v : Nat} {i : Instr} (h : decodeTableWord nbits v = some i) :
    decodeWord (tableWord nbits v) = .ok i := by
  unfold decodeTableWord at h
  split at h
  · next j hj => rwa [← Option.some.inj h]
  · cases h

/-- Settles O6: the step takes the write of `CMD`, issues the word and runs what it decodes to. -/
theorem stepRunsDecodedCommand : Obligations.StepRunsDecodedCommand := by
  refine ⟨fun s w rest i hhost hidle hdec => ?_, fun s nbits v i hdec => ?_⟩
  · rw [step_writeCmd hhost hidle, runCommand_of_decode _ hdec]
    rfl
  · have hplaced : (s.withFetchWord nbits v).host = .writeCtrl 0 (tableWord nbits v) :: s.host := rfl
    rw [step_writeCmd hplaced rfl, runCommand_of_decode _ (decodeWord_of_decodeTableWord hdec)]
    rfl

/-! ### The registers as the host reads them -/

/-- The fields of `STATUS` (R24). -/
theorem statusWord_fields (st : Status) :
    (statusWord st).getLsbD 0 = st.busy ∧ (statusWord st).getLsbD 1 = st.done ∧
    (statusWord st).extractLsb' 4 4 = st.err.code ∧
    (statusWord st).extractLsb' 2 2 = 0#2 ∧ (statusWord st).extractLsb' 8 24 = 0#24 := by
  unfold statusWord
  refine ⟨?_, ?_, ?_, ?_, ?_⟩
  · rw [BitVec.getLsbD_append]
    simp
  · rw [BitVec.getLsbD_append, BitVec.getLsbD_append]
    simp
  · iterate 3 rw [BitVec.extractLsb'_append_eq_of_le (by decide)]
    exact BitVec.extractLsb'_append_eq_right
  · iterate 2 rw [BitVec.extractLsb'_append_eq_of_le (by decide)]
    exact BitVec.extractLsb'_append_eq_right
  · iterate 3 rw [BitVec.extractLsb'_append_eq_of_le (by decide)]
    exact BitVec.extractLsb'_append_eq_left

/-- The fields of `PLAN_PQRa` (R32). -/
theorem pqrWord_fields (ax : AxisPlan) :
    (pqrWord ax).extractLsb' 0 5 = ax.p ∧ (pqrWord ax).extractLsb' 8 5 = ax.q ∧ (pqrWord ax).extractLsb' 16 5 = ax.r ∧
    (pqrWord ax).extractLsb' 5 3 = 0#3 ∧ (pqrWord ax).extractLsb' 13 3 = 0#3 ∧
    (pqrWord ax).extractLsb' 21 11 = 0#11 := by
  unfold pqrWord
  refine ⟨BitVec.extractLsb'_append_eq_right, ?_, ?_, ?_, ?_, ?_⟩
  · iterate 2 rw [BitVec.extractLsb'_append_eq_of_le (by decide)]
    exact BitVec.extractLsb'_append_eq_right
  · iterate 4 rw [BitVec.extractLsb'_append_eq_of_le (by decide)]
    exact BitVec.extractLsb'_append_eq_right
  · rw [BitVec.extractLsb'_append_eq_of_le (by decide)]
    exact BitVec.extractLsb'_append_eq_right
  · iterate 3 rw [BitVec.extractLsb'_append_eq_of_le (by decide)]
    exact BitVec.extractLsb'_append_eq_right
  · iterate 4 rw [BitVec.extractLsb'_append_eq_of_le (by decide)]
    exact BitVec.extractLsb'_append_eq_left

/-- The fields of `CONFIG` (R38). -/
theorem configWord_fields (par : Params) :
    (configWord par).getLsbD 0 = decide (par.prec = .binary64) ∧
    (configWord par).getLsbD 1 = decide (par.fwdSign = .plus) ∧
    (configWord par).extractLsb' 8 8 = 1#8 ∧ (configWord par).extractLsb' 2 6 = 0#6 ∧
    (configWord par).extractLsb' 16 16 = 0#16 := by
  unfold configWord
  dsimp only
  refine ⟨?_, ?_, ?_, ?_, ?_⟩
  · rw [BitVec.getLsbD_append]
    cases par.prec <;> rfl
  · rw [BitVec.getLsbD_append, BitVec.getLsbD_append]
    cases par.fwdSign <;> rfl
  · iterate 3 rw [BitVec.extractLsb'_append_eq_of_le (by decide)]
    exact BitVec.extractLsb'_append_eq_right
  · iterate 2 rw [BitVec.extractLsb'_append_eq_of_le (by decide)]
    exact BitVec.extractLsb'_append_eq_right
  · iterate 3 rw [BitVec.extractLsb'_append_eq_of_le (by decide)]
    exact BitVec.extractLsb'_append_eq_left

section

variable (s : State)

theorem ctrlValue_operand (k : Fin 8) : ctrlValue s (0x08 + 4 * k.val) = xreg s k := by
  fin_cases k <;> rfl

theorem ctrlValue_axisLength (a : Fin 3) :
    ctrlValue s (0x2C + 4 * a.val) = (planAxis s.plan (BitVec.ofNat 2 (a.val + 1))).n := by
  fin_cases a <;> rfl

theorem ctrlValue_axisExponents (a : Fin 3) :
    ctrlValue s (0x38 + 4 * a.val) = pqrWord (planAxis s.plan (BitVec.ofNat 2 (a.val + 1))) := by
  fin_cases a <;> rfl

theorem ctrlValue_axisTwBase (a : Fin 3) :
    ctrlValue s (0x44 + 4 * a.val) = (planAxis s.plan (BitVec.ofNat 2 (a.val + 1))).twBase := by
  fin_cases a <;> rfl

/-- Above the last register of the map an offset reads 0 (R39). -/
theorem ctrlValue_unmapped {offset : Nat} (h : 0x68 ≤ offset) : ctrlValue s offset = 0#32 := by
  unfold ctrlValue
  split
  case h_27 => rfl
  all_goals omega

end

/-- Settles O8: the host gets `ctrlValue`, whose fields are those of the map, register by register. -/
theorem controlRegisterReads : Obligations.ControlRegisterReads := by
  intro s rest offset hhost hidle halign hlt
  refine ⟨ctrlValue s offset, ?_, ?_, ?_, ?_, ?_, ?_, ?_, ?_, ?_, ?_, ?_, ?_, ?_, ?_, ctrlValue_unmapped s⟩
  · rw [step_cons hhost]
    exact hostReadCtrl_idle (ctrlInside_iff.2 ⟨halign, hlt⟩) hidle
  · rintro rfl; rfl
  · rintro rfl
    obtain ⟨hbusy, hdone, herr, hlow, hhigh⟩ := statusWord_fields s.status
    refine ⟨hbusy, hdone, fun c hc he => ?_, hlow, hhigh⟩
    have hcode : ∀ c ∈ [(ErrCode.ok, 0#4), (.invalidLength, 1#4), (.invalidDirection, 2#4), (.uninitializedPlan, 3#4),
        (.invalidLeadingDimension, 4#4), (.capacity, 5#4), (.illegalCommand, 6#4)], ErrCode.code c.1 = c.2 := by decide
    exact herr.trans (he ▸ hcode c hc)
  · rintro k rfl; exact ctrlValue_operand s k
  · rintro rfl; rfl
  · rintro a rfl; exact ctrlValue_axisLength s a
  · rintro a rfl
    rw [ctrlValue_axisExponents]
    exact pqrWord_fields _
  · rintro a rfl; exact ctrlValue_axisTwBase s a
  · rintro rfl; rfl
  · rintro rfl; rfl
  · rintro rfl; exact configWord_fields s.par
  · rintro rfl; rfl
  · rintro rfl; rfl
  · rintro rfl; rfl

/-! ### Writes of the other registers -/

/-- Only the operand registers `ARG0..4` take a write (R20, R39). -/
theorem writeArg_ignored {offset : Nat} (v : Reg) (s : State) (h : offset = 0x04 ∨ 0x1C ≤ offset) :
    writeArg offset v s = s := by
  unfold writeArg
  split
  case h_6 => rfl
  all_goals omega

/-- Settles O9: a write to the idle block that is not one of `CMD` is `writeArg`. -/
theorem controlRegisterWrites : Obligations.ControlRegisterWrites := by
  intro s rest offset v hhost hidle halign hlt
  have hwrite : offset ≠ 0 → step s = .next (writeArg offset v { s with host := rest }) := fun h0 => by
    rw [step_cons hhost]
    exact (hostWriteCtrl_idle (s := { s with host := rest }) (ctrlInside_iff.2 ⟨halign, hlt⟩) hidle).trans (if_neg h0)
  refine ⟨?_, ?_, ?_, ?_, ?_, fun h => ?_⟩
  · rintro rfl; exact hwrite (by decide)
  · rintro rfl; exact hwrite (by decide)
  · rintro rfl; exact hwrite (by decide)
  · rintro rfl; exact hwrite (by decide)
  · rintro rfl; exact hwrite (by decide)
  · rw [hwrite (by omega), writeArg_ignored v _ h]

/-! ### Reset -/

/-- The registers and memories of R43 for a block with the parameters `par`. -/
structure IsReset (par : Params) (s : State) : Prop where
  par : s.par = par
  cmd : s.cmd = 0#32
  status : s.status = Status.reset
  regs : s.regs = Regs.reset
  plan : s.plan = Plan.reset
  rowMajor : s.rowMajor = false
  leadDim : s.leadDim = 0#32
  tw : s.tw = []
  sig : s.sig = []

theorem isReset_resetWith (par : Params) : IsReset par (State.resetWith par) := ⟨rfl, rfl, rfl, rfl, rfl, rfl, rfl, rfl, rfl⟩

theorem isReset_resetBlock (s : State) : IsReset s.par (resetBlock s) := ⟨rfl, rfl, rfl, rfl, rfl, rfl, rfl, rfl, rfl⟩

/-- A reset by the host resets the block (R280). -/
theorem isReset_of_step {s t : State} {rest : List HostAccess} (hhost : s.host = .reset :: rest)
    (hstep : step s = .next t) : IsReset s.par t := by
  rw [step_cons hhost] at hstep
  exact Host.Outcome.next.inj hstep ▸ isReset_resetBlock { s with host := rest }

theorem wordAt_nil (f : Prec) (w : Nat) : wordAt f [] w = none := by
  cases f <;> rfl

theorem xreg_of_regs_reset {s : State} (h : s.regs = Regs.reset) (k : Fin 8) : xreg s k = 0#32 := by
  fin_cases k <;> simp [xreg, h, Regs.reset]

/-- Settles O15: the machine starts in `State.reset`, and a reset by the host leads to `resetBlock`, which has the same
registers and memories. -/
theorem resetState : Obligations.ResetState := by
  intro s par hs
  have h : IsReset par s := by
    rcases hs with ⟨rfl, rfl⟩ | ⟨s0, rest, hhost, hstep, rfl⟩
    · exact isReset_resetWith Config.defaults
    · exact isReset_of_step hhost hstep
  refine ⟨h.par, h.cmd, h.status, xreg_of_regs_reset h.regs, by rw [h.plan]; rfl, ?_, h.rowMajor, h.leadDim, fun f w => ?_⟩
  · rw [h.plan]
    decide
  · rw [h.tw, h.sig]
    exact ⟨wordAt_nil f w, wordAt_nil f w⟩

/-! ### What one step can do -/

/-- All that one access of the host can do to the block. -/
inductive HostEffect (s : State) : State → Prop
  /-- a command is issued and runs to its completion (R23, R70) -/
  | command (w : Reg) (i : Instr) {t : State} (h : Completes i (issue w s) t) : HostEffect s t
  /-- a word that is no command is issued (R97) -/
  | illegal (w : Reg) : HostEffect s (raise .illegalCommand (issue w s))
  /-- the access is ignored -/
  | ignored : HostEffect s s
  /-- a register of `CTRL` other than `CMD` is written -/
  | wroteArg (offset : Nat) (v : Reg) : HostEffect s (writeArg offset v s)
  /-- a word of `SIG` is written -/
  | wroteSig (index : Nat) (v : Word) (h : index < s.par.sigDepth.toNat) :
      HostEffect s { s with sig := storeWord s.par.prec s.sig index v }
  /-- a read returns a value -/
  | returned (v : Word) (free : Nat) : HostEffect s { s with rdata := v, free := free }
  | resetAll : HostEffect s (resetBlock s)

theorem runCommand_effect {w : Reg} {s t : State} (h : runCommand w s = .next t) : HostEffect s t := by
  unfold runCommand at h
  split at h
  · next i _ => exact .command w i (completes_of_exec h)
  · obtain rfl := Host.Outcome.next.inj h
    exact .illegal w

theorem hostReadMemory_effect (m : Memory) (depth index : Nat) (s : State) :
    HostEffect s (hostReadMemory m depth index s) := by
  unfold hostReadMemory
  split
  · exact .returned _ _
  · split
    · split <;> exact .returned _ _
    · exact .returned _ _

theorem hostWriteSig_effect (index : Nat) (v : Word) (s : State) : HostEffect s (hostWriteSig index v s) := by
  unfold hostWriteSig
  split
  · exact .ignored
  · split
    · next h => exact .wroteSig index v h
    · exact .ignored

theorem hostWriteCtrl_effect {offset : Nat} {v : Reg} {s t : State} (h : hostWriteCtrl offset v s = .next t) :
    HostEffect s t := by
  unfold hostWriteCtrl at h
  split at h
  · cases h
  · split at h
    · cases h
      exact .ignored
    · split at h
      · exact runCommand_effect h
      · cases h
        exact .wroteArg offset v

theorem hostReadCtrl_effect {offset : Nat} {s t : State} (h : hostReadCtrl offset s = .next t) : HostEffect s t := by
  unfold hostReadCtrl at h
  split at h
  · cases h
  · split at h <;> cases h <;> exact .returned _ _

theorem hostStep_effect {a : HostAccess} {s t : State} (h : hostStep a s = .next t) : HostEffect s t := by
  cases a with
  | writeCtrl offset v => exact hostWriteCtrl_effect h
  | readCtrl offset => exact hostReadCtrl_effect h
  | writeSig index v => exact Host.Outcome.next.inj h ▸ hostWriteSig_effect index v s
  | readSig index => exact Host.Outcome.next.inj h ▸ hostReadMemory_effect _ _ index s
  | writeTw index v => exact Host.Outcome.next.inj h ▸ .ignored
  | readTw index => exact Host.Outcome.next.inj h ▸ hostReadMemory_effect _ _ index s
  | reset => exact Host.Outcome.next.inj h ▸ .resetAll

/-- A step changes nothing, or is one access of the host. -/
theorem step_effect {s t : State} (h : step s = .next t) :
    t = s ∨ ∃ rest, HostEffect { s with host := rest } t := by
  unfold step at h
  split at h
  · exact .inl (Host.Outcome.next.inj h).symm
  · exact .inr ⟨_, hostStep_effect h⟩

theorem writeArg_frame (offset : Nat) (v : Reg) (s : State) :
    ∃ g : Regs, writeArg offset v s = { s with regs := g } ∧
      g.res0 = s.regs.res0 ∧ g.res1 = s.regs.res1 ∧ g.res2 = s.regs.res2 := by
  unfold writeArg
  split <;> exact ⟨_, rfl, rfl, rfl, rfl⟩

theorem HostEffect.par_eq {s t : State} (h : HostEffect s t) : t.par = s.par := by
  cases h with
  | command w i h => exact h.par_eq
  | wroteArg offset v =>
    obtain ⟨g, hg, -⟩ := writeArg_frame offset v s
    rw [hg]
  | illegal w => rfl
  | ignored => rfl
  | wroteSig index v h => rfl
  | returned v free => rfl
  | resetAll => rfl

/-- Settles O16: `CONFIG` and the parameter registers read the constants of the block, and no access of the host, a command
or a reset included, changes them. -/
theorem parametersAreConstants : Obligations.ParametersAreConstants := by
  refine ⟨fun s t h => ?_, fun s => ?_, by decide, rfl, rfl, rfl⟩
  · rcases step_effect h with rfl | ⟨rest, heff⟩
    · rfl
    · exact heff.par_eq
  · obtain ⟨hprec, hsign, hparts, hlow, hhigh⟩ := configWord_fields s.par
    exact ⟨hprec, hsign, hparts, hlow, hhigh, rfl, rfl, rfl⟩

end Sys2Proof.Proofs
end

section
/-! PROOF. No command reads a flag (10_state.md R26): every command ends in a completion, which overwrites `STATUS`, and
nothing before it depends on `STATUS`. -/

namespace Sys2Proof.Proofs

open Sys2Proof Sys2Proof.Machine
open Sys2Proof.Config (Prec Sign Params)

/-- The same state with another `STATUS`. -/
def withStatus (st : Status) (s : State) : State := { s with status := st }

section

variable (st : Status) (s : State)

/-! ### Completions overwrite `STATUS` -/

theorem raise_withStatus (e : ErrCode) : raise e (withStatus st s) = raise e s := rfl

theorem succeed_withStatus (r0 r1 r2 : Reg) : succeed r0 r1 r2 (withStatus st s) = succeed r0 r1 r2 s := rfl

/-! ### What comes before the completion does not depend on it -/

theorem onSignal_withStatus (active : Bool) (words : List Nat) (groups : List (List Nat)) (f : Memory → Memory) :
    onSignal active words groups f (withStatus st s) = withStatus st (onSignal active words groups f s) := by
  simp only [onSignal, apply_ite (withStatus st)]
  rfl

theorem runTransform_withStatus (shape : Shape) (sign : Sign) :
    runTransform shape sign (withStatus st s) = withStatus st (runTransform shape sign s) :=
  onSignal_withStatus st s _ _ _ _

theorem execPrologue_withStatus (axis : BitVec 2) (dir : Dir) (split : Bool) :
    execPrologue axis dir split (withStatus st s) = execPrologue axis dir split s := rfl

/-! ### The commands -/

theorem buildPlan_withStatus (lengths : List Reg) : buildPlan lengths (withStatus st s) = buildPlan lengths s := by
  unfold buildPlan
  cases planAxes 0 lengths with
  | none => rfl
  | some axes => rfl

theorem setLayout_withStatus (rowMajor : Bool) : setLayout rowMajor (withStatus st s) = setLayout rowMajor s := rfl

theorem directCommand_withStatus (active : AxisPlan → Bool) (groups : AxisPlan → EngineDesc → List (List Nat))
    (run : Prec → (free : Nat) → (tw : Memory) → AxisPlan → EngineDesc → Memory → Memory)
    (axis : BitVec 2) (dir : Dir) (split : Bool) :
    directCommand active groups run axis dir split (withStatus st s) = directCommand active groups run axis dir split s := by
  unfold directCommand
  rw [execPrologue_withStatus]
  cases execPrologue axis dir split s with
  | fails e => rfl
  | nothing => rfl
  | run d =>
    dsimp only
    rw [onSignal_withStatus]
    rfl

theorem transform_withStatus (dir : Dir) (split : Bool) : transform dir split (withStatus st s) = transform dir split s := by
  by_cases hn : s.plan.naxes = 0#2
  · rw [transform, transform, if_pos hn, if_pos (show (withStatus st s).plan.naxes = 0#2 from hn)]
    rfl
  · cases hd : directionSign s.par.fwdSign dir with
    | none =>
      simp only [transform, withStatus, hn, hd, if_false]
      rfl
    | some sign =>
      rw [transform_checked hn hd, transform_checked (s := withStatus st s) hn hd, runTransform_withStatus]
      rfl

theorem exec_withStatus (i : Instr) : exec i (withStatus st s) = exec i s := by
  cases i with
  | nop => rfl
  | factorize =>
    cases h : factorLength (argSigned s 0) with
    | none =>
      have h' : factorLength (argSigned (withStatus st s) 0) = none := h
      simp only [exec, execFactorize, h, h', raise_withStatus]
    | some F =>
      have h' : factorLength (argSigned (withStatus st s) 0) = some F := h
      simp only [exec, execFactorize, h, h', succeed_withStatus]
  | createPlan1 => exact congrArg Host.Outcome.next (buildPlan_withStatus st s _)
  | createPlan2 => exact congrArg Host.Outcome.next (buildPlan_withStatus st s _)
  | createPlan3 => exact congrArg Host.Outcome.next (buildPlan_withStatus st s _)
  | setLayout rowMajor => exact congrArg Host.Outcome.next (setLayout_withStatus st s rowMajor)
  | getLayout => rfl
  | transform dir split => exact congrArg Host.Outcome.next (transform_withStatus st s dir split)
  | dispatch axis dir split => exact congrArg Host.Outcome.next (directCommand_withStatus st s _ _ _ axis dir split)
  | run2 axis dir split => exact congrArg Host.Outcome.next (directCommand_withStatus st s _ _ _ axis dir split)
  | run3 axis dir split => exact congrArg Host.Outcome.next (directCommand_withStatus st s _ _ _ axis dir split)
  | run5 axis dir split => exact congrArg Host.Outcome.next (directCommand_withStatus st s _ _ _ axis dir split)

end

/-- Settles O19: a command on the state with another `STATUS` is the same command. -/
theorem noCommandReadsAFlag : Obligations.NoCommandReadsAFlag := fun i s st => exec_withStatus st s i

end Sys2Proof.Proofs
end

section
/-! PROOF. The invariant of the block. What a validated plan is (R122, R128) comes first: the registers `planAxes` gives are
good, and `commitPlan` leaves their tables in `TW`. Then each way a command can complete, and each access of the host, keeps
the part of `Inv` that does not speak of `STATUS` (`Sound`). -/

namespace Sys2Proof.Proofs

open Sys2Proof Sys2Proof.Machine
open Sys2Proof.Config (Prec Sign TwGen Params)

/-! ### Factorization (R122) -/

theorem stripFactor_mul (b fuel n : Nat) : b ^ (stripFactor b fuel n).1 * (stripFactor b fuel n).2 = n := by
  induction fuel generalizing n with
  | zero => simp [stripFactor]
  | succ fuel ih =>
    unfold stripFactor
    split
    · next h =>
      dsimp only
      rw [Nat.pow_succ, Nat.mul_right_comm, ih, Nat.div_mul_cancel (Nat.dvd_of_mod_eq_zero h)]
    · simp

theorem factor235_mul (n : Nat) :
    2 ^ (factor235 n).p * 3 ^ (factor235 n).q * 5 ^ (factor235 n).r * (factor235 n).rest = n := by
  simp only [factor235]
  rw [Nat.mul_assoc, stripFactor_mul, Nat.mul_assoc, stripFactor_mul, stripFactor_mul]

/-- The exponents of a length are those of its prime powers. -/
theorem factorLength_some {x : Reg} {F : Factors} (h : factorLength x.toInt = some F) :
    x.toNat = 2 ^ F.p * 3 ^ F.q * 5 ^ F.r ∧ x.toNat < 2 ^ 31 := by
  unfold factorLength at h
  split at h
  · cases h
  · next hpos =>
    obtain ⟨heq, hlt⟩ := toNat_of_toInt_pos (not_le.1 hpos)
    rw [← heq, Int.toNat_natCast] at h
    split at h
    · next hrest =>
      cases h
      refine ⟨?_, hlt⟩
      have := factor235_mul x.toNat
      rwa [hrest, Nat.mul_one, eq_comm] at this
    · cases h

/-- An exponent of a prime power below 2^31 fits the five bits of its field (R32). -/
theorem exponent_lt {b e n : Nat} (hb : 2 ≤ b) (hle : b ^ e ≤ n) (hn : n < 2 ^ 31) : e < 2 ^ 5 := by
  have h : 2 ^ e < 2 ^ 31 := (Nat.pow_le_pow_left hb e).trans_lt (hle.trans_lt hn)
  have := (Nat.pow_lt_pow_iff_right (by decide)).1 h
  omega

theorem exponents_lt {p q r n : Nat} (h : n = 2 ^ p * 3 ^ q * 5 ^ r) (hn : n < 2 ^ 31) :
    p < 2 ^ 5 ∧ q < 2 ^ 5 ∧ r < 2 ^ 5 := by
  have hpos : 0 < n := by rw [h]; positivity
  have hle : ∀ {d}, d ∣ n → d ≤ n := fun hd => Nat.le_of_dvd hpos hd
  refine ⟨exponent_lt (b := 2) (by decide) (hle ?_) hn, exponent_lt (b := 3) (by decide) (hle ?_) hn,
    exponent_lt (b := 5) (by decide) (hle ?_) hn⟩ <;> rw [h]
  · exact Dvd.intro _ (Nat.mul_assoc ..).symm
  · exact ⟨2 ^ p * 5 ^ r, by ring⟩
  · exact Dvd.intro_left _ rfl

/-! ### The axes of a new plan (R128) -/

/-- The registers of an axis of length x with exponents F, its table at entry `base`. -/
def lengthAxis (base : Nat) (x : Reg) (F : Factors) : AxisPlan :=
  { n := x, p := BitVec.ofNat 5 F.p, q := BitVec.ofNat 5 F.q, r := BitVec.ofNat 5 F.r, twBase := BitVec.ofNat 32 base }

theorem planAxes_cons {base : Nat} {x : Reg} {xs : List Reg} {axes : List AxisPlan}
    (h : planAxes base (x :: xs) = some axes) :
    ∃ F rest, factorLength x.toInt = some F ∧ planAxes (base + tableSize F.p F.q F.r) xs = some rest ∧
      axes = lengthAxis base x F :: rest := by
  unfold planAxes at h
  split at h
  · cases h
  · next F hF =>
    split at h
    · cases h
    · next rest hrest => exact ⟨F, rest, hF, hrest, (Option.some.inj h).symm⟩

section

variable {x : Reg} {F : Factors} (h : factorLength x.toInt = some F) (base : Nat)
include h

theorem lengthAxis_exponents : (lengthAxis base x F).p.toNat = F.p ∧ (lengthAxis base x F).q.toNat = F.q ∧
    (lengthAxis base x F).r.toNat = F.r := by
  obtain ⟨hn, hlt⟩ := factorLength_some h
  obtain ⟨hp, hq, hr⟩ := exponents_lt hn hlt
  exact ⟨BitVec.toNat_ofNat .. ▸ Nat.mod_eq_of_lt hp, BitVec.toNat_ofNat .. ▸ Nat.mod_eq_of_lt hq,
    BitVec.toNat_ofNat .. ▸ Nat.mod_eq_of_lt hr⟩

theorem lengthAxis_good : (lengthAxis base x F).good := by
  obtain ⟨hp, hq, hr⟩ := lengthAxis_exponents h base
  obtain ⟨hn, hlt⟩ := factorLength_some h
  refine ⟨?_, hlt⟩
  rw [hp, hq, hr]
  exact hn

theorem lengthAxis_tableSize : axisTableSize (lengthAxis base x F) = tableSize F.p F.q F.r := by
  obtain ⟨hp, hq, hr⟩ := lengthAxis_exponents h base
  rw [axisTableSize, hp, hq, hr]

end

theorem planAxes_length {base : Nat} {lengths : List Reg} {axes : List AxisPlan}
    (h : planAxes base lengths = some axes) : axes.length = lengths.length := by
  induction lengths generalizing base axes with
  | nil => cases h; rfl
  | cons x xs ih =>
    obtain ⟨F, rest, -, hrest, rfl⟩ := planAxes_cons h
    simp only [List.length_cons, ih hrest]

theorem planAxes_good {base : Nat} {lengths : List Reg} {axes : List AxisPlan} (h : planAxes base lengths = some axes) :
    ∀ ax ∈ axes, ax.good := by
  induction lengths generalizing base axes with
  | nil => cases h; simp
  | cons x xs ih =>
    obtain ⟨F, rest, hF, hrest, rfl⟩ := planAxes_cons h
    exact List.forall_mem_cons.2 ⟨lengthAxis_good hF base, ih hrest⟩

/-- Where the tables fit a 32-bit depth, no base wraps, and they lie back to back (R33). -/
theorem planAxes_backToBack {base : Nat} {lengths : List Reg} {axes : List AxisPlan}
    (h : planAxes base lengths = some axes) (hfit : base + tableTotal axes < 2 ^ 32) : backToBack base axes := by
  induction lengths generalizing base axes with
  | nil => cases h; trivial
  | cons x xs ih =>
    obtain ⟨F, rest, hF, hrest, rfl⟩ := planAxes_cons h
    simp only [tableTotal, lengthAxis_tableSize hF base, ← Nat.add_assoc] at hfit
    refine ⟨?_, ?_⟩
    · exact BitVec.toNat_ofNat .. ▸ Nat.mod_eq_of_lt (by omega)
    · rw [lengthAxis_tableSize hF base]
      exact ih hrest hfit

/-! ### The plan registers of a new plan -/

theorem planOf_axes {axes : List AxisPlan} (hk : axes.length ∈ [1, 2, 3]) : (planOf axes).axes = axes := by
  match axes, hk with
  | [_], _ => rfl
  | [_, _], _ => rfl
  | [_, _, _], _ => rfl

theorem planOf_good {axes : List AxisPlan} (hk : axes.length ∈ [1, 2, 3]) (hgood : ∀ ax ∈ axes, ax.good)
    (hb : backToBack 0 axes) : (planOf axes).good := by
  have haxes : ∀ ax ∈ (planOf axes).axes, ax.good := by rwa [planOf_axes hk]
  match axes, hk, hb with
  | [a], _, hb =>
    obtain ⟨h1, -⟩ := hb
    have hn : (planOf [a]).naxes.toNat = 1 := rfl
    exact ⟨haxes, by omega, fun _ => rfl, fun _ => rfl, h1, by omega, by omega⟩
  | [a, b], _, hb =>
    obtain ⟨h1, h2, -⟩ := hb
    have hn : (planOf [a, b]).naxes.toNat = 2 := rfl
    exact ⟨haxes, by omega, by omega, fun _ => rfl, h1, fun _ => h2.trans (Nat.zero_add _), by omega⟩
  | [a, b, c], _, hb =>
    obtain ⟨h1, h2, h3, -⟩ := hb
    have hn : (planOf [a, b, c]).naxes.toNat = 3 := rfl
    rw [Nat.zero_add] at h2 h3
    exact ⟨haxes, by omega, by omega, by omega, h1, fun _ => h2, fun _ => h3⟩

/-- The natural leading dimension of the row-major layout is the length of the last axis (R35). -/
theorem naturalDim_planOf {axes : List AxisPlan} (hk : axes.length ∈ [1, 2, 3]) :
    naturalDim (planOf axes) true = (axes.getLastD AxisPlan.none).n := by
  match axes, hk with
  | [_], _ => rfl
  | [_, _], _ => rfl
  | [_, _, _], _ => rfl

/-- The natural leading dimension of a plan is the length of one of its axes, so a positive `s32` (R35, R105). -/
theorem naturalDim_lt {pl : Plan} (hg : pl.good) (hn : pl.naxes ≠ 0#2) (rm : Bool) : (naturalDim pl rm).toNat < 2 ^ 31 := by
  cases rm with
  | false => exact (hg.axes _ (planAxis_mem_axes (axis := 1#2) (by decide) (by bv_omega))).2
  | true => exact (hg.axes _ (planAxis_mem_axes hn (BitVec.le_refl _))).2

/-! ### The invariant, `STATUS` apart -/

/-- What `Inv` says of the parameters, the plan, the layout and the memories. -/
structure Sound (s : State) : Prop where
  legal : s.par.legal = true
  tw : goodMemory s.par.prec s.par.twDepth.toNat s.tw
  sig : goodMemory s.par.prec s.par.sigDepth.toNat s.sig
  plan : s.plan.good
  fits : tableTotal s.plan.axes ≤ s.par.twDepth.toNat
  tables : ∀ ax ∈ s.plan.axes, holdsTable s.par.prec s.par.twgen s.tw ax
  layout : s.plan.naxes ≠ 0#2 → (naturalDim s.plan s.rowMajor).toNat ≤ s.leadDim.toNat ∧ s.leadDim.toNat < 2 ^ 31

/-- What `Inv` says of `STATUS` and the results: an idle block, and 0 in the results with an error code (R70, R253). -/
structure Settled (st : Status) (g : Regs) : Prop where
  idle : st.busy = false
  failed : st.err ≠ .ok → st.done = true ∧ g.res0 = 0#32 ∧ g.res1 = 0#32 ∧ g.res2 = 0#32

theorem inv_iff {s : State} : Inv s ↔ Sound s ∧ Settled s.status s.regs where
  mp h := ⟨⟨h.legal, ⟨h.twForm, h.twInside, h.twWhole⟩, ⟨h.sigForm, h.sigInside, h.sigWhole⟩, h.plan, h.fits, h.tables,
    h.layout⟩, ⟨h.idle, h.failed⟩⟩
  mpr := fun ⟨h, hs⟩ => ⟨h.legal, hs.idle, hs.failed, h.tw.form, h.sig.form, h.tw.inside, h.sig.inside, h.tw.whole,
    h.sig.whole, h.plan, h.fits, h.tables, h.layout⟩

/-- `Sound` speaks of these fields only. -/
theorem Sound.congr {s t : State} (h : Sound s) (hpar : t.par = s.par) (hplan : t.plan = s.plan)
    (hrm : t.rowMajor = s.rowMajor) (hld : t.leadDim = s.leadDim) (htw : t.tw = s.tw) (hsig : t.sig = s.sig) : Sound t := by
  obtain ⟨legal, tw, sig, plan, fits, tables, layout⟩ := h
  constructor <;> simpa only [hpar, hplan, hrm, hld, htw, hsig]

theorem StoredInside.goodMemory {s : State} {sig : Memory} (h : StoredInside s sig) (hs : Sound s) :
    goodMemory s.par.prec s.par.sigDepth.toNat sig :=
  h _ hs.sig fun _ hw _ v hm => goodMemory_storeWord v hm hw

/-- `Sound` with another signal memory. -/
theorem Sound.with_sig {s : State} {sig : Memory} (h : Sound s)
    (hsig : goodMemory s.par.prec s.par.sigDepth.toNat sig) (free : Nat) : Sound { s with sig := sig, free := free } :=
  ⟨h.legal, h.tw, hsig, h.plan, h.fits, h.tables, h.layout⟩

/-- A plan that fits is committed with its tables, inside `TW`. -/
theorem Sound.commitPlan {s : State} {lengths : List Reg} {axes : List AxisPlan} (h : Sound s)
    (hk : lengths.length ∈ [1, 2, 3]) (hplan : planAxes 0 lengths = some axes)
    (hfit : tableTotal axes ≤ s.par.twDepth.toNat) : Sound (commitPlan axes s) := by
  have hdepth := s.par.twDepth.isLt
  have hk : axes.length ∈ [1, 2, 3] := planAxes_length hplan ▸ hk
  have hgood := planAxes_good hplan
  have hb : backToBack 0 axes := planAxes_backToBack hplan (by omega)
  have hpl := planOf_good hk hgood hb
  refine ⟨h.legal, ?_, h.sig, hpl, ?_, ?_, fun hn => ?_⟩
  · exact buildTables_keeps s.par (goodMemory s.par.prec s.par.twDepth.toNat) hb h.tw fun w _ hw m v hm =>
      goodMemory_storeWord v hm (by omega)
  · rw [commitPlan_plan, planOf_axes hk]
    exact hfit
  · rw [commitPlan_plan, planOf_axes hk]
    exact holdsTable_buildTables s.par s.tw hb
  · rw [commitPlan_plan, commitPlan_rowMajor, commitPlan_leadDim, ← naturalDim_planOf hk]
    exact ⟨Nat.le_refl _, naturalDim_lt hpl hn true⟩

/-- Each way a command can complete keeps `Sound`. -/
theorem Completes.sound {i : Instr} {s t : State} (h : Completes i s t) (hs : Sound s) : Sound t := by
  cases h with
  | failed e he => exact hs.congr rfl rfl rfl rfl rfl rfl
  | answered r0 r1 r2 => exact hs.congr rfl rfl rfl rfl rfl rfl
  | planned lengths axes hi hk hplan hfit => exact (hs.commitPlan hk hplan hfit).congr rfl rfl rfl rfl rfl rfl
  | laidOut rm ld hi hn hld =>
    refine ⟨hs.legal, hs.tw, hs.sig, hs.plan, hs.fits, hs.tables, fun _ => ?_⟩
    rcases hld with rfl | hld
    · exact ⟨Nat.le_refl _, naturalDim_lt hs.plan hn rm⟩
    · exact hld
  | ran sig free hsig => exact (hs.with_sig ((hsig hs.plan).goodMemory hs) free).congr rfl rfl rfl rfl rfl rfl

/-- A completed command has left the block idle, and a failed one 0 in the results. -/
theorem Completes.settled {i : Instr} {s t : State} (h : Completes i s t) : Settled t.status t.regs := by
  cases h with
  | failed e he => exact ⟨rfl, fun _ => ⟨rfl, rfl, rfl, rfl⟩⟩
  | answered r0 r1 r2 => exact ⟨rfl, fun h => absurd rfl h⟩
  | planned lengths axes hi hk hplan hfit => exact ⟨rfl, fun h => absurd rfl h⟩
  | laidOut rm ld hi hn hld => exact ⟨rfl, fun h => absurd rfl h⟩
  | ran sig free hsig => exact ⟨rfl, fun h => absurd rfl h⟩

/-! ### Reset -/

theorem Plan.reset_good : Plan.reset.good where
  axes _ h := absurd h List.not_mem_nil
  absent1 _ := rfl
  absent2 _ := rfl
  absent3 _ := rfl
  base1 := rfl
  base2 h := absurd h (by decide)
  base3 h := absurd h (by decide)

theorem goodMemory_nil (f : Prec) (depth : Nat) : goodMemory f depth [] := ⟨rfl, inside_nil _ _, whole_nil _⟩

/-- A block that has been reset meets the invariant. -/
theorem IsReset.inv {par : Params} {s : State} (h : IsReset par s) (hlegal : par.legal = true) : Inv s := by
  refine inv_iff.2 ⟨⟨?_, ?_, ?_, ?_, ?_, ?_, fun hn => ?_⟩, ?_⟩
  · rw [h.par]; exact hlegal
  · rw [h.tw]; exact goodMemory_nil _ _
  · rw [h.sig]; exact goodMemory_nil _ _
  · rw [h.plan]; exact Plan.reset_good
  · rw [h.plan]; exact Nat.zero_le _
  · rw [h.plan]; exact fun _ hax => absurd hax List.not_mem_nil
  · rw [h.plan] at hn; exact absurd rfl hn
  · rw [h.status]; exact ⟨rfl, fun he => absurd rfl he⟩

/-- Settles O60. -/
theorem resetMeetsInvariant : Obligations.ResetMeetsInvariant := fun par hlegal => (isReset_resetWith par).inv hlegal

/-! ### The host's accesses -/

/-- Each access of the host keeps the invariant. -/
theorem HostEffect.inv {s t : State} (h : HostEffect s t) (hs : Inv s) : Inv t := by
  obtain ⟨hsound, hsettled⟩ := inv_iff.1 hs
  have hissued : ∀ w, Sound (issue w s) := fun w => hsound.congr rfl rfl rfl rfl rfl rfl
  cases h with
  | command w i h => exact inv_iff.2 ⟨h.sound (hissued w), h.settled⟩
  | illegal w =>
    exact inv_iff.2 ⟨(hissued w).congr rfl rfl rfl rfl rfl rfl, ⟨rfl, fun _ => ⟨rfl, rfl, rfl, rfl⟩⟩⟩
  | ignored => exact hs
  | wroteArg offset v =>
    obtain ⟨g, hg, h0, h1, h2⟩ := writeArg_frame offset v s
    rw [hg]
    refine inv_iff.2 ⟨hsound.congr rfl rfl rfl rfl rfl rfl, hsettled.idle, fun he => ?_⟩
    rw [h0, h1, h2]
    exact hsettled.failed he
  | wroteSig index v h => exact inv_iff.2 ⟨hsound.with_sig (goodMemory_storeWord v hsound.sig h) s.free, hsettled⟩
  | returned v free => exact inv_iff.2 ⟨hsound.congr rfl rfl rfl rfl rfl rfl, hsettled⟩
  | resetAll => exact (isReset_resetBlock s).inv hsound.legal

/-- Settles O59: a step is an access of the host, and every one of them keeps the invariant, a command by the way it
completes. -/
theorem stepKeepsInvariant : Obligations.StepKeepsInvariant := by
  intro s t hs hstep
  rcases step_effect hstep with rfl | ⟨rest, heff⟩
  · exact hs
  · obtain ⟨hsound, hsettled⟩ := inv_iff.1 hs
    exact heff.inv (inv_iff.2 ⟨hsound.congr rfl rfl rfl rfl rfl rfl, hsettled⟩)

end Sys2Proof.Proofs
end

section
/-! PROOF. The host's accesses to `TW` and `SIG` and those outside the spec (20_memory.md R62, R63, R76; U1, U6, U7), and the
canonical form of the memories, which every step keeps. -/

namespace Sys2Proof.Proofs

open Sys2Proof Sys2Proof.Machine
open Sys2Proof.Config (Prec Sign)

/-! ### Accesses of `CTRL` outside the spec (U7) -/

theorem ctrlInside_outside {offset : Nat} (h : offset % 4 ≠ 0 ∨ 0x100 ≤ offset) : ctrlInside offset = false := by
  rw [Bool.eq_false_iff, Ne, ctrlInside_iff]
  omega

/-- Settles O10. -/
theorem outsideControlAccessRefused : Obligations.OutsideControlAccessRefused := by
  intro s rest offset hout
  have hin := ctrlInside_outside hout
  refine ⟨fun v hhost => ?_, fun hhost => ?_⟩ <;>
    · rw [step_cons hhost]
      exact if_pos hin

/-! ### Reads and writes of a memory (R63) -/

/-- An open read of `bits` bits returns a value of that width. -/
theorem openRead_lt {bits : Nat} (hbits : bits ≤ 64) (s : State) : (returnAny bits s).rdata.toNat < 2 ^ bits := by
  have hpow : 2 ^ bits ≤ 2 ^ 64 := Nat.pow_le_pow_right (by decide) hbits
  have hlt := Nat.mod_lt (Config.openRead s.free).toNat (Nat.two_pow_pos bits)
  rw [returnAny_rdata, BitVec.toNat_ofNat, Nat.mod_eq_of_lt (by omega)]
  exact hlt

section

variable {m : Memory} {depth index : Nat} {s : State}

theorem hostReadMemory_written {v : Word} (hidle : s.status.busy = false) (hlt : index < depth)
    (hv : wordAt s.par.prec m index = some v) : hostReadMemory m depth index s = returnWord v s := by
  simp only [hostReadMemory, hidle, hlt, hv, if_true, Bool.false_eq_true, if_false]

/-- At or beyond the depth (U6), and where nothing has written the word (U1), the read is open. -/
theorem hostReadMemory_open (hidle : s.status.busy = false) (h : depth ≤ index ∨ wordAt s.par.prec m index = none) :
    hostReadMemory m depth index s = returnAny (flen s.par.prec) s := by
  simp only [hostReadMemory, hidle, Bool.false_eq_true, if_false]
  split
  · next hlt => rw [h.resolve_left (Nat.not_le.2 hlt)]
  · rfl

/-- A read of a memory by the host changes the data read and the counter of free values only (R76). -/
theorem hostReadMemory_frame : hostReadMemory m depth index s =
    { s with rdata := (hostReadMemory m depth index s).rdata, free := (hostReadMemory m depth index s).free } := by
  unfold hostReadMemory
  split
  · rfl
  · split
    · split <;> rfl
    · rfl

theorem hostWriteSig_inside {v : Word} (hidle : s.status.busy = false) (hlt : index < s.par.sigDepth.toNat) :
    hostWriteSig index v s = { s with sig := storeWord s.par.prec s.sig index v } := by
  simp only [hostWriteSig, hidle, hlt, if_true, Bool.false_eq_true, if_false]

theorem hostWriteSig_beyond {v : Word} (hge : s.par.sigDepth.toNat ≤ index) : hostWriteSig index v s = s := by
  simp only [hostWriteSig, Nat.not_lt.2 hge, if_false, ite_self]

end

/-- Settles O11. -/
theorem signalWindow : Obligations.SignalWindow := by
  refine ⟨fun s rest a v hhost hidle => ⟨fun hlt => ?_, fun hge => ?_⟩,
    fun s rest a hhost hidle => ⟨fun v hlt hv => ?_, fun hopen => ?_⟩⟩ <;> rw [step_cons hhost]
  · have hstep : hostWriteSig a v { s with host := rest } =
        { s with host := rest, sig := storeWord s.par.prec s.sig a v } := hostWriteSig_inside hidle hlt
    exact ⟨_, congrArg Host.Outcome.next hstep, rfl, wordAt_storeWord_same _ _ _ _, fun x hx =>
      memRead_storeWord_outside _ _ _ _ hx⟩
  · exact congrArg Host.Outcome.next (hostWriteSig_beyond (s := { s with host := rest }) hge)
  · exact congrArg Host.Outcome.next (hostReadMemory_written (s := { s with host := rest }) hidle hlt hv)
  · exact ⟨_, openRead_lt (flen_le _) { s with host := rest },
      congrArg Host.Outcome.next (hostReadMemory_open (s := { s with host := rest }) hidle hopen)⟩

/-- Settles O12. -/
theorem twiddleWindow : Obligations.TwiddleWindow := by
  refine ⟨fun s rest a v hhost => ?_, fun s rest a v hhost hidle hlt hv => ?_, fun s rest a hhost hidle hopen => ?_⟩ <;>
    rw [step_cons hhost]
  · rfl
  · exact congrArg Host.Outcome.next (hostReadMemory_written (s := { s with host := rest }) hidle hlt hv)
  · exact ⟨_, openRead_lt (flen_le _) { s with host := rest },
      congrArg Host.Outcome.next (hostReadMemory_open (s := { s with host := rest }) hidle hopen)⟩

/-! ### Reads have no side effect (R76) -/

theorem hostReadCtrl_frame {offset : Nat} {s t : State} (h : hostReadCtrl offset s = .next t) :
    t = { s with rdata := t.rdata, free := t.free } := by
  unfold hostReadCtrl at h
  split at h
  · cases h
  · split at h <;> cases h <;> rfl

/-- Settles O13: a read of `CTRL`, `SIG` or `TW` returns a word, or an open value, and does nothing else. -/
theorem readsHaveNoSideEffect : Obligations.ReadsHaveNoSideEffect := by
  intro s t rest a hhost hread hstep
  rw [step_cons hhost] at hstep
  rcases hread with ⟨k, rfl⟩ | ⟨k, rfl⟩ | ⟨k, rfl⟩
  · exact hostReadCtrl_frame hstep
  · obtain rfl := Host.Outcome.next.inj hstep
    exact hostReadMemory_frame
  · obtain rfl := Host.Outcome.next.inj hstep
    exact hostReadMemory_frame

/-! ### The canonical form of the memories (log 6) -/

/-- Both memories are in canonical form. -/
def MemoryForm (s : State) : Prop := s.tw.wf = true ∧ s.sig.wf = true

theorem wf_buildTables (par : Config.Params) {axes : List AxisPlan} {tw : Memory} (h : tw.wf = true) :
    (buildTables par axes tw).wf = true := by
  induction axes generalizing tw with
  | nil => exact h
  | cons ax rest ih =>
    exact ih (buildTable_keeps _ _ (fun m => m.wf = true) _ _ _ _ _ h fun w _ _ _ v hm => wf_storeWord _ w v hm)

theorem memoryForm_buildPlan {lengths : List Reg} {s : State} (h : MemoryForm s) : MemoryForm (buildPlan lengths s) := by
  obtain ⟨htw, hsig⟩ := h
  unfold buildPlan
  split
  · exact ⟨htw, hsig⟩
  · split
    · exact ⟨htw, hsig⟩
    · exact ⟨wf_buildTables _ htw, hsig⟩

theorem memoryForm_setLayout {rm : Bool} {s : State} (h : MemoryForm s) : MemoryForm (setLayout rm s) := by
  obtain ⟨htw, hsig⟩ := h
  unfold setLayout
  split_ifs <;> exact ⟨htw, hsig⟩

/-- A `TRANSFORM` keeps the form under any plan, a good one or not: each of its stores does. -/
theorem memoryForm_transform {dir : Dir} {split : Bool} {s : State} (h : MemoryForm s) :
    MemoryForm (transform dir split s) := by
  obtain ⟨htw, hsig⟩ := h
  have hcalls : ∀ free sign cs, (runCalls s.par.prec free s.tw s.plan (signalShape split s) sign cs s.sig).wf = true :=
    fun free sign cs => runCalls_keeps (fun m => m.wf = true) _ _ _ _ _ _ hsig fun _ _ _ _ _ _ m v hm =>
      ⟨wf_storeWord _ _ v hm, wf_storeWord _ _ v hm⟩
  unfold transform
  split
  · exact ⟨htw, hsig⟩
  · split
    · exact ⟨htw, hsig⟩
    · split
      · refine ⟨?_, ?_⟩
        · rw [succeed_tw, runTransform, onSignal_tw]
          exact htw
        · exact onSignal_keeps (fun m => m.wf = true) _ _ _ _ s hsig (hcalls _ _ _)
            (fun _ hws _ hw => by rwa [List.mem_singleton.1 hws] at hw) fun m w _ v hm => wf_storeWord _ w v hm
      · exact ⟨htw, hsig⟩

theorem memoryForm_direct {make : BitVec 2 → Dir → Bool → Instr} (hmake : make ∈ directMakers) {axis : BitVec 2} {dir : Dir}
    {split : Bool} {s t : State} (h : MemoryForm s) (hexec : exec (make axis dir split) s = .next t) : MemoryForm t := by
  obtain ⟨active, groups, run, heq, hin, hrun, -⟩ := exec_direct hmake
  obtain rfl := Host.Outcome.next.inj ((heq axis dir split s).symm.trans hexec)
  refine ⟨?_, directCommand_keeps active groups run hin hrun (fun m => m.wf = true) axis dir split s h.2
    fun _ w _ m v hm => wf_storeWord _ w v hm⟩
  rw [directCommand_frame]
  exact h.1

/-- Every command keeps the canonical form. -/
theorem memoryForm_exec {i : Instr} {s t : State} (h : MemoryForm s) (hexec : exec i s = .next t) : MemoryForm t := by
  cases i with
  | nop => exact Host.Outcome.next.inj hexec ▸ h
  | factorize =>
    simp only [exec, execFactorize] at hexec
    split at hexec <;> exact Host.Outcome.next.inj hexec ▸ h
  | createPlan1 => exact Host.Outcome.next.inj hexec ▸ memoryForm_buildPlan h
  | createPlan2 => exact Host.Outcome.next.inj hexec ▸ memoryForm_buildPlan h
  | createPlan3 => exact Host.Outcome.next.inj hexec ▸ memoryForm_buildPlan h
  | setLayout rm => exact Host.Outcome.next.inj hexec ▸ memoryForm_setLayout h
  | getLayout =>
    simp only [exec, execGetLayout] at hexec
    split at hexec <;> exact Host.Outcome.next.inj hexec ▸ h
  | transform dir split => exact Host.Outcome.next.inj hexec ▸ memoryForm_transform h
  | dispatch axis dir split => exact memoryForm_direct (make := .dispatch) (by simp [directMakers]) h hexec
  | run2 axis dir split => exact memoryForm_direct (make := .run2) (by simp [directMakers]) h hexec
  | run3 axis dir split => exact memoryForm_direct (make := .run3) (by simp [directMakers]) h hexec
  | run5 axis dir split => exact memoryForm_direct (make := .run5) (by simp [directMakers]) h hexec

theorem memoryForm_hostWriteCtrl {offset : Nat} {v : Reg} {s t : State} (h : MemoryForm s)
    (hw : hostWriteCtrl offset v s = .next t) : MemoryForm t := by
  unfold hostWriteCtrl at hw
  split at hw
  · cases hw
  · split at hw
    · exact Host.Outcome.next.inj hw ▸ h
    · split at hw
      · unfold runCommand at hw
        split at hw
        · exact memoryForm_exec (s := issue v s) h hw
        · exact Host.Outcome.next.inj hw ▸ h
      · obtain ⟨g, hg, -⟩ := writeArg_frame offset v s
        rw [hg] at hw
        exact Host.Outcome.next.inj hw ▸ h

theorem memoryForm_hostWriteSig {index : Nat} {v : Word} {s : State} (h : MemoryForm s) :
    MemoryForm (hostWriteSig index v s) := by
  unfold hostWriteSig
  split_ifs
  · exact h
  · exact ⟨h.1, wf_storeWord _ _ _ h.2⟩
  · exact h

theorem memoryForm_hostStep {a : HostAccess} {s t : State} (h : MemoryForm s) (hstep : hostStep a s = .next t) :
    MemoryForm t := by
  cases a with
  | writeCtrl offset v => exact memoryForm_hostWriteCtrl h hstep
  | readCtrl offset => rw [hostReadCtrl_frame hstep]; exact h
  | writeSig index v => exact Host.Outcome.next.inj hstep ▸ memoryForm_hostWriteSig h
  | readSig index => rw [← Host.Outcome.next.inj hstep, hostReadMemory_frame]; exact h
  | writeTw index v => exact Host.Outcome.next.inj hstep ▸ h
  | readTw index => rw [← Host.Outcome.next.inj hstep, hostReadMemory_frame]; exact h
  | reset => exact Host.Outcome.next.inj hstep ▸ ⟨wf_nil, wf_nil⟩

/-- Settles O58: the next access of the host keeps the form, a command because each of its stores does. -/
theorem stepKeepsMemoryForm : Obligations.StepKeepsMemoryForm := by
  intro s t htw hsig hstep
  cases hhost : s.host with
  | nil =>
    rw [step, hhost] at hstep
    exact Host.Outcome.next.inj hstep ▸ ⟨htw, hsig⟩
  | cons a rest =>
    rw [step_cons hhost] at hstep
    exact memoryForm_hostStep (s := { s with host := rest }) ⟨htw, hsig⟩ hstep

end Sys2Proof.Proofs
end

section
/-! PROOF. Layout, leading dimension, shape and place of the signal never change a result (R239, R66). An engine run on a lot
is an engine run on the line of its values (`lineEngine`), with no memory behind it; each axis of a `TRANSFORM` is a phase of the
schedule that reaches every line along that axis once (`Phase`). So a `TRANSFORM` is a function of the values by their logical
indices (`transformSignal`), in which neither a layout nor an address occurs. -/

namespace Sys2Proof.Proofs

open Sys2Proof Sys2Proof.Machine
open Sys2Proof.Config (Prec Sign TwGen Params)

/-! ### Engines on a line -/

/-- A unit of a line, with the pairs of R141; a stored value is cut to `FLEN` bits, as in a memory. -/
def lineUnit (f : Prec) (g : TwGen) (sign : Sign) (n ni inq nu : Nat) : UnitEnv (Nat → Cpx Word) Word where
  A := fpArith f
  store :=
    { get := fun x u => x (ringIndex n ni inq nu u)
      set := fun x u v => Function.update x (ringIndex n ni inq nu u) (truncWord f v.1, truncWord f v.2) }
  twiddle idx := (twgenCos g f (idx * (n / ni % ni) % ni) ni, twgenSin g f (idx * (n / ni % ni) % ni) ni)
  sign := sign
  ni := ni
  inq := inq

/-- `engineRun` on a line of n values. -/
def lineEngine (f : Prec) (g : TwGen) (sign : Sign) (n : Nat) (b : Prime) (mm : Nat) (x : Nat → Cpx Word) : Nat → Cpx Word :=
  if mm = 0 then x
  else
    loop (n / primeVal b ^ mm) (fun nu =>
      runPasses (lineUnit f g sign n (primeVal b ^ mm) (n / primeVal b ^ mm) nu) (passList b mm) 1) x

/-- `dispatchCall` on a line along an axis. -/
def lineCall (f : Prec) (g : TwGen) (sign : Sign) (ax : AxisPlan) (x : Nat → Cpx Word) : Nat → Cpx Word :=
  lineEngine f g sign ax.n.toNat .five ax.r.toNat
    (lineEngine f g sign ax.n.toNat .three ax.q.toNat (lineEngine f g sign ax.n.toNat .two ax.p.toNat x))

/-! ### A lot that holds a line -/

/-- Lot l of a batch holds the values of a line. -/
def LotHolds (f : Prec) (d : EngineDesc) (l : Nat) (m : Memory) (x : Nat → Cpx Word) : Prop :=
  ∀ t, t < d.n → wordAt f m (d.A + (t * d.incw + l * d.jumpw)) = some (x t).1 ∧
    wordAt f m (d.B + (t * d.incw + l * d.jumpw)) = some (x t).2

section

variable {f : Prec} {g : TwGen} {d : EngineDesc} {l : Nat} {m m' tw : Memory} {x : Nat → Cpx Word}

theorem LotHolds.congr (h : LotHolds f d l m x) (hm : AgreeOn f (lotWords d l) m' m) : LotHolds f d l m' x := by
  intro t ht
  rw [hm _ (mem_lotWords.2 ⟨t, ht, by simp [descWords]⟩), hm _ (mem_lotWords.2 ⟨t, ht, by simp [descWords]⟩)]
  exact h t ht

/-- Storing an element of a lot without repeated words updates the line. -/
theorem LotHolds.store (h : LotHolds f d l m x) (hnd : (lotWords d l).Nodup) {k : Nat} (hk : k < d.n) (v : Cpx Word) :
    LotHolds f d l
      (storeWord f (storeWord f m (d.A + (k * d.incw + l * d.jumpw)) v.1) (d.B + (k * d.incw + l * d.jumpw)) v.2)
      (Function.update x k (truncWord f v.1, truncWord f v.2)) := by
  obtain ⟨hpair, hapart⟩ := List.nodup_flatMap.1 hnd
  intro t ht
  by_cases htk : t = k
  · subst htk
    have hne : d.A + (t * d.incw + l * d.jumpw) ≠ d.B + (t * d.incw + l * d.jumpw) := by
      simpa [descWords] using hpair t (List.mem_range.2 ht)
    rw [Function.update_self, wordAt_storeWord_ne f _ _ hne, wordAt_storeWord_same, wordAt_storeWord_same]
    exact ⟨rfl, rfl⟩
  · have hsymm : Std.Symm (Function.onFun List.Disjoint (descWords d l)) := ⟨fun _ _ h => h.symm⟩
    have hdisj : (descWords d l t).Disjoint (descWords d l k) :=
      hapart.forall (List.mem_range.2 ht) (List.mem_range.2 hk) htk
    have hother : ∀ w ∈ descWords d l t, wordAt f
        (storeWord f (storeWord f m (d.A + (k * d.incw + l * d.jumpw)) v.1) (d.B + (k * d.incw + l * d.jumpw)) v.2) w =
          wordAt f m w := fun w hw => by
      rw [wordAt_storeWord_ne f _ _ fun he => hdisj hw (by simp [he, descWords]),
        wordAt_storeWord_ne f _ _ fun he => hdisj hw (by simp [he, descWords])]
    rw [Function.update_of_ne htk, hother _ (by simp [descWords]), hother _ (by simp [descWords])]
    exact h t ht

/-- A unit of a lot does what the unit of its line does. -/
theorem unitSim_line (free : Nat) {b : Prime} {mm T : Nat} (inq nu : Nat) (hn : 0 < d.n) (hnd : (lotWords d l).Nodup)
    (htable : holdsGroup f g tw d.n (primeVal b) mm T) :
    UnitSim (unitEnv f free tw d T (primeVal b ^ mm) inq l nu) (lineUnit f g d.sign d.n (primeVal b ^ mm) inq nu)
      (LotHolds f d l) where
  arith := rfl
  twiddle idx _ hidx := by
    obtain ⟨hcos, hsin⟩ := htable idx hidx
    simp only [unitEnv, lineUnit, twiddlePair, loadWord, hcos, hsin]
  sign := rfl
  ni := rfl
  inq := rfl
  get m x u h := by
    obtain ⟨hre, him⟩ := h _ (ringIndex_lt (primeVal b ^ mm) inq nu u hn)
    simp only [unitEnv, unitStore, lineUnit, loadWord, hre, him]
  set m x u v h := h.store hnd (ringIndex_lt (primeVal b ^ mm) inq nu u hn) v

theorem engineRun_lotDesc_eq (f : Prec) (free : Nat) (tw : Memory) (d : EngineDesc) (l : Nat) (b : Prime) {mm : Nat} (T : Nat)
    (m : Memory) (hmm : mm ≠ 0) :
    engineRun f free tw (lotDesc d l) b mm T m = loop (d.n / primeVal b ^ mm) (fun nu =>
      runPasses (unitEnv f free tw d T (primeVal b ^ mm) (d.n / primeVal b ^ mm) l nu) (passList b mm) 1) m := by
  rw [engineRun, if_neg hmm, show (lotDesc d l).lot = 1 from rfl, loop_succ, loop_zero]
  simp only [unitEnv_lotDesc]
  rfl

/-- What an engine leaves in a lot apart from the others is what it makes of the lot's line. -/
theorem LotHolds.engineRun (h : LotHolds f d l m x) (free : Nat) {b : Prime} {mm T : Nat} (hn : 0 < d.n) (hl : l < d.lot)
    (hapart : LotApart d l) (hnd : (lotWords d l).Nodup) (htable : holdsGroup f g tw d.n (primeVal b) mm T) :
    LotHolds f d l (engineRun f free tw d b mm T m) (lineEngine f g d.sign d.n b mm x) := by
  refine LotHolds.congr ?_ (engineRun_agree_lotDesc f free tw b mm T hn hl hapart fun _ _ => rfl)
  unfold lineEngine
  split
  · next h0 =>
    rw [h0, engineRun_zero]
    exact h
  · next hmm =>
    rw [engineRun_lotDesc_eq f free tw d l b T m hmm]
    exact loop_sim _ h fun nu _ _ _ h => runPasses_sim (unitSim_line free _ nu hn hnd htable) _ Nat.one_pos h

theorem LotHolds.dispatchCall (h : LotHolds f d l m x) (free : Nat) {ax : AxisPlan} (hax : d.n = ax.n.toNat) (hn : 0 < d.n)
    (hl : l < d.lot) (hapart : LotApart d l) (hnd : (lotWords d l).Nodup) (htable : holdsTable f g tw ax) :
    LotHolds f d l (dispatchCall f free tw ax d m) (lineCall f g d.sign ax x) := by
  obtain ⟨h2, h3, h5⟩ := htable
  unfold lineCall
  rw [← hax] at h2 h3 h5 ⊢
  exact ((h.engineRun free hn hl hapart hnd h2).engineRun free hn hl hapart hnd h3).engineRun free hn hl hapart hnd h5

end

/-! ### The calls of a schedule -/

/-- A call of a schedule as a request of its own. -/
def callRequest (pl : Plan) (sh : Shape) (sign : Sign) (c : Call) : Request :=
  { axis := planAxis pl c.axis, sign := sign, shape := { sh with A := sh.A + sh.sc * c.off, B := sh.B + sh.sc * c.off },
    inc := c.inc, jump := c.jump, lot := c.lot }

theorem requestDesc_callRequest (pl : Plan) (sh : Shape) (sign : Sign) (c : Call) :
    requestDesc (callRequest pl sh sign c) = callDesc pl sh sign c := rfl

/-- The footprints of the calls, one after another. -/
def callsWords (pl : Plan) (sh : Shape) (sign : Sign) (cs : List Call) : List Nat :=
  cs.flatMap fun c => requestWords (callRequest pl sh sign c)

theorem callsWords_cons (pl : Plan) (sh : Shape) (sign : Sign) (c : Call) (cs : List Call) :
    callsWords pl sh sign (c :: cs) = requestWords (callRequest pl sh sign c) ++ callsWords pl sh sign cs := rfl

theorem callDesc_word (sh : Shape) (c : Call) (t l X : Nat) :
    X + sh.sc * c.off + (t * (sh.sc * c.inc) + l * (sh.sc * c.jump)) = X + sh.sc * (c.off + (t * c.inc + l * c.jump)) := by
  ring

theorem descWords_callDesc (pl : Plan) (sh : Shape) (sign : Sign) (c : Call) (l t : Nat) :
    descWords (callDesc pl sh sign c) l t = elementWords sh [c.off + (t * c.inc + l * c.jump)] := by
  simp only [descWords, callDesc, callDesc_word]
  rfl

theorem mem_requestWords {r : Request} {w : Nat} :
    w ∈ requestWords r ↔ ∃ l, l < r.lot ∧ w ∈ lotWords (requestDesc r) l := by
  simp only [requestWords_eq_lots, List.mem_flatMap, List.mem_range]

/-- A call leaves the words outside its footprint alone. -/
theorem dispatchCall_agree_outside (f : Prec) (free : Nat) (tw : Memory) (ax : AxisPlan) {r : Request} {words : List Nat}
    (m : Memory) (h : words.Disjoint (requestWords r)) :
    AgreeOn f words (dispatchCall f free tw ax (requestDesc r) m) m := by
  refine dispatchCall_keeps (AgreeOn f words · m) f free tw ax _ (fun _ _ => rfl) fun t ht l hl m' v hm => ?_
  have hout : ∀ w ∈ descWords (requestDesc r) l t, w ∉ words := fun w hw hwords =>
    h hwords (mem_requestWords.2 ⟨l, hl, mem_lotWords.2 ⟨t, ht, hw⟩⟩)
  exact ⟨agreeOn_storeWord_outside v (hout _ (by simp [descWords])) hm,
    agreeOn_storeWord_outside v (hout _ (by simp [descWords])) hm⟩

section

variable {f : Prec} {g : TwGen} {free : Nat} {tw : Memory} {pl : Plan} {sh : Shape} {sign : Sign}

theorem runCalls_append (cs cs' : List Call) (m : Memory) :
    runCalls f free tw pl sh sign (cs ++ cs') m =
      runCalls f free tw pl sh sign cs' (runCalls f free tw pl sh sign cs m) := by
  induction cs generalizing m with
  | nil => rfl
  | cons c cs ih => exact ih _

theorem runCalls_agree_outside {cs : List Call} {words : List Nat} (m : Memory)
    (h : words.Disjoint (callsWords pl sh sign cs)) : AgreeOn f words (runCalls f free tw pl sh sign cs m) m := by
  induction cs generalizing m with
  | nil => exact fun _ _ => rfl
  | cons c cs ih =>
    obtain ⟨hc, hcs⟩ := List.disjoint_append_right.1 h
    intro w hw
    exact (ih _ hcs w hw).trans
      (dispatchCall_agree_outside f free tw _ (r := callRequest pl sh sign c) m hc w hw)

/-- Where the footprints of the calls have no word twice, each lot of each call ends up with what its line becomes. -/
theorem LotHolds.runCalls {cs : List Call} (hnd : (callsWords pl sh sign cs).Nodup) {c : Call} (hc : c ∈ cs)
    (htable : holdsTable f g tw (planAxis pl c.axis)) (hn : 0 < (planAxis pl c.axis).n.toNat) {l : Nat} (hl : l < c.lot)
    {m : Memory} {x : Nat → Cpx Word} (h : LotHolds f (callDesc pl sh sign c) l m x) :
    LotHolds f (callDesc pl sh sign c) l (runCalls f free tw pl sh sign cs m)
      (lineCall f g sign (planAxis pl c.axis) x) := by
  have hsub : lotWords (callDesc pl sh sign c) l ⊆ requestWords (callRequest pl sh sign c) := fun w hw =>
    mem_requestWords.2 ⟨l, hl, hw⟩
  induction cs generalizing m with
  | nil => cases hc
  | cons c0 cs ih =>
    rw [callsWords_cons] at hnd
    obtain ⟨hnd0, hndcs, hdisj⟩ := List.nodup_append'.1 hnd
    rcases List.mem_cons.1 hc with rfl | hc
    · refine LotHolds.congr ?_ (runCalls_agree_outside (cs := cs) _ (List.disjoint_of_subset_left hsub hdisj))
      have hlot := hnd0
      rw [requestWords_eq_lots, List.nodup_flatMap] at hlot
      exact h.dispatchCall free rfl hn hl (lotApart_of_nodup hnd0 hl) (hlot.1 l (List.mem_range.2 hl)) htable
    · refine ih hndcs hc (h.congr (dispatchCall_agree_outside f free tw _ (r := callRequest pl sh sign c0) m ?_))
      exact fun w hw hw0 => hdisj hw0 (List.mem_flatMap.2 ⟨c, hc, hsub hw⟩)

end

/-! ### The phases of a schedule -/

/-- A logical index, as the index along each axis. -/
abbrev LogicalIndex := BitVec 2 → Nat

def IndexInside (n1 n2 n3 : Nat) (i : LogicalIndex) : Prop := i 1#2 < n1 ∧ i 2#2 < n2 ∧ i 3#2 < n3

/-- The logical element (i1, i2, i3). -/
def logicalIndex (i1 i2 i3 : Nat) : LogicalIndex := lengthOf i1 i2 i3

section

variable {n1 n2 n3 : Nat}

theorem lengthOf_one : lengthOf n1 n2 n3 1#2 = n1 := rfl

theorem lengthOf_two : lengthOf n1 n2 n3 2#2 = n2 := rfl

theorem lengthOf_three : lengthOf n1 n2 n3 3#2 = n3 := rfl

theorem IndexInside.lt {i : LogicalIndex} (h : IndexInside n1 n2 n3 i) {a : BitVec 2} (ha : a ≠ 0#2) :
    i a < lengthOf n1 n2 n3 a := by
  obtain ⟨h1, h2, h3⟩ := h
  rcases naxes_cases ha with rfl | rfl | rfl
  · exact h1
  · exact h2
  · exact h3

/-- The indices along a line are those of logical elements. -/
theorem IndexInside.update {i : LogicalIndex} (h : IndexInside n1 n2 n3 i) {a : BitVec 2} (ha : a ≠ 0#2) {t : Nat}
    (ht : t < lengthOf n1 n2 n3 a) : IndexInside n1 n2 n3 (Function.update i a t) := by
  obtain ⟨h1, h2, h3⟩ := h
  rcases naxes_cases ha with rfl | rfl | rfl
  · exact ⟨ht, h2, h3⟩
  · exact ⟨h1, ht, h3⟩
  · exact ⟨h1, h2, ht⟩

end

/-- The calls run over every line along axis a: each such line is a lot of one of them, and there are not more lots than
lines. -/
structure Phase (naxes : BitVec 2) (rm : Bool) (n1 n2 n3 ld : Nat) (a : BitVec 2) (cs : List Call) : Prop where
  axis : ∀ c ∈ cs, c.axis = a
  covers : ∀ i, IndexInside n1 n2 n3 i → ∃ c ∈ cs, ∃ l, l < c.lot ∧ ∀ t,
    elementIndex naxes rm n2 ld (Function.update i a t 1#2) (Function.update i a t 2#2) (Function.update i a t 3#2) =
      c.off + (t * c.inc + l * c.jump)
  lots : (cs.map Call.lot).sum * lengthOf n1 n2 n3 a = n1 * n2 * n3

/-- The axes in the order of the schedule, the last axis first (R232). -/
def axesDown (naxes : BitVec 2) : List (BitVec 2) :=
  match naxes.toNat with
  | 1 => [1#2]
  | 2 => [2#2, 1#2]
  | _ => [3#2, 2#2, 1#2]

section

variable {naxes : BitVec 2} {rm : Bool} {n1 n2 n3 ld : Nat}

/-- One call over all lines. -/
theorem Phase.single {a : BitVec 2} {off inc jump K : Nat} (lots : K * lengthOf n1 n2 n3 a = n1 * n2 * n3)
    (covers : ∀ i, IndexInside n1 n2 n3 i → ∃ l, l < K ∧ ∀ t,
      elementIndex naxes rm n2 ld (Function.update i a t 1#2) (Function.update i a t 2#2) (Function.update i a t 3#2) =
        off + (t * inc + l * jump)) :
    Phase naxes rm n1 n2 n3 ld a [{ axis := a, off := off, inc := inc, jump := jump, lot := K }] where
  axis := by simp
  covers i hi := ⟨_, List.mem_singleton.2 rfl, covers i hi⟩
  lots := by simpa using lots

/-- A call for each of J slices, of K lines each. -/
theorem Phase.slices {a : BitVec 2} {J K inc jump : Nat} {off : Nat → Nat} (lots : J * K * lengthOf n1 n2 n3 a = n1 * n2 * n3)
    (covers : ∀ i, IndexInside n1 n2 n3 i → ∃ j, j < J ∧ ∃ l, l < K ∧ ∀ t,
      elementIndex naxes rm n2 ld (Function.update i a t 1#2) (Function.update i a t 2#2) (Function.update i a t 3#2) =
        off j + (t * inc + l * jump)) :
    Phase naxes rm n1 n2 n3 ld a
      ((List.range J).map fun j => { axis := a, off := off j, inc := inc, jump := jump, lot := K }) where
  axis c hc := by
    obtain ⟨j, -, rfl⟩ := List.mem_map.1 hc
    rfl
  covers i hi := by
    obtain ⟨j, hj, h⟩ := covers i hi
    exact ⟨_, List.mem_map_of_mem (List.mem_range.2 hj), h⟩
  lots := by simpa [Function.comp_def] using lots

theorem schedule_one_phases : ∃ phases, schedule 1#2 rm n1 1 1 ld = phases.flatten ∧
    List.Forall₂ (Phase 1#2 rm n1 1 1 ld) (axesDown 1#2) phases := by
  refine ⟨[[_]], rfl, .cons (Phase.single ?_ fun i _ => ⟨0, Nat.one_pos, fun t => ?_⟩) .nil⟩
  · simp [lengthOf_one]
  · simp only [elementIndex_one, Function.update_apply, BitVec.reduceEq, reduceIte]; ring

theorem schedule_two_phases : ∃ phases, schedule 2#2 rm n1 n2 1 ld = phases.flatten ∧
    List.Forall₂ (Phase 2#2 rm n1 n2 1 ld) (axesDown 2#2) phases := by
  cases rm with
  | false =>
    refine ⟨[[_], [_]], rfl, .cons (Phase.single ?_ fun i ⟨h1, _, _⟩ => ⟨i 1#2, h1, fun t => ?_⟩)
      (.cons (Phase.single ?_ fun i ⟨_, h2, _⟩ => ⟨i 2#2, h2, fun t => ?_⟩) .nil)⟩
    · rw [lengthOf_two, Nat.mul_one]
    · simp only [elementIndex_two_columns, Function.update_apply, BitVec.reduceEq, reduceIte]; ring
    · rw [lengthOf_one, Nat.mul_one, Nat.mul_comm]
    · simp only [elementIndex_two_columns, Function.update_apply, BitVec.reduceEq, reduceIte]; ring
  | true =>
    refine ⟨[[_], [_]], rfl, .cons (Phase.single ?_ fun i ⟨h1, _, _⟩ => ⟨i 1#2, h1, fun t => ?_⟩)
      (.cons (Phase.single ?_ fun i ⟨_, h2, _⟩ => ⟨i 2#2, h2, fun t => ?_⟩) .nil)⟩
    · rw [lengthOf_two, Nat.mul_one]
    · simp only [elementIndex_two_rows, Function.update_apply, BitVec.reduceEq, reduceIte]; ring
    · rw [lengthOf_one, Nat.mul_one, Nat.mul_comm]
    · simp only [elementIndex_two_rows, Function.update_apply, BitVec.reduceEq, reduceIte]; ring

theorem schedule_three_columns : schedule 3#2 false n1 n2 n3 ld =
    [(List.range n2).map fun i2 => { axis := 3#2, off := i2 * ld, inc := ld * n2, jump := 1, lot := n1 },
      (List.range n3).map fun i3 => { axis := 2#2, off := i3 * ld * n2, inc := ld, jump := 1, lot := n1 },
      [{ axis := 1#2, off := 0, inc := 1, jump := ld, lot := n2 * n3 }]].flatten := by
  simp [schedule]

theorem schedule_three_rows : schedule 3#2 true n1 n2 n3 ld =
    [[{ axis := 3#2, off := 0, inc := 1, jump := ld, lot := n1 * n2 }],
      (List.range n1).map fun i1 => { axis := 2#2, off := i1 * n2 * ld, inc := ld, jump := 1, lot := n3 },
      (List.range n2).map fun i2 => { axis := 1#2, off := i2 * ld, inc := n2 * ld, jump := 1, lot := n3 }].flatten := by
  simp [schedule]

theorem schedule_three_phases : ∃ phases, schedule 3#2 rm n1 n2 n3 ld = phases.flatten ∧
    List.Forall₂ (Phase 3#2 rm n1 n2 n3 ld) (axesDown 3#2) phases := by
  cases rm with
  | false =>
    refine ⟨_, schedule_three_columns,
      .cons (Phase.slices ?_ fun i ⟨h1, h2, _⟩ => ⟨i 2#2, h2, i 1#2, h1, fun t => ?_⟩)
      (.cons (Phase.slices ?_ fun i ⟨h1, _, h3⟩ => ⟨i 3#2, h3, i 1#2, h1, fun t => ?_⟩)
      (.cons (Phase.single ?_ fun i ⟨_, h2, h3⟩ => ⟨i 3#2 * n2 + i 2#2, ?_, fun t => ?_⟩) .nil))⟩
    · rw [lengthOf_three]; ring
    · simp only [elementIndex_three_columns, Function.update_apply, BitVec.reduceEq, reduceIte]; ring
    · rw [lengthOf_two]; ring
    · simp only [elementIndex_three_columns, Function.update_apply, BitVec.reduceEq, reduceIte]; ring
    · rw [lengthOf_one]; ring
    · rw [Nat.mul_comm n2]
      exact rowColumn_lt h3 h2
    · simp only [elementIndex_three_columns, Function.update_apply, BitVec.reduceEq, reduceIte]; ring
  | true =>
    refine ⟨_, schedule_three_rows,
      .cons (Phase.single ?_ fun i ⟨h1, h2, _⟩ => ⟨i 1#2 * n2 + i 2#2, rowColumn_lt h1 h2, fun t => ?_⟩)
      (.cons (Phase.slices ?_ fun i ⟨h1, _, h3⟩ => ⟨i 1#2, h1, i 3#2, h3, fun t => ?_⟩)
      (.cons (Phase.slices ?_ fun i ⟨_, h2, h3⟩ => ⟨i 2#2, h2, i 3#2, h3, fun t => ?_⟩) .nil))⟩
    · rw [lengthOf_three]
    · simp only [elementIndex_three_rows, Function.update_apply, BitVec.reduceEq, reduceIte]; ring
    · rw [lengthOf_two]; ring
    · simp only [elementIndex_three_rows, Function.update_apply, BitVec.reduceEq, reduceIte]; ring
    · rw [lengthOf_one]; ring
    · simp only [elementIndex_three_rows, Function.update_apply, BitVec.reduceEq, reduceIte]; ring

/-- The schedule is a phase for each axis, the last axis first (R232 to R235). -/
theorem schedule_phases (hn : naxes ≠ 0#2) (hone : naxes = 1#2 → n2 = 1 ∧ n3 = 1) (htwo : naxes = 2#2 → n3 = 1) :
    ∃ phases, schedule naxes rm n1 n2 n3 ld = phases.flatten ∧
      List.Forall₂ (Phase naxes rm n1 n2 n3 ld) (axesDown naxes) phases := by
  rcases naxes_cases hn with rfl | rfl | rfl
  · obtain ⟨rfl, rfl⟩ := hone rfl
    exact schedule_one_phases
  · obtain rfl := htwo rfl
    exact schedule_two_phases
  · exact schedule_three_phases

/-! ### The footprint of a phase has no word twice -/

theorem elementWords_length (sh : Shape) (es : List Nat) : (elementWords sh es).length = es.length * 2 := by
  simp [elementWords, List.length_flatMap]

theorem transformElements_length : (transformElements naxes rm n1 n2 n3 ld).length = n1 * n2 * n3 := by
  simp [transformElements, List.length_flatMap, Nat.mul_assoc]

theorem requestWords_length (r : Request) : (requestWords r).length = r.lot * r.axis.n.toNat * 2 := by
  simp [requestWords, elementWords_length, directElements, List.length_flatMap]

theorem callsWords_length {pl : Plan} {sh : Shape} {sign : Sign} {a : BitVec 2} {cs : List Call} (h : ∀ c ∈ cs, c.axis = a) :
    (callsWords pl sh sign cs).length = (cs.map Call.lot).sum * (planAxis pl a).n.toNat * 2 := by
  induction cs with
  | nil => simp [callsWords]
  | cons c cs ih =>
    obtain ⟨hc, hcs⟩ := List.forall_mem_cons.1 h
    rw [callsWords_cons, List.length_append, ih hcs, requestWords_length, ← hc]
    simp only [callRequest, List.map_cons, List.sum_cons]
    ring

/-- A phase reaches every word of the signal, and has no more words than the signal; so where the signal has no word twice,
neither has the phase. -/
theorem Phase.callsWords_nodup {pl : Plan} {sh : Shape} {sign : Sign} {a : BitVec 2} {cs : List Call}
    (h : Phase naxes rm n1 n2 n3 ld a cs) (ha : a ≠ 0#2) (hn : (planAxis pl a).n.toNat = lengthOf n1 n2 n3 a)
    (hnd : (elementWords sh (transformElements naxes rm n1 n2 n3 ld)).Nodup) : (callsWords pl sh sign cs).Nodup := by
  have hsub : elementWords sh (transformElements naxes rm n1 n2 n3 ld) ⊆ callsWords pl sh sign cs := by
    intro w hw
    obtain ⟨e, he, hw⟩ := mem_elementWords.1 hw
    obtain ⟨i1, h1, i2, h2, i3, h3, rfl⟩ := mem_transformElements.1 he
    have hin : IndexInside n1 n2 n3 (logicalIndex i1 i2 i3) := ⟨h1, h2, h3⟩
    obtain ⟨c, hc, l, hl, hcov⟩ := h.covers _ hin
    have hword := hcov (logicalIndex i1 i2 i3 a)
    rw [Function.update_eq_self] at hword
    refine List.mem_flatMap.2 ⟨c, hc, mem_requestWords.2 ⟨l, hl, mem_lotWords.2 ⟨logicalIndex i1 i2 i3 a, ?_, ?_⟩⟩⟩
    · exact (hin.lt ha).trans_eq (by rw [← hn, ← h.axis c hc]; rfl)
    · rw [requestDesc_callRequest, descWords_callDesc, ← hword]
      exact mem_elementWords.2 ⟨_, List.mem_singleton.2 rfl, hw⟩
  have hlen : (callsWords pl sh sign cs).length ≤ (elementWords sh (transformElements naxes rm n1 n2 n3 ld)).length := by
    rw [callsWords_length h.axis, hn, h.lots, elementWords_length, transformElements_length]
  exact ((List.subperm_of_subset hnd hsub).perm_of_length_le hlen).nodup_iff.1 hnd

end

/-! ### A `TRANSFORM` as a function of the values by their logical indices -/

/-- The values of a signal by the logical indices of its elements. -/
abbrev Signal := LogicalIndex → Cpx Word

/-- Every line along axis a is replaced by what T makes of it. -/
def alongAxis (a : BitVec 2) (T : (Nat → Cpx Word) → Nat → Cpx Word) (Z : Signal) : Signal :=
  fun i => T (fun t => Z (Function.update i a t)) (i a)

/-- The dispatcher calls of the plan along the axes of a list, one axis after another. -/
def alongAxes (par : Params) (pl : Plan) (sign : Sign) (axes : List (BitVec 2)) (Z : Signal) : Signal :=
  axes.foldl (fun Z a => alongAxis a (lineCall par.prec par.twgen sign (planAxis pl a)) Z) Z

/-- What a `TRANSFORM` makes of a signal. -/
def transformSignal (par : Params) (pl : Plan) (sign : Sign) (Z : Signal) : Signal :=
  alongAxes par pl sign (axesDown pl.naxes) Z

/-- Each logical element of the signal that the operands of `s` describe holds its value in the memory. -/
def SignalHolds (s : State) (split : Bool) (m : Memory) (Z : Signal) : Prop :=
  ∀ i, IndexInside (axisLength s.plan 1#2) (axisLength s.plan 2#2) (axisLength s.plan 3#2) i →
    holdsElement s split m (planElement s (i 1#2) (i 2#2) (i 3#2)) (Z i)

section

variable {s : State} {split : Bool} {m : Memory} {Z : Signal} {sign : Sign}

theorem SignalHolds.written (h : SignalHolds s split m Z) : ∀ w ∈ planWords split s, wordAt s.par.prec m w ≠ none := by
  intro w hw
  obtain ⟨e, he, hw⟩ := mem_elementWords.1 hw
  obtain ⟨i1, h1, i2, h2, i3, h3, rfl⟩ := mem_transformElements.1 he
  obtain ⟨hre, him⟩ := h (logicalIndex i1 i2 i3) ⟨h1, h2, h3⟩
  rcases hw with rfl | rfl
  · exact ne_of_eq_of_ne hre (Option.some_ne_none _)
  · exact ne_of_eq_of_ne him (Option.some_ne_none _)

/-- A phase of the schedule runs the dispatcher call of its axis on every line along it. -/
theorem SignalHolds.phase (h : SignalHolds s split m Z) {a : BitVec 2} {cs : List Call}
    (hphase : Phase s.plan.naxes s.rowMajor (axisLength s.plan 1#2) (axisLength s.plan 2#2) (axisLength s.plan 3#2)
      s.leadDim.toNat a cs)
    (ha : a ≠ 0#2) (hle : a ≤ s.plan.naxes) (hnd : (planWords split s).Nodup)
    (htable : holdsTable s.par.prec s.par.twgen s.tw (planAxis s.plan a)) :
    SignalHolds s split (runCalls s.par.prec s.free s.tw s.plan (signalShape split s) sign cs m)
      (alongAxis a (lineCall s.par.prec s.par.twgen sign (planAxis s.plan a)) Z) := by
  have hn : (planAxis s.plan a).n.toNat =
      lengthOf (axisLength s.plan 1#2) (axisLength s.plan 2#2) (axisLength s.plan 3#2) a := by
    rw [lengthOf_axisLength ha, axisLength_configured hle]
  intro i hi
  obtain ⟨c, hc, l, hl, hcov⟩ := hphase.covers i hi
  obtain rfl := hphase.axis c hc
  have hia : i c.axis < (planAxis s.plan c.axis).n.toNat := (hi.lt ha).trans_eq hn.symm
  have hline : LotHolds s.par.prec (callDesc s.plan (signalShape split s) sign c) l m
      fun t => Z (Function.update i c.axis t) := by
    intro t ht
    have hel := h _ (hi.update ha (ht.trans_eq hn))
    simp only [callDesc, callDesc_word, ← hcov t]
    exact hel
  have hafter := (hline.runCalls (free := s.free) (hphase.callsWords_nodup ha hn hnd) hc htable (by omega) hl) _ hia
  simp only [callDesc, callDesc_word, ← hcov, Function.update_eq_self] at hafter
  exact hafter

/-- The phases of the axes of a list, one after another. -/
theorem SignalHolds.phases (h : SignalHolds s split m Z) {axes : List (BitVec 2)} {phases : List (List Call)}
    (hphases : List.Forall₂ (Phase s.plan.naxes s.rowMajor (axisLength s.plan 1#2) (axisLength s.plan 2#2)
      (axisLength s.plan 3#2) s.leadDim.toNat) axes phases)
    (haxes : ∀ a ∈ axes, a ≠ 0#2 ∧ a ≤ s.plan.naxes) (hnd : (planWords split s).Nodup)
    (htables : ∀ ax ∈ s.plan.axes, holdsTable s.par.prec s.par.twgen s.tw ax) :
    SignalHolds s split (runCalls s.par.prec s.free s.tw s.plan (signalShape split s) sign phases.flatten m)
      (alongAxes s.par s.plan sign axes Z) := by
  induction hphases generalizing m Z with
  | nil => exact h
  | cons hphase _ ih =>
    obtain ⟨⟨ha, hle⟩, haxes⟩ := List.forall_mem_cons.1 haxes
    rw [List.flatten_cons, runCalls_append]
    exact ih (h.phase hphase ha hle hnd (htables _ (planAxis_mem_axes ha hle))) haxes

theorem mem_axesDown {naxes : BitVec 2} (hn : naxes ≠ 0#2) : ∀ a ∈ axesDown naxes, a ≠ 0#2 ∧ a ≤ naxes := by
  rcases naxes_cases hn with rfl | rfl | rfl <;> decide

/-- On distinct words that all have a value a `TRANSFORM` is the calls of its schedule. -/
theorem runTransform_run (sign : Sign) (hnd : (planWords split s).Nodup)
    (hw : ∀ w ∈ planWords split s, wordAt s.par.prec s.sig w ≠ none) :
    runTransform (signalShape split s) sign s =
      { s with
        sig := runCalls s.par.prec s.free s.tw s.plan (signalShape split s) sign
          (schedule s.plan.naxes s.rowMajor (axisLength s.plan 1#2) (axisLength s.plan 2#2) (axisLength s.plan 3#2)
            s.leadDim.toNat) s.sig } :=
  onSignal_run _ _ s hnd (List.forall_mem_singleton.2 hw)

/-- A `TRANSFORM` that passes its checks, on distinct words that all have a value, leaves in every logical element what
`transformSignal` says. -/
theorem exec_transform_signalHolds {dir : Dir} (hn : s.plan.naxes ≠ 0#2)
    (hdir : directionSign s.par.fwdSign dir = some sign) (hfit : fits s split (planEmax s)) (hnd : (planWords split s).Nodup)
    (htables : ∀ ax ∈ s.plan.axes, holdsTable s.par.prec s.par.twgen s.tw ax) (h : SignalHolds s split s.sig Z) :
    ∃ t, exec (.transform dir split) s = .next t ∧ SignalHolds s split t.sig (transformSignal s.par s.plan sign Z) := by
  obtain ⟨phases, hsched, hphases⟩ := schedule_phases (naxes := s.plan.naxes) (rm := s.rowMajor)
    (n1 := axisLength s.plan 1#2) (n2 := axisLength s.plan 2#2) (n3 := axisLength s.plan 3#2) (ld := s.leadDim.toNat) hn
    (fun h1 => ⟨axisLength_absent (by rw [h1]; decide), axisLength_absent (by rw [h1]; decide)⟩)
    (fun h2 => axisLength_absent (by rw [h2]; decide))
  refine ⟨_, rfl, ?_⟩
  rw [transform_checked hn hdir, if_pos ((inRange_eq s split _).2 hfit), succeed_sig, runTransform_run sign hnd h.written,
    hsched]
  exact h.phases hphases (mem_axesDown hn) hnd htables

end

/-- Settles O46: both commands leave `transformSignal` of the same signal. -/
theorem layoutInvariance : Obligations.LayoutInvariance := by
  intro s s' dir split split' hpar hplan htw _ hn hdir htables _ _ hfit hfit' hnd hnd' hsame
  obtain ⟨sign, hsign⟩ := directionSign_of_direction (fwd := s.par.fwdSign) hdir
  choose! Z hZ using hsame
  have hs : SignalHolds s split s.sig fun i => Z (i 1#2) (i 2#2) (i 3#2) :=
    fun i ⟨h1, h2, h3⟩ => (hZ _ _ _ h1 h2 h3).1
  have hs' : SignalHolds s' split' s'.sig fun i => Z (i 1#2) (i 2#2) (i 3#2) :=
    fun i hi => by
      rw [← hplan] at hi
      obtain ⟨h1, h2, h3⟩ := hi
      exact (hZ _ _ _ h1 h2 h3).2
  obtain ⟨t, ht, hres⟩ := exec_transform_signalHolds hn hsign hfit hnd htables hs
  rw [hpar] at hsign
  rw [hplan] at hn
  rw [hpar, hplan, htw] at htables
  obtain ⟨t', ht', hres'⟩ := exec_transform_signalHolds hn hsign hfit' hnd' htables hs'
  refine ⟨t, t', ht, ht', fun i1 i2 i3 h1 h2 h3 => ⟨_, hres (logicalIndex i1 i2 i3) ⟨h1, h2, h3⟩, ?_⟩⟩
  rw [hpar, hplan]
  rw [hplan] at h1 h2 h3
  exact hres' (logicalIndex i1 i2 i3) ⟨h1, h2, h3⟩

end Sys2Proof.Proofs
end

section
/-! PROOF. Decode and encode (30_encoding.md R91 to R100). A word is its six fields (format C), and `decodeWord` answers by the
row of R96 that its opcode names; the statements about words become statements about their fields. -/

namespace Sys2Proof.Proofs

open Sys2Proof Sys2Proof.Machine

/-! ### A word is its six fields (R91) -/

theorem extractLsb'_one (w : Reg) (i : Nat) : w.extractLsb' i 1 = BitVec.ofBool (w.getLsbD i) := by
  ext j hj
  obtain rfl : j = 0 := by omega
  simp

theorem extractLsb'_one_eq_zero_iff (w : Reg) (i : Nat) : w.extractLsb' i 1 = 0#1 ↔ w.getLsbD i = false := by
  rw [extractLsb'_one]
  cases w.getLsbD i <;> decide

theorem append_fields (w : Reg) :
    fieldZero w ++ BitVec.ofBool (fieldRowMajor w) ++ BitVec.ofBool (fieldSplit w) ++ fieldDir w ++ fieldAxis w ++ fieldOpc w
      = w := by
  unfold fieldZero fieldRowMajor fieldSplit fieldDir fieldAxis fieldOpc
  rw [← extractLsb'_one, ← extractLsb'_one]
  iterate 5 rw [BitVec.extractLsb'_append_extractLsb'_eq_extractLsb' (by rfl)]
  exact BitVec.extractLsb'_eq_self

theorem word_ext_iff {w v : Reg} : w = v ↔
    fieldZero w = fieldZero v ∧ fieldRowMajor w = fieldRowMajor v ∧ fieldSplit w = fieldSplit v ∧ fieldDir w = fieldDir v ∧
    fieldAxis w = fieldAxis v ∧ fieldOpc w = fieldOpc v := by
  refine ⟨by rintro rfl; simp, fun ⟨hzero, hrm, hsplit, hdir, haxis, hopc⟩ => ?_⟩
  rw [← append_fields w, ← append_fields v, hzero, hrm, hsplit, hdir, haxis, hopc]

section

variable (rm split : Bool) (dir axis : BitVec 2) (opc : BitVec 8)

@[simp] theorem fieldOpc_formatC : fieldOpc (formatC rm split dir axis opc) = opc := BitVec.extractLsb'_append_eq_right

@[simp] theorem fieldAxis_formatC : fieldAxis (formatC rm split dir axis opc) = axis := by
  unfold fieldAxis formatC
  rw [BitVec.extractLsb'_append_eq_of_le (by decide)]
  exact BitVec.extractLsb'_append_eq_right

@[simp] theorem fieldDir_formatC : fieldDir (formatC rm split dir axis opc) = dir := by
  unfold fieldDir formatC
  iterate 2 rw [BitVec.extractLsb'_append_eq_of_le (by decide)]
  exact BitVec.extractLsb'_append_eq_right

@[simp] theorem fieldSplit_formatC : fieldSplit (formatC rm split dir axis opc) = split := by
  simp only [fieldSplit, formatC, BitVec.getLsbD_append]
  simp

@[simp] theorem fieldRowMajor_formatC : fieldRowMajor (formatC rm split dir axis opc) = rm := by
  simp only [fieldRowMajor, formatC, BitVec.getLsbD_append]
  simp

@[simp] theorem fieldZero_formatC : fieldZero (formatC rm split dir axis opc) = 0#18 := by
  unfold fieldZero formatC
  iterate 5 rw [BitVec.extractLsb'_append_eq_of_le (by decide)]
  exact BitVec.extractLsb'_eq_self

theorem formatC_eq_iff {w : Reg} : formatC rm split dir axis opc = w ↔
    fieldZero w = 0#18 ∧ fieldRowMajor w = rm ∧ fieldSplit w = split ∧ fieldDir w = dir ∧ fieldAxis w = axis ∧
    fieldOpc w = opc := by
  rw [eq_comm, word_ext_iff]
  simp

end

/-! ### The bits of a direction (R92) -/

@[simp] theorem dirOfBits_bitsOfDir (dir : Dir) : dirOfBits (bitsOfDir dir) = dir := by cases dir <;> rfl

@[simp] theorem bitsOfDir_dirOfBits (b : BitVec 2) : bitsOfDir (dirOfBits b) = b := by revert b; decide

@[simp] theorem exists_eq_bitsOfDir (b : BitVec 2) : ∃ dir, b = bitsOfDir dir := ⟨_, (bitsOfDir_dirOfBits b).symm⟩

/-! ### What the decoder can answer (R96, R97) -/

/-- The rows of the commands that use no field beside `OPC`. -/
def plainRows : List (BitVec 8 × Instr) :=
  [(0x00#8, .nop), (0x01#8, .factorize), (0x02#8, .createPlan1), (0x03#8, .createPlan2), (0x04#8, .createPlan3),
    (0x06#8, .getLayout)]

/-- The rows of the direct commands. -/
def directRows : List (BitVec 8 × (BitVec 2 → Dir → Bool → Instr)) :=
  [(0x08#8, .dispatch), (0x09#8, .run2), (0x0A#8, .run3), (0x0B#8, .run5)]

/-- What `decodeWord` can answer for w, by the row that the opcode names. -/
inductive DecodesTo (w : Reg) : Except Illegal Instr → Prop where
  | reservedBits (hzero : fieldZero w ≠ 0#18) : DecodesTo w (.error .reservedBits)
  | reservedOpcode (hopc : 0x0C ≤ (fieldOpc w).toNat) : DecodesTo w (.error .reservedOpcode)
  | plain {opc : BitVec 8} {i : Instr} (hrow : (opc, i) ∈ plainRows) (hzero : fieldZero w = 0#18) (hopc : fieldOpc w = opc) :
      DecodesTo w (decodePlain w i)
  | setLayout (hzero : fieldZero w = 0#18) (hopc : fieldOpc w = 0x05#8) : DecodesTo w (decodeSetLayout w)
  | transform (hzero : fieldZero w = 0#18) (hopc : fieldOpc w = 0x07#8) : DecodesTo w (decodeTransform w)
  | direct {opc : BitVec 8} {make : BitVec 2 → Dir → Bool → Instr} (hrow : (opc, make) ∈ directRows)
      (hzero : fieldZero w = 0#18) (hopc : fieldOpc w = opc) : DecodesTo w (decodeDirect w make)

theorem decodesTo_decodeWord (w : Reg) : DecodesTo w (decodeWord w) := by
  have opcode {k : Nat} (h : (fieldOpc w).toNat = k) : fieldOpc w = BitVec.ofNat 8 k := by simp [← h]
  unfold decodeWord
  split
  · next hzero => exact .reservedBits hzero
  next hzero =>
  rw [not_not] at hzero
  split
  case h_6 h => exact .setLayout hzero (opcode h)
  case h_8 h => exact .transform hzero (opcode h)
  case h_13 =>
    refine .reservedOpcode ?_
    simp only [imp_false] at *
    omega
  case h_9 h | h_10 h | h_11 h | h_12 h => exact .direct (by simp [directRows]) hzero (opcode h)
  all_goals next h => exact .plain (by simp [plainRows]) hzero (opcode h)

/-! ### When a row accepts a word -/

section

variable (w : Reg)

theorem decodePlain_eq_ok_iff (i j : Instr) : decodePlain w i = .ok j ↔
    (fieldAxis w = 0#2 ∧ fieldDir w = 0#2 ∧ fieldSplit w = false ∧ fieldRowMajor w = false) ∧ i = j := by
  unfold decodePlain
  split <;> simp [*]

theorem decodeSetLayout_eq_ok_iff (j : Instr) : decodeSetLayout w = .ok j ↔
    (fieldAxis w = 0#2 ∧ fieldDir w = 0#2 ∧ fieldSplit w = false) ∧ .setLayout (fieldRowMajor w) = j := by
  unfold decodeSetLayout
  split <;> simp [*]

theorem decodeTransform_eq_ok_iff (j : Instr) : decodeTransform w = .ok j ↔
    (fieldAxis w = 0#2 ∧ fieldRowMajor w = false) ∧ .transform (dirOfBits (fieldDir w)) (fieldSplit w) = j := by
  unfold decodeTransform
  split <;> simp [*]

theorem decodeDirect_eq_ok_iff (make : BitVec 2 → Dir → Bool → Instr) (j : Instr) : decodeDirect w make = .ok j ↔
    (fieldAxis w ≠ 0#2 ∧ fieldRowMajor w = false) ∧ make (fieldAxis w) (dirOfBits (fieldDir w)) (fieldSplit w) = j := by
  unfold decodeDirect
  split
  · simp [*]
  · split <;> simp [*]

end

/-! ### Each kind of row: the instruction, its encoding and its opcode -/

theorem encode_plainRow {opc : BitVec 8} {i : Instr} (h : (opc, i) ∈ plainRows) :
    i.wf = true ∧ encode i = formatC false false 0#2 0#2 opc := by
  revert h
  exact (by decide : ∀ row ∈ plainRows, row.2.wf = true ∧ encode row.2 = formatC false false 0#2 0#2 row.1) (opc, i)

theorem opc_plainRow {opc : BitVec 8} {i : Instr} (h : (opc, i) ∈ plainRows) : opc.toNat < 7 ∧ opc.toNat ≠ 5 := by
  revert h
  exact (by decide : ∀ row ∈ plainRows, row.1.toNat < 7 ∧ row.1.toNat ≠ 5) (opc, i)

theorem encode_directRow {opc : BitVec 8} {make : BitVec 2 → Dir → Bool → Instr} (h : (opc, make) ∈ directRows) :
    ∀ axis dir split, (make axis dir split).wf = axisOk axis ∧
      encode (make axis dir split) = formatC false split (bitsOfDir dir) axis opc := by
  simp only [directRows, List.mem_cons, Prod.mk.injEq, List.not_mem_nil, or_false] at h
  rcases h with ⟨rfl, rfl⟩ | ⟨rfl, rfl⟩ | ⟨rfl, rfl⟩ | ⟨rfl, rfl⟩
  all_goals exact fun _ _ _ => ⟨rfl, rfl⟩

theorem opc_directRow {opc : BitVec 8} {make : BitVec 2 → Dir → Bool → Instr} (h : (opc, make) ∈ directRows) :
    8 ≤ opc.toNat ∧ opc.toNat < 0x0C :=
  (by decide : ∀ opc ∈ directRows.map Prod.fst, 8 ≤ opc.toNat ∧ opc.toNat < 0x0C) opc (List.mem_map_of_mem h)

@[simp] theorem axisOk_iff {axis : BitVec 2} : axisOk axis = true ↔ axis ≠ 0#2 := by simp [axisOk]

/-! ### Decode and encode agree (R91, R96, R99) -/

theorem decodeWord_encode {i : Instr} (h : i.wf = true) : decodeWord (encode i) = .ok i := by
  cases i with
  | nop | factorize | createPlan1 | createPlan2 | createPlan3 | getLayout => decide
  | setLayout rm => simp [encode, decodeWord, decodeSetLayout]
  | transform dir split => simp [encode, decodeWord, decodeTransform]
  | dispatch axis dir split | run2 axis dir split | run3 axis dir split | run5 axis dir split =>
    have haxis : axis ≠ 0#2 := axisOk_iff.1 h
    simp [encode, decodeWord, decodeDirect, haxis]

theorem encode_of_decodeWord {w : Reg} {i : Instr} (h : decodeWord w = .ok i) : i.wf = true ∧ encode i = w := by
  have hw := decodesTo_decodeWord w
  rw [h] at hw
  generalize hr : Except.ok i = r at hw
  cases hw with
  | reservedBits | reservedOpcode => cases hr
  | plain hrow hzero hopc =>
    obtain ⟨⟨haxis, hdir, hsplit, hrm⟩, rfl⟩ := (decodePlain_eq_ok_iff ..).1 hr.symm
    obtain ⟨hwf, henc⟩ := encode_plainRow hrow
    exact ⟨hwf, henc ▸ (formatC_eq_iff ..).2 ⟨hzero, hrm, hsplit, hdir, haxis, hopc⟩⟩
  | setLayout hzero hopc =>
    obtain ⟨⟨haxis, hdir, hsplit⟩, rfl⟩ := (decodeSetLayout_eq_ok_iff ..).1 hr.symm
    exact ⟨rfl, (formatC_eq_iff ..).2 ⟨hzero, rfl, hsplit, hdir, haxis, hopc⟩⟩
  | transform hzero hopc =>
    obtain ⟨⟨haxis, hrm⟩, rfl⟩ := (decodeTransform_eq_ok_iff ..).1 hr.symm
    exact ⟨rfl, (formatC_eq_iff ..).2 ⟨hzero, hrm, rfl, (bitsOfDir_dirOfBits _).symm, haxis, hopc⟩⟩
  | direct hrow hzero hopc =>
    obtain ⟨⟨haxis, hrm⟩, rfl⟩ := (decodeDirect_eq_ok_iff ..).1 hr.symm
    obtain ⟨hwf, henc⟩ := encode_directRow hrow (fieldAxis w) (dirOfBits (fieldDir w)) (fieldSplit w)
    exact ⟨hwf.trans (axisOk_iff.2 haxis),
      henc ▸ (formatC_eq_iff ..).2 ⟨hzero, hrm, rfl, (bitsOfDir_dirOfBits _).symm, rfl, hopc⟩⟩

/-- Settles O3: the row that decodes w fixes its six fields to those of the encoding, and an encoding's fields pick its row. -/
theorem decodeIffEncode : Obligations.DecodeIffEncode :=
  fun _ _ => ⟨encode_of_decodeWord, fun ⟨hwf, henc⟩ => henc ▸ decodeWord_encode hwf⟩

theorem decodeWord_eq_ok_iff {w : Reg} {i : Instr} : decodeWord w = .ok i ↔ i.wf = true ∧ encode i = w := decodeIffEncode w i

/-- Settles O1: each word is the encoding of its command. -/
theorem exampleWordsDecode : Obligations.ExampleWordsDecode := by
  refine ⟨?_, ?_, ?_, ?_, ?_, ?_, ?_, ?_, ?_, ?_, ?_, ?_, ?_, ?_, ?_, ?_⟩
  all_goals exact decodeWord_eq_ok_iff.2 (by decide)

/-! ### Match and mask (R96) -/

section

variable (w v : Reg)

theorem fieldZero_and_not : fieldZero (w &&& ~~~v) = fieldZero w &&& ~~~fieldZero v := by
  ext i hi
  have hin : 14 + i < 32 := by omega
  simp [fieldZero, hin]

theorem fieldRowMajor_and_not : fieldRowMajor (w &&& ~~~v) = (fieldRowMajor w && !fieldRowMajor v) := by
  simp [fieldRowMajor]

theorem fieldSplit_and_not : fieldSplit (w &&& ~~~v) = (fieldSplit w && !fieldSplit v) := by simp [fieldSplit]

theorem fieldDir_and_not : fieldDir (w &&& ~~~v) = fieldDir w &&& ~~~fieldDir v := by
  unfold fieldDir
  rw [BitVec.extractLsb'_and, BitVec.extractLsb'_not_of_lt (by decide)]

theorem fieldAxis_and_not : fieldAxis (w &&& ~~~v) = fieldAxis w &&& ~~~fieldAxis v := by
  unfold fieldAxis
  rw [BitVec.extractLsb'_and, BitVec.extractLsb'_not_of_lt (by decide)]

theorem fieldOpc_and_not : fieldOpc (w &&& ~~~v) = fieldOpc w &&& ~~~fieldOpc v := by
  unfold fieldOpc
  rw [BitVec.extractLsb'_and, BitVec.extractLsb'_not_of_lt (by decide)]

/-- A mask of R96 leaves out the bits that the row's commands choose; every other bit of the word is that of the match. -/
theorem and_mask_eq_iff (rm split : Bool) (dir axis : BitVec 2) (opc : BitVec 8) :
    w &&& ~~~formatC rm split dir axis 0#8 = formatC false false 0#2 0#2 opc ↔
      fieldZero w = 0#18 ∧ (fieldRowMajor w && !rm) = false ∧ (fieldSplit w && !split) = false ∧
      fieldDir w &&& ~~~dir = 0#2 ∧ fieldAxis w &&& ~~~axis = 0#2 ∧ fieldOpc w = opc := by
  rw [eq_comm, formatC_eq_iff, fieldZero_and_not, fieldRowMajor_and_not, fieldSplit_and_not, fieldDir_and_not,
    fieldAxis_and_not, fieldOpc_and_not]
  simp only [fieldZero_formatC, fieldRowMajor_formatC, fieldSplit_formatC, fieldDir_formatC, fieldAxis_formatC,
    fieldOpc_formatC, BitVec.not_zero, BitVec.and_allOnes]

end

section

variable (w : Reg)

theorem and_three (b : BitVec 2) : b &&& 3#2 = b := BitVec.and_allOnes

theorem decodeWord_plain_iff_mask {opc : BitVec 8} {i : Instr} (hrow : (opc, i) ∈ plainRows) :
    decodeWord w = .ok i ↔ w &&& ~~~formatC false false 0#2 0#2 0#8 = formatC false false 0#2 0#2 opc := by
  obtain ⟨hwf, henc⟩ := encode_plainRow hrow
  rw [and_mask_eq_iff, decodeWord_eq_ok_iff, henc, formatC_eq_iff]
  simp [hwf, and_three]

theorem decodeWord_setLayout_iff_mask : (∃ rm, decodeWord w = .ok (.setLayout rm)) ↔
    w &&& ~~~formatC true false 0#2 0#2 0#8 = formatC false false 0#2 0#2 0x05#8 := by
  simp [and_mask_eq_iff, and_three, decodeWord_eq_ok_iff, Instr.wf, encode, formatC_eq_iff]

theorem decodeWord_transform_iff_mask : (∃ dir split, decodeWord w = .ok (.transform dir split)) ↔
    w &&& ~~~formatC false true 3#2 0#2 0#8 = formatC false false 0#2 0#2 0x07#8 := by
  simp [and_mask_eq_iff, and_three, decodeWord_eq_ok_iff, Instr.wf, encode, formatC_eq_iff]

theorem decodeWord_direct_iff_mask {opc : BitVec 8} {make : BitVec 2 → Dir → Bool → Instr} (hrow : (opc, make) ∈ directRows) :
    (∃ axis dir split, decodeWord w = .ok (make axis dir split)) ↔
      w &&& ~~~formatC false true 3#2 3#2 0#8 = formatC false false 0#2 0#2 opc ∧ fieldAxis w ≠ 0#2 := by
  simp [and_mask_eq_iff, decodeWord_eq_ok_iff, encode_directRow hrow, formatC_eq_iff, and_comm, and_left_comm, and_assoc]

end

/-- Settles O4: the mask of a row leaves out the fields that the row's commands choose. -/
theorem matchAndMaskRows : Obligations.MatchAndMaskRows := fun w =>
  have plain (row : BitVec 8 × Instr) (h : row ∈ plainRows) := decodeWord_plain_iff_mask w h
  have direct (row : BitVec 8 × (BitVec 2 → Dir → Bool → Instr)) (h : row ∈ directRows) := decodeWord_direct_iff_mask w h
  ⟨plain (0x00#8, .nop) (by decide), plain (0x01#8, .factorize) (by decide), plain (0x02#8, .createPlan1) (by decide),
    plain (0x03#8, .createPlan2) (by decide), plain (0x04#8, .createPlan3) (by decide), decodeWord_setLayout_iff_mask w,
    plain (0x06#8, .getLayout) (by decide), decodeWord_transform_iff_mask w,
    direct (0x08#8, .dispatch) (by simp [directRows]), direct (0x09#8, .run2) (by simp [directRows]),
    direct (0x0A#8, .run3) (by simp [directRows]), direct (0x0B#8, .run5) (by simp [directRows])⟩

/-! ### Illegal words (R97, R98) -/

theorem error_iff_not_ok {r : Except Illegal Instr} : (∃ e, r = .error e) ↔ ¬ ∃ i, r = .ok i := by
  cases r <;> simp

section

variable (w : Reg)

theorem decodePlain_error_iff (i : Instr) : (∃ e, decodePlain w i = .error e) ↔
    ¬ (fieldAxis w = 0#2 ∧ fieldDir w = 0#2 ∧ fieldSplit w = false ∧ fieldRowMajor w = false) := by
  rw [error_iff_not_ok]
  simp only [decodePlain_eq_ok_iff, exists_and_left, exists_eq', and_true]

theorem decodeSetLayout_error_iff : (∃ e, decodeSetLayout w = .error e) ↔
    ¬ (fieldAxis w = 0#2 ∧ fieldDir w = 0#2 ∧ fieldSplit w = false) := by
  rw [error_iff_not_ok]
  simp only [decodeSetLayout_eq_ok_iff, exists_and_left, exists_eq', and_true]

theorem decodeTransform_error_iff : (∃ e, decodeTransform w = .error e) ↔ ¬ (fieldAxis w = 0#2 ∧ fieldRowMajor w = false) := by
  rw [error_iff_not_ok]
  simp only [decodeTransform_eq_ok_iff, exists_and_left, exists_eq', and_true]

theorem decodeDirect_error_iff (make : BitVec 2 → Dir → Bool → Instr) : (∃ e, decodeDirect w make = .error e) ↔
    ¬ (fieldAxis w ≠ 0#2 ∧ fieldRowMajor w = false) := by
  rw [error_iff_not_ok]
  simp only [decodeDirect_eq_ok_iff, exists_and_left, exists_eq', and_true]

end

/-- The clauses of R97, by the fields. -/
theorem decodeWord_error_iff (w : Reg) : (∃ e, decodeWord w = .error e) ↔
    0x0C ≤ (fieldOpc w).toNat ∨
    fieldZero w ≠ 0#18 ∨
    (fieldAxis w ≠ 0#2 ∧ (fieldOpc w).toNat < 8) ∨
    (fieldDir w ≠ 0#2 ∧ (fieldOpc w).toNat < 7) ∨
    (fieldSplit w ≠ false ∧ (fieldOpc w).toNat < 7) ∨
    (fieldRowMajor w ≠ false ∧ (fieldOpc w).toNat ≠ 5) ∨
    (fieldAxis w = 0#2 ∧ 8 ≤ (fieldOpc w).toNat ∧ (fieldOpc w).toNat < 0x0C) := by
  have hw := decodesTo_decodeWord w
  generalize decodeWord w = r at hw
  cases hw with
  | reservedBits hzero => exact iff_of_true ⟨_, rfl⟩ (.inr (.inl hzero))
  | reservedOpcode hopc => exact iff_of_true ⟨_, rfl⟩ (.inl hopc)
  | plain hrow hzero hopc =>
    have hrange := opc_plainRow hrow
    rw [decodePlain_error_iff, hopc]
    grind
  | setLayout hzero hopc =>
    rw [decodeSetLayout_error_iff, hopc]
    grind
  | transform hzero hopc =>
    rw [decodeTransform_error_iff, hopc]
    grind
  | direct hrow hzero hopc =>
    have hrange := opc_directRow hrow
    rw [decodeDirect_error_iff, hopc]
    grind

/-- Settles O2: a reserved opcode is a clause of R97, and the zero word is the encoding of `NOP`. -/
theorem reservedOpcodesAreIllegal : Obligations.ReservedOpcodesAreIllegal :=
  ⟨fun w hopc => (decodeWord_error_iff w).2 (.inl hopc), decodeWord_eq_ok_iff.2 (by decide),
    (decodeWord_error_iff _).2 (.inl (by decide))⟩

theorem runCommand_of_error {w : Reg} {e : Illegal} (s : State) (h : decodeWord w = .error e) :
    runCommand w s = .next (raise .illegalCommand (issue w s)) := by
  simp only [runCommand, h]

/-- Settles O5: the clauses are those of the row the opcode names, and a word with an error is raised as soon as it is
issued. -/
theorem illegalCommands : Obligations.IllegalCommands := by
  refine fun w => ⟨?_, fun s rest hhost hidle ⟨e, hdec⟩ => ?_⟩
  · simp only [decodeWord_error_iff, ne_eq, extractLsb'_one_eq_zero_iff]
    rfl
  · rw [step_writeCmd hhost hidle, runCommand_of_error _ hdec]
    rfl

end Sys2Proof.Proofs
end

section
/-! PROOF. The plan commands (40_plan_commands.md). A power of b times a number that b does not divide is stripped of just that
power, which fixes `factor235`; so a length has its exponents or is refused (R121, R122). The registers, the capacity check and
the tables of a new plan are then said once for any list of lengths (R128). -/

namespace Sys2Proof.Proofs

open Sys2Proof Sys2Proof.Machine
open Sys2Proof.Config (Params)

/-! ### Factorization (R122) -/

/-- With fuel enough the whole power of b goes, and nothing else. -/
theorem stripFactor_pow_mul {b m fuel k : Nat} (hb : 0 < b) (hm : ¬ b ∣ m) (hk : k ≤ fuel) :
    stripFactor b fuel (b ^ k * m) = (k, m) := by
  induction fuel generalizing k with
  | zero =>
    obtain rfl : k = 0 := by omega
    simp [stripFactor]
  | succ fuel ih =>
    cases k with
    | zero => simp [stripFactor, ← Nat.dvd_iff_mod_eq_zero, hm]
    | succ k =>
      have hstep : b ^ (k + 1) * m = b * (b ^ k * m) := by ring
      rw [stripFactor, hstep, if_pos (Nat.mul_mod_right ..), Nat.mul_div_cancel_left _ hb, ih (by omega)]

/-- A power inside n needs no more fuel than `stripFuel` gives. -/
theorem exponent_le_stripFuel {b e m n : Nat} (hb : 2 ≤ b) (hn : 1 ≤ n) (h : b ^ e * m ∣ n) : e ≤ stripFuel n := by
  have hle : 2 ^ e ≤ n := (Nat.pow_le_pow_left hb e).trans (Nat.le_of_dvd hn ((Nat.dvd_mul_right ..).trans h))
  have hlog : e ≤ n.log2 := (Nat.le_log2 (by omega)).2 hle
  exact hlog.trans (Nat.le_succ _)

theorem stripFactor_dvd (b fuel n : Nat) : (stripFactor b fuel n).2 ∣ n :=
  Dvd.intro_left _ (stripFactor_mul b fuel n)

/-- What is left of a divisor of n has no factor b any more. -/
theorem stripFactor_not_dvd {b d n : Nat} (hb : 2 ≤ b) (hn : 1 ≤ n) (hd : d ∣ n) :
    ¬ b ∣ (stripFactor b (stripFuel n) d).2 := by
  have hd0 : 0 < d := Nat.pos_of_dvd_of_pos hd hn
  obtain ⟨k, m, hm, rfl⟩ := Nat.exists_eq_pow_mul_and_not_dvd hd0.ne' b (by omega)
  rwa [stripFactor_pow_mul (by omega) hm (exponent_le_stripFuel hb hn hd)]

theorem factor235_rest_coprime {n : Nat} (hn : 1 ≤ n) : Nat.Coprime (factor235 n).rest 30 := by
  have h2 := stripFactor_dvd 2 (stripFuel n) n
  have h3 := stripFactor_dvd 3 (stripFuel n) (stripFactor 2 (stripFuel n) n).2
  have h5 := stripFactor_dvd 5 (stripFuel n) (stripFactor 3 (stripFuel n) (stripFactor 2 (stripFuel n) n).2).2
  have not2 : ¬ 2 ∣ (factor235 n).rest := fun h => stripFactor_not_dvd (by decide) hn dvd_rfl (h.trans (h5.trans h3))
  have not3 : ¬ 3 ∣ (factor235 n).rest := fun h => stripFactor_not_dvd (by decide) hn h2 (h.trans h5)
  have not5 : ¬ 5 ∣ (factor235 n).rest := stripFactor_not_dvd (by decide) hn (h3.trans h2)
  have coprime : ∀ {b}, b.Prime → ¬ b ∣ (factor235 n).rest → Nat.Coprime (factor235 n).rest b :=
    fun hb h => ((Nat.Prime.coprime_iff_not_dvd hb).2 h).symm
  exact ((coprime Nat.prime_two not2).mul_right (coprime Nat.prime_three not3)).mul_right (coprime Nat.prime_five not5)

/-- 2^p·3^q·5^r is stripped of its three powers one after another. -/
theorem factor235_smooth (p q r : Nat) : factor235 (2 ^ p * 3 ^ q * 5 ^ r) = ⟨p, q, r, 1⟩ := by
  have hn : 1 ≤ 2 ^ p * 3 ^ q * 5 ^ r := Nat.one_le_iff_ne_zero.2 (by positivity)
  have not2 : ¬ 2 ∣ 3 ^ q * 5 ^ r := (Nat.Prime.coprime_iff_not_dvd Nat.prime_two).1
    ((Nat.Coprime.pow_right q (by decide)).mul_right (Nat.Coprime.pow_right r (by decide)))
  have not3 : ¬ 3 ∣ 5 ^ r := (Nat.Prime.coprime_iff_not_dvd Nat.prime_three).1 (Nat.Coprime.pow_right r (by decide))
  have strip2 := stripFactor_pow_mul (by decide) not2
    (exponent_le_stripFuel (le_refl 2) hn (Dvd.intro _ (by ring : 2 ^ p * 1 * (3 ^ q * 5 ^ r) = _)))
  have strip3 := stripFactor_pow_mul (by decide) not3
    (exponent_le_stripFuel (b := 3) (by decide) hn (Dvd.intro _ (by ring : 3 ^ q * 1 * (2 ^ p * 5 ^ r) = _)))
  have strip5 := stripFactor_pow_mul (by decide) (by decide : ¬ 5 ∣ 1)
    (exponent_le_stripFuel (b := 5) (by decide) hn (Dvd.intro _ (by ring : 5 ^ r * 1 * (2 ^ p * 3 ^ q) = _)))
  rw [← Nat.mul_assoc] at strip2
  rw [Nat.mul_one] at strip5
  simp only [factor235, strip2, strip3, strip5]

/-- Settles O23: the powers taken away and the rest multiply to n, and each strip takes all of its factor. -/
theorem factorizationIsRight : Obligations.FactorizationIsRight := by
  refine fun n hn => ⟨(factor235_mul n).symm, factor235_rest_coprime hn, ?_⟩
  rintro p q r rfl
  simp only [factor235_smooth, and_self]

/-! ### Lengths (R121) -/

theorem factorLength_smooth (p q r : Nat) :
    factorLength ((2 ^ p * 3 ^ q * 5 ^ r : Nat) : Int) = some ⟨p, q, r, 1⟩ := by
  have hpos : 0 < 2 ^ p * 3 ^ q * 5 ^ r := by positivity
  rw [factorLength, if_neg (by omega), Int.toNat_natCast, factor235_smooth, if_pos rfl]

theorem factorLength_eq_none {n : Int} (h : ∀ p q r : Nat, n ≠ ((2 ^ p * 3 ^ q * 5 ^ r : Nat) : Int)) :
    factorLength n = none := by
  unfold factorLength
  split
  · rfl
  · next hpos =>
    have hmul := factor235_mul n.toNat
    refine if_neg fun hrest => h (factor235 n.toNat).p (factor235 n.toNat).q (factor235 n.toNat).r ?_
    rw [hrest, Nat.mul_one] at hmul
    rw [hmul, Int.toNat_of_nonneg (by omega)]

/-- Settles O24: a length has its exponents, and any other number none. -/
theorem factorizeResult : Obligations.FactorizeResult := by
  refine fun s => ⟨fun p q r h => ?_, fun h => ?_⟩
  · simp only [exec, execFactorize, h, factorLength_smooth]
    rfl
  · simp only [exec, execFactorize, factorLength_eq_none h]
    rfl

/-! ### The axes of given exponents (R128) -/

/-- The lengths `xs` have the exponents `Fs`, one by one. -/
def HaveFactors (xs : List Reg) (Fs : List Factors) : Prop := List.Forall₂ (fun x F => factorLength x.toInt = some F) xs Fs

/-- Entries of `TW` for the tables of lengths with these exponents (R140). -/
def tablesSize (Fs : List Factors) : Nat := (Fs.map fun F => tableSize F.p F.q F.r).sum

/-- The registers of the axes with these lengths and exponents, their tables back to back from entry `base`. -/
def axesOf : (base : Nat) → (xs : List Reg) → (Fs : List Factors) → List AxisPlan
  | base, x :: xs, F :: Fs => lengthAxis base x F :: axesOf (base + tableSize F.p F.q F.r) xs Fs
  | _, _, _ => []

theorem planAxes_eq_axesOf {xs : List Reg} {Fs : List Factors} (h : HaveFactors xs Fs) (base : Nat) :
    planAxes base xs = some (axesOf base xs Fs) := by
  induction h generalizing base with
  | nil => rfl
  | cons hx _ ih => simp only [planAxes, hx, ih, axesOf, lengthAxis]

theorem tableTotal_axesOf {xs : List Reg} {Fs : List Factors} (h : HaveFactors xs Fs) (base : Nat) :
    tableTotal (axesOf base xs Fs) = tablesSize Fs := by
  induction h generalizing base with
  | nil => rfl
  | cons hx _ ih =>
    rw [axesOf, tableTotal, lengthAxis_tableSize hx base, ih]
    rfl

theorem factorLength_of_planAxes {base : Nat} {xs : List Reg} {axes : List AxisPlan} (h : planAxes base xs = some axes) :
    ∀ x ∈ xs, factorLength x.toInt ≠ none := by
  induction xs generalizing base axes with
  | nil => simp
  | cons x xs ih =>
    obtain ⟨F, rest, hx, hrest, -⟩ := planAxes_cons h
    exact List.forall_mem_cons.2 ⟨by simp [hx], ih hrest⟩

/-! ### Building a plan (R128) -/

theorem buildPlan_invalidLength {xs : List Reg} {x : Reg} (hx : x ∈ xs) (hnone : factorLength x.toInt = none) (s : State) :
    buildPlan xs s = raise .invalidLength s := by
  have hplan : planAxes 0 xs = none :=
    Option.eq_none_iff_forall_ne_some.2 fun axes h => factorLength_of_planAxes h x hx hnone
  simp only [buildPlan, hplan]

theorem buildPlan_of_haveFactors {xs : List Reg} {Fs : List Factors} (h : HaveFactors xs Fs) (s : State) :
    buildPlan xs s = if s.par.twDepth.toNat < tablesSize Fs then raise .capacity s
      else succeed (BitVec.ofNat 32 (tablesSize Fs)) 0#32 0#32 (commitPlan (axesOf 0 xs Fs) s) := by
  simp only [buildPlan, planAxes_eq_axesOf h, tableTotal_axesOf h]

/-- Bytes of `TW` from the total on are as before (R40, R146; log 17). -/
theorem memRead_buildTables_above (par : Params) {axes : List AxisPlan} (tw : Memory) (hb : backToBack 0 axes) {x : Nat}
    (hx : tableTotal axes * wordBytes par.prec ≤ x) : memRead (buildTables par axes tw) x = memRead tw x := by
  refine buildTables_keeps par (fun m => memRead m x = memRead tw x) hb rfl fun w _ hw m v hm => ?_
  have hword := (Nat.le_div_iff_mul_le (wordBytes_pos par.prec)).2 hx
  rw [memRead_storeWord_outside par.prec m w v (by omega), hm]

/-- What a successful CREATEPLAN leaves: the registers, the layout and `RES0` of the plan, the tables, and every byte of `TW`
above them. -/
structure PlanBuilt (xs : List Reg) (Fs : List Factors) (s t : State) : Prop where
  state : t = { s with
    plan := planOf (axesOf 0 xs Fs)
    rowMajor := true
    leadDim := ((axesOf 0 xs Fs).getLastD AxisPlan.none).n
    tw := t.tw
    regs := { s.regs with res0 := BitVec.ofNat 32 (tablesSize Fs), res1 := 0#32, res2 := 0#32 }
    status := { busy := false, done := true, err := .ok } }
  tables : ∀ ax ∈ axesOf 0 xs Fs, holdsTable s.par.prec s.par.twgen t.tw ax
  above : ∀ x, tablesSize Fs * wordBytes s.par.prec ≤ x → memRead t.tw x = memRead s.tw x

theorem buildPlan_built {xs : List Reg} {Fs : List Factors} {s : State} (h : HaveFactors xs Fs)
    (hfit : tablesSize Fs ≤ s.par.twDepth.toNat) : PlanBuilt xs Fs s (buildPlan xs s) := by
  have hdepth := s.par.twDepth.isLt
  have htotal := tableTotal_axesOf h 0
  have hb : backToBack 0 (axesOf 0 xs Fs) := planAxes_backToBack (planAxes_eq_axesOf h 0) (by omega)
  rw [buildPlan_of_haveFactors h, if_neg (by omega)]
  exact ⟨rfl, holdsTable_buildTables s.par s.tw hb,
    fun x hx => memRead_buildTables_above s.par s.tw hb (by rwa [htotal])⟩

/-! ### CREATEPLAN1/2/3 (R123 to R125) -/

theorem factorLength_argSigned {s : State} {i : Fin 8} {p q r : Nat}
    (h : argSigned s i = ((2 ^ p * 3 ^ q * 5 ^ r : Nat) : Int)) : factorLength (xreg s i).toInt = some ⟨p, q, r, 1⟩ := by
  rw [← factorLength_smooth, ← h, argSigned]

/-- Settles O25: a plan of one axis, its table at entry 0. -/
theorem createPlan1Succeeds : Obligations.CreatePlan1Succeeds := by
  intro s p q r h1 hfit
  have hF : HaveFactors [xreg s 0] [⟨p, q, r, 1⟩] := .cons (factorLength_argSigned h1) .nil
  have built := buildPlan_built hF hfit
  have hplan := congrArg State.plan built.state
  exact ⟨_, rfl, built.state, hplan ▸ built.tables _ (by simp [axesOf, planOf]), built.above⟩

/-- Settles O26: the second table starts where the first ends. -/
theorem createPlan2Succeeds : Obligations.CreatePlan2Succeeds := by
  intro s p q r p' q' r' h1 h2 hfit
  have hF : HaveFactors [xreg s 0, xreg s 1] [⟨p, q, r, 1⟩, ⟨p', q', r', 1⟩] :=
    .cons (factorLength_argSigned h1) (.cons (factorLength_argSigned h2) .nil)
  have built := buildPlan_built hF hfit
  have hplan := congrArg State.plan built.state
  refine ⟨_, rfl, built.state.trans ?_, hplan ▸ built.tables _ (by simp [axesOf, planOf]),
    hplan ▸ built.tables _ (by simp [axesOf, planOf]), built.above⟩
  simp only [axesOf, Nat.zero_add]
  rfl

/-- Settles O27: the tables of the three axes lie back to back. -/
theorem createPlan3Succeeds : Obligations.CreatePlan3Succeeds := by
  intro s p q r p' q' r' p'' q'' r'' h1 h2 h3 hfit
  have hF : HaveFactors [xreg s 0, xreg s 1, xreg s 2] [⟨p, q, r, 1⟩, ⟨p', q', r', 1⟩, ⟨p'', q'', r'', 1⟩] :=
    .cons (factorLength_argSigned h1) (.cons (factorLength_argSigned h2) (.cons (factorLength_argSigned h3) .nil))
  have hsize : tablesSize [⟨p, q, r, 1⟩, ⟨p', q', r', 1⟩, ⟨p'', q'', r'', 1⟩] =
      tableSize p q r + tableSize p' q' r' + tableSize p'' q'' r'' := (Nat.add_assoc ..).symm
  have built := buildPlan_built hF (hsize ▸ hfit)
  have hplan := congrArg State.plan built.state
  refine ⟨_, rfl, built.state.trans ?_, hplan ▸ built.tables _ (by simp [axesOf, planOf]),
    hplan ▸ built.tables _ (by simp [axesOf, planOf]), hplan ▸ built.tables _ (by simp [axesOf, planOf]), hsize ▸ built.above⟩
  simp only [hsize, axesOf, Nat.zero_add]
  rfl

/-- A CREATEPLAN command of k lengths builds a plan of the first k operands. -/
theorem exec_createPlan_eq_buildPlan {s : State} {i : Instr} {lengths : List Int}
    (h : (i, lengths) ∈
      [(.createPlan1, [argSigned s 0]), (.createPlan2, [argSigned s 0, argSigned s 1]),
        (.createPlan3, [argSigned s 0, argSigned s 1, argSigned s 2])]) :
    ∃ xs : List Reg, lengths = xs.map BitVec.toInt ∧ exec i s = .next (buildPlan xs s) := by
  simp only [List.mem_cons, Prod.mk.injEq, List.not_mem_nil, or_false] at h
  obtain ⟨rfl, rfl⟩ | ⟨rfl, rfl⟩ | ⟨rfl, rfl⟩ := h
  · exact ⟨[xreg s 0], rfl, rfl⟩
  · exact ⟨[xreg s 0, xreg s 1], rfl, rfl⟩
  · exact ⟨[xreg s 0, xreg s 1, xreg s 2], rfl, rfl⟩

/-- Settles O28: one length without exponents fails the check of the lengths, and only then the depth counts. -/
theorem createPlanFailures : Obligations.CreatePlanFailures := by
  intro s i lengths hi
  obtain ⟨xs, rfl, hexec⟩ := exec_createPlan_eq_buildPlan hi
  rw [hexec]
  refine ⟨fun ⟨n, hn, hnot⟩ => ?_, fun es hes hdepth => ?_⟩
  · obtain ⟨x, hx, rfl⟩ := List.mem_map.1 hn
    rw [buildPlan_invalidLength hx (factorLength_eq_none hnot)]
  · have hF : HaveFactors xs (es.map fun e => ⟨e.1, e.2.1, e.2.2, 1⟩) := by
      have hlengths := List.forall₂_map_left_iff.1 (List.forall₂_map_right_iff.1 (List.forall₂_eq_eq_eq ▸ hes))
      exact List.forall₂_map_right_iff.2 (hlengths.imp fun x e hx => by rw [hx, factorLength_smooth])
    rw [buildPlan_of_haveFactors hF, tablesSize, List.map_map]
    exact congrArg Host.Outcome.next (if_pos hdepth)

/-! ### NOP, SETLAYOUT, GETLAYOUT -/

/-- Settles O22. -/
theorem nopDoesNothing : Obligations.NopDoesNothing := fun _ => rfl

/-- Settles O31: the four cases are the branches of `setLayout`, with natural(rm) written out. -/
theorem setLayoutResult : Obligations.SetLayoutResult := by
  intro s rm nat hnat
  have hnatural : naturalDim s.plan rm = nat := hnat.symm
  have hexec : exec (.setLayout rm) s = .next (setLayout rm s) := rfl
  rw [hexec, setLayout, hnatural]
  refine ⟨fun h0 => ?_, fun hn hneg => ?_, fun hn hpos hlt => ?_, fun hn hpos hle => ?_⟩
  · rw [if_pos h0]
  · rw [if_neg hn, if_pos hneg]
    rfl
  · rw [if_neg hn, if_neg (not_le.2 hpos), if_pos hlt]
  · rw [if_neg hn, if_neg (not_le.2 hpos), if_neg (not_lt.2 hle)]
    rfl

/-- Settles O32: the two cases are the branches of `execGetLayout`. -/
theorem getLayoutResult : Obligations.GetLayoutResult := fun _ => ⟨fun h0 => if_pos h0, fun hn => if_neg hn⟩

end Sys2Proof.Proofs
end

section
/-! PROOF. The twiddle tables and who reads them (41_twiddle_builder.md R145, R147). A held group fixes every entry of its
sub-range by the length and the exponent alone; and the pairs an engine multiplies by have an index above 0 and below ni. -/

namespace Sys2Proof.Proofs

open Sys2Proof Sys2Proof.Machine
open Sys2Proof.Config (Prec TwGen)

/-! ### Engines read their own sub-table (R147, R165) -/

/-- A pair of a sub-table is fixed by its two entries. -/
theorem twiddlePair_congr (f : Prec) (free : Nat) {tw tw' : Memory} {T idx : Nat}
    (hcos : wordAt f tw (T + 2 * idx) = wordAt f tw' (T + 2 * idx))
    (hsin : wordAt f tw (T + 2 * idx + 1) = wordAt f tw' (T + 2 * idx + 1)) :
    twiddlePair f free tw T idx = twiddlePair f free tw' T idx :=
  Prod.ext (loadWord_congr f free .tw hcos) (loadWord_congr f free .tw hsin)

/-- Units that differ in the twiddle memory only, and there outside the pairs 1 to ni - 1, do the same. -/
theorem unitSim_twiddles (f : Prec) (free : Nat) {tw tw' : Memory} (d : EngineDesc) {T ni : Nat} (inq l nu : Nat)
    (h : ∀ e, 2 ≤ e → e < 2 * ni → wordAt f tw (T + e) = wordAt f tw' (T + e)) :
    UnitSim (unitEnv f free tw d T ni inq l nu) (unitEnv f free tw' d T ni inq l nu) Eq where
  arith := rfl
  twiddle idx hpos hlt := by
    have hlt : idx < ni := hlt
    exact twiddlePair_congr f free (h (2 * idx) (by omega) (by omega)) (h (2 * idx + 1) (by omega) (by omega))
  sign := rfl
  ni := rfl
  inq := rfl
  get _ _ u h := congrArg (fun m => (unitStore f free d ni inq l nu).get m u) h
  set _ _ u v h := congrArg (fun m => (unitStore f free d ni inq l nu).set m u v) h

/-- Settles O47: every unit of the run does the same with both twiddle memories, from equal signals to equal signals. -/
theorem engineReadsOwnSubTable : Obligations.EngineReadsOwnSubTable := by
  intro f free tw tw' d b mm T sig h
  unfold engineRun
  split
  · rfl
  · refine loop_sim Eq rfl fun l _ m m' hm => loop_sim Eq hm fun nu _ m m' hm => ?_
    exact runPasses_sim (unitSim_twiddles f free d _ l nu h) _ Nat.one_pos hm

/-! ### Tables depend on the length only (R145) -/

/-- The two memories hold the same values in `count` entries from `off` and from `off'`. -/
def SameEntries (f : Prec) (tw tw' : Memory) (off off' count : Nat) : Prop :=
  ∀ e, e < count → ∃ v, wordAt f tw (off + e) = some v ∧ wordAt f tw' (off' + e) = some v

theorem SameEntries.append {f : Prec} {tw tw' : Memory} {off off' count count' : Nat}
    (h : SameEntries f tw tw' off off' count) (h' : SameEntries f tw tw' (off + count) (off' + count) count') :
    SameEntries f tw tw' off off' (count + count') := by
  intro e he
  rcases Nat.lt_or_ge e count with hlt | hge
  · exact h e hlt
  · obtain ⟨k, rfl⟩ := Nat.exists_eq_add_of_le hge
    simpa only [Nat.add_assoc] using h' k (by omega)

section

variable {f : Prec} {g : TwGen} {tw tw' : Memory}

/-- Where a group is held, its entries depend on the length, the base and the exponent. -/
theorem holdsGroup_sameEntries {n b e off off' : Nat} (h : holdsGroup f g tw n b e off)
    (h' : holdsGroup f g tw' n b e off') : SameEntries f tw tw' off off' (2 * b ^ e) := by
  intro i hi
  obtain ⟨hcos, hsin⟩ := h (i / 2) (by omega)
  obtain ⟨hcos', hsin'⟩ := h' (i / 2) (by omega)
  rcases Nat.mod_two_eq_zero_or_one i with heven | hodd
  · rw [show i = 2 * (i / 2) by omega]
    exact ⟨_, hcos, hcos'⟩
  · rw [show i = 2 * (i / 2) + 1 by omega]
    exact ⟨_, hsin, hsin'⟩

/-- The exponents of a good axis are those of its length (R31, R122). -/
theorem factor235_good {ax : AxisPlan} (h : ax.good) :
    factor235 ax.n.toNat = ⟨ax.p.toNat, ax.q.toNat, ax.r.toNat, 1⟩ := by
  rw [h.1, factor235_smooth]

/-- Two held tables of good axes of one length are the same, group by group. -/
theorem holdsTable_sameEntries {ax ax' : AxisPlan} (hg : ax.good) (hg' : ax'.good) (hn : ax.n = ax'.n)
    (h : holdsTable f g tw ax) (h' : holdsTable f g tw' ax') :
    SameEntries f tw tw' ax.twBase.toNat ax'.twBase.toNat (axisTableSize ax) := by
  have hfactors := factor235_good hg
  rw [hn, factor235_good hg'] at hfactors
  obtain ⟨hp, hq, hr, -⟩ := Factors.mk.inj hfactors
  obtain ⟨two, three, five⟩ := h
  obtain ⟨two', three', five'⟩ := h'
  rw [hp, hq, hr, ← hn] at *
  rw [axisTableSize, tableSize_eq]
  exact ((holdsGroup_sameEntries two two').append (holdsGroup_sameEntries three three')).append
    (by simpa only [Nat.add_assoc] using holdsGroup_sameEntries five five')

end

/-- What a successful BuildPlan leaves: good axes, each with its table in `TW` (R31, R128, R146). -/
theorem buildPlan_axes {xs : List Reg} {s : State} (hk : xs.length ∈ [1, 2, 3]) (hok : (buildPlan xs s).status.err = .ok) :
    ∀ ax ∈ (buildPlan xs s).plan.axes, ax.good ∧ holdsTable s.par.prec s.par.twgen (buildPlan xs s).tw ax := by
  unfold buildPlan at hok ⊢
  split at hok
  · cases hok
  · next axes hplan =>
    split at hok
    · cases hok
    · next hfit =>
      have hdepth := s.par.twDepth.isLt
      have hb : backToBack 0 axes := planAxes_backToBack hplan (by omega)
      rw [if_neg hfit, succeed_plan, commitPlan_plan, planOf_axes (planAxes_length hplan ▸ hk)]
      exact fun ax hax => ⟨planAxes_good hplan ax hax, holdsTable_buildTables s.par s.tw hb ax hax⟩

theorem exec_createPlans {i : Instr} (h : i ∈ createPlans) (s : State) :
    ∃ xs : List Reg, xs.length ∈ [1, 2, 3] ∧ exec i s = .next (buildPlan xs s) := by
  simp only [createPlans, List.mem_cons, List.not_mem_nil, or_false] at h
  obtain rfl | rfl | rfl := h
  · exact ⟨[xreg s 0], by simp, rfl⟩
  · exact ⟨[xreg s 0, xreg s 1], by simp, rfl⟩
  · exact ⟨[xreg s 0, xreg s 1, xreg s 2], by simp, rfl⟩

theorem createPlan_axes {i : Instr} {s t : State} (hi : i ∈ createPlans) (hexec : exec i s = .next t)
    (hok : t.status.err = .ok) : ∀ ax ∈ t.plan.axes, ax.good ∧ holdsTable s.par.prec s.par.twgen t.tw ax := by
  obtain ⟨xs, hk, hbuild⟩ := exec_createPlans hi s
  obtain rfl := Host.Outcome.next.inj (hbuild.symm.trans hexec)
  exact buildPlan_axes hk hok

/-- Settles O29: both tables hold the groups of the one length, whose exponents they share. -/
theorem tablesDependOnLengthOnly : Obligations.TablesDependOnLengthOnly := by
  intro s s' t t' i i' hi hi' hprec hgen hexec hok hexec' hok' ax hax ax' hax' hn
  obtain ⟨hgood, htable⟩ := createPlan_axes hi hexec hok ax hax
  obtain ⟨hgood', htable'⟩ := createPlan_axes hi' hexec' hok' ax' hax'
  rw [← hprec, ← hgen] at htable'
  exact holdsTable_sameEntries hgood hgood' hn htable htable'

end Sys2Proof.Proofs
end

section
/-! PROOF. The series of the generator (41_twiddle_builder.md R143). `taylor` adds the terms of e^(iθ) in fixed point, each cut
to an integer; the cuts, the remainder of the series and the error of 2π together stay below 2^-64, so the fixed-point values are
near the real cosine and sine (`Near`). -/

namespace Sys2Proof.Proofs

open Sys2Proof Sys2Proof.Machine

/-! ### The sum of the cut terms -/

/-- A pair of fixed-point values as a complex number, in units of 2^-320. -/
noncomputable def fixComplex (c : Int × Int) : ℂ := c.1 + c.2 * Complex.I

theorem fixComplex_zero : fixComplex (0, 0) = 0 := by simp [fixComplex]

theorem fixComplex_taylor_succ (x fuel j term : Nat) :
    fixComplex (taylor x (fuel + 1) j term) =
      fixComplex (taylor x fuel (j + 1) (term * x / ((j + 1) * 2 ^ fixBits))) + term * Complex.I ^ j := by
  have hmod : j % 4 = 0 ∨ j % 4 = 1 ∨ j % 4 = 2 ∨ j % 4 = 3 := by omega
  rw [Complex.I_pow_eq_pow_mod]
  obtain h | h | h | h := hmod <;> simp only [taylor, h, fixComplex] <;> push_cast <;>
    simp only [pow_zero, pow_one, Complex.I_sq, Complex.I_pow_three] <;> ring

/-- An integer quotient lies within 1 of the real one. -/
theorem abs_natDiv_sub_le (a b : Nat) : |((a / b : Nat) : ℝ) - a / b| ≤ 1 := by
  have hle : ((a / b : Nat) : ℝ) ≤ a / b := Nat.cast_div_le
  have hlt : (a : ℝ) / b < (a / b : Nat) + 1 := by
    rw [← Nat.floor_div_eq_div (K := ℝ) a b]
    exact Nat.lt_floor_add_one _
  rw [abs_le]
  constructor <;> linarith

/-- The term j of the series of e^θ, in units of 2^-320. -/
noncomputable def expTerm (θ : ℝ) (j : Nat) : ℝ := 2 ^ fixBits * (θ ^ j / j.factorial)

theorem expTerm_succ (θ : ℝ) (j : Nat) : expTerm θ (j + 1) = expTerm θ j * (θ / (j + 1)) := by
  rw [expTerm, expTerm, Nat.factorial_succ, pow_succ]
  push_cast
  field_simp

/-- How far the computed term j may be off for an angle up to 7: each step multiplies the error by at most 7/2 once there is
one, and cuts less than 1. -/
noncomputable def termError (j : Nat) : ℝ := j * (7 / 2) ^ j

/-- The angle that `taylor` computes with. -/
noncomputable def fixAngle (x : Nat) : ℝ := x / 2 ^ fixBits

theorem termError_succ {x j term : Nat} (hx : fixAngle x ≤ 7) (h : |term - expTerm (fixAngle x) j| ≤ termError j) :
    |((term * x / ((j + 1) * 2 ^ fixBits) : Nat) : ℝ) - expTerm (fixAngle x) (j + 1)| ≤ termError (j + 1) := by
  have hθ : 0 ≤ fixAngle x := by unfold fixAngle; positivity
  have hcut := abs_natDiv_sub_le (term * x) ((j + 1) * 2 ^ fixBits)
  have hquot : ((term * x : Nat) : ℝ) / ((j + 1) * 2 ^ fixBits : Nat) = term * (fixAngle x / (j + 1)) := by
    rw [fixAngle]
    push_cast
    field_simp
  have hstep : |term * (fixAngle x / (j + 1)) - expTerm (fixAngle x) (j + 1)| ≤ j * (7 / 2) ^ j * (7 / 2) := by
    rw [expTerm_succ, ← sub_mul, abs_mul, abs_of_nonneg (show 0 ≤ fixAngle x / (j + 1) by positivity)]
    rcases Nat.eq_zero_or_pos j with rfl | hj
    · have : |term - expTerm (fixAngle x) 0| = 0 := le_antisymm (by simpa [termError] using h) (abs_nonneg _)
      simp [this]
    · have hj : (1 : ℝ) ≤ j := by exact_mod_cast hj
      have hratio : fixAngle x / (j + 1) ≤ 7 / 2 := div_le_div₀ (by norm_num) hx (by norm_num) (by linarith)
      exact mul_le_mul h hratio (by positivity) (by positivity)
  have hpow : (1 : ℝ) ≤ (7 / 2) ^ j * (7 / 2) := by
    have := one_le_pow₀ (show (1 : ℝ) ≤ 7 / 2 by norm_num) (n := j)
    linarith
  rw [hquot] at hcut
  calc |((term * x / ((j + 1) * 2 ^ fixBits) : Nat) : ℝ) - expTerm (fixAngle x) (j + 1)|
      ≤ 1 + j * (7 / 2) ^ j * (7 / 2) := (abs_sub_le _ _ _).trans (add_le_add hcut hstep)
    _ ≤ termError (j + 1) := by
      rw [termError, pow_succ]
      push_cast
      linarith

/-- The term j of the series of e^(iθ) is i^j times that of e^θ. -/
theorem expTerm_mul_I_pow (θ : ℝ) (j : Nat) :
    (expTerm θ j : ℂ) * Complex.I ^ j = 2 ^ fixBits * ((θ * Complex.I) ^ j / j.factorial) := by
  rw [expTerm, mul_pow]
  push_cast
  ring

/-- `taylor` from term j on is the series from term j on, up to the errors of its terms. -/
theorem taylor_near_series {x : Nat} (hx : fixAngle x ≤ 7) {fuel j term : Nat}
    (h : |term - expTerm (fixAngle x) j| ≤ termError j) :
    ‖fixComplex (taylor x fuel j term) -
        2 ^ fixBits * ∑ i ∈ Finset.range fuel, (fixAngle x * Complex.I) ^ (j + i) / (j + i).factorial‖ ≤
      ∑ i ∈ Finset.range fuel, termError (j + i) := by
  induction fuel generalizing j term with
  | zero =>
    rw [Finset.sum_range_zero, Finset.sum_range_zero, mul_zero, sub_zero, taylor, fixComplex_zero, norm_zero]
  | succ fuel ih =>
    have hrest := ih (termError_succ hx h)
    have hfirst : ‖(term : ℂ) * Complex.I ^ j - expTerm (fixAngle x) j * Complex.I ^ j‖ ≤ termError j := by
      rw [← sub_mul, norm_mul, norm_pow, Complex.norm_I, one_pow, mul_one]
      exact_mod_cast h
    simp only [Nat.add_right_comm j 1] at hrest
    rw [fixComplex_taylor_succ, Finset.sum_range_succ', Finset.sum_range_succ', mul_add, add_zero, ← expTerm_mul_I_pow,
      add_sub_add_comm]
    exact (norm_add_le _ _).trans (add_le_add hrest hfirst)

/-! ### 2π and the angle -/

/-- The scale of the fixed-point values, by powers that can be evaluated. -/
theorem two_pow_fixBits : (2 : ℝ) ^ fixBits = (2 ^ 64) ^ 5 := by rw [← pow_mul, fixBits]

/-- The angle of K/ni turns, cut to 320 fraction bits. -/
noncomputable def cutAngle (K ni : Nat) : ℝ := fixAngle (twoPiFix * K / ni)

theorem cutAngle_le {K ni : Nat} (hK : K < ni) : cutAngle K ni ≤ 7 := by
  have hle : twoPiFix * K / ni ≤ 7 * 2 ^ fixBits := by
    calc twoPiFix * K / ni ≤ twoPiFix := Nat.div_le_of_le_mul (by rw [Nat.mul_comm]; exact Nat.mul_le_mul_right _ hK.le)
      _ ≤ 7 * 2 ^ fixBits := by decide +kernel
  rw [cutAngle, fixAngle, div_le_iff₀ (by positivity)]
  exact_mod_cast hle

theorem twoPiFix_near : |fixAngle twoPiFix - 2 * Real.pi| ≤ 15 / 10 ^ 21 := by
  have hlo := Real.pi_gt_d20
  have hhi := Real.pi_lt_d20
  have hfix : |fixAngle twoPiFix - 628318530717958647693 / 10 ^ 20| ≤ 5 / 10 ^ 21 := by
    rw [fixAngle, twoPiFix, two_pow_fixBits, abs_le]
    constructor <;> norm_num
  rw [abs_le] at hfix ⊢
  constructor <;> linarith [hfix.1, hfix.2]

theorem cutAngle_near {K ni : Nat} (hK : K < ni) : |2 * Real.pi * K / ni - cutAngle K ni| ≤ 16 / 10 ^ 21 := by
  have hni : (0 : ℝ) < ni := by exact_mod_cast Nat.zero_lt_of_lt hK
  have hturn : (K : ℝ) / ni ≤ 1 := (div_le_one hni).2 (by exact_mod_cast hK.le)
  have hcut : |cutAngle K ni - fixAngle twoPiFix * (K / ni)| ≤ 1 / 2 ^ fixBits := by
    have := abs_natDiv_sub_le (twoPiFix * K) ni
    have hscale : cutAngle K ni - fixAngle twoPiFix * (K / ni) =
        (((twoPiFix * K / ni : Nat) : ℝ) - (twoPiFix * K : Nat) / ni) / 2 ^ fixBits := by
      rw [cutAngle, fixAngle, fixAngle]
      push_cast
      ring
    rw [hscale, abs_div, abs_of_pos (show (0 : ℝ) < 2 ^ fixBits by positivity)]
    gcongr
  have hpi : |fixAngle twoPiFix * (K / ni) - 2 * Real.pi * K / ni| ≤ 15 / 10 ^ 21 := by
    rw [mul_div_assoc, ← sub_mul, abs_mul, abs_of_nonneg (show (0 : ℝ) ≤ K / ni by positivity)]
    exact (mul_le_of_le_one_right (abs_nonneg _) hturn).trans twoPiFix_near
  rw [abs_sub_comm]
  calc |cutAngle K ni - 2 * Real.pi * K / ni| ≤ 1 / 2 ^ fixBits + 15 / 10 ^ 21 :=
        (abs_sub_le _ _ _).trans (add_le_add hcut hpi)
    _ ≤ 16 / 10 ^ 21 := by norm_num [two_pow_fixBits]

/-! ### Cosine and sine -/

/-- The scale as a real number among the complex ones. -/
theorem two_pow_fixBits_ofReal : (2 : ℂ) ^ fixBits = ((2 ^ fixBits : ℝ) : ℂ) := by push_cast; rfl

theorem fixComplex_div_re (c : Int × Int) : (fixComplex c / 2 ^ fixBits).re = c.1 / 2 ^ fixBits := by
  rw [two_pow_fixBits_ofReal, Complex.div_ofReal_re]
  simp [fixComplex]

theorem fixComplex_div_im (c : Int × Int) : (fixComplex c / 2 ^ fixBits).im = c.2 / 2 ^ fixBits := by
  rw [two_pow_fixBits_ofReal, Complex.div_ofReal_im]
  simp [fixComplex]

theorem termErrors_le : ∑ i ∈ Finset.range 128, termError i ≤ 1 / 10 ^ 22 * 2 ^ fixBits := by
  have hterm : ∀ i ∈ Finset.range 128, termError i ≤ 128 * (7 / 2) ^ 128 := fun i hi => by
    have hi : (i : ℝ) ≤ 128 := by exact_mod_cast (Finset.mem_range.1 hi).le
    have hpow : ((7 : ℝ) / 2) ^ i ≤ (7 / 2) ^ 128 := pow_le_pow_right₀ (by norm_num) (by exact_mod_cast hi)
    exact mul_le_mul hi hpow (by positivity) (by norm_num)
  refine (Finset.sum_le_card_nsmul _ _ _ hterm).trans ?_
  norm_num [two_pow_fixBits]

/-- e^(iθ) of the cut angle: 128 terms leave a remainder below any last bit, and so do the errors of the terms. -/
theorem cosSinFix_near_exp {K ni : Nat} (hK : K < ni) :
    ‖fixComplex (cosSinFix K ni) / 2 ^ fixBits - Complex.exp (cutAngle K ni * Complex.I)‖ ≤ 1 / 10 ^ 21 := by
  have hθ := cutAngle_le hK
  have hθ0 : 0 ≤ cutAngle K ni := by unfold cutAngle fixAngle; positivity
  have hnorm : ‖(cutAngle K ni * Complex.I : ℂ)‖ = cutAngle K ni := by
    rw [norm_mul, Complex.norm_I, mul_one, Complex.norm_real, Real.norm_of_nonneg hθ0]
  have hstart : |((2 ^ fixBits : Nat) : ℝ) - expTerm (cutAngle K ni) 0| ≤ termError 0 := by simp [expTerm, termError]
  have hseries := taylor_near_series hθ hstart (fuel := 128)
  have hrest := Complex.exp_bound' (x := cutAngle K ni * Complex.I) (n := 128) (by rw [hnorm]; push_cast; linarith)
  rw [hnorm] at hrest
  have hscale : fixComplex (cosSinFix K ni) / 2 ^ fixBits -
      ∑ i ∈ Finset.range 128, (cutAngle K ni * Complex.I) ^ i / i.factorial =
      (fixComplex (cosSinFix K ni) -
        2 ^ fixBits * ∑ i ∈ Finset.range 128, (cutAngle K ni * Complex.I) ^ i / i.factorial) / 2 ^ fixBits := by
    rw [sub_div, mul_div_cancel_left₀ _ (pow_ne_zero _ two_ne_zero)]
  have hsum : ‖fixComplex (cosSinFix K ni) / 2 ^ fixBits -
      ∑ i ∈ Finset.range 128, (cutAngle K ni * Complex.I) ^ i / i.factorial‖ ≤ 1 / 10 ^ 22 := by
    simp only [zero_add] at hseries
    rw [hscale, norm_div, norm_pow, Complex.norm_ofNat, div_le_iff₀ (by positivity)]
    exact hseries.trans termErrors_le
  have hremainder : ‖Complex.exp (cutAngle K ni * Complex.I) -
      ∑ i ∈ Finset.range 128, (cutAngle K ni * Complex.I) ^ i / i.factorial‖ ≤ 1 / 10 ^ 22 := by
    refine hrest.trans ?_
    calc cutAngle K ni ^ 128 / Nat.factorial 128 * 2 ≤ 7 ^ 128 / Nat.factorial 128 * 2 := by gcongr
      _ ≤ 1 / 10 ^ 22 := by norm_num [Nat.factorial]
  rw [norm_sub_rev] at hremainder
  exact (norm_sub_le_norm_sub_add_norm_sub _ _ _).trans ((add_le_add hsum hremainder).trans (by norm_num))

/-- The fixed-point value c is within 2^-64 of the real number x. -/
def Near (c : Int) (x : ℝ) : Prop := |x - c / 2 ^ fixBits| ≤ 1 / 2 ^ 64

/-- The two errors together: of the series at the cut angle, and of the cut of the angle. -/
theorem near_of_cutAngle {c : Int} {y x : ℝ} (hc : |c / 2 ^ fixBits - y| ≤ 1 / 10 ^ 21) (hy : |x - y| ≤ 16 / 10 ^ 21) :
    Near c x := by
  rw [abs_sub_comm] at hc
  calc |x - c / 2 ^ fixBits| ≤ 16 / 10 ^ 21 + 1 / 10 ^ 21 := (abs_sub_le _ _ _).trans (add_le_add hy hc)
    _ ≤ 1 / 2 ^ 64 := by norm_num

theorem near_cosFix {K ni : Nat} (hK : K < ni) : Near (cosSinFix K ni).1 (Real.cos (2 * Real.pi * K / ni)) := by
  refine near_of_cutAngle (y := Real.cos (cutAngle K ni)) ?_ ((Real.abs_cos_sub_cos_le _ _).trans (cutAngle_near hK))
  have h := (Complex.abs_re_le_norm _).trans (cosSinFix_near_exp hK)
  rwa [Complex.sub_re, Complex.exp_ofReal_mul_I_re, fixComplex_div_re] at h

theorem near_sinFix {K ni : Nat} (hK : K < ni) : Near (cosSinFix K ni).2 (Real.sin (2 * Real.pi * K / ni)) := by
  refine near_of_cutAngle (y := Real.sin (cutAngle K ni)) ?_ ((Real.abs_sin_sub_sin_le _ _).trans (cutAngle_near hK))
  have h := (Complex.abs_im_le_norm _).trans (cosSinFix_near_exp hK)
  rwa [Complex.sub_im, Complex.exp_ofReal_mul_I_im, fixComplex_div_im] at h

end Sys2Proof.Proofs
end

section
/-! PROOF. The values of the twiddle entries and of the kernel constants (41_twiddle_builder.md R143, R144; R163). An entry of
R144 encodes its cosine or sine exactly. Every other value is checked on integers, with room for the distance of the fixed-point
value from the real number: rounded once, and every encoding that a generator may choose within the bound. -/

namespace Sys2Proof.Proofs

open Sys2Proof Sys2Proof.Machine
open Sys2Proof.Config (Prec TwGen)

/-! ### The entries that R144 makes exact -/

theorem twgenCos_of_exact {g : TwGen} {f : Prec} {K ni : Nat} {v : Word} (h : exactCos f K ni = some v) :
    twgenCos g f K ni = v := by
  simp only [twgenCos, h]

theorem twgenSin_of_exact {g : TwGen} {f : Prec} {K ni : Nat} {v : Word} (h : exactSin f K ni = some v) :
    twgenSin g f K ni = v := by
  simp only [twgenSin, h]

theorem twgenCos_of_inexact {g : TwGen} {f : Prec} {K ni : Nat} (h : exactCos f K ni = none) :
    twgenCos g f K ni = generated g f false K ni (cosSinFix K ni).1 := by
  simp only [twgenCos, h]

theorem twgenSin_of_inexact {g : TwGen} {f : Prec} {K ni : Nat} (h : exactSin f K ni = none) :
    twgenSin g f K ni = generated g f true K ni (cosSinFix K ni).2 := by
  simp only [twgenSin, h]

section

variable (f : Prec) {K ni : Nat}

theorem exactCos_zero : exactCos f 0 ni = some (fpOne f) := if_pos rfl

theorem exactCos_half (hni : 0 < ni) (h : 2 * K = ni) : exactCos f K ni = some (fpNeg f (fpOne f)) := by
  rw [exactCos, if_neg (by omega), if_pos h]

theorem exactCos_quarter (hni : 0 < ni) (h : 4 * K = ni ∨ 4 * K = 3 * ni) : exactCos f K ni = some 0#64 := by
  rw [exactCos, if_neg (by omega), if_neg (by omega), if_pos h]

theorem exactCos_third (hni : 0 < ni) (h : 3 * K = ni ∨ 3 * K = 2 * ni) : exactCos f K ni = some (fpNeg f (fpHalf f)) := by
  rw [exactCos, if_neg (by omega), if_neg (by omega), if_neg (by omega), if_pos h]

theorem exactSin_half (h : K = 0 ∨ 2 * K = ni) : exactSin f K ni = some 0#64 := if_pos h

theorem exactSin_quarter (hni : 0 < ni) (h : 4 * K = ni) : exactSin f K ni = some (fpOne f) := by
  rw [exactSin, if_neg (by omega), if_pos h]

theorem exactSin_threeQuarters (hni : 0 < ni) (h : 4 * K = 3 * ni) : exactSin f K ni = some (fpNeg f (fpOne f)) := by
  rw [exactSin, if_neg (by omega), if_neg (by omega), if_pos h]

end

/-! ### What the exact entries encode -/

/-- The word is finite and encodes the real number exactly. -/
def Encodes (f : Prec) (v : Word) (x : ℝ) : Prop := fpFinite f v = true ∧ wordReal f v = x

/-- A word encodes num / den where its units say so on integers. -/
theorem encodes_of_units {f : Prec} {v : Word} (num : Int) (den : Nat) (hfin : fpFinite f v = true) (hden : den ≠ 0)
    (h : signedUnits f v * den = num * 2 ^ unitExp f) : Encodes f v (num / den) := by
  refine ⟨hfin, ?_⟩
  have hden : (den : ℝ) ≠ 0 := by exact_mod_cast hden
  have h : (signedUnits f v : ℝ) * den = num * 2 ^ unitExp f := by exact_mod_cast congrArg (Int.cast (R := ℝ)) h
  rw [wordReal, div_eq_div_iff (by positivity) hden, h]

section

variable (f : Prec)

theorem encodes_zero : Encodes f 0#64 0 := by
  simpa using encodes_of_units (f := f) 0 1 (by cases f <;> decide) (by decide) (by cases f <;> decide +kernel)

theorem encodes_one : Encodes f (fpOne f) 1 := by
  simpa using encodes_of_units (f := f) 1 1 (by cases f <;> decide) (by decide) (by cases f <;> decide +kernel)

theorem encodes_neg_one : Encodes f (fpNeg f (fpOne f)) (-1) := by
  simpa using encodes_of_units (f := f) (-1) 1 (by cases f <;> decide) (by decide) (by cases f <;> decide +kernel)

theorem encodes_half : Encodes f (fpHalf f) (1 / 2) := by
  simpa using encodes_of_units (f := f) 1 2 (by cases f <;> decide) (by decide) (by cases f <;> decide +kernel)

theorem encodes_neg_half : Encodes f (fpNeg f (fpHalf f)) (-1 / 2) := by
  simpa using encodes_of_units (f := f) (-1) 2 (by cases f <;> decide) (by decide) (by cases f <;> decide +kernel)

theorem encodes_quarter : Encodes f (fpQuarter f) (1 / 4) := by
  simpa using encodes_of_units (f := f) 1 4 (by cases f <;> decide) (by decide) (by cases f <;> decide +kernel)

end

/-- The angle of a / b turns. -/
theorem angle_eq {K ni a b : Nat} (hni : 0 < ni) (hb : 0 < b) (h : b * K = a * ni) :
    2 * Real.pi * K / ni = 2 * Real.pi * a / b := by
  have hni : (ni : ℝ) ≠ 0 := by positivity
  have hb : (b : ℝ) ≠ 0 := by positivity
  have h : (b : ℝ) * K = a * ni := by exact_mod_cast h
  rw [div_eq_div_iff hni hb]
  linear_combination 2 * Real.pi * h

theorem cos_two_thirds_pi : Real.cos (2 * Real.pi / 3) = -1 / 2 := by
  rw [show 2 * Real.pi / 3 = Real.pi - Real.pi / 3 by ring, Real.cos_pi_sub, Real.cos_pi_div_three]
  norm_num

theorem sin_two_thirds_pi : Real.sin (2 * Real.pi / 3) = Real.sqrt 3 / 2 := by
  rw [show 2 * Real.pi / 3 = Real.pi - Real.pi / 3 by ring, Real.sin_pi_sub, Real.sin_pi_div_three]

/-- The exact cosines are the cosines. -/
theorem encodes_exactCos {f : Prec} {K ni : Nat} {v : Word} (hni : 0 < ni) (h : exactCos f K ni = some v) :
    Encodes f v (Real.cos (2 * Real.pi * K / ni)) := by
  unfold exactCos at h
  split at h
  · next h0 =>
    obtain rfl := Option.some.inj h
    simpa [h0] using encodes_one f
  split at h
  · next h2 =>
    obtain rfl := Option.some.inj h
    rw [angle_eq (a := 1) hni two_pos (by omega)]
    simpa using encodes_neg_one f
  split at h
  · next h4 =>
    obtain rfl := Option.some.inj h
    have hcos : Real.cos (2 * Real.pi * K / ni) = 0 := by
      rcases h4 with h4 | h4
      · rw [angle_eq (a := 1) hni four_pos (by omega), ← Real.cos_pi_div_two]
        congr 1
        push_cast
        ring
      · rw [angle_eq (a := 3) hni four_pos h4, ← neg_zero, ← Real.cos_pi_div_two, ← Real.cos_add_pi]
        congr 1
        push_cast
        ring
    rw [hcos]
    exact encodes_zero f
  split at h
  · next h3 =>
    obtain rfl := Option.some.inj h
    have hcos : Real.cos (2 * Real.pi * K / ni) = -1 / 2 := by
      rcases h3 with h3 | h3
      · rw [angle_eq (a := 1) hni three_pos (by omega), ← cos_two_thirds_pi]
        simp
      · rw [angle_eq (a := 2) hni three_pos h3, ← cos_two_thirds_pi, ← Real.cos_two_pi_sub]
        congr 1
        push_cast
        ring
    rw [hcos]
    exact encodes_neg_half f
  · cases h

/-- The exact sines are the sines. -/
theorem encodes_exactSin {f : Prec} {K ni : Nat} {v : Word} (hni : 0 < ni) (h : exactSin f K ni = some v) :
    Encodes f v (Real.sin (2 * Real.pi * K / ni)) := by
  unfold exactSin at h
  split at h
  · next h2 =>
    obtain rfl := Option.some.inj h
    have hsin : Real.sin (2 * Real.pi * K / ni) = 0 := by
      rcases h2 with h0 | h2
      · simp [h0]
      · rw [angle_eq (a := 1) hni two_pos (by omega)]
        simp
    rw [hsin]
    exact encodes_zero f
  split at h
  · next h4 =>
    obtain rfl := Option.some.inj h
    rw [angle_eq (a := 1) hni four_pos (by omega), show 2 * Real.pi * (1 : Nat) / (4 : Nat) = Real.pi / 2 by push_cast; ring,
      Real.sin_pi_div_two]
    exact encodes_one f
  split at h
  · next h4 =>
    obtain rfl := Option.some.inj h
    rw [angle_eq (a := 3) hni four_pos h4,
      show 2 * Real.pi * (3 : Nat) / (4 : Nat) = Real.pi / 2 + Real.pi by push_cast; ring, Real.sin_add_pi,
      Real.sin_pi_div_two]
    exact encodes_neg_one f
  · cases h

/-! ### Rounding, checked on integers -/

theorem withinUlps_mono {f : Prec} {c c' x : ℝ} {v : Word} (h : withinUlps f c x v) (hc : c ≤ c') : withinUlps f c' x v := by
  obtain ⟨hfin, k, hlo, hhi, herr⟩ := h
  exact ⟨hfin, k, hlo, hhi, herr.trans (by gcongr)⟩

/-- A number that a word encodes is rounded to it without an error. -/
theorem Encodes.withinUlps {f : Prec} {c x : ℝ} {v : Word} (h : Encodes f v x) (hx : x ≠ 0) (hc : 0 ≤ c) :
    withinUlps f c x v := by
  obtain ⟨k, hlo, hhi⟩ := exists_mem_Ico_zpow (abs_pos.2 hx) (one_lt_two (α := ℝ))
  refine ⟨h.1, k, hlo, hhi, ?_⟩
  rw [h.2, sub_self, abs_zero]
  positivity

/-- The distance of `Near`, in units of 2^-320. -/
def slack : Nat := 2 ^ (fixBits - 64)

/-- log2 of one unit in the last place of a fixed-point value, in units of 2^-320. -/
def ulpLog (f : Prec) (c : Int) : Nat := bitLength c.natAbs - 1 - fracBits f

/-- The word is finite and lies within `halves` half units in the last place of every number near c, and these all lie in one
binade. -/
def closeToAllNear (f : Prec) (halves : Nat) (c : Int) (v : Word) : Bool :=
  fpFinite f v && decide (2 ^ (ulpLog f c + fracBits f) + (slack : Int) ≤ |c|) &&
  decide (|c| + (slack : Int) < 2 ^ (ulpLog f c + fracBits f + 1)) &&
  decide (2 * (|signedUnits f v * 2 ^ fixBits - c * 2 ^ unitExp f| + slack * 2 ^ unitExp f) ≤
    halves * 2 ^ ulpLog f c * 2 ^ unitExp f)

theorem slack_eq : (slack : ℝ) = 1 / 2 ^ 64 * 2 ^ fixBits := by
  rw [slack, show fixBits = fixBits - 64 + 64 from rfl, pow_add, Nat.add_sub_cancel, Nat.cast_pow, Nat.cast_ofNat]
  ring

/-- A power of 2 in units of 2^-320. -/
theorem two_zpow_sub_fixBits (e : Nat) : (2 : ℝ) ^ ((e : ℤ) - fixBits) = 2 ^ e / 2 ^ fixBits := by
  rw [zpow_sub₀ two_ne_zero, zpow_natCast, zpow_natCast]

/-- A number near c, in units of 2^-320. -/
theorem Near.scaled {c : Int} {x : ℝ} (h : Near c x) : |x * 2 ^ fixBits - c| ≤ slack := by
  have hS : (0 : ℝ) < 2 ^ fixBits := by positivity
  rw [slack_eq, show x * 2 ^ fixBits - c = (x - c / 2 ^ fixBits) * 2 ^ fixBits by field_simp, abs_mul, abs_of_pos hS]
  exact mul_le_mul_of_nonneg_right h hS.le

/-- How far a word lies from a number near c, on the common scale of the fixed-point values and the smallest subnormal. -/
theorem wordReal_dist_le {f : Prec} {c : Int} {x : ℝ} (v : Word) (hx : Near c x) :
    |wordReal f v - x| * (2 ^ fixBits * 2 ^ unitExp f) ≤
      |(signedUnits f v : ℝ) * 2 ^ fixBits - c * 2 ^ unitExp f| + slack * 2 ^ unitExp f := by
  have hS : (0 : ℝ) < 2 ^ fixBits := by positivity
  have hU : (0 : ℝ) < 2 ^ unitExp f := by positivity
  have hsplit : (wordReal f v - x) * (2 ^ fixBits * 2 ^ unitExp f) =
      (signedUnits f v * 2 ^ fixBits - c * 2 ^ unitExp f) - (x * 2 ^ fixBits - c) * 2 ^ unitExp f := by
    rw [wordReal]
    field_simp
    ring
  rw [← abs_of_pos (mul_pos hS hU), ← abs_mul, hsplit]
  refine (abs_sub _ _).trans (add_le_add le_rfl ?_)
  rw [abs_mul, abs_of_pos hU]
  exact mul_le_mul_of_nonneg_right hx.scaled hU.le

/-- What the check on integers says: the word is within its bound of every number near c. -/
theorem withinUlps_of_near {f : Prec} {halves : Nat} {c : Int} {x : ℝ} {v : Word} (hx : Near c x)
    (h : closeToAllNear f halves c v = true) : withinUlps f (halves / 2) x v := by
  simp only [closeToAllNear, Bool.and_eq_true, decide_eq_true_eq] at h
  obtain ⟨⟨⟨hfin, hlo⟩, hhi⟩, herr⟩ := h
  have hlo : (2 : ℝ) ^ (ulpLog f c + fracBits f) + slack ≤ |(c : ℝ)| := by exact_mod_cast hlo
  have hhi : |(c : ℝ)| + slack < 2 ^ (ulpLog f c + fracBits f + 1) := by exact_mod_cast hhi
  have herr : 2 * (|(signedUnits f v : ℝ) * 2 ^ fixBits - c * 2 ^ unitExp f| + slack * 2 ^ unitExp f) ≤
      halves * 2 ^ ulpLog f c * 2 ^ unitExp f := by exact_mod_cast herr
  have hS : (0 : ℝ) < 2 ^ fixBits := by positivity
  have hU : (0 : ℝ) < 2 ^ unitExp f := by positivity
  have habs : |(|x| * 2 ^ fixBits - |(c : ℝ)|)| ≤ slack := by
    have := abs_abs_sub_abs_le (x * 2 ^ fixBits) (c : ℝ)
    rw [abs_mul, abs_of_pos hS] at this
    exact this.trans hx.scaled
  rw [abs_le] at habs
  refine ⟨hfin, ((ulpLog f c + fracBits f : Nat) : ℤ) - fixBits, ?_, ?_, ?_⟩
  · rw [two_zpow_sub_fixBits, div_le_iff₀ hS]
    linarith
  · rw [sub_add_eq_add_sub, ← Nat.cast_succ, two_zpow_sub_fixBits, lt_div_iff₀ hS]
    exact (by linarith : |x| * 2 ^ fixBits ≤ |(c : ℝ)| + slack).trans_lt hhi
  · have hulp : ((ulpLog f c + fracBits f : Nat) : ℤ) - fixBits - fracBits f = (ulpLog f c : ℤ) - fixBits := by
      push_cast
      ring
    have hdist := wordReal_dist_le (f := f) v hx
    rw [hulp, two_zpow_sub_fixBits, mul_div_assoc', le_div_iff₀ hS]
    refine le_of_mul_le_mul_right ?_ hU
    linarith

/-- A word within half a unit of every number near c is each of them rounded once. -/
theorem roundedOnce_of_near {f : Prec} {c : Int} {x : ℝ} {v : Word} (hx : Near c x) (h : closeToAllNear f 1 c v = true) :
    withinUlps f (1 / 2) x v := by
  simpa using withinUlps_of_near hx h

/-! ### What a generator may choose -/

/-- The encodings an alternative generator chooses among (log 11). -/
def candidate (f : Prec) (c : Int) (j : Fin 3) : Word := BitVec.ofNat 64 ((roundFix f c).toNat + j.val - 1)

theorem generated_candidate (g : TwGen) (f : Prec) (sine : Bool) (K ni : Nat) (c : Int) :
    generated g f sine K ni c = roundFix f c ∨
      ∃ j, generated g f sine K ni c = candidate f c j ∧ withinUlp f c (candidate f c j) = true := by
  cases g with
  | correctlyRounded => exact .inl rfl
  | alternative k =>
    by_cases h : withinUlp f c (candidate f c (Config.twStep k f sine K ni)) = true
    · exact .inr ⟨_, if_pos h, h⟩
    · exact .inl (if_neg h)

/-- Whichever number near c is the exact one: the rounded encoding is within half a unit of it, and every encoding that the
model's bound allows within one. -/
def roundsAllNear (f : Prec) (c : Int) : Bool :=
  closeToAllNear f 1 c (roundFix f c) &&
  decide (∀ j, withinUlp f c (candidate f c j) = true → closeToAllNear f 2 c (candidate f c j) = true)

/-- R143 of one value: rounded once by the default generator, and within 1 unit by every one. -/
def RoundedByAll (f : Prec) (x : ℝ) (entry : TwGen → Word) : Prop :=
  withinUlps f (1 / 2) x (entry .correctlyRounded) ∧ ∀ g, withinUlps f 1 x (entry g)

theorem roundedByAll_generated {f : Prec} {c : Int} {x : ℝ} (sine : Bool) (K ni : Nat) (hx : Near c x)
    (h : roundsAllNear f c = true) : RoundedByAll f x fun g => generated g f sine K ni c := by
  simp only [roundsAllNear, Bool.and_eq_true, decide_eq_true_eq] at h
  obtain ⟨hround, hcandidates⟩ := h
  have hhalf := roundedOnce_of_near hx hround
  refine ⟨hhalf, fun g => (?_ : withinUlps f 1 x (generated g f sine K ni c))⟩
  obtain heq | ⟨j, heq, hj⟩ := generated_candidate g f sine K ni c
  · rw [heq]
    exact withinUlps_mono hhalf (by norm_num)
  · rw [heq]
    simpa using withinUlps_of_near hx (hcandidates j hj)

/-! ### The groups of 3, 5, 8 and 16 -/

/-- The values of these groups that R144 does not make exact leave the rounding no choice (log 14 for larger groups). -/
theorem smallGroups_roundsAllNear (f : Prec) : ∀ ni ∈ [3, 5, 8, 16], ∀ K, K < ni →
    (exactCos f K ni = none → roundsAllNear f (cosSinFix K ni).1 = true) ∧
    (exactSin f K ni = none → roundsAllNear f (cosSinFix K ni).2 = true) := by
  cases f <;> decide +kernel

section

variable (f : Prec) {K ni : Nat} (hni : ni ∈ [3, 5, 8, 16]) (hK : K < ni)
include hni hK

theorem roundedByAll_twgenCos {x : ℝ} (hx : x = Real.cos (2 * Real.pi * K / ni)) (h0 : x ≠ 0) :
    RoundedByAll f x fun g => twgenCos g f K ni := by
  subst hx
  cases hexact : exactCos f K ni with
  | some v =>
    have hv := encodes_exactCos (by omega) hexact
    simp only [RoundedByAll, twgenCos_of_exact hexact]
    exact ⟨hv.withinUlps h0 (by norm_num), fun _ => hv.withinUlps h0 (by norm_num)⟩
  | none =>
    simp only [twgenCos_of_inexact hexact]
    exact roundedByAll_generated _ _ _ (near_cosFix hK) ((smallGroups_roundsAllNear f ni hni K hK).1 hexact)

theorem roundedByAll_twgenSin {x : ℝ} (hx : x = Real.sin (2 * Real.pi * K / ni)) (h0 : x ≠ 0) :
    RoundedByAll f x fun g => twgenSin g f K ni := by
  subst hx
  cases hexact : exactSin f K ni with
  | some v =>
    have hv := encodes_exactSin (by omega) hexact
    simp only [RoundedByAll, twgenSin_of_exact hexact]
    exact ⟨hv.withinUlps h0 (by norm_num), fun _ => hv.withinUlps h0 (by norm_num)⟩
  | none =>
    simp only [twgenSin_of_inexact hexact]
    exact roundedByAll_generated _ _ _ (near_sinFix hK) ((smallGroups_roundsAllNear f ni hni K hK).2 hexact)

end

/-! ### The constants of the kernels (R163) -/

theorem roundedOnce_sqrtHalf (f : Prec) : withinUlps f (1 / 2) (Real.sqrt (1 / 2)) (fpSqrtHalf f) := by
  have hx : Real.sqrt (1 / 2) = Real.cos (2 * Real.pi * (1 : Nat) / (8 : Nat)) := by
    rw [show 2 * Real.pi * (1 : Nat) / (8 : Nat) = Real.pi / 4 by push_cast; ring, Real.cos_pi_div_four, Real.sqrt_div_self',
      Real.sqrt_div zero_le_one, Real.sqrt_one]
  rw [hx]
  exact roundedOnce_of_near (near_cosFix (by decide)) (by cases f <;> decide +kernel)

theorem roundedOnce_sin60 (f : Prec) : withinUlps f (1 / 2) (Real.sqrt 3 / 2) (fpSin60 f) := by
  have hx : Real.sqrt 3 / 2 = Real.sin (2 * Real.pi * (1 : Nat) / (3 : Nat)) := by
    rw [← sin_two_thirds_pi]
    simp
  rw [hx]
  exact roundedOnce_of_near (near_sinFix (by decide)) (by cases f <;> decide +kernel)

theorem roundedOnce_qrt5 (f : Prec) : withinUlps f (1 / 2) (Real.sqrt 5 / 4) (fpQrt5 f) := by
  have hx : Near ((cosSinFix 1 10).1 - 2 ^ (fixBits - 2)) (Real.sqrt 5 / 4) := by
    have h := near_cosFix (K := 1) (ni := 10) (by decide)
    rw [show 2 * Real.pi * (1 : Nat) / (10 : Nat) = Real.pi / 5 by push_cast; ring, Real.cos_pi_div_five] at h
    have hquarter : ((2 ^ (fixBits - 2) : Int) : ℝ) / 2 ^ fixBits = 1 / 4 := by
      rw [show fixBits = fixBits - 2 + 2 from rfl, pow_add, Nat.add_sub_cancel]
      push_cast
      field_simp
      norm_num
    rw [Near] at h ⊢
    rw [Int.cast_sub, sub_div, hquarter]
    convert h using 2
    ring
  exact roundedOnce_of_near hx (by cases f <;> decide +kernel)

theorem roundedOnce_sin36 (f : Prec) : withinUlps f (1 / 2) (Real.sin (Real.pi / 5)) (fpSin36 f) := by
  rw [show Real.pi / 5 = 2 * Real.pi * (1 : Nat) / (10 : Nat) by push_cast; ring]
  exact roundedOnce_of_near (near_sinFix (by decide)) (by cases f <;> decide +kernel)

theorem roundedOnce_sin72 (f : Prec) : withinUlps f (1 / 2) (Real.sin (2 * Real.pi / 5)) (fpSin72 f) := by
  rw [show 2 * Real.pi / 5 = 2 * Real.pi * (1 : Nat) / (5 : Nat) by push_cast; ring]
  exact roundedOnce_of_near (near_sinFix (by decide)) (by cases f <;> decide +kernel)

/-- Settles O30: the exact entries are the branches of `exactCos` and `exactSin`; the others and the constants come from values
near the real ones, which leave the rounding no choice. -/
theorem exactTwiddleEntries : Obligations.ExactTwiddleEntries := by
  refine ⟨fun g f K ni hni hK => ⟨fun h => ?_, fun h => ?_, fun h => ?_, fun h => ?_, fun h => ?_⟩,
    fun f K ni hni hK => ⟨fun x => roundedByAll_twgenCos f hni hK, fun x => roundedByAll_twgenSin f hni hK⟩,
    fun f => ⟨roundedOnce_sqrtHalf f, roundedOnce_sin60 f, roundedOnce_qrt5 f, roundedOnce_sin36 f, roundedOnce_sin72 f,
      (encodes_one f).2, (encodes_half f).2, (encodes_quarter f).2⟩⟩
  · subst h
    exact ⟨twgenCos_of_exact (exactCos_zero f), twgenSin_of_exact (exactSin_half f (.inl rfl))⟩
  · exact ⟨twgenCos_of_exact (exactCos_half f hni h), twgenSin_of_exact (exactSin_half f (.inr h))⟩
  · exact ⟨twgenCos_of_exact (exactCos_quarter f hni (.inl h)), twgenSin_of_exact (exactSin_quarter f hni h)⟩
  · exact ⟨twgenCos_of_exact (exactCos_quarter f hni (.inr h)), twgenSin_of_exact (exactSin_threeQuarters f hni h)⟩
  · exact twgenCos_of_exact (exactCos_third f hni h)

end Sys2Proof.Proofs
end

section
/-! PROOF. The execution commands that pass their checks (42_engine_common.md R164, R165; R220, R226, R236): what they leave in
`SIG` and in the counter of free values, and that a command whose engines all have exponent 0 leaves everything. -/

namespace Sys2Proof.Proofs

open Sys2Proof Sys2Proof.Machine
open Sys2Proof.Config (Prec Sign)

/-! ### Direct commands that pass their checks (R226) -/

section

variable {active : AxisPlan → Bool} {groups : AxisPlan → EngineDesc → List (List Nat)}
  {run : Prec → (free : Nat) → (tw : Memory) → AxisPlan → EngineDesc → Memory → Memory}
  {axis : BitVec 2} {dir : Dir} {split : Bool} {s : State} {sign : Sign}

theorem directCommand_noLots (ha : axis ≠ 0#2) (hn : axis ≤ s.plan.naxes)
    (hd : directionSign s.par.fwdSign dir = some sign) (hlot : argUnsigned s 4 = 0) :
    directCommand active groups run axis dir split s = succeed 0#32 0#32 0#32 s := by
  rw [directCommand, execPrologue_checked ha hn hd, if_pos hlot]

theorem directCommand_fits (ha : axis ≠ 0#2) (hn : axis ≤ s.plan.naxes)
    (hd : directionSign s.par.fwdSign dir = some sign) (hlot : argUnsigned s 4 ≠ 0)
    (hfit : fits s split
      (directEmax (planAxis s.plan axis).n.toNat (argUnsigned s 2) (argUnsigned s 3) (argUnsigned s 4))) :
    directCommand active groups run axis dir split s =
      succeed 0#32 0#32 0#32
        (onSignal (active (planAxis s.plan axis)) (directWords (planAxis s.plan axis).n.toNat split s)
          (groups (planAxis s.plan axis) (requestDesc (operandRequest axis sign split s)))
          (run s.par.prec s.free s.tw (planAxis s.plan axis) (requestDesc (operandRequest axis sign split s))) s) := by
  rw [directCommand, execPrologue_fits ha hn hd hlot hfit]
  rfl

/-- A command whose engines do not run on the axis completes with no effect. -/
theorem directCommand_inactive (ha : axis ≠ 0#2) (hn : axis ≤ s.plan.naxes) (hdir : dir = .forward ∨ dir = .inverse)
    (hfit : fits s split
      (directEmax (planAxis s.plan axis).n.toNat (argUnsigned s 2) (argUnsigned s 3) (argUnsigned s 4)))
    (hactive : active (planAxis s.plan axis) = false)
    (hrun : ∀ f free tw d sig, run f free tw (planAxis s.plan axis) d sig = sig) :
    directCommand active groups run axis dir split s = succeed 0#32 0#32 0#32 s := by
  obtain ⟨sign, hd⟩ := directionSign_of_direction (fwd := s.par.fwdSign) hdir
  by_cases hlot : argUnsigned s 4 = 0
  · exact directCommand_noLots ha hn hd hlot
  · rw [directCommand_fits ha hn hd hlot hfit, hactive, onSignal_inactive, hrun]

theorem directCommand_status (ha : axis ≠ 0#2) (hn : axis ≤ s.plan.naxes) (hdir : dir = .forward ∨ dir = .inverse)
    (hfit : argUnsigned s 4 = 0 ∨ fits s split
      (directEmax (planAxis s.plan axis).n.toNat (argUnsigned s 2) (argUnsigned s 3) (argUnsigned s 4))) :
    (directCommand active groups run axis dir split s).status = statusCompleted .ok := by
  obtain ⟨sign, hd⟩ := directionSign_of_direction (fwd := s.par.fwdSign) hdir
  by_cases hlot : argUnsigned s 4 = 0
  · rw [directCommand_noLots ha hn hd hlot, succeed_status]
  · rw [directCommand_fits ha hn hd hlot (hfit.resolve_left hlot), succeed_status]

/-- The groups of a request lie in the footprint that the operands describe. -/
theorem mem_directWords_of_group (hin : GroupsInside (requestDesc (operandRequest axis sign split s))
      (groups (planAxis s.plan axis) (requestDesc (operandRequest axis sign split s)))) :
    ∀ ws ∈ groups (planAxis s.plan axis) (requestDesc (operandRequest axis sign split s)), ∀ w ∈ ws,
      w ∈ directWords (planAxis s.plan axis).n.toNat split s := by
  intro ws hws w hw
  obtain ⟨t, ht, l, hl, hw⟩ := hin ws hws w hw
  rw [descWords_requestDesc] at hw
  obtain ⟨e, he, hw⟩ := mem_elementWords.1 hw
  exact mem_elementWords.2 ⟨e, mem_directElements.2 ⟨t, ht, l, hl, List.mem_singleton.1 he⟩, hw⟩

/-- On distinct words that all have a value the counter of free values stays. -/
theorem directCommand_free (hin : ∀ ax d, GroupsInside d (groups ax d)) (ha : axis ≠ 0#2) (hn : axis ≤ s.plan.naxes)
    (hdir : dir = .forward ∨ dir = .inverse)
    (hfit : argUnsigned s 4 = 0 ∨ fits s split
      (directEmax (planAxis s.plan axis).n.toNat (argUnsigned s 2) (argUnsigned s 3) (argUnsigned s 4)))
    (hnd : (directWords (planAxis s.plan axis).n.toNat split s).Nodup)
    (hw : ∀ w ∈ directWords (planAxis s.plan axis).n.toNat split s, wordAt s.par.prec s.sig w ≠ none) :
    (directCommand active groups run axis dir split s).free = s.free := by
  obtain ⟨sign, hd⟩ := directionSign_of_direction (fwd := s.par.fwdSign) hdir
  by_cases hlot : argUnsigned s 4 = 0
  · rw [directCommand_noLots ha hn hd hlot, succeed_free]
  · rw [directCommand_fits ha hn hd hlot (hfit.resolve_left hlot), onSignal_run _ _ s hnd, succeed_free]
    exact fun ws hws w hmem => hw w (mem_directWords_of_group (hin _ _) ws hws w hmem)

end

/-- Settles O36: the checks pass, so the command succeeds; every store it makes is into a word of its footprint. -/
theorem directCommandsComplete : Obligations.DirectCommandsComplete := by
  rintro s axis dir split n rfl ha hn hdir hfit make hmake
  obtain ⟨active, groups, run, hexec, hin, hkeeps, -⟩ := exec_direct hmake
  refine ⟨_, hexec axis dir split s, ?_, fun x hx => ?_, directCommand_free hin ha hn hdir hfit⟩
  · have hframe := directCommand_frame active groups run axis dir split s
    rwa [directCommand_status ha hn hdir hfit] at hframe
  · refine directCommand_keeps active groups run hin hkeeps (fun m => memRead m x = memRead s.sig x) axis dir split s rfl
      fun _ w hw m v hm => ?_
    rw [memRead_storeWord_outside _ _ _ _ fun he => hx (by rwa [inWords, he]), hm]

/-! ### Engines with exponent 0 (R164) -/

/-- An axis of length 1 has no factor. -/
theorem axisActive_of_length_one {ax : AxisPlan} (hg : ax.good) (h : ax.n = 1#32) : axisActive ax = false := by
  have hprod : 2 ^ ax.p.toNat * 3 ^ ax.q.toNat * 5 ^ ax.r.toNat = 1 := by rw [← hg.1, h]; rfl
  obtain ⟨h23, h5⟩ := mul_eq_one.1 hprod
  obtain ⟨h2, h3⟩ := mul_eq_one.1 h23
  have hzero : ∀ {b : Nat} {e : BitVec 5}, 1 < b → b ^ e.toNat = 1 → e = 0#5 := fun hb he =>
    BitVec.eq_of_toNat_eq ((Nat.pow_eq_one.1 he).resolve_left hb.ne')
  simp [axisActive, hzero (by decide) h2, hzero (by decide) h3, hzero (by decide) h5]

theorem planActive_eq_false {pl : Plan} (hn : pl.naxes ≠ 0#2) (h : ∀ ax ∈ pl.axes, axisActive ax = false) :
    planActive pl = false := by
  rcases naxes_cases hn with hn | hn | hn
  · rw [axes_of_naxes_one hn] at h
    simp_all [planActive]
  · rw [axes_of_naxes_two hn] at h
    simp_all [planActive]
  · rw [axes_of_naxes_three hn] at h
    simp_all [planActive]

/-- A `TRANSFORM` that passes its checks, on a plan without factors, completes with no effect. -/
theorem transform_inactive {dir : Dir} {split : Bool} {s : State} (hg : s.plan.good) (hn : s.plan.naxes ≠ 0#2)
    (hdir : dir = .forward ∨ dir = .inverse) (hfit : fits s split (planEmax s))
    (h : ∀ ax ∈ s.plan.axes, axisActive ax = false) : transform dir split s = succeed 0#32 0#32 0#32 s := by
  obtain ⟨sign, hd⟩ := directionSign_of_direction (fwd := s.par.fwdSign) hdir
  rw [transform_checked hn hd, if_pos ((inRange_eq s split _).2 hfit), runTransform, planActive_eq_false hn h,
    onSignal_inactive, runCalls_inactive]
  intro c hc
  obtain ⟨haxis, hle, -⟩ := schedule_inside hn (axisLength_pos hg (by decide)) (axisLength_pos hg (by decide)) c hc
  exact h _ (planAxis_mem_axes haxis hle)

/-- Settles O37: no engine runs, so each command only completes. -/
theorem absentGroupDoesNothing : Obligations.AbsentGroupDoesNothing := by
  constructor
  · rintro s axis dir split ha hn hdir hfit t rfl
    refine ⟨fun hp => ?_, fun hq => ?_, fun hr => ?_, fun hp hq hr => ?_⟩
    · exact congrArg _ (directCommand_inactive ha hn hdir hfit (by simp [hp]) fun _ _ _ _ _ => by simp [engine2, hp])
    · exact congrArg _ (directCommand_inactive ha hn hdir hfit (by simp [hq]) fun _ _ _ _ _ => by simp [engine3, hq])
    · exact congrArg _ (directCommand_inactive ha hn hdir hfit (by simp [hr]) fun _ _ _ _ _ => by simp [engine5, hr])
    · have hactive : axisActive (planAxis s.plan axis) = false := by simp [axisActive, hp, hq, hr]
      exact congrArg _ (directCommand_inactive ha hn hdir hfit hactive fun f free tw d sig =>
        dispatchCall_inactive f free tw d sig hactive)
  · intro s dir split hg hn hone hdir hfit
    exact congrArg _ (transform_inactive hg hn hdir hfit fun ax hax => axisActive_of_length_one (hg.axes ax hax) (hone ax hax))

end Sys2Proof.Proofs
end

section
/-! PROOF. Index arithmetic of the engines (42_engine_common.md R152, R154; R181, R201, R211). A pass list is mirrored: as many
type II passes of the engine's main radix at the end as type I passes at the front, and at most one type I pass between. -/

namespace Sys2Proof.Proofs

open Sys2Proof Sys2Proof.Machine

/-! ### How the pass lists grow -/

/-- The radix that the passes of an engine have but for the central one (R181, R201, R211). -/
def mainRadix : Prime → Radix
  | .two => .r4
  | .three => .r3
  | .five => .r5

/-- How many digits of base b a front pass and its mirror image take off together. -/
def growth : Prime → Nat
  | .two => 4
  | .three => 2
  | .five => 2

theorem mainRadix_sq (b : Prime) : radixVal (mainRadix b) ^ 2 = primeVal b ^ growth b := by cases b <;> rfl

theorem passes_succ (count : Nat) (radix : Radix) (typeII : Bool) :
    passes (count + 1) radix typeII = ⟨radix, typeII⟩ :: passes count radix typeII := List.replicate_succ

theorem passes_succ_last (count : Nat) (radix : Radix) (typeII : Bool) :
    passes (count + 1) radix typeII = passes count radix typeII ++ [⟨radix, typeII⟩] := List.replicate_succ'

theorem radix4Count_add_four (p : Nat) : radix4Count (p + 4) = radix4Count p + 2 := by
  unfold radix4Count
  split_ifs <;> omega

theorem centralPass_add_four (p : Nat) : centralPass (p + 4) = centralPass p := by
  have h2 : (p + 4) % 2 = p % 2 := by omega
  have h4 : (p + 4) % 4 = p % 4 := by omega
  simp only [centralPass, h2, h4]

theorem passList2_add_four (p : Nat) : passList2 (p + 4) = ⟨.r4, false⟩ :: (passList2 p ++ [⟨.r4, true⟩]) := by
  have hfront : (radix4Count (p + 4) + 1) / 2 = (radix4Count p + 1) / 2 + 1 := by
    rw [radix4Count_add_four]
    omega
  have hback : radix4Count (p + 4) - (radix4Count (p + 4) + 1) / 2 = radix4Count p - (radix4Count p + 1) / 2 + 1 := by
    rw [radix4Count_add_four]
    omega
  simp only [passList2, hback]
  rw [hfront, centralPass_add_four, passes_succ, passes_succ_last]
  simp only [List.cons_append, List.append_assoc]

theorem passListOdd_add_two (radix : Radix) (e : Nat) :
    passListOdd radix (e + 2) = ⟨radix, false⟩ :: (passListOdd radix e ++ [⟨radix, true⟩]) := by
  have hfront : (e + 2 + 1) / 2 = (e + 1) / 2 + 1 := by omega
  have hback : e + 2 - (e + 2 + 1) / 2 = e - (e + 1) / 2 + 1 := by omega
  simp only [passListOdd, hback]
  rw [hfront, passes_succ, passes_succ_last]
  simp only [List.cons_append, List.append_assoc]

/-- A list grows by one type I pass in front and one type II pass at the end. -/
theorem passList_add_growth (b : Prime) (mm : Nat) :
    passList b (mm + growth b) = ⟨mainRadix b, false⟩ :: (passList b mm ++ [⟨mainRadix b, true⟩]) := by
  cases b with
  | two => exact passList2_add_four mm
  | three => exact passListOdd_add_two .r3 mm
  | five => exact passListOdd_add_two .r5 mm

/-! ### Pass lists are mirrored -/

/-- The product of the radices of some passes. -/
def radixProduct (ps : List Pass) : Nat := (ps.map fun p => radixVal p.radix).prod

@[simp] theorem radixProduct_nil : radixProduct [] = 1 := rfl

@[simp] theorem radixProduct_cons (p : Pass) (ps : List Pass) :
    radixProduct (p :: ps) = radixVal p.radix * radixProduct ps := by simp [radixProduct]

@[simp] theorem radixProduct_append (ps qs : List Pass) :
    radixProduct (ps ++ qs) = radixProduct ps * radixProduct qs := by simp [radixProduct]

@[simp] theorem radixProduct_passes (count : Nat) (radix : Radix) (typeII : Bool) :
    radixProduct (passes count radix typeII) = radixVal radix ^ count := by simp [radixProduct, passes]

/-- `h` type I passes, the central passes, and `h` type II passes of the same radix. -/
def mirrored (rho : Radix) (h : Nat) (central : List Pass) : List Pass :=
  passes h rho false ++ central ++ passes h rho true

theorem mirrored_succ (rho : Radix) (h : Nat) (central : List Pass) :
    mirrored rho (h + 1) central = ⟨rho, false⟩ :: (mirrored rho h central ++ [⟨rho, true⟩]) := by
  simp only [mirrored, passes_succ h rho false, passes_succ_last h rho true, List.cons_append, List.append_assoc]

/-- No pass or one type I pass. -/
def Central (ps : List Pass) : Prop := ps = [] ∨ ∃ c, ps = [⟨c, false⟩]

theorem passList_short_central (b : Prime) (mm : Nat) (h : mm < growth b) :
    Central (passList b mm) ∧ radixProduct (passList b mm) = primeVal b ^ mm := by
  cases b with
  | two =>
    obtain rfl | rfl | rfl | rfl : mm = 0 ∨ mm = 1 ∨ mm = 2 ∨ mm = 3 := by simp only [growth] at h; omega
    · exact ⟨.inl rfl, rfl⟩
    all_goals exact ⟨.inr ⟨_, rfl⟩, rfl⟩
  | three | five =>
    obtain rfl | rfl : mm = 0 ∨ mm = 1 := by simp only [growth] at h; omega
    · exact ⟨.inl rfl, rfl⟩
    · exact ⟨.inr ⟨_, rfl⟩, rfl⟩

/-- The pass list of every exponent is mirrored, and its radices multiply to the group. -/
theorem passList_mirrored (b : Prime) (mm : Nat) :
    ∃ h central, passList b mm = mirrored (mainRadix b) h central ∧ Central central ∧
      radixProduct (passList b mm) = primeVal b ^ mm := by
  induction mm using Nat.strong_induction_on with
  | _ mm ih =>
    by_cases hshort : mm < growth b
    · obtain ⟨hcentral, hprod⟩ := passList_short_central b mm hshort
      exact ⟨0, _, by simp [mirrored, passes], hcentral, hprod⟩
    · obtain ⟨k, rfl⟩ := Nat.exists_eq_add_of_le' (Nat.le_of_not_lt hshort)
      have hpos : 0 < growth b := by cases b <;> decide
      obtain ⟨h, central, heq, hcentral, hprod⟩ := ih k (by omega)
      refine ⟨h + 1, central, by rw [passList_add_growth, heq, mirrored_succ], hcentral, ?_⟩
      rw [passList_add_growth, radixProduct_cons, radixProduct_append, hprod, pow_add, ← mainRadix_sq]
      simp only [radixProduct_cons, radixProduct_nil]
      ring

theorem radixProduct_passList (b : Prime) (mm : Nat) : radixProduct (passList b mm) = primeVal b ^ mm := by
  obtain ⟨_, _, _, _, hprod⟩ := passList_mirrored b mm
  exact hprod

/-- What stands in front of a pass that the first part of a list does not hold has that part in front. -/
theorem append_cons_split {α : Type} {l m before after : List α} {p : α} (h : l ++ m = before ++ p :: after) (hp : p ∉ l) :
    ∃ s, before = l ++ s ∧ m = s ++ p :: after := by
  rcases List.append_eq_append_iff.1 h with h | ⟨t, rfl, ht⟩
  · exact h
  · cases t with
    | nil => exact ⟨[], by simp, by simpa using ht.symm⟩
    | cons q t =>
      obtain rfl : p = q := (List.cons.inj ht).1
      simp at hp

/-- From the first type II pass on all passes are of type II, and `la` squared is a multiple of the group. -/
theorem mirrored_typeII {rho : Radix} {h : Nat} {central before after : List Pass} {p : Pass} (hcentral : Central central)
    (heq : mirrored rho h central = before ++ p :: after) (hp : p.typeII = true) :
    (∀ p' ∈ after, p'.typeII = true) ∧ radixProduct (mirrored rho h central) ∣ radixProduct before ^ 2 := by
  have hfront : p ∉ passes h rho false ++ central := by
    intro hmem
    rcases List.mem_append.1 hmem with hmem | hmem
    · rw [List.eq_of_mem_replicate hmem] at hp
      exact Bool.false_ne_true hp
    · obtain rfl | ⟨c, rfl⟩ := hcentral
      · exact List.not_mem_nil hmem
      · rw [List.mem_singleton.1 hmem] at hp
        exact Bool.false_ne_true hp
  obtain ⟨s, rfl, hback⟩ := append_cons_split heq hfront
  refine ⟨fun p' hp' => ?_, radixProduct central * radixProduct s ^ 2, ?_⟩
  · have hmem : p' ∈ passes h rho true := by rw [hback]; simp [hp']
    rw [List.eq_of_mem_replicate hmem]
  · simp only [mirrored, radixProduct_append, radixProduct_passes]
    ring

/-- Settles O48: the list is mirrored, and grows at both ends. -/
theorem passListsMultiplyToGroup : Obligations.PassListsMultiplyToGroup := by
  refine ⟨fun b mm _ => ⟨radixProduct_passList b mm, fun before after p heq => ⟨?_, fun hp => ?_⟩⟩,
    ⟨rfl, rfl, rfl, rfl, fun p _ => passList_add_growth .two p⟩, ⟨rfl, rfl, fun q _ => passList_add_growth .three q⟩,
    ⟨rfl, rfl, fun r _ => passList_add_growth .five r⟩⟩
  · refine ⟨radixProduct after, ?_⟩
    rw [← radixProduct_passList, heq, radixProduct_append, radixProduct_cons, ← mul_assoc]
    rfl
  · obtain ⟨h, central, hmir, hcentral, hprod⟩ := passList_mirrored b mm
    rw [← hprod, hmir]
    exact mirrored_typeII hcentral (hmir ▸ heq) hp

/-! ### The ring index (R152) -/

/-- The ring index tells the pairs apart: modulo each of the two coprime lengths it is a multiple of the other. -/
theorem ringIndex_inj {ni inq nu u nu' u' : Nat} (hco : Nat.Coprime ni inq) (hnu : nu < inq) (hnu' : nu' < inq) (hu : u < ni)
    (hu' : u' < ni) (h : ringIndex (ni * inq) ni inq nu u = ringIndex (ni * inq) ni inq nu' u') : nu = nu' ∧ u = u' := by
  have h : nu * ni + u * inq ≡ nu' * ni + u' * inq [MOD ni * inq] := h
  constructor
  · have hmod : nu * ni ≡ nu' * ni [MOD inq] := by
      simpa [Nat.ModEq] using h.of_mul_left ni
    exact (hmod.cancel_right_of_coprime hco.symm).eq_of_lt_of_lt hnu hnu'
  · have hmod : u * inq ≡ u' * inq [MOD ni] := by
      simpa [Nat.ModEq] using h.of_mul_right inq
    exact (hmod.cancel_right_of_coprime hco).eq_of_lt_of_lt hu hu'

/-- Settles O49: the ring index is injective on the pairs, and there are n of them. -/
theorem ringIndexIsBijection : Obligations.RingIndexIsBijection := by
  rintro ni inq _ hco rfl hn
  refine ⟨fun nu u => ringIndex_lt ni inq nu u hn, fun t ht => ?_⟩
  have hbij : Function.Bijective fun p : Fin inq × Fin ni =>
      (⟨ringIndex (ni * inq) ni inq p.1 p.2, ringIndex_lt ni inq p.1 p.2 hn⟩ : Fin (ni * inq)) := by
    refine (Fintype.bijective_iff_injective_and_card _).2 ⟨fun p p' h => ?_, by simp [Nat.mul_comm]⟩
    obtain ⟨hnu, hu⟩ := ringIndex_inj hco p.1.isLt p'.1.isLt p.2.isLt p'.2.isLt (Fin.mk.inj h)
    exact Prod.ext (Fin.ext hnu) (Fin.ext hu)
  obtain ⟨p, hp, huniq⟩ := hbij.existsUnique ⟨t, ht⟩
  refine ⟨(p.1, p.2), ⟨p.1.isLt, p.2.isLt, Fin.mk.inj hp⟩, ?_⟩
  rintro ⟨nu, u⟩ ⟨hnu, hu, h⟩
  rw [← huniq (⟨nu, hnu⟩, ⟨u, hu⟩) (Fin.ext h)]

end Sys2Proof.Proofs
end

section
/-! PROOF. The three operations on encodings (42_engine_common.md R160, R162). An operation on finite values writes a sign and
`roundUnits` of the exact magnitude, and that is the nearest encoding (`roundsTo_signed`); a NaN comes out of the branches that
name one, and of no other. -/

namespace Sys2Proof.Proofs

open Sys2Proof Sys2Proof.Machine
open Sys2Proof.Config (Prec FpOp)

/-! ### The fields of an encoding -/

/-- Below the sign bit lie the exponent and the fraction. -/
theorem two_pow_signBit (f : Prec) : 2 ^ (flen f - 1) = 2 ^ expBits f * 2 ^ fracBits f := by cases f <;> decide

theorem flen_pred_lt (f : Prec) : flen f - 1 < 64 := by cases f <;> decide

theorem expMax_add_one (f : Prec) : expMax f + 1 = 2 ^ expBits f := by cases f <;> decide

theorem fpSign_eq_testBit (f : Prec) (v : Word) : fpSign f v = v.toNat.testBit (flen f - 1) := rfl

section

variable (f : Prec) (neg : Bool) {bits : Nat} (h : bits < 2 ^ (flen f - 1))
include h

theorem fpSign_signed : fpSign f (signed f neg bits) = neg := by
  rw [fpSign_eq_testBit, signed_toNat f neg h]
  cases neg with
  | false => exact Nat.testBit_lt_two_pow h
  | true => rw [if_pos rfl, Nat.add_comm, Nat.testBit_two_pow_add_eq, Nat.testBit_lt_two_pow h, Bool.not_false]

theorem fpExp_signed : fpExp f (signed f neg bits) = bits / 2 ^ fracBits f := by
  rw [two_pow_signBit] at h
  have hexp : bits / 2 ^ fracBits f < 2 ^ expBits f := Nat.div_lt_of_lt_mul (by rwa [Nat.mul_comm])
  rw [fpExp, signed_toNat f neg (two_pow_signBit f ▸ h), two_pow_signBit]
  cases neg with
  | false => exact Nat.mod_eq_of_lt hexp
  | true => rw [if_pos rfl, Nat.add_mul_div_right _ _ (by positivity), Nat.add_mod_right, Nat.mod_eq_of_lt hexp]

theorem fpFrac_signed : fpFrac f (signed f neg bits) = bits % 2 ^ fracBits f := by
  rw [fpFrac, signed_toNat f neg h, two_pow_signBit]
  cases neg with
  | false => rfl
  | true => rw [if_pos rfl, Nat.add_mul_mod_self_right]

theorem isInf_signed : isInf f (signed f neg bits) = true ↔ bits = infBits f := by
  rw [isInf, fpExp_signed f neg h, fpFrac_signed f neg h, infBits, Bool.and_eq_true, beq_iff_eq, beq_iff_eq]
  have hdiv := Nat.div_add_mod' bits (2 ^ fracBits f)
  constructor
  · rintro ⟨hexp, hfrac⟩
    rw [← hdiv, hexp, hfrac, Nat.add_zero]
  · rintro rfl
    exact ⟨Nat.mul_div_cancel _ (by positivity), Nat.mul_mod_left _ _⟩

theorem fpFinite_signed : fpFinite f (signed f neg bits) = true ↔ bits < infBits f := by
  rw [fpFinite, fpExp_signed f neg h, infBits, decide_eq_true_iff, Nat.div_lt_iff_lt_mul (by positivity)]

theorem isNaN_signed : isNaN f (signed f neg bits) = true ↔ infBits f < bits := by
  have hexp : bits / 2 ^ fracBits f ≤ expMax f := by
    rw [← Nat.lt_add_one_iff, expMax_add_one]
    rw [two_pow_signBit, Nat.mul_comm] at h
    exact Nat.div_lt_of_lt_mul h
  have hdiv := Nat.div_add_mod' bits (2 ^ fracBits f)
  have hmod := Nat.mod_lt bits (show 0 < 2 ^ fracBits f by positivity)
  rw [isNaN, fpExp_signed f neg h, fpFrac_signed f neg h, infBits, Bool.and_eq_true, beq_iff_eq, bne_iff_ne]
  constructor
  · rintro ⟨heq, hfrac⟩
    rw [heq] at hdiv
    omega
  · intro hlt
    have hge : expMax f ≤ bits / 2 ^ fracBits f := (Nat.le_div_iff_mul_le (by positivity)).2 hlt.le
    have heq := le_antisymm hexp hge
    rw [heq] at hdiv
    exact ⟨heq, by omega⟩

end

theorem isNaN_signed_roundUnits (f : Prec) (neg : Bool) (m k : Nat) :
    isNaN f (signed f neg (roundUnits f m k)) = false := by
  have hle := roundUnits_le f m k
  have hlt := infBits_lt f
  rw [Bool.eq_false_iff, Ne, isNaN_signed f neg (by omega)]
  omega

/-! ### `neg` (R160) -/

theorem getLsbD_fpNeg (f : Prec) (v : Word) (k : Nat) :
    (fpNeg f v).getLsbD k = (v.getLsbD k ^^ decide (k = flen f - 1)) := by
  rw [fpNeg, BitVec.getLsbD_xor, BitVec.getLsbD_ofNat, Nat.testBit_two_pow]
  have hlt := flen_pred_lt f
  congr 1
  by_cases hk : k = flen f - 1
  · simp [hk, hlt]
  · simp [hk, Ne.symm hk]

@[simp] theorem fpSign_fpNeg (f : Prec) (v : Word) : fpSign f (fpNeg f v) = !fpSign f v := by
  rw [fpSign, getLsbD_fpNeg]
  simp [fpSign]

theorem getLsbD_fpNeg_ne (f : Prec) (v : Word) {k : Nat} (hk : k ≠ flen f - 1) : (fpNeg f v).getLsbD k = v.getLsbD k := by
  simp [getLsbD_fpNeg, hk]

/-- The bits below the sign bit are as they were. -/
theorem fpNeg_toNat_mod (f : Prec) (v : Word) :
    (fpNeg f v).toNat % 2 ^ (flen f - 1) = v.toNat % 2 ^ (flen f - 1) := by
  refine Nat.eq_of_testBit_eq fun k => ?_
  rw [Nat.testBit_mod_two_pow, Nat.testBit_mod_two_pow]
  by_cases hk : k < flen f - 1
  · exact congrArg _ (getLsbD_fpNeg_ne f v hk.ne)
  · simp [hk]

/-- The exponent and the fraction are read from the bits below the sign bit. -/
theorem fpExp_eq_mod (f : Prec) (v : Word) : fpExp f v = v.toNat % 2 ^ (flen f - 1) / 2 ^ fracBits f := by
  rw [fpExp, two_pow_signBit, Nat.mul_comm, Nat.mod_mul_right_div_self]

theorem fpFrac_eq_mod (f : Prec) (v : Word) : fpFrac f v = v.toNat % 2 ^ (flen f - 1) % 2 ^ fracBits f := by
  rw [fpFrac, two_pow_signBit, Nat.mod_mul_left_mod]

@[simp] theorem fpExp_fpNeg (f : Prec) (v : Word) : fpExp f (fpNeg f v) = fpExp f v := by
  rw [fpExp_eq_mod, fpExp_eq_mod, fpNeg_toNat_mod]

@[simp] theorem fpFrac_fpNeg (f : Prec) (v : Word) : fpFrac f (fpNeg f v) = fpFrac f v := by
  rw [fpFrac_eq_mod, fpFrac_eq_mod, fpNeg_toNat_mod]

@[simp] theorem isNaN_fpNeg (f : Prec) (v : Word) : isNaN f (fpNeg f v) = isNaN f v := by simp [isNaN]

@[simp] theorem isInf_fpNeg (f : Prec) (v : Word) : isInf f (fpNeg f v) = isInf f v := by simp [isInf]

@[simp] theorem fpFinite_fpNeg (f : Prec) (v : Word) : fpFinite f (fpNeg f v) = fpFinite f v := by simp [fpFinite]

@[simp] theorem signedUnits_fpNeg (f : Prec) (v : Word) : signedUnits f (fpNeg f v) = -signedUnits f v := by
  cases hs : fpSign f v <;> simp [signedUnits, magUnits, hs]

/-! ### Where NaNs arise (R162) -/

@[simp] theorem isNaN_nanResult (f : Prec) (op : FpOp) (a b : Word) : isNaN f (nanResult f op a b) = true := by
  have hroom : infBits f + 2 ^ fracBits f = 2 ^ (flen f - 1) := by cases f <;> decide
  have hone : 1 < 2 ^ fracBits f := by cases f <;> decide
  have hfrac : fpFrac f (truncWord f (Config.nanWord f op a b)) < 2 ^ fracBits f := Nat.mod_lt _ (by positivity)
  unfold nanResult
  dsimp only
  split
  · rw [isNaN_signed f _ (by omega)]
    omega
  · rw [isNaN_signed f _ (by omega)]
    omega

/-- A sum is a NaN exactly where an operand is, or where opposite infinities are added. -/
theorem isNaN_fpSum (f : Prec) {nan : Word} (a b : Word) (hnan : isNaN f nan = true) :
    isNaN f (fpSum f nan a b) = true ↔ isNaN f a = true ∨ isNaN f b = true ∨
      (isInf f a = true ∧ isInf f b = true ∧ fpSign f a ≠ fpSign f b) := by
  unfold fpSum
  split
  · next h => simp_all [or_assoc.symm]
  · next h =>
    simp only [Bool.or_eq_true, not_or, Bool.not_eq_true] at h
    obtain ⟨ha, hb⟩ := h
    split
    · next hinf => split <;> simp_all
    · next hinf =>
      have hzero : ∀ neg, isNaN f (signed f neg 0) = false := fun neg => by
        rw [Bool.eq_false_iff, Ne, isNaN_signed f neg (by positivity)]
        omega
      dsimp only
      split_ifs <;> simp [ha, hb, hinf, hzero, isNaN_signed_roundUnits]

/-- A product is a NaN exactly where an operand is, or where an infinity meets a zero. -/
theorem isNaN_fpMul (f : Prec) (a b : Word) :
    isNaN f (fpMul f a b) = true ↔ isNaN f a = true ∨ isNaN f b = true ∨
      (isInf f a = true ∧ isZero f b = true) ∨ (isZero f a = true ∧ isInf f b = true) := by
  have hzero : ∀ v, isInf f v = true → isZero f v = false := fun v hv => by
    have hmax : expMax f ≠ 0 := by cases f <;> decide
    simp only [isInf, Bool.and_eq_true, beq_iff_eq] at hv
    simp [isZero, hv.1, hmax]
  have hinf : ∀ neg, isNaN f (signed f neg (infBits f)) = false := fun neg => by
    have := infBits_lt f
    rw [Bool.eq_false_iff, Ne, isNaN_signed f neg (by omega)]
    omega
  unfold fpMul
  dsimp only
  split
  · next h => simp_all [or_assoc.symm]
  · next h =>
    simp only [Bool.or_eq_true, not_or, Bool.not_eq_true] at h
    obtain ⟨ha, hb⟩ := h
    split
    · next hia =>
      split
      · next hz => simp [hia, hz]
      · next hz => simp [ha, hb, hia, hz, hinf, hzero a hia]
    · next hia =>
      split
      · next hib =>
        split
        · next hz => simp [hib, hz]
        · next hz => simp [ha, hb, hia, hz, hinf]
      · next hib => simp [ha, hb, hia, hib, isNaN_signed_roundUnits]

/-- Settles O55: a difference is the sum with the negated second operand, which has the same class and the other sign. -/
theorem whereNaNsArise : Obligations.WhereNaNsArise := by
  refine fun f a b => ⟨isNaN_fpSum f a b (isNaN_nanResult ..), ?_, isNaN_fpMul f a b⟩
  rw [fpSub, isNaN_fpSum f a (fpNeg f b) (isNaN_nanResult ..)]
  simp

/-! ### Rounding to an integer -/

/-- The rounded quotient is within half of the exact one, and where it is half away it is even. -/
theorem roundNearestEven_near (m k : Nat) :
    2 * |(m : ℤ) - roundNearestEven m k * 2 ^ k| ≤ 2 ^ k ∧
      (2 * |(m : ℤ) - roundNearestEven m k * 2 ^ k| = 2 ^ k → roundNearestEven m k % 2 = 0) := by
  have hdiv := Nat.div_add_mod' m (2 ^ k)
  have hmod := Nat.mod_lt m (show 0 < 2 ^ k by positivity)
  have hcast : (m : ℤ) = (m / 2 ^ k : Nat) * (2 ^ k : Nat) + (m % 2 ^ k : Nat) := by exact_mod_cast hdiv.symm
  have hpow : (2 : ℤ) ^ k = (2 ^ k : Nat) := by push_cast; rfl
  rw [hpow, hcast]
  unfold roundNearestEven
  dsimp only
  generalize 2 ^ k = D at *
  generalize m / D = quot at *
  generalize m % D = rest at *
  split
  · next hup =>
    have hrest : ((quot : ℤ) * D + rest) - (quot + 1 : Nat) * D = rest - D := by push_cast; ring
    rw [hrest, abs_of_nonpos (by omega)]
    exact ⟨by omega, fun htie => by omega⟩
  · next hdown =>
    have hrest : ((quot : ℤ) * D + rest) - quot * D = rest := by ring
    rw [hrest, abs_of_nonneg (by omega)]
    exact ⟨by omega, fun htie => by omega⟩

theorem roundNearestEven_bounds (m k : Nat) :
    m / 2 ^ k ≤ roundNearestEven m k ∧ roundNearestEven m k ≤ m / 2 ^ k + 1 := by
  unfold roundNearestEven
  dsimp only
  split <;> omega

/-- Of the multiples of D one that is at most D/2 off is the nearest, and no other is as near unless it is D/2 off. -/
theorem multiple_nearest {x D q z : ℤ} (h : 2 * |x - q * D| ≤ D) (hz : z ≠ q) :
    |x - q * D| ≤ |x - z * D| ∧ (|x - q * D| = |x - z * D| → 2 * |x - q * D| = D) := by
  have hD : 0 ≤ D := le_trans (by positivity) h
  have hapart : D ≤ |(z - q) * D| := by
    rw [abs_mul, abs_of_nonneg hD]
    exact le_mul_of_one_le_left hD (Int.one_le_abs (sub_ne_zero.2 hz))
  have htri : |(z - q) * D| ≤ |x - q * D| + |x - z * D| := by
    calc |(z - q) * D| = |(x - q * D) - (x - z * D)| := congrArg _ (by ring)
      _ ≤ _ := abs_sub _ _
  constructor
  · omega
  · intro heq
    omega

/-- Rounding goes up to an even number from half below it on. -/
theorem even_le_rounded_iff {x D q N : ℤ} (hD : 0 < D) (hnear : 2 * |x - q * D| ≤ D)
    (heven : 2 * |x - q * D| = D → q % 2 = 0) (hN : N % 2 = 0) : N ≤ q ↔ (2 * N - 1) * D ≤ 2 * x := by
  have hlo := neg_abs_le (x - q * D)
  have hhi := le_abs_self (x - q * D)
  constructor
  · intro hle
    nlinarith
  · intro hle
    by_contra hlt
    have hq : q = N - 1 := by
      by_contra hne
      have : q ≤ N - 2 := by omega
      nlinarith
    have htie : 2 * |x - q * D| = D := le_antisymm hnear (by rw [hq] at hhi ⊢; nlinarith)
    have := heven htie
    omega

/-! ### Rounding to the format (R160) -/

theorem bitLength_lt (x : Nat) : x < 2 ^ bitLength x := by
  unfold bitLength
  split
  · next h => simp [h]
  · exact Nat.lt_log2_self

theorem le_of_bitLength {x n : Nat} (h : bitLength x = n + 1) : 2 ^ n ≤ x := by
  unfold bitLength at h
  split at h
  · omega
  · next hx =>
    obtain rfl : x.log2 = n := by omega
    exact Nat.log2_self_le hx

/-- q · 2^shift, in units of the smallest subnormal, is m / 2^k rounded to the significands of the format with the binade of
m / 2^k, or to whole units among the subnormals. -/
structure RoundsToSignificand (f : Prec) (m k shift q : Nat) : Prop where
  le : q ≤ 2 ^ (fracBits f + 1)
  ge : shift ≠ 0 → 2 ^ fracBits f ≤ q
  near : 2 * |(m : ℤ) - q * 2 ^ (k + shift)| ≤ 2 ^ (k + shift)
  even : 2 * |(m : ℤ) - q * 2 ^ (k + shift)| = 2 ^ (k + shift) → q % 2 = 0
  lt : m < 2 ^ (fracBits f + 1) * 2 ^ (k + shift)
  normal : shift ≠ 0 → 2 ^ fracBits f * 2 ^ (k + shift) ≤ m

/-- What `roundUnits` computes: a significand, encoded, or an infinity in its place. -/
theorem roundUnits_spec (f : Prec) (m k : Nat) :
    ∃ shift q, RoundsToSignificand f m k shift q ∧
      roundUnits f m k = if infBits f ≤ q + shift * 2 ^ fracBits f then infBits f else q + shift * 2 ^ fracBits f := by
  obtain ⟨shift, hshift⟩ : ∃ shift, bitLength (m / 2 ^ k) - (fracBits f + 1) = shift := ⟨_, rfl⟩
  have hquot : m / 2 ^ (k + shift) = m / 2 ^ k / 2 ^ shift := by rw [pow_add, Nat.div_div_eq_div_mul]
  have hlt : m / 2 ^ (k + shift) < 2 ^ (fracBits f + 1) := by
    rw [hquot, Nat.div_lt_iff_lt_mul (by positivity), ← pow_add]
    exact (bitLength_lt _).trans_le (Nat.pow_le_pow_right (by decide) (by omega))
  have hnormal : shift ≠ 0 → 2 ^ fracBits f ≤ m / 2 ^ (k + shift) := fun h0 => by
    rw [hquot, Nat.le_div_iff_mul_le (by positivity), ← pow_add]
    exact le_of_bitLength (by omega)
  obtain ⟨hge, hle⟩ := roundNearestEven_bounds m (k + shift)
  obtain ⟨hnear, heven⟩ := roundNearestEven_near m (k + shift)
  refine ⟨shift, roundNearestEven m (k + shift), ⟨by omega, fun h0 => (hnormal h0).trans hge, hnear, heven, ?_, ?_⟩, ?_⟩
  · exact (Nat.div_lt_iff_lt_mul (by positivity)).1 hlt
  · exact fun h0 => (Nat.le_div_iff_mul_le (by positivity)).1 (hnormal h0)
  · rw [← hshift]
    rfl

/-- A significand does not fit the exponent range exactly from the overflow threshold on. -/
theorem RoundsToSignificand.overflow_iff {f : Prec} {m k shift q : Nat} (h : RoundsToSignificand f m k shift q) :
    infBits f ≤ q + shift * 2 ^ fracBits f ↔ overflowUnits f * 2 ^ k ≤ m := by
  obtain ⟨e, he⟩ : ∃ e, expMax f = e + 3 := ⟨expMax f - 3, by cases f <;> rfl⟩
  obtain ⟨hle, hge, hnear, heven, hlt, hnormal⟩ := h
  have hover : overflowUnits f * 2 ^ k = (4 * 2 ^ fracBits f - 1) * 2 ^ (k + e) := by
    rw [overflowUnits, he, Nat.add_sub_cancel, pow_add 2 (fracBits f) 2, Nat.mul_comm _ (2 ^ 2), pow_add, mul_assoc,
      Nat.mul_comm (2 ^ e)]
    rfl
  have hP : 0 < 2 ^ fracBits f := by positivity
  rw [hover, infBits, he]
  rw [pow_succ] at hle hlt
  generalize 2 ^ fracBits f = P at *
  rcases Nat.lt_trichotomy shift (e + 1) with hs | rfl | hs
  · have hpow : 2 ^ (k + shift) ≤ 2 ^ (k + e) := Nat.pow_le_pow_right (by decide) (by omega)
    have hfit : q + shift * P < (e + 3) * P := by nlinarith
    have hbelow : m < (4 * P - 1) * 2 ^ (k + e) :=
      hlt.trans_le ((Nat.mul_le_mul_left _ hpow).trans (Nat.mul_le_mul_right _ (by omega)))
    omega
  · have hfull : (e + 3) * P ≤ q + (e + 1) * P ↔ ((2 * P : Nat) : ℤ) ≤ q := by
      rw [Int.ofNat_le]
      constructor <;> intro h <;> nlinarith
    have hdouble : (2 : ℤ) ^ (k + (e + 1)) = 2 * (2 ^ (k + e) : Nat) := by
      rw [← add_assoc, pow_succ]
      push_cast
      ring
    rw [hdouble] at hnear heven
    have hparity : 2 * |(m : ℤ) - q * (2 * (2 ^ (k + e) : Nat))| = 2 * (2 ^ (k + e) : Nat) → (q : ℤ) % 2 = 0 := fun htie => by
      exact_mod_cast heven htie
    rw [hfull, even_le_rounded_iff (by positivity) hnear hparity (by omega), ← Int.ofNat_le]
    push_cast [show 1 ≤ 4 * P by omega]
    constructor <;> intro h <;> linarith
  · have hpow : 4 * 2 ^ (k + e) ≤ 2 ^ (k + shift) := by
      calc 4 * 2 ^ (k + e) = 2 ^ (k + e + 2) := by rw [pow_add]; ring
        _ ≤ 2 ^ (k + shift) := Nat.pow_le_pow_right (by decide) (by omega)
    have hfull : (e + 3) * P ≤ q + shift * P := by
      have := hge (by omega)
      nlinarith
    have habove : (4 * P - 1) * 2 ^ (k + e) ≤ m := by
      refine le_trans ?_ (hnormal (by omega))
      calc (4 * P - 1) * 2 ^ (k + e) ≤ 4 * P * 2 ^ (k + e) := Nat.mul_le_mul_right _ (by omega)
        _ = P * (4 * 2 ^ (k + e)) := by ring
        _ ≤ P * 2 ^ (k + shift) := Nat.mul_le_mul_left _ hpow
    exact iff_of_true hfull habove

/-- The encoding of a significand in the exponent range is that of its exact value. -/
theorem magUnits_signed {f : Prec} {m k shift q : Nat} (h : RoundsToSignificand f m k shift q)
    (hfin : q + shift * 2 ^ fracBits f < infBits f) (neg : Bool) :
    magUnits f (signed f neg (q + shift * 2 ^ fracBits f)) = q * 2 ^ shift := by
  have hroom := infBits_lt f
  have hP : 0 < 2 ^ fracBits f := by positivity
  rw [magUnits, fpExp_signed f neg (by omega), fpFrac_signed f neg (by omega), Nat.add_mul_mod_self_right,
    Nat.add_mul_div_right _ _ hP]
  have hle := h.le
  rw [pow_succ] at hle
  rcases Nat.lt_or_ge q (2 ^ fracBits f) with hq | hq
  · obtain rfl : shift = 0 := by
      by_contra h0
      exact absurd (h.ge h0) (by omega)
    simp [Nat.div_eq_of_lt hq, Nat.mod_eq_of_lt hq]
  rcases Nat.lt_or_ge q (2 ^ fracBits f * 2) with hq2 | hq2
  · obtain ⟨r, rfl⟩ := Nat.exists_eq_add_of_le hq
    have hr : r < 2 ^ fracBits f := by omega
    rw [Nat.add_mod_left, Nat.mod_eq_of_lt hr, Nat.add_div_left _ hP, Nat.div_eq_of_lt hr, if_neg (by omega),
      show 0 + 1 + shift - 1 = shift by omega, Nat.add_comm r]
  · obtain rfl : q = 2 ^ fracBits f * 2 := le_antisymm hle hq2
    rw [Nat.mul_mod_right, Nat.mul_div_cancel_left _ hP, if_neg (by omega), show 2 + shift - 1 = shift + 1 by omega, pow_succ]
    ring

/-- A finite value is a significand of the format times a power of two. -/
theorem signedUnits_finite (f : Prec) (y : Word) :
    ∃ c e : Nat, c < 2 ^ (fracBits f + 1) ∧ |signedUnits f y| = c * 2 ^ e := by
  refine ⟨_, _, ?_, show |signedUnits f y| = ((fpFrac f y + if fpExp f y = 0 then 0 else 2 ^ fracBits f : Nat) : ℤ) *
    2 ^ (fpExp f y - 1) from ?_⟩
  · have : fpFrac f y < 2 ^ fracBits f := Nat.mod_lt _ (by positivity)
    rw [pow_succ]
    split <;> omega
  · have hmag : |signedUnits f y| = magUnits f y := by
      unfold signedUnits
      split <;> simp
    rw [hmag, magUnits]
    push_cast
    rfl

/-- No value of the format is nearer, and another one as near leaves an even significand: below the binade of m / 2^k all values
are farther than its least number, and within it they are multiples of the unit that was rounded to. -/
theorem RoundsToSignificand.nearest {f : Prec} {m k shift q : Nat} (h : RoundsToSignificand f m k shift q) {y : ℤ}
    {c e : Nat} (hc : c < 2 ^ (fracBits f + 1)) (hy : |y| = c * 2 ^ e) :
    |(m : ℤ) - q * 2 ^ shift * 2 ^ k| ≤ |(m : ℤ) - y * 2 ^ k| ∧
      (|(m : ℤ) - q * 2 ^ shift * 2 ^ k| = |(m : ℤ) - y * 2 ^ k| → y ≠ q * 2 ^ shift → q % 2 = 0) := by
  have hunit : ∀ z : ℤ, z * 2 ^ shift * 2 ^ k = z * 2 ^ (k + shift) := fun z => by rw [pow_add]; ring
  have hmultiple : ∀ z : ℤ, |(m : ℤ) - q * 2 ^ (k + shift)| ≤ |(m : ℤ) - z * 2 ^ (k + shift)| ∧
      (|(m : ℤ) - q * 2 ^ (k + shift)| = |(m : ℤ) - z * 2 ^ (k + shift)| → z ≠ q → q % 2 = 0) := fun z => by
    rcases eq_or_ne z q with rfl | hz
    · exact ⟨le_rfl, fun _ hne => absurd rfl hne⟩
    · obtain ⟨hle, htie⟩ := multiple_nearest h.near hz
      exact ⟨hle, fun heq _ => h.even (htie heq)⟩
  rw [hunit]
  rcases Nat.lt_or_ge e shift with he | he
  · have hlt : (c : ℤ) * 2 ^ e < 2 ^ fracBits f * 2 ^ shift := by
      have hpow : c * 2 ^ e < 2 ^ fracBits f * 2 ^ shift := by
        calc c * 2 ^ e < 2 ^ (fracBits f + 1) * 2 ^ e := Nat.mul_lt_mul_of_pos_right hc (by positivity)
          _ = 2 ^ fracBits f * 2 ^ (e + 1) := by ring
          _ ≤ 2 ^ fracBits f * 2 ^ shift := Nat.mul_le_mul_left _ (Nat.pow_le_pow_right (by decide) he)
      exact_mod_cast hpow
    have hbelow : y * 2 ^ k < 2 ^ fracBits f * 2 ^ (k + shift) := by
      rw [← hunit]
      exact mul_lt_mul_of_pos_right ((le_abs_self y).trans_lt (hy ▸ hlt)) (by positivity)
    have hnormal : (2 : ℤ) ^ fracBits f * 2 ^ (k + shift) ≤ m := by exact_mod_cast h.normal (by omega)
    have hleast := (hmultiple (2 ^ fracBits f)).1
    rw [abs_of_nonneg (sub_nonneg.2 hnormal)] at hleast
    have hfar : |(m : ℤ) - q * 2 ^ (k + shift)| < |(m : ℤ) - y * 2 ^ k| := by
      have := le_abs_self ((m : ℤ) - y * 2 ^ k)
      omega
    exact ⟨hfar.le, fun heq => absurd heq hfar.ne⟩
  · obtain ⟨z, rfl⟩ : (2 : ℤ) ^ shift ∣ y := by
      rw [← dvd_abs, hy]
      exact dvd_mul_of_dvd_right (pow_dvd_pow 2 he) _
    rw [mul_comm _ z, hunit]
    exact ⟨(hmultiple z).1, fun heq hne => (hmultiple z).2 heq fun hz => hne (by rw [hz])⟩

theorem signedUnits_signed {f : Prec} {m k shift q : Nat} (h : RoundsToSignificand f m k shift q)
    (hfin : q + shift * 2 ^ fracBits f < infBits f) (neg : Bool) :
    signedUnits f (signed f neg (q + shift * 2 ^ fracBits f)) =
      if neg then -((q : ℤ) * 2 ^ shift) else q * 2 ^ shift := by
  have hroom := infBits_lt f
  rw [signedUnits, fpSign_signed f neg (by omega), magUnits_signed h hfin]
  push_cast
  rfl

theorem abs_signed_sub (neg : Bool) (a x d : ℤ) :
    |(if neg then -a else a) - x * d| = |a - (if neg then -x else x) * d| := by
  cases neg with
  | false => rfl
  | true =>
    rw [if_pos rfl, if_pos rfl, ← abs_neg]
    congr 1
    ring

/-- A sign with the rounded magnitude is the signed number rounded once. -/
theorem roundsTo_signed (f : Prec) (neg : Bool) (m k : Nat) :
    roundsTo f (if neg then -(m : ℤ) else m) k (signed f neg (roundUnits f m k)) := by
  obtain ⟨shift, q, h, hround⟩ := roundUnits_spec f m k
  have hroom := infBits_lt f
  have habs : (if neg then -(m : ℤ) else m).natAbs = m := by cases neg <;> simp
  rw [roundsTo, habs]
  split
  · next hover =>
    rw [hround, if_pos (h.overflow_iff.2 hover), isInf_signed f neg (by omega), fpSign_signed f neg (by omega)]
    have hpos : 0 < overflowUnits f := by cases f <;> decide +kernel
    have hm : 0 < m := (Nat.mul_pos hpos (by positivity)).trans_le hover
    exact ⟨rfl, by cases neg <;> simp [hm]⟩
  · next hover =>
    have hfin : q + shift * 2 ^ fracBits f < infBits f := Nat.lt_of_not_le fun hinf => hover (h.overflow_iff.1 hinf)
    rw [hround, if_neg (by omega), fpFinite_signed f neg (by omega)]
    refine ⟨hfin, fun y _ => ?_⟩
    obtain ⟨c, e, hc, hy⟩ := signedUnits_finite f y
    have hflip : |if neg then -signedUnits f y else signedUnits f y| = c * 2 ^ e := by cases neg <;> simpa using hy
    obtain ⟨hle, htie⟩ := h.nearest hc hflip
    have heven : fpFrac f (signed f neg (q + shift * 2 ^ fracBits f)) % 2 = q % 2 := by
      rw [fpFrac_signed f neg (by omega), Nat.add_mul_mod_self_right, Nat.mod_mod_of_dvd _ (by cases f <;> decide)]
    rw [abs_signed_sub, abs_signed_sub, signedUnits_signed h hfin neg, heven]
    cases neg with
    | false => exact ⟨hle, htie⟩
    | true =>
      simp only [if_true, neg_neg] at hle htie ⊢
      exact ⟨hle, fun heq hne => htie heq fun hy => hne (by rw [← hy, neg_neg])⟩

/-! ### The operations on finite values (R160) -/

theorem isNaN_eq_false_of_finite {f : Prec} {v : Word} (h : fpFinite f v = true) : isNaN f v = false := by
  have hne : fpExp f v ≠ expMax f := (of_decide_eq_true h).ne
  simp [isNaN, hne]

theorem isInf_eq_false_of_finite {f : Prec} {v : Word} (h : fpFinite f v = true) : isInf f v = false := by
  have hne : fpExp f v ≠ expMax f := (of_decide_eq_true h).ne
  simp [isInf, hne]

theorem roundUnits_zero (f : Prec) : roundUnits f 0 0 = 0 := by cases f <;> rfl

section

variable {f : Prec} {a b : Word} (ha : fpFinite f a = true) (hb : fpFinite f b = true)
include ha hb

/-- The sum of finite values: a sign, and the magnitude of the exact sum, rounded. -/
theorem fpSum_finite (nan : Word) :
    fpSum f nan a b =
      signed f (if signedUnits f a + signedUnits f b = 0 then fpSign f a && fpSign f b
        else decide (signedUnits f a + signedUnits f b < 0)) (roundUnits f (signedUnits f a + signedUnits f b).natAbs 0) := by
  simp only [fpSum, isNaN_eq_false_of_finite ha, isNaN_eq_false_of_finite hb, isInf_eq_false_of_finite ha,
    isInf_eq_false_of_finite hb, Bool.or_self, Bool.false_eq_true, if_false]
  split
  · next h => rw [h, Int.natAbs_zero, roundUnits_zero]
  · rfl

/-- The sum of finite values is rounded once, and a zero sum is negative where both operands are. -/
theorem fpSum_rounds (nan : Word) :
    roundsTo f (signedUnits f a + signedUnits f b) 0 (fpSum f nan a b) ∧
      (signedUnits f a + signedUnits f b = 0 → fpSign f (fpSum f nan a b) = (fpSign f a && fpSign f b)) := by
  rw [fpSum_finite ha hb]
  generalize signedUnits f a + signedUnits f b = sum
  constructor
  · convert roundsTo_signed f _ sum.natAbs 0 using 1
    split
    · next h => simp [h]
    · simp only [decide_eq_true_eq]
      split <;> omega
  · rintro rfl
    rw [if_pos rfl, Int.natAbs_zero, roundUnits_zero, fpSign_signed f _ (by positivity)]

theorem fpMul_finite : fpMul f a b =
    signed f (fpSign f a != fpSign f b) (roundUnits f (magUnits f a * magUnits f b) (unitExp f)) := by
  simp only [fpMul, isNaN_eq_false_of_finite ha, isNaN_eq_false_of_finite hb, isInf_eq_false_of_finite ha,
    isInf_eq_false_of_finite hb, Bool.or_self, Bool.false_eq_true, if_false]

end

/-- Settles O53: a difference is the sum with the negated second operand. -/
theorem sumsAreCorrectlyRounded : Obligations.SumsAreCorrectlyRounded := by
  intro f a b ha hb
  obtain ⟨hadd, haddZero⟩ := fpSum_rounds ha hb (nanResult f .add a b)
  obtain ⟨hsub, hsubZero⟩ := fpSum_rounds ha ((fpFinite_fpNeg f b).trans hb) (nanResult f .sub a b)
  rw [signedUnits_fpNeg, ← sub_eq_add_neg] at hsub hsubZero
  rw [fpSign_fpNeg] at hsubZero
  exact ⟨hadd, hsub, haddZero, hsubZero, fpSign_fpNeg f a, fun k hk => getLsbD_fpNeg_ne f a hk⟩

/-- The product of two signed values. -/
theorem signedUnits_mul (f : Prec) (a b : Word) :
    signedUnits f a * signedUnits f b =
      if fpSign f a != fpSign f b then -((magUnits f a * magUnits f b : Nat) : ℤ)
      else (magUnits f a * magUnits f b : Nat) := by
  cases ha : fpSign f a <;> cases hb : fpSign f b <;> simp [signedUnits, ha, hb]

/-- Settles O54: the magnitudes' product is rounded, and the sign stands whether it is zero or not. -/
theorem productsAreCorrectlyRounded : Obligations.ProductsAreCorrectlyRounded := by
  intro f a b ha hb
  have hlt := infBits_lt f
  have hle := roundUnits_le f (magUnits f a * magUnits f b) (unitExp f)
  rw [fpMul_finite ha hb, signedUnits_mul]
  exact ⟨roundsTo_signed f _ _ _, fpSign_signed f _ (by omega)⟩

end Sys2Proof.Proofs
end

section
/-! PROOF. The kernels in exact arithmetic (42_engine_common.md R159; R182 to R185, R202, R203, R212, R213). The constants of a
residue are the coordinates of the powers of its root of unity; with those put in, a kernel and its rotated transform are the
same linear function of the real and imaginary parts. -/

namespace Sys2Proof.Proofs

open Sys2Proof Sys2Proof.Machine

/-! ### Roots of unity (R11) -/

theorem omega_add (n : Nat) (k l : ℤ) : omega n (k + l) = omega n k * omega n l := by
  rw [omega, omega, omega, ← Complex.exp_add]
  congr 1
  push_cast
  ring

theorem omega_zero (n : Nat) : omega n 0 = 1 := by simp [omega]

/-- Whole turns. -/
theorem omega_mul_self {n : Nat} (hn : 0 < n) (k : ℤ) : omega n (n * k) = 1 := by
  have hn : (n : ℂ) ≠ 0 := by exact_mod_cast hn.ne'
  rw [omega, Complex.exp_eq_one_iff]
  refine ⟨k, ?_⟩
  push_cast
  field_simp

theorem omega_add_turns {n : Nat} (hn : 0 < n) (k l : ℤ) : omega n (k + n * l) = omega n k := by
  rw [omega_add, omega_mul_self hn, mul_one]

/-- Exponents count modulo n. -/
theorem omega_congr {n : Nat} (hn : 0 < n) {k l : ℤ} (h : k ≡ l [ZMOD n]) : omega n k = omega n l := by
  obtain ⟨j, hj⟩ := h.dvd
  rw [show l = k + n * j by omega, omega_add_turns hn]

/-- A common factor of n and the exponent cancels. -/
theorem omega_mul_left {c : Nat} (hc : 0 < c) (n : Nat) (k : ℤ) : omega (c * n) (c * k) = omega n k := by
  have hc : (c : ℂ) ≠ 0 := by exact_mod_cast hc.ne'
  rw [omega, omega]
  congr 1
  push_cast
  rw [mul_left_comm, mul_div_mul_left _ _ hc]

theorem omega_eq_cos_sin (n : Nat) (k : ℤ) :
    omega n k = ⟨Real.cos (2 * Real.pi * k / n), Real.sin (2 * Real.pi * k / n)⟩ := by
  have harg : 2 * Real.pi * Complex.I * k / n = ((2 * Real.pi * k / n : ℝ) : ℂ) * Complex.I := by
    push_cast
    ring
  rw [omega, harg]
  exact Complex.ext (Complex.exp_ofReal_mul_I_re _) (Complex.exp_ofReal_mul_I_im _)

theorem omega_neg (n : Nat) (k : ℤ) : omega n (-k) = starRingEnd ℂ (omega n k) := by
  rw [omega_eq_cos_sin, omega_eq_cos_sin]
  push_cast
  rw [mul_neg, neg_div, Real.cos_neg, Real.sin_neg]
  rfl

/-! ### The roots of the radices -/

theorem omega_two_one : omega 2 1 = ⟨-1, 0⟩ := by
  have hangle : 2 * Real.pi * (1 : ℤ) / (2 : Nat) = Real.pi := by push_cast; ring
  rw [omega_eq_cos_sin, hangle, Real.cos_pi, Real.sin_pi]

theorem omega_four_one : omega 4 1 = ⟨0, 1⟩ := by
  have hangle : 2 * Real.pi * (1 : ℤ) / (4 : Nat) = Real.pi / 2 := by push_cast; ring
  rw [omega_eq_cos_sin, hangle, Real.cos_pi_div_two, Real.sin_pi_div_two]

theorem omega_eight_one : omega 8 1 = ⟨Real.sqrt (1 / 2), Real.sqrt (1 / 2)⟩ := by
  have hangle : 2 * Real.pi * (1 : ℤ) / (8 : Nat) = Real.pi / 4 := by push_cast; ring
  have hsqrt : Real.sqrt (1 / 2) = Real.sqrt 2 / 2 := by
    rw [Real.sqrt_div_self', Real.sqrt_div zero_le_one, Real.sqrt_one]
  rw [omega_eq_cos_sin, hangle, Real.cos_pi_div_four, Real.sin_pi_div_four, hsqrt]

theorem omega_three_one : omega 3 1 = ⟨-1 / 2, Real.sqrt 3 / 2⟩ := by
  have hangle : 2 * Real.pi * (1 : ℤ) / (3 : Nat) = 2 * Real.pi / 3 := by push_cast; ring
  rw [omega_eq_cos_sin, hangle, cos_two_thirds_pi, sin_two_thirds_pi]

theorem omega_five_one : omega 5 1 = ⟨-1 / 4 + Real.sqrt 5 / 4, Real.sin (2 * Real.pi / 5)⟩ := by
  have hangle : 2 * Real.pi * (1 : ℤ) / (5 : Nat) = 2 * Real.pi / 5 := by push_cast; ring
  have hcos : Real.cos (2 * Real.pi / 5) = -1 / 4 + Real.sqrt 5 / 4 := by
    have hsq := Real.sq_sqrt (show (0 : ℝ) ≤ 5 by norm_num)
    rw [mul_div_assoc, Real.cos_two_mul, Real.cos_pi_div_five]
    linear_combination hsq / 8
  rw [omega_eq_cos_sin, hangle, hcos]

theorem omega_five_two : omega 5 2 = ⟨-1 / 4 - Real.sqrt 5 / 4, Real.sin (Real.pi / 5)⟩ := by
  have hangle : 2 * Real.pi * (2 : ℤ) / (5 : Nat) = Real.pi - Real.pi / 5 := by push_cast; ring
  rw [omega_eq_cos_sin, hangle, Real.cos_pi_sub, Real.sin_pi_sub, Real.cos_pi_div_five]
  congr 1
  ring

/-! ### Rotated transforms (R159) -/

@[simp] theorem toComplex_re (z : Cpx ℝ) : (toComplex z).re = z.1 := by simp [toComplex]

@[simp] theorem toComplex_im (z : Cpx ℝ) : (toComplex z).im = z.2 := by simp [toComplex]

/-- The factor ω_n^(μ·j) of a transform rotated by μ. -/
noncomputable def twist (n mu j : Nat) : ℂ := omega n (mu * j)

@[simp] theorem twist_zero (n mu : Nat) : twist n mu 0 = 1 := by simp [twist, omega_zero]

theorem twist_one (n mu : Nat) : twist n mu 1 = omega n mu := by simp [twist]

theorem twist_add (n mu j k : Nat) : twist n mu (j + k) = twist n mu j * twist n mu k := by
  rw [twist, twist, twist, ← omega_add]
  push_cast
  rw [mul_add]

/-- The factors from the end of the table are the conjugates of those from its start. -/
theorem twist_of_add_eq {n j k : Nat} (hn : 0 < n) (h : j + k = n) (mu : Nat) :
    twist n mu j = starRingEnd ℂ (twist n mu k) := by
  rw [twist, twist, ← omega_neg]
  refine omega_congr hn ((Int.modEq_iff_dvd).2 ⟨-mu, ?_⟩)
  rw [← h]
  push_cast
  ring

/-- The transform of n values that a kernel with the residue μ is to compute. -/
noncomputable def rotatedDft (n mu : Nat) (a : Nat → Cpx ℝ) : List ℂ :=
  (List.range n).map fun d => ∑ c ∈ Finset.range n, toComplex (a c) * twist n mu (c * d % n)

theorem rotatedDft_getD {n : Nat} (mu : Nat) (a : Nat → Cpx ℝ) {d : Nat} (hd : d < n) (z : ℂ) :
    (rotatedDft n mu a).getD d z = ∑ c ∈ Finset.range n, toComplex (a c) * omega n (mu * c * d) := by
  have hn : 0 < n := by omega
  rw [rotatedDft, List.getD_eq_getElem _ _ (by simpa using hd), List.getElem_map, List.getElem_range]
  refine Finset.sum_congr rfl fun c _ => congrArg _ (omega_congr hn ?_)
  rw [mul_assoc, Int.natCast_mod]
  push_cast
  exact (Int.mod_modEq _ _).mul_left _

section

variable (mu : Nat) (a : Nat → Cpx ℝ)

theorem kernel2_dft (h1 : twist 2 mu 1 = ⟨-1, 0⟩) :
    (kernel2 realArith (a 0) (a 1)).map toComplex = rotatedDft 2 mu a := by
  simp [rotatedDft, List.range_succ, Finset.sum_range_succ, kernel2, h1, realArith, cadd, csub, Complex.ext_iff,
    sub_eq_add_neg]

theorem kernel3_dft {c1 : ℝ} (h1 : twist 3 mu 1 = ⟨-1 / 2, c1⟩) :
    (kernel3 realArith c1 (a 0) (a 1) (a 2)).map toComplex = rotatedDft 3 mu a := by
  have h2 : twist 3 mu 2 = ⟨-1 / 2, -c1⟩ := by rw [twist_of_add_eq (k := 1) (by decide) rfl, h1]; rfl
  simp [rotatedDft, List.range_succ, Finset.sum_range_succ, kernel3, h1, h2, realArith, Complex.ext_iff]
  constructorm* _ ∧ _ <;> ring

theorem kernel4_dft {ss : ℝ} (hss : ss * ss = 1) (h1 : twist 4 mu 1 = ⟨0, ss⟩) :
    (kernel4 realArith ss (a 0) (a 1) (a 2) (a 3)).map toComplex = rotatedDft 4 mu a := by
  have h3 : twist 4 mu 3 = ⟨0, -ss⟩ := by
    rw [twist_of_add_eq (k := 1) (by decide) rfl, h1]
    apply Complex.ext <;> simp
  have h2 : twist 4 mu 2 = ⟨-1, 0⟩ := by
    rw [twist_add 4 mu 1 1, h1]
    apply Complex.ext <;> simp [hss]
  simp [rotatedDft, List.range_succ, Finset.sum_range_succ, kernel4, h1, h2, h3, realArith, Complex.ext_iff]
  constructorm* _ ∧ _ <;> ring

theorem kernel5_dft {c1 c2 c3 : ℝ} (h1 : twist 5 mu 1 = ⟨-1 / 4 + c1, c2⟩) (h2 : twist 5 mu 2 = ⟨-1 / 4 - c1, c3⟩) :
    (kernel5 realArith c1 c2 c3 (a 0) (a 1) (a 2) (a 3) (a 4)).map toComplex = rotatedDft 5 mu a := by
  have h4 : twist 5 mu 4 = ⟨-1 / 4 + c1, -c2⟩ := by rw [twist_of_add_eq (k := 1) (by decide) rfl, h1]; rfl
  have h3 : twist 5 mu 3 = ⟨-1 / 4 - c1, -c3⟩ := by rw [twist_of_add_eq (k := 2) (by decide) rfl, h2]; rfl
  simp [rotatedDft, List.range_succ, Finset.sum_range_succ, kernel5, h1, h2, h3, h4, realArith, Complex.ext_iff]
  constructorm* _ ∧ _ <;> ring

theorem kernel8_dft {c1 c2 c3 : ℝ} (hc1 : c1 = 1 ∨ c1 = -1) (hc2 : c2 = c1 * c3) (h1 : twist 8 mu 1 = ⟨c2, c3⟩)
    (h2 : twist 8 mu 2 = ⟨0, c1⟩) :
    (kernel8 realArith c1 c2 c3 (a 0) (a 1) (a 2) (a 3) (a 4) (a 5) (a 6) (a 7)).map toComplex = rotatedDft 8 mu a := by
  have h3 : twist 8 mu 3 = ⟨-c2, c3⟩ := by
    rw [twist_add 8 mu 1 2, h1, h2]
    apply Complex.ext <;> rcases hc1 with rfl | rfl <;> simp [hc2]
  have h4 : twist 8 mu 4 = ⟨-1, 0⟩ := by
    rw [twist_add 8 mu 2 2, h2]
    apply Complex.ext <;> rcases hc1 with rfl | rfl <;> simp
  have h5 : twist 8 mu 5 = ⟨-c2, -c3⟩ := by rw [twist_of_add_eq (k := 3) (by decide) rfl, h3]; rfl
  have h6 : twist 8 mu 6 = ⟨0, -c1⟩ := by rw [twist_of_add_eq (k := 2) (by decide) rfl, h2]; rfl
  have h7 : twist 8 mu 7 = ⟨c2, -c3⟩ := by rw [twist_of_add_eq (k := 1) (by decide) rfl, h1]; rfl
  rcases hc1 with rfl | rfl
  all_goals
    simp [rotatedDft, List.range_succ, Finset.sum_range_succ, kernel8, kernel4, interleave, cadd, csub, cmul, h1, h2, h3, h4,
      h5, h6, h7, hc2, realArith, Complex.ext_iff]
    constructorm* _ ∧ _ <;> ring

end

/-! ### The constants of a residue (R185, R203, R213) -/

/-- The factors of a rotated transform are those of the plain one, at other places of the table. -/
theorem twist_eq_twist_one {n : Nat} (hn : 0 < n) (mu j : Nat) : twist n mu j = twist n 1 (mu * j % n) := by
  refine omega_congr hn ?_
  push_cast
  rw [one_mul]
  exact (Int.mod_modEq _ _).symm

theorem radix3_twist {mu : Nat} (h0 : 0 < mu) (hmu : mu < 3) : twist 3 mu 1 = ⟨-1 / 2, radix3Const realArith mu⟩ := by
  have h1 : twist 3 1 1 = ⟨-1 / 2, Real.sqrt 3 / 2⟩ := (twist_one 3 1).trans omega_three_one
  rw [twist_eq_twist_one (by decide)]
  interval_cases mu
  · exact h1
  · rw [twist_of_add_eq (j := 2) (k := 1) (by decide) rfl, h1]
    rfl

theorem radix4_twist {mu : Nat} (hmu : mu = 1 ∨ mu = 3) : twist 4 mu 1 = ⟨0, radix4Const realArith mu⟩ := by
  have h1 : twist 4 1 1 = ⟨0, 1⟩ := (twist_one 4 1).trans omega_four_one
  rw [twist_eq_twist_one (by decide)]
  rcases hmu with rfl | rfl
  · exact h1
  · rw [twist_of_add_eq (j := 3) (k := 1) (by decide) rfl, h1]
    rfl

theorem radix5_twists {mu : Nat} (h0 : 0 < mu) (hmu : mu < 5) :
    twist 5 mu 1 = ⟨-1 / 4 + (radix5Consts realArith mu).1, (radix5Consts realArith mu).2.1⟩ ∧
      twist 5 mu 2 = ⟨-1 / 4 - (radix5Consts realArith mu).1, (radix5Consts realArith mu).2.2⟩ := by
  have h1 : twist 5 1 1 = ⟨-1 / 4 + Real.sqrt 5 / 4, Real.sin (2 * Real.pi / 5)⟩ := (twist_one 5 1).trans omega_five_one
  have h2 : twist 5 1 2 = ⟨-1 / 4 - Real.sqrt 5 / 4, Real.sin (Real.pi / 5)⟩ := omega_five_two
  have h3 := twist_of_add_eq (n := 5) (j := 3) (k := 2) (by decide) rfl 1
  have h4 := twist_of_add_eq (n := 5) (j := 4) (k := 1) (by decide) rfl 1
  rw [twist_eq_twist_one (by decide) mu 1, twist_eq_twist_one (by decide) mu 2]
  interval_cases mu
  all_goals simp [radix5Consts, realArith, h1, h2, h3, h4, Complex.ext_iff, sub_eq_add_neg]

theorem radix8_twists {mu : Nat} (hmu : mu = 1 ∨ mu = 3 ∨ mu = 5 ∨ mu = 7) :
    twist 8 mu 1 = ⟨(radix8Consts realArith mu).2.1, (radix8Consts realArith mu).2.2⟩ ∧
      twist 8 mu 2 = ⟨0, (radix8Consts realArith mu).1⟩ := by
  have h1 : twist 8 1 1 = ⟨Real.sqrt (1 / 2), Real.sqrt (1 / 2)⟩ := (twist_one 8 1).trans omega_eight_one
  have h2 : twist 8 1 2 = ⟨0, 1⟩ := (omega_mul_left (c := 2) (by decide) 4 1).trans omega_four_one
  have h3 : twist 8 1 3 = _ := twist_add 8 1 1 2
  have h5 := twist_of_add_eq (n := 8) (j := 5) (k := 3) (by decide) rfl 1
  have h6 := twist_of_add_eq (n := 8) (j := 6) (k := 2) (by decide) rfl 1
  have h7 := twist_of_add_eq (n := 8) (j := 7) (k := 1) (by decide) rfl 1
  rw [twist_eq_twist_one (by decide) mu 1, twist_eq_twist_one (by decide) mu 2]
  rcases hmu with rfl | rfl | rfl | rfl
  all_goals simp [radix8Consts, realArith, h1, h2, h3, h5, h6, h7, Complex.ext_iff]

theorem odd_residue {n mu : Nat} (hn : 2 ∣ n) (hco : Nat.Coprime mu n) : mu % 2 = 1 :=
  Nat.odd_iff.1 (Nat.coprime_two_right.1 (hco.coprime_dvd_right hn))

/-- A kernel with the constants of a residue computes the transform rotated by it. -/
theorem kernel_map_toComplex (rho : Radix) {mu : Nat} (a : Nat → Cpx ℝ) (h0 : 0 < mu) (hmu : mu < radixVal rho)
    (hco : Nat.Coprime mu (radixVal rho)) :
    (kernel realArith rho mu ((List.range (radixVal rho)).map a)).map toComplex = rotatedDft (radixVal rho) mu a := by
  cases rho with
  | r2 =>
    obtain rfl : mu = 1 := by simp only [radixVal] at hmu; omega
    exact kernel2_dft 1 a ((twist_one 2 1).trans omega_two_one)
  | r3 => exact kernel3_dft mu a (radix3_twist h0 hmu)
  | r4 =>
    have hodd := odd_residue (n := 4) (by decide) hco
    refine kernel4_dft mu a ?_ (radix4_twist (by simp only [radixVal] at hmu; omega))
    unfold radix4Const
    split <;> simp [realArith]
  | r5 => exact kernel5_dft mu a (radix5_twists h0 hmu).1 (radix5_twists h0 hmu).2
  | r8 =>
    have hodd := odd_residue (n := 8) (by decide) hco
    have hmu : mu = 1 ∨ mu = 3 ∨ mu = 5 ∨ mu = 7 := by simp only [radixVal] at hmu; omega
    refine kernel8_dft mu a ?_ ?_ (radix8_twists hmu).1 (radix8_twists hmu).2
    all_goals rcases hmu with rfl | rfl | rfl | rfl <;> simp [radix8Consts, realArith]

/-- Settles O56: the outputs are those of the rotated transform. -/
theorem kernelsAreRotatedDfts : Obligations.KernelsAreRotatedDfts := by
  intro rho mu a h0 hmu hco
  refine ⟨by rw [kernel_length, List.length_map, List.length_range], fun d hd => ?_⟩
  rw [← rotatedDft_getD mu a hd (toComplex (0, 0)), ← kernel_map_toComplex rho a h0 hmu hco, List.getD_map]

end Sys2Proof.Proofs
end

section
/-! PROOF. What one pass does to each element of a unit (42_engine_common.md R155, R156). The rounds of a pass work on disjoint
cells of elements (`WorksOn`), so an element is what the round of its cell makes of the values before the pass; in both types of
pass that is a twiddled output of one butterfly (`passI_place`, `passII_place`), and a type II pass puts it elsewhere. -/

namespace Sys2Proof.Proofs

open Sys2Proof Sys2Proof.Machine
open Sys2Proof.Config (Sign)

/-! ### Loops whose rounds work on disjoint cells -/

/-- `f` reads and writes the elements of `S` only. -/
structure WorksOn {β : Type} (S : Nat → Prop) (f : (Nat → β) → Nat → β) : Prop where
  frame : ∀ z x, ¬ S x → f z x = z x
  reads : ∀ z z', (∀ x, S x → z x = z' x) → ∀ x, S x → f z x = f z' x

theorem WorksOn.of_iff {β : Type} {S T : Nat → Prop} {f : (Nat → β) → Nat → β} (h : WorksOn S f) (hST : ∀ x, T x ↔ S x) :
    WorksOn T f := (funext fun x => propext (hST x)) ▸ h

section

variable {β : Type} {n : Nat} {f : Nat → (Nat → β) → Nat → β} {S : Nat → Prop} {key : Nat → Nat}

/-- Where each round works on the elements of its own key, an element is what the round of its key makes of the start. -/
theorem loop_eq_round (h : ∀ i, i < n → WorksOn (fun x => S x ∧ key x = i) (f i)) (z : Nat → β) {x : Nat} (hx : S x) :
    loop n f z x = if key x < n then f (key x) z x else z x := by
  induction n generalizing x with
  | zero => rfl
  | succ n ih =>
    have ih : ∀ {y}, S y → loop n f z y = _ := fun hy => ih (fun i hi => h i (by omega)) hy
    have hround := h n (by omega)
    rw [loop_succ]
    by_cases hkey : key x = n
    · rw [if_pos (by omega), hkey]
      refine hround.reads _ _ (fun y ⟨hy, hyn⟩ => ?_) x ⟨hx, hkey⟩
      rw [ih hy, if_neg (by omega)]
    · have hlt : key x < n + 1 ↔ key x < n := by omega
      simp only [hround.frame _ _ fun hcell => hkey hcell.2, ih hx, hlt]

theorem loop_worksOn (h : ∀ i, i < n → WorksOn (fun x => S x ∧ key x = i) (f i)) : WorksOn S (loop n f) where
  frame z x hx := loop_keeps (fun y : Nat → β => y x = z x) rfl fun i hi y hy => by
    rw [(h i hi).frame _ _ fun hcell => hx hcell.1, hy]
  reads z z' hzz x hx := by
    rw [loop_eq_round h z hx, loop_eq_round h z' hx]
    split
    · next hkey => exact (h _ hkey).reads _ _ (fun y hy => hzz y hy.1) x ⟨hx, rfl⟩
    · exact hzz x hx

end

/-! ### Passes over a line of values -/

/-- The store of the unit is a function of the element index. -/
structure LineStore (E : UnitEnv (Nat → Cpx ℝ) ℝ) : Prop where
  get : ∀ z u, E.store.get z u = z u
  set : ∀ z u v, E.store.set z u v = Function.update z u v

/-- The butterflies of a group of a type II pass (R156), one for each row. -/
def squareRows (E : UnitEnv (Nat → Cpx ℝ) ℝ) (rho : Radix) (la js base : Nat) (z : Nat → Cpx ℝ) : List (List (Cpx ℝ)) :=
  (List.range (radixVal rho)).map fun e => butterfly E rho (fun c => base + c * js + e * la) z

theorem squareRows_length (E : UnitEnv (Nat → Cpx ℝ) ℝ) (rho : Radix) (la js base : Nat) (z : Nat → Cpx ℝ) :
    ∀ row ∈ squareRows E rho la js base z, row.length = radixVal rho := by
  intro row hrow
  obtain ⟨e, -, rfl⟩ := List.mem_map.1 hrow
  exact butterfly_length ..

theorem squareRows_getD (E : UnitEnv (Nat → Cpx ℝ) ℝ) (rho : Radix) (la js base : Nat) (z : Nat → Cpx ℝ) {e : Nat}
    (he : e < radixVal rho) :
    (squareRows E rho la js base z).getD e [] = butterfly E rho (fun c => base + c * js + e * la) z := by
  rw [List.getD_eq_getElem _ _ (by simpa [squareRows] using he)]
  simp [squareRows]

section

variable {E : UnitEnv (Nat → Cpx ℝ) ℝ} (hE : LineStore E)
include hE

theorem storeTwiddled_frame (la k : Nat) (place : Nat → Nat) (ys : List (Cpx ℝ)) (d : Nat) (z : Nat → Cpx ℝ) {x : Nat}
    (hx : ∀ i, i < ys.length → x ≠ place (d + i)) : storeTwiddled E la k place d ys z x = z x := by
  induction ys generalizing d z with
  | nil => rfl
  | cons y ys ih =>
    have hrest : ∀ i, i < ys.length → x ≠ place (d + 1 + i) := fun i hi => by
      rw [Nat.add_right_comm]
      exact hx (i + 1) (Nat.succ_lt_succ hi)
    rw [storeTwiddled, ih _ _ hrest, hE.set]
    exact Function.update_of_ne (hx 0 (Nat.zero_lt_succ _)) _ _

theorem storeTwiddled_place (la k : Nat) {place : Nat → Nat} (ys : List (Cpx ℝ)) (d : Nat) (z : Nat → Cpx ℝ)
    (hinj : ∀ i j, i < j → j < d + ys.length → place i ≠ place j) {i : Nat} (hi : i < ys.length) :
    storeTwiddled E la k place d ys z (place (d + i)) = twid E la k (d + i) (ys.getD i (0, 0)) := by
  induction ys generalizing d z i with
  | nil => exact absurd hi (Nat.not_lt_zero _)
  | cons y ys ih =>
    rw [storeTwiddled]
    cases i with
    | zero =>
      rw [storeTwiddled_frame hE _ _ _ _ _ _ fun i hi => hinj _ _ (by omega) (by simp only [List.length_cons]; omega), hE.set]
      exact Function.update_self ..
    | succ i =>
      have hrest := ih (d + 1) (E.store.set z (place d) (twid E la k d y))
        (fun i j hij hj => hinj i j hij (by simp only [List.length_cons]; omega)) (Nat.lt_of_succ_lt_succ hi)
      rw [Nat.add_right_comm] at hrest
      exact hrest

theorem storeSquare_frame (la k js base : Nat) {rho : Nat} (rows : List (List (Cpx ℝ)))
    (hrows : ∀ row ∈ rows, row.length = rho) (e : Nat) (z : Nat → Cpx ℝ) {x : Nat}
    (hx : ∀ i, i < rows.length → ∀ d, d < rho → x ≠ base + (e + i) * js + d * la) :
    storeSquare E la k js base e rows z x = z x := by
  induction rows generalizing e z with
  | nil => rfl
  | cons row rows ih =>
    have hrest : ∀ i, i < rows.length → ∀ d, d < rho → x ≠ base + (e + 1 + i) * js + d * la := fun i hi => by
      rw [Nat.add_right_comm]
      exact hx (i + 1) (Nat.succ_lt_succ hi)
    rw [storeSquare, ih (fun r hr => hrows r (List.mem_cons_of_mem _ hr)) _ _ hrest, storeTwiddled_frame hE]
    intro d hd
    rw [hrows row (List.mem_cons_self ..)] at hd
    simpa using hx 0 (Nat.zero_lt_succ _) d hd

theorem storeSquare_place (la k js base : Nat) {rho : Nat} (rows : List (List (Cpx ℝ)))
    (hrows : ∀ row ∈ rows, row.length = rho) (e : Nat) (z : Nat → Cpx ℝ)
    (hinj : ∀ i j d d', i < e + rows.length → j < e + rows.length → d < rho → d' < rho →
      base + i * js + d * la = base + j * js + d' * la → i = j ∧ d = d')
    {i d : Nat} (hi : i < rows.length) (hd : d < rho) :
    storeSquare E la k js base e rows z (base + (e + i) * js + d * la) =
      twid E la k d ((rows.getD i []).getD d (0, 0)) := by
  induction rows generalizing e z i with
  | nil => exact absurd hi (Nat.not_lt_zero _)
  | cons row rows ih =>
    rw [storeSquare]
    have htail : ∀ r ∈ rows, r.length = rho := fun r hr => hrows r (List.mem_cons_of_mem _ hr)
    have hhead : row.length = rho := hrows row (List.mem_cons_self ..)
    cases i with
    | zero =>
      rw [storeSquare_frame hE la k js base rows htail]
      · have hplace := storeTwiddled_place hE la k (place := fun d => base + e * js + d * la) row 0 z
          (fun d d' hdd hd' heq => hdd.ne (hinj e e d d' (by simp) (by simp) (by omega) (by omega) heq).2) (hhead ▸ hd)
        simpa using hplace
      · intro j hj d' hd' heq
        have := (hinj _ _ _ _ (by simp only [List.length_cons]; omega) (by simp only [List.length_cons]; omega) hd hd' heq).1
        omega
    | succ i =>
      have hrest := ih htail (e + 1) (storeTwiddled E la k (fun d => base + e * js + d * la) 0 row z)
        (fun i j d d' hi hj => hinj i j d d' (by simp only [List.length_cons]; omega) (by simp only [List.length_cons]; omega))
        (Nat.lt_of_succ_lt_succ hi)
      rw [Nat.add_right_comm e] at hrest
      exact hrest

theorem butterfly_congr (rho : Radix) {place : Nat → Nat} {z z' : Nat → Cpx ℝ}
    (h : ∀ c, c < radixVal rho → z (place c) = z' (place c)) : butterfly E rho place z = butterfly E rho place z' := by
  unfold butterfly
  congr 1
  refine List.map_congr_left fun c hc => ?_
  rw [hE.get, hE.get, h c (List.mem_range.1 hc)]

/-- A round of a type I pass (R155) puts the twiddled outputs of a butterfly in the places of its inputs. -/
theorem roundI_place (rho : Radix) (la k : Nat) {place : Nat → Nat}
    (hinj : ∀ i j, i < j → j < radixVal rho → place i ≠ place j) (z : Nat → Cpx ℝ) {d : Nat} (hd : d < radixVal rho) :
    storeTwiddled E la k place 0 (butterfly E rho place z) z (place d) =
      twid E la k d ((butterfly E rho place z).getD d (0, 0)) := by
  have hlen := butterfly_length E rho place z
  have hplace := storeTwiddled_place hE la k (butterfly E rho place z) 0 z (by rwa [hlen, Nat.zero_add])
    (i := d) (by rwa [hlen])
  rwa [Nat.zero_add] at hplace

theorem roundI_worksOn (rho : Radix) (la k : Nat) {place : Nat → Nat}
    (hinj : ∀ i j, i < j → j < radixVal rho → place i ≠ place j) :
    WorksOn (fun x => ∃ c, c < radixVal rho ∧ x = place c)
      (fun z => storeTwiddled E la k place 0 (butterfly E rho place z) z) where
  frame z x hx := storeTwiddled_frame hE _ _ _ _ _ _ fun i hi heq => by
    rw [butterfly_length] at hi
    exact hx ⟨i, hi, by rwa [Nat.zero_add] at heq⟩
  reads z z' hzz x hx := by
    obtain ⟨c, hc, rfl⟩ := hx
    have hsame := butterfly_congr hE rho fun c hc => hzz _ ⟨c, hc, rfl⟩
    simp only [roundI_place hE rho la k hinj _ hc]
    rw [hsame]

/-- The places of a group of a type II pass differ. -/
def DistinctSquare (rho js la base : Nat) : Prop :=
  ∀ i j d d', i < rho → j < rho → d < rho → d' < rho → base + i * js + d * la = base + j * js + d' * la → i = j ∧ d = d'

section

variable (rho : Radix) (la k js base : Nat) (hinj : DistinctSquare (radixVal rho) js la base)
include hinj

/-- A round of a type II pass (R156) puts the twiddled outputs of row e in the places of the inputs e of all rows. -/
theorem roundII_place (z : Nat → Cpx ℝ) {e d : Nat} (he : e < radixVal rho) (hd : d < radixVal rho) :
    storeSquare E la k js base 0 (squareRows E rho la js base z) z (base + e * js + d * la) =
      twid E la k d ((butterfly E rho (fun c => base + c * js + e * la) z).getD d (0, 0)) := by
  have hlen : (squareRows E rho la js base z).length = radixVal rho := by simp [squareRows]
  have hplace := storeSquare_place hE la k js base (rho := radixVal rho) _ (squareRows_length E rho la js base z) 0 z
    (i := e) (d := d) (by rwa [hlen, Nat.zero_add]) (by rwa [hlen]) hd
  rwa [Nat.zero_add, squareRows_getD E rho la js base z he] at hplace

theorem roundII_worksOn :
    WorksOn (fun x => ∃ e, e < radixVal rho ∧ ∃ d, d < radixVal rho ∧ x = base + e * js + d * la)
      (fun z => storeSquare E la k js base 0 (squareRows E rho la js base z) z) where
  frame z x hx := storeSquare_frame hE la k js base _ (squareRows_length E rho la js base z) 0 z fun i hi d hd heq => by
    rw [squareRows, List.length_map, List.length_range] at hi
    exact hx ⟨i, hi, d, hd, by rwa [Nat.zero_add] at heq⟩
  reads z z' hzz x hx := by
    obtain ⟨e, he, d, hd, rfl⟩ := hx
    have hsame := butterfly_congr hE rho (place := fun c => base + c * js + e * la) (z := z) (z' := z')
      fun c hc => hzz _ ⟨c, hc, e, he, rfl⟩
    simp only [roundII_place hE rho la k js base hinj _ he hd]
    rw [hsame]

end

end

/-! ### The places of a pass -/

section

variable {js rho nb : Nat}

theorem digits_mod {k : Nat} (hk : k < js) (y : Nat) : (k + js * y) % js = k := by
  rw [Nat.add_mul_mod_self_left, Nat.mod_eq_of_lt hk]

theorem digits_div {k : Nat} (hk : k < js) (y : Nat) : (k + js * y) / js = y := by
  rw [Nat.add_mul_div_left _ _ (by omega), Nat.div_eq_of_lt hk, Nat.zero_add]

theorem placeI_eq (js rho blk k c : Nat) : blk * rho * js + k + c * js = k + js * (c + rho * blk) := by ring

/-- The places of a round of a type I pass are those with its digits k and blk. -/
theorem placeI_iff {k blk x : Nat} (hrho : 0 < rho) (hk : k < js) :
    ((True ∧ x / js / rho = blk) ∧ x % js = k) ↔ ∃ c, c < rho ∧ x = blk * rho * js + k + c * js := by
  simp only [placeI_eq]
  constructor
  · rintro ⟨⟨-, rfl⟩, rfl⟩
    exact ⟨x / js % rho, Nat.mod_lt _ hrho, by rw [Nat.mod_add_div, Nat.mod_add_div]⟩
  · rintro ⟨c, hc, rfl⟩
    rw [digits_div hk, digits_div hc, digits_mod hk]
    exact ⟨⟨trivial, rfl⟩, rfl⟩

theorem placeI_inj {k : Nat} (hk : k < js) (blk : Nat) :
    ∀ i j, i < j → j < rho → blk * rho * js + k + i * js ≠ blk * rho * js + k + j * js := fun i j hij _ heq =>
  hij.ne (Nat.eq_of_mul_eq_mul_right (by omega) (Nat.add_left_cancel heq))

theorem placeII_eq (js rho nb k bl g e d : Nat) :
    k + bl * rho * js + g * rho * (js * rho * nb) + e * js + d * (js * rho * nb) =
      k + js * (e + rho * (bl + nb * (d + rho * g))) := by ring

/-- The places of a round of a type II pass are those with its digits k, bl and g. -/
theorem placeII_iff {k bl g x : Nat} (hrho : 0 < rho) (hk : k < js) (hbl : bl < nb) :
    (((True ∧ x % js = k) ∧ x / js / rho % nb = bl) ∧ x / js / rho / nb / rho = g) ↔
      ∃ e, e < rho ∧ ∃ d, d < rho ∧
        x = k + bl * rho * js + g * rho * (js * rho * nb) + e * js + d * (js * rho * nb) := by
  simp only [placeII_eq]
  constructor
  · rintro ⟨⟨⟨-, rfl⟩, rfl⟩, rfl⟩
    refine ⟨x / js % rho, Nat.mod_lt _ hrho, x / js / rho / nb % rho, Nat.mod_lt _ hrho, ?_⟩
    rw [Nat.mod_add_div, Nat.mod_add_div, Nat.mod_add_div, Nat.mod_add_div]
  · rintro ⟨e, he, d, hd, rfl⟩
    rw [digits_div hk, digits_div he, digits_div hbl, digits_div hd, digits_mod hk, digits_mod hbl]
    exact ⟨⟨⟨trivial, rfl⟩, rfl⟩, rfl⟩

theorem placeII_inj {k bl : Nat} (hk : k < js) (hbl : bl < nb) (g : Nat) :
    DistinctSquare rho js (js * rho * nb) (k + bl * rho * js + g * rho * (js * rho * nb)) := by
  intro i j d d' hi hj hd hd' heq
  rw [placeII_eq, placeII_eq] at heq
  have hy := congrArg (· / js) heq
  simp only [digits_div hk] at hy
  have hij := congrArg (· % rho) hy
  have hz := congrArg (· / rho) hy
  simp only [digits_mod hi, digits_mod hj] at hij
  simp only [digits_div hi, digits_div hj] at hz
  have hw := congrArg (· / nb % rho) hz
  simp only [digits_div hbl, digits_mod hd, digits_mod hd'] at hw
  exact ⟨hij, hw⟩

end

/-! ### What a pass does to an element (R155, R156) -/

section

variable {E : UnitEnv (Nat → Cpx ℝ) ℝ} (hE : LineStore E) (rho : Radix) {la js : Nat} (hni : E.ni = js * radixVal rho * la)
include hE hni

theorem passI_place (z : Nat → Cpx ℝ) {blk k d : Nat} (hblk : blk < la) (hk : k < js) (hd : d < radixVal rho) :
    passI E rho la z (k + js * (d + radixVal rho * blk)) =
      twid E la k d ((butterfly E rho (fun c => k + js * (c + radixVal rho * blk)) z).getD d (0, 0)) := by
  have hrho := radixVal_pos rho
  have hjs : E.ni / (radixVal rho * la) = js := by
    rw [hni, mul_assoc, Nat.mul_div_cancel _ (Nat.mul_pos hrho (by omega))]
  have hround : ∀ blk k, k < js → WorksOn (fun x => (True ∧ x / js / radixVal rho = blk) ∧ x % js = k) fun z =>
      storeTwiddled E la k (fun c => blk * radixVal rho * js + k + c * js) 0
        (butterfly E rho (fun c => blk * radixVal rho * js + k + c * js) z) z := fun blk k hk =>
    (roundI_worksOn hE rho la k (placeI_inj hk blk)).of_iff fun x => placeI_iff hrho hk
  have hvalue := roundI_place hE rho la k (placeI_inj hk blk) z hd
  simp only [placeI_eq] at hvalue
  have hkeyBlk : (k + js * (d + radixVal rho * blk)) / js / radixVal rho = blk := by rw [digits_div hk, digits_div hd]
  have hkeyK : (k + js * (d + radixVal rho * blk)) % js = k := digits_mod hk _
  simp only [passI, hjs]
  rw [loop_eq_round (S := fun _ => True) (key := fun x => x / js / radixVal rho)
      (fun blk _ => loop_worksOn (hround blk)) z trivial, hkeyBlk, if_pos hblk,
    loop_eq_round (S := fun x => True ∧ x / js / radixVal rho = blk) (key := fun x => x % js) (hround blk) z
      ⟨trivial, hkeyBlk⟩, hkeyK, if_pos hk]
  simp only [placeI_eq]
  exact hvalue

theorem passII_place {nb : Nat} (hla : la = js * radixVal rho * nb) (z : Nat → Cpx ℝ) {k bl g e d : Nat} (hk : k < js)
    (hbl : bl < nb) (hg : g < js) (he : e < radixVal rho) (hd : d < radixVal rho) :
    passII E rho la z (k + js * (e + radixVal rho * (bl + nb * (d + radixVal rho * g)))) =
      twid E la k d ((butterfly E rho
        (fun c => k + js * (c + radixVal rho * (bl + nb * (e + radixVal rho * g)))) z).getD d (0, 0)) := by
  have hrho := radixVal_pos rho
  have hjs0 : 0 < js := by omega
  have hla0 : 0 < la := by rw [hla]; exact Nat.mul_pos (Nat.mul_pos hjs0 hrho) (by omega)
  have hjs : E.ni / (radixVal rho * la) = js := by
    rw [hni, mul_assoc, Nat.mul_div_cancel _ (Nat.mul_pos hrho hla0)]
  have hnb : la / (radixVal rho * js) = nb := by
    rw [hla, Nat.mul_comm js, Nat.mul_div_cancel_left _ (Nat.mul_pos hrho hjs0)]
  have hround : ∀ k, k < js → ∀ bl, bl < nb → ∀ g, g < js →
      WorksOn (fun x => ((True ∧ x % js = k) ∧ x / js / radixVal rho % nb = bl) ∧
        x / js / radixVal rho / nb / radixVal rho = g) fun z =>
      storeSquare E la k js (k + bl * radixVal rho * js + g * radixVal rho * la) 0
        (squareRows E rho la js (k + bl * radixVal rho * js + g * radixVal rho * la) z) z := fun k hk bl hbl g hg => by
    subst hla
    exact (roundII_worksOn hE rho _ k js _ (placeII_inj hk hbl g)).of_iff fun x => placeII_iff hrho hk hbl
  have hvalue := roundII_place hE rho _ k js _ (placeII_inj hk hbl g) z he hd
  have hplace := fun e d => placeII_eq js (radixVal rho) nb k bl g e d
  simp only [← hla] at hvalue hplace
  have hkeyK : (k + js * (e + radixVal rho * (bl + nb * (d + radixVal rho * g)))) % js = k := digits_mod hk _
  have hkeyBl : (k + js * (e + radixVal rho * (bl + nb * (d + radixVal rho * g)))) / js / radixVal rho % nb = bl := by
    rw [digits_div hk, digits_div he, digits_mod hbl]
  have hkeyG : (k + js * (e + radixVal rho * (bl + nb * (d + radixVal rho * g)))) / js / radixVal rho / nb / radixVal rho =
      g := by
    rw [digits_div hk, digits_div he, digits_div hbl, digits_div hd]
  have hpass : passII E rho la z = loop js (fun k => loop nb fun bl => loop js fun g z =>
      storeSquare E la k js (k + bl * radixVal rho * js + g * radixVal rho * la) 0
        (squareRows E rho la js (k + bl * radixVal rho * js + g * radixVal rho * la) z) z) z := by
    simp only [passII, hjs, hnb]
    rfl
  rw [hpass, loop_eq_round (S := fun _ => True) (key := fun x => x % js)
      (fun k hk => loop_worksOn fun bl hbl => loop_worksOn (hround k hk bl hbl)) z trivial, hkeyK, if_pos hk,
    loop_eq_round (S := fun x => True ∧ x % js = k) (key := fun x => x / js / radixVal rho % nb)
      (fun bl hbl => loop_worksOn (hround k hk bl hbl)) z ⟨trivial, hkeyK⟩, hkeyBl, if_pos hbl,
    loop_eq_round (S := fun x => (True ∧ x % js = k) ∧ x / js / radixVal rho % nb = bl)
      (key := fun x => x / js / radixVal rho / nb / radixVal rho) (hround k hk bl hbl) z ⟨⟨trivial, hkeyK⟩, hkeyBl⟩, hkeyG,
    if_pos hg]
  simp only [hplace] at hvalue
  exact hvalue

end

end Sys2Proof.Proofs
end

section
/-! PROOF. What a unit computes in exact arithmetic (42_engine_common.md R153, R154). After passes with the product `la` the
element at k + R·B, R = ni/la, is a partial transform: the sum over the elements k, k + R, k + 2R, ... for one frequency
(`PartialDfts`); a pass of radix ρ joins ρ of them. Which frequency stands at B is a digit reversal over the passes that have no
mirror image yet (`frequencyAt`); a type II pass takes one digit off it, so that the natural order stands at the end. -/

namespace Sys2Proof.Proofs

open Sys2Proof Sys2Proof.Machine
open Sys2Proof.Config (Sign)

/-! ### Partial transforms -/

/-- The sum over the elements k + R·t, t < la, for the frequency v, in a transform of n elements with ω_n^σ. -/
noncomputable def partialDft (n : Nat) (σ : ℤ) (x : Nat → Cpx ℝ) (la R v k : Nat) : ℂ :=
  ∑ t ∈ Finset.range la, toComplex (x (k + R * t)) * omega n (σ * (k + R * t : Nat) * v)

theorem partialDft_one (n : Nat) (σ : ℤ) (x : Nat → Cpx ℝ) (R k : Nat) : partialDft n σ x 1 R 0 k = toComplex (x k) := by
  simp [partialDft, omega_zero]

theorem sum_range_mul {M : Type} [AddCommMonoid M] (f : Nat → M) (rho la : Nat) :
    ∑ t ∈ Finset.range (rho * la), f t = ∑ c ∈ Finset.range rho, ∑ t ∈ Finset.range la, f (c + rho * t) := by
  induction la with
  | zero => simp
  | succ la ih =>
    rw [Nat.mul_succ, Finset.sum_range_add, ih, ← Finset.sum_add_distrib]
    refine Finset.sum_congr rfl fun c _ => ?_
    rw [Finset.sum_range_succ, Nat.add_comm c]

/-- A partial transform over ρ·la elements is a transform of ρ of those over la elements, times a twiddle (R155, R157). -/
theorem partialDft_mul {n js rho la : Nat} (hn : n = js * rho * la) (hpos : 0 < n) (σ : ℤ) (x : Nat → Cpx ℝ) (v d k : Nat) :
    partialDft n σ x (rho * la) js (v + la * d) k =
      omega n (σ * (la * k * d : Nat)) *
        ∑ c ∈ Finset.range rho, partialDft n σ x la (js * rho) v (k + js * c) * omega rho (σ * c * d) := by
  have hjl : 0 < js * la := Nat.pos_of_ne_zero fun h0 => hpos.ne' (by rw [hn, mul_right_comm, h0, Nat.zero_mul])
  rw [partialDft, sum_range_mul, Finset.mul_sum]
  refine Finset.sum_congr rfl fun c _ => ?_
  rw [partialDft, Finset.sum_mul, Finset.mul_sum]
  refine Finset.sum_congr rfl fun t _ => ?_
  have hplace : k + js * (c + rho * t) = k + js * c + js * rho * t := by ring
  have hexp : σ * (k + js * c + js * rho * t : Nat) * (v + la * d : Nat) =
      σ * (k + js * c + js * rho * t : Nat) * v + σ * (la * k * d : Nat) + (js * la : Nat) * (σ * c * d) +
        n * (σ * t * d) := by
    rw [hn]
    push_cast
    ring
  have hroot : omega n ((js * la : Nat) * (σ * c * d)) = omega rho (σ * c * d) := by
    rw [hn, mul_right_comm]
    exact omega_mul_left hjl rho _
  rw [hplace, hexp, omega_add_turns hpos, omega_add, omega_add, hroot]
  ring

/-! ### Twiddles and butterflies of a unit -/

/-- The exponent s·kink of a unit's root (R153). -/
def unitTurn (b : Prime) (mm inq : Nat) (sign : Sign) : ℤ := signVal sign * (inq % primeVal b ^ mm : Nat)

theorem toComplex_cmul (co si : ℝ) (y : Cpx ℝ) : toComplex (cmul realArith co si y) = ⟨co, si⟩ * toComplex y := by
  apply Complex.ext <;> simp [cmul, realArith]
  ring

theorem primeVal_pos (b : Prime) : 0 < primeVal b := by cases b <;> decide

section

variable (b : Prime) (mm inq : Nat) (sign : Sign)

theorem realUnit_lineStore : LineStore (realUnit b mm inq sign) := ⟨fun _ _ => rfl, fun _ _ _ => rfl⟩

theorem unit_pos : 0 < primeVal b ^ mm := Nat.pow_pos (primeVal_pos b)

/-- The pair of R141 with the sign of the direction is a power of the unit's root. -/
theorem toComplex_twid (la k d : Nat) (y : Cpx ℝ) :
    toComplex (twid (realUnit b mm inq sign) la k d y) =
      omega (primeVal b ^ mm) (unitTurn b mm inq sign * (la * k * d : Nat)) * toComplex y := by
  unfold twid
  split
  · next h0 =>
    have hzero : la * k * d = 0 := by rcases h0 with rfl | rfl <;> simp
    rw [hzero, Nat.cast_zero, mul_zero, omega_zero, one_mul]
  · obtain ⟨K, hK⟩ : ∃ K, K = la * k * d * (inq % primeVal b ^ mm) % primeVal b ^ mm := ⟨_, rfl⟩
    have hturn : omega (primeVal b ^ mm) (unitTurn b mm inq sign * (la * k * d : Nat)) =
        omega (primeVal b ^ mm) (signVal sign * K) := by
      refine omega_congr (unit_pos b mm) ?_
      rw [hK, unitTurn, mul_assoc, Nat.mul_comm (la * k * d), ← Nat.cast_mul]
      exact ((Int.natCast_modEq_iff.2 (Nat.mod_modEq _ _)).symm).mul_left _
    rw [hturn, omega_eq_cos_sin]
    dsimp only [realUnit]
    rw [toComplex_cmul, ← hK]
    cases sign with
    | minus => simp [signVal, realArith, neg_div]
    | plus => simp [signVal]

/-- The residue μ of R159 is the unit's turn modulo the radix, and meets what the kernel needs. -/
theorem residueMu_spec {rho : Nat} (hrho : 1 < rho) (hdvd : rho ∣ primeVal b ^ mm) (hco : Nat.Coprime inq rho) :
    0 < residueMu inq rho sign ∧ residueMu inq rho sign < rho ∧ Nat.Coprime (residueMu inq rho sign) rho ∧
      (residueMu inq rho sign : ℤ) ≡ unitTurn b mm inq sign [ZMOD rho] := by
  have hmod : Nat.Coprime (inq % rho) rho := by rwa [Nat.Coprime, ← Nat.gcd_rec, Nat.gcd_comm]
  have hpos : 0 < inq % rho := Nat.pos_of_ne_zero fun h0 => by
    rw [h0, Nat.coprime_zero_left] at hmod
    omega
  have hlt := Nat.mod_lt inq (show 0 < rho by omega)
  have hturn : ((inq % rho : Nat) : ℤ) ≡ (inq % primeVal b ^ mm : Nat) [ZMOD rho] := by
    rw [Int.natCast_modEq_iff, Nat.ModEq, Nat.mod_mod, Nat.mod_mod_of_dvd _ hdvd]
  cases sign with
  | plus =>
    refine ⟨hpos, hlt, hmod, ?_⟩
    rw [unitTurn, signVal, one_mul]
    exact hturn
  | minus =>
    refine ⟨Nat.sub_pos_of_lt hlt, Nat.sub_lt (by omega) hpos, ?_, ?_⟩
    · exact (Nat.coprime_self_sub_left hlt.le).2 hmod
    · rw [residueMu, Nat.cast_sub hlt.le, unitTurn, signVal]
      have hself : (rho : ℤ) ≡ 0 [ZMOD rho] := by simp [Int.ModEq]
      have := hself.sub hturn
      rwa [zero_sub, ← neg_one_mul] at this

variable {b mm inq sign}

theorem toComplex_butterfly (rho : Radix) (hdvd : radixVal rho ∣ primeVal b ^ mm) (hco : Nat.Coprime inq (radixVal rho))
    (place : Nat → Nat) (z : Nat → Cpx ℝ) {d : Nat} (hd : d < radixVal rho) :
    toComplex ((butterfly (realUnit b mm inq sign) rho place z).getD d (0, 0)) =
      ∑ c ∈ Finset.range (radixVal rho),
        toComplex (z (place c)) * omega (radixVal rho) (unitTurn b mm inq sign * c * d) := by
  have hrho : 1 < radixVal rho := by cases rho <;> decide
  obtain ⟨h0, hlt, hmu, hturn⟩ := residueMu_spec b mm inq sign hrho hdvd hco
  refine ((kernelsAreRotatedDfts rho _ (fun c => z (place c)) h0 hlt hmu).2 d hd).trans ?_
  exact Finset.sum_congr rfl fun c _ => congrArg _ (omega_congr (by omega) ((hturn.mul_right _).mul_right _))

/-- A twiddled butterfly on partial transforms is a longer one. -/
theorem twid_butterfly_partialDft (rho : Radix) {la js : Nat} (hni : primeVal b ^ mm = js * radixVal rho * la)
    (hco : Nat.Coprime inq (radixVal rho)) {place : Nat → Nat} {z x : Nat → Cpx ℝ} {v k d : Nat} (hd : d < radixVal rho)
    (hz : ∀ c, c < radixVal rho → toComplex (z (place c)) =
      partialDft (primeVal b ^ mm) (unitTurn b mm inq sign) x la (js * radixVal rho) v (k + js * c)) :
    toComplex (twid (realUnit b mm inq sign) la k d ((butterfly (realUnit b mm inq sign) rho place z).getD d (0, 0))) =
      partialDft (primeVal b ^ mm) (unitTurn b mm inq sign) x (radixVal rho * la) js (v + la * d) k := by
  have hdvd : radixVal rho ∣ primeVal b ^ mm := hni ▸ Dvd.intro_left _ (by ring : js * la * radixVal rho = _)
  rw [toComplex_twid, toComplex_butterfly rho hdvd hco place z hd, partialDft_mul hni (unit_pos b mm)]
  congr 1
  exact Finset.sum_congr rfl fun c hc => by rw [hz c (Finset.mem_range.1 hc)]

end

/-! ### Passes on partial transforms -/

/-- The element at k + R·B is the partial transform of x at k for the frequency `freq B`. -/
def PartialDfts (n : Nat) (σ : ℤ) (x : Nat → Cpx ℝ) (la R : Nat) (freq : Nat → Nat) (z : Nat → Cpx ℝ) : Prop :=
  ∀ B, B < la → ∀ k, k < R → toComplex (z (k + R * B)) = partialDft n σ x la R (freq B) k

section

variable {b : Prime} {mm inq : Nat} {sign : Sign} {x z : Nat → Cpx ℝ} (rho : Radix) {la js : Nat} {freq freq' : Nat → Nat}
  (hni : primeVal b ^ mm = js * radixVal rho * la) (hco : Nat.Coprime inq (radixVal rho))
  (h : PartialDfts (primeVal b ^ mm) (unitTurn b mm inq sign) x la (js * radixVal rho) freq z)
include hni hco h

theorem PartialDfts.passI (hfreq : ∀ d, d < radixVal rho → ∀ B, B < la → freq' (d + radixVal rho * B) = freq B + la * d) :
    PartialDfts (primeVal b ^ mm) (unitTurn b mm inq sign) x (radixVal rho * la) js freq'
      (Machine.passI (realUnit b mm inq sign) rho la z) := by
  intro B' hB' k hk
  have hrho := radixVal_pos rho
  obtain ⟨d, hd, B, hB, rfl⟩ : ∃ d, d < radixVal rho ∧ ∃ B, B < la ∧ d + radixVal rho * B = B' :=
    ⟨_, Nat.mod_lt _ hrho, _, Nat.div_lt_of_lt_mul hB', Nat.mod_add_div _ _⟩
  rw [passI_place (realUnit_lineStore b mm inq sign) rho hni z hB hk hd, hfreq d hd B hB]
  refine twid_butterfly_partialDft rho hni hco hd fun c hc => ?_
  have hplace : k + js * (c + radixVal rho * B) = k + js * c + js * radixVal rho * B := by ring
  rw [hplace]
  refine h B hB _ ?_
  calc k + js * c < js * (c + 1) := by rw [Nat.mul_succ]; omega
    _ ≤ js * radixVal rho := Nat.mul_le_mul_left _ hc

theorem PartialDfts.passII {nb : Nat} (hla : la = js * radixVal rho * nb)
    (hfreq : ∀ e, e < radixVal rho → ∀ d, d < radixVal rho → ∀ bl, bl < nb → ∀ g, g < js →
      freq' (e + radixVal rho * (bl + nb * (d + radixVal rho * g))) =
        freq (bl + nb * (e + radixVal rho * g)) + la * d) :
    PartialDfts (primeVal b ^ mm) (unitTurn b mm inq sign) x (radixVal rho * la) js freq'
      (Machine.passII (realUnit b mm inq sign) rho la z) := by
  intro B' hB' k hk
  have hrho := radixVal_pos rho
  have hnb : 0 < nb := Nat.pos_of_ne_zero fun h0 => by
    rw [hla, h0] at hB'
    simp at hB'
  obtain ⟨e, he, bl, hbl, d, hd, g, hg, rfl⟩ : ∃ e, e < radixVal rho ∧ ∃ bl, bl < nb ∧ ∃ d, d < radixVal rho ∧
      ∃ g, g < js ∧ e + radixVal rho * (bl + nb * (d + radixVal rho * g)) = B' := by
    refine ⟨_, Nat.mod_lt B' hrho, _, Nat.mod_lt (B' / radixVal rho) hnb, _, Nat.mod_lt (B' / radixVal rho / nb) hrho,
      B' / radixVal rho / nb / radixVal rho, ?_, by rw [Nat.mod_add_div, Nat.mod_add_div, Nat.mod_add_div]⟩
    rw [Nat.div_div_eq_div_mul, Nat.div_div_eq_div_mul]
    refine Nat.div_lt_of_lt_mul (hB'.trans_eq ?_)
    rw [hla]
    ring
  rw [passII_place (realUnit_lineStore b mm inq sign) rho hni hla z hk hbl hg he hd, hfreq e he d hd bl hbl g hg]
  refine twid_butterfly_partialDft rho hni hco hd fun c hc => ?_
  have hplace : k + js * (c + radixVal rho * (bl + nb * (e + radixVal rho * g))) =
      k + js * c + js * radixVal rho * (bl + nb * (e + radixVal rho * g)) := by ring
  rw [hplace]
  refine h _ ?_ _ ?_
  · have hgrid : e + radixVal rho * g < radixVal rho * js := by
      calc e + radixVal rho * g < radixVal rho * (g + 1) := by rw [Nat.mul_succ]; omega
        _ ≤ radixVal rho * js := Nat.mul_le_mul_left _ hg
    calc bl + nb * (e + radixVal rho * g) < nb * (e + radixVal rho * g + 1) := by rw [Nat.mul_succ]; omega
      _ ≤ nb * (radixVal rho * js) := Nat.mul_le_mul_left _ hgrid
      _ = la := by rw [hla]; ring
  · calc k + js * c < js * (c + 1) := by rw [Nat.mul_succ]; omega
      _ ≤ js * radixVal rho := Nat.mul_le_mul_left _ hc

end

/-! ### Which frequency stands where -/

/-- The number whose i base-ρ digits are those of B in reverse. -/
def digitReverse (rho : Nat) : (i : Nat) → Nat → Nat
  | 0, _ => 0
  | i + 1, B => digitReverse rho i (B / rho) + rho ^ i * (B % rho)

/-- The frequency at B where i front passes wait for their mirror images: the i high digits reversed, and above them the low part
below N in natural order. -/
def frequencyAt (rho i N B : Nat) : Nat := digitReverse rho i (B / N) + rho ^ i * (B % N)

section

variable {rho i : Nat}

theorem frequencyAt_one (B : Nat) : frequencyAt rho i 1 B = digitReverse rho i B := by
  rw [frequencyAt, Nat.div_one, Nat.mod_one, Nat.mul_zero, Nat.add_zero]

/-- A front pass adds a digit. -/
theorem frequencyAt_front {d : Nat} (hd : d < rho) (B : Nat) :
    frequencyAt rho (i + 1) 1 (d + rho * B) = frequencyAt rho i 1 B + rho ^ i * d := by
  rw [frequencyAt_one, frequencyAt_one, digitReverse, digits_div hd, digits_mod hd]

/-- The central pass puts its digit in natural order. -/
theorem frequencyAt_central {N d : Nat} (hd : d < N) (B : Nat) :
    frequencyAt rho i N (d + N * B) = frequencyAt rho i 1 B + rho ^ i * d := by
  rw [frequencyAt_one, frequencyAt, digits_div hd, digits_mod hd]

/-- A mirror image takes one reversed digit to the bottom of the natural order and puts its own on top. -/
theorem frequencyAt_mirror {N e bl d : Nat} (he : e < rho) (hbl : bl < N) (hd : d < rho) (g : Nat) :
    frequencyAt rho i (rho * N * rho) (e + rho * (bl + N * (d + rho * g))) =
      frequencyAt rho (i + 1) N (bl + N * (e + rho * g)) + rho ^ (i + 1) * N * d := by
  have hlow : e + rho * (bl + N * d) < rho * N * rho := by
    calc e + rho * (bl + N * d) < rho * (bl + N * d + 1) := by rw [Nat.mul_succ]; omega
      _ ≤ rho * (N * (d + 1)) := Nat.mul_le_mul_left _ (by rw [Nat.mul_succ]; omega)
      _ ≤ rho * (N * rho) := Nat.mul_le_mul_left _ (Nat.mul_le_mul_left _ hd)
      _ = rho * N * rho := by ring
  have hsplit : e + rho * (bl + N * (d + rho * g)) = e + rho * (bl + N * d) + rho * N * rho * g := by ring
  rw [hsplit, frequencyAt, digits_div hlow, digits_mod hlow, frequencyAt, digits_div hbl, digits_mod hbl, digitReverse,
    digits_div he, digits_mod he]
  ring

theorem frequencyAt_zero {N B : Nat} (hB : B < N) : frequencyAt rho 0 N B = B := by
  rw [frequencyAt, digitReverse, pow_zero, one_mul, Nat.zero_add, Nat.mod_eq_of_lt hB]

end

/-! ### The passes of a mirrored list -/

theorem runPasses_append {σ α : Type} (E : UnitEnv σ α) (ps qs : List Pass) (la : Nat) (st : σ) :
    runPasses E (ps ++ qs) la st = runPasses E qs (la * radixProduct ps) (runPasses E ps la st) := by
  induction ps generalizing la st with
  | nil => rw [List.nil_append, radixProduct_nil, Nat.mul_one]; rfl
  | cons p ps ih => rw [List.cons_append, runPasses, ih, radixProduct_cons, Nat.mul_assoc]; rfl

theorem runPass_typeII {σ α : Type} (E : UnitEnv σ α) (rho : Radix) (la : Nat) (st : σ) :
    runPass E ⟨rho, true⟩ la st = passII E rho la st := rfl

section

variable {b : Prime} {mm inq : Nat} {sign : Sign} (rho : Radix) (x : Nat → Cpx ℝ)

/-- The front passes reverse their digits. -/
theorem partialDfts_front (hco : Nat.Coprime inq (radixVal rho)) (h R : Nat)
    (hni : primeVal b ^ mm = R * radixVal rho ^ h) :
    PartialDfts (primeVal b ^ mm) (unitTurn b mm inq sign) x (radixVal rho ^ h) R (frequencyAt (radixVal rho) h 1)
      (runPasses (realUnit b mm inq sign) (passes h rho false) 1 x) := by
  induction h generalizing R with
  | zero =>
    intro B hB k hk
    obtain rfl : B = 0 := by simpa using hB
    rw [frequencyAt_one, digitReverse, pow_zero, partialDft_one]
    rfl
  | succ h ih =>
    have hni' : primeVal b ^ mm = R * radixVal rho * radixVal rho ^ h := by rw [hni, pow_succ]; ring
    rw [passes_succ_last, runPasses_append, radixProduct_passes, Nat.one_mul, pow_succ']
    exact (ih _ hni').passI rho hni' hco fun d hd B _ => frequencyAt_front hd B

/-- The mirror images take the digits back. -/
theorem partialDfts_back (hco : Nat.Coprime inq (radixVal rho)) (h N : Nat) (z : Nat → Cpx ℝ)
    (hni : primeVal b ^ mm = radixVal rho ^ h * (radixVal rho ^ h * N))
    (hz : PartialDfts (primeVal b ^ mm) (unitTurn b mm inq sign) x (radixVal rho ^ h * N) (radixVal rho ^ h)
      (frequencyAt (radixVal rho) h N) z) :
    PartialDfts (primeVal b ^ mm) (unitTurn b mm inq sign) x (primeVal b ^ mm) 1
      (frequencyAt (radixVal rho) 0 (primeVal b ^ mm))
      (runPasses (realUnit b mm inq sign) (passes h rho true) (radixVal rho ^ h * N) z) := by
  induction h generalizing N z with
  | zero =>
    obtain rfl : N = primeVal b ^ mm := by simpa using hni.symm
    simpa [passes, runPasses] using hz
  | succ h ih =>
    have hpow : radixVal rho ^ (h + 1) = radixVal rho ^ h * radixVal rho := pow_succ _ _
    have hnext : radixVal rho ^ (h + 1) * N * radixVal rho = radixVal rho ^ h * (radixVal rho * N * radixVal rho) := by
      rw [hpow]; ring
    rw [passes_succ, runPasses, hnext]
    refine ih (radixVal rho * N * radixVal rho) _ ?_ ?_
    · rw [hni, hpow]; ring
    · rw [← hnext, Nat.mul_comm _ (radixVal rho), runPass_typeII]
      rw [hpow] at hz hni ⊢
      refine hz.passII rho (nb := N) hni hco rfl fun e he d hd bl hbl g _ => ?_
      rw [← hpow]
      exact frequencyAt_mirror he hbl hd g

theorem partialDfts_central {central : List Pass} (hcentral : Central central) (h : Nat) {z : Nat → Cpx ℝ}
    (hni : primeVal b ^ mm = radixVal rho ^ h * radixProduct central * radixVal rho ^ h)
    (hco : Nat.Coprime inq (radixProduct central))
    (hz : PartialDfts (primeVal b ^ mm) (unitTurn b mm inq sign) x (radixVal rho ^ h)
      (radixVal rho ^ h * radixProduct central) (frequencyAt (radixVal rho) h 1) z) :
    PartialDfts (primeVal b ^ mm) (unitTurn b mm inq sign) x (radixVal rho ^ h * radixProduct central) (radixVal rho ^ h)
      (frequencyAt (radixVal rho) h (radixProduct central))
      (runPasses (realUnit b mm inq sign) central (radixVal rho ^ h) z) := by
  obtain rfl | ⟨c, rfl⟩ := hcentral
  · simpa [runPasses] using hz
  · rw [radixProduct_cons, radixProduct_nil, Nat.mul_one] at *
    have hpass := hz.passI c hni hco fun d hd B _ => frequencyAt_central (rho := radixVal rho) (i := h) hd B
    rwa [Nat.mul_comm (radixVal c)] at hpass

end

/-- Settles O57: after all passes one partial transform is left at each place, that of the whole unit for the frequency of the
place. -/
theorem unitIsRotatedDft : Obligations.UnitIsRotatedDft := by
  intro b mm inq sign z _ _ hcob v hv
  obtain ⟨h, central, hlist, hcentral, hprod⟩ := passList_mirrored b mm
  have hco : Nat.Coprime inq (primeVal b ^ mm) := hcob.pow_right mm
  have hni : primeVal b ^ mm =
      radixVal (mainRadix b) ^ h * radixProduct central * radixVal (mainRadix b) ^ h := by
    rw [← hprod, hlist, mirrored, radixProduct_append, radixProduct_append, radixProduct_passes, radixProduct_passes]
  have hcoMain : Nat.Coprime inq (radixVal (mainRadix b)) := by
    have hsq : Nat.Coprime inq (radixVal (mainRadix b) ^ 2) := mainRadix_sq b ▸ hcob.pow_right _
    exact hsq.coprime_dvd_right (dvd_pow_self _ two_ne_zero)
  have hcoCentral : Nat.Coprime inq (radixProduct central) :=
    hco.coprime_dvd_right ⟨radixVal (mainRadix b) ^ h * radixVal (mainRadix b) ^ h, by rw [hni]; ring⟩
  have hfront := partialDfts_front (sign := sign) (mainRadix b) z hcoMain h _ hni
  have hmiddle := partialDfts_central (mainRadix b) z hcentral h hni hcoCentral hfront
  have hback := partialDfts_back (mainRadix b) z hcoMain h _ _ (by rw [hni]; ring) hmiddle
  have hplace := hback v hv 0 Nat.one_pos
  rw [frequencyAt_zero hv, Nat.one_mul, Nat.zero_add] at hplace
  rw [hlist, mirrored, runPasses_append, runPasses_append, radixProduct_append, radixProduct_passes, Nat.one_mul, Nat.one_mul,
    hplace, partialDft]
  simp only [Nat.zero_add, Nat.one_mul]
  rfl

end Sys2Proof.Proofs
end

section
/-! PROOF. An engine whose group is the whole axis and whose pass list is one pass (42_engine_common.md R155, R180 to R183): a
lot is one unit, read in order, and no value is twiddled, so what the run leaves is the kernel of the lot's values. A value that
fits `FLEN` bits is stored whole, and the arithmetic gives such values. -/

namespace Sys2Proof.Proofs

open Sys2Proof Sys2Proof.Machine
open Sys2Proof.Config (Prec Sign FpOp)

/-! ### Values of `FLEN` bits (R65) -/

/-- The value has `FLEN` bits, so that storing it cuts nothing off. -/
def FitsFormat (f : Prec) (v : Word) : Prop := v.toNat < 2 ^ flen f

/-- Both parts of a complex value have `FLEN` bits. -/
def PairFits (f : Prec) (z : Cpx Word) : Prop := FitsFormat f z.1 ∧ FitsFormat f z.2

theorem FitsFormat.truncWord_eq {f : Prec} {v : Word} (h : FitsFormat f v) : truncWord f v = v := truncWord_of_lt h

theorem fitsFormat_truncWord (f : Prec) (v : Word) : FitsFormat f (truncWord f v) := by
  have hpos : 0 < 2 ^ flen f := by positivity
  rw [FitsFormat, truncWord, BitVec.toNat_ofNat]
  exact (Nat.mod_le _ _).trans_lt (Nat.mod_lt _ hpos)

theorem readBytes_lt {m : Memory} {count off v : Nat} (h : readBytes m count off = some v) : v < 256 ^ count := by
  induction count generalizing off v with
  | zero =>
    obtain rfl := Option.some.inj h
    exact Nat.one_pos
  | succ n ih =>
    rw [readBytes] at h
    split at h
    · next b rest _ hrest =>
      have hlt := ih hrest
      have hb := b.isLt
      rw [Option.some.injEq] at h
      rw [Nat.pow_succ]
      omega
    · exact absurd h (by simp)

/-- A word of a memory has `FLEN` bits. -/
theorem FitsFormat.of_wordAt {f : Prec} {m : Memory} {w : Nat} {v : Word} (h : wordAt f m w = some v) : FitsFormat f v := by
  rw [wordAt] at h
  split at h
  · next u hu =>
    obtain rfl := Option.some.inj h
    have hlt := readBytes_lt hu
    rw [pow_wordBytes] at hlt
    rw [FitsFormat, BitVec.toNat_ofNat]
    exact (Nat.mod_le _ _).trans_lt hlt
  · exact absurd h (by simp)

section

variable {f : Prec}

theorem fitsFormat_signed (neg : Bool) {bits : Nat} (h : bits < 2 ^ (flen f - 1)) : FitsFormat f (signed f neg bits) :=
  signed_lt f neg h

theorem fitsFormat_signed_roundUnits (neg : Bool) (m k : Nat) : FitsFormat f (signed f neg (roundUnits f m k)) :=
  fitsFormat_signed neg (by have := roundUnits_le f m k; have := infBits_lt f; omega)

theorem fitsFormat_nanResult (op : FpOp) (a b : Word) : FitsFormat f (nanResult f op a b) := by
  have hroom : infBits f + 2 ^ fracBits f = 2 ^ (flen f - 1) := by cases f <;> decide
  have hone : 1 < 2 ^ fracBits f := by cases f <;> decide
  have hfrac : fpFrac f (truncWord f (Config.nanWord f op a b)) < 2 ^ fracBits f := Nat.mod_lt _ (by positivity)
  refine fitsFormat_signed _ ?_
  split <;> omega

theorem FitsFormat.fpNeg {v : Word} (h : FitsFormat f v) : FitsFormat f (fpNeg f v) := by
  have hbit : BitVec.toNat (BitVec.ofNat 64 (2 ^ (flen f - 1))) < 2 ^ flen f := by cases f <;> decide
  rw [FitsFormat, Machine.fpNeg, BitVec.toNat_xor]
  exact Nat.xor_lt_two_pow h hbit

/-- A sum is its NaN, an infinite operand, or a rounded number. -/
theorem fitsFormat_fpSum {nan a b : Word} (hnan : FitsFormat f nan) (ha : FitsFormat f a) (hb : FitsFormat f b) :
    FitsFormat f (fpSum f nan a b) := by
  unfold fpSum
  split
  · exact hnan
  split
  · split
    · exact hnan
    · exact ha
  split
  · exact hb
  dsimp only
  split
  · exact fitsFormat_signed _ (by positivity)
  · exact fitsFormat_signed_roundUnits _ _ _

/-- A product is a NaN, an infinity, or a rounded number: always of `FLEN` bits. -/
theorem fitsFormat_fpMul (a b : Word) : FitsFormat f (fpMul f a b) := by
  have hinf : ∀ neg, FitsFormat f (signed f neg (infBits f)) := fun neg =>
    fitsFormat_signed neg (by have := infBits_lt f; omega)
  have hnan := fitsFormat_nanResult (f := f) .mul a b
  unfold fpMul
  dsimp only
  split
  · exact hnan
  split
  · split
    · exact hnan
    · exact hinf _
  split
  · split
    · exact hnan
    · exact hinf _
  · exact fitsFormat_signed_roundUnits _ _ _

end

/-! ### What a kernel keeps -/

/-- Sums and differences of values in `P` are in `P`, and all products are. -/
structure KeepsValues {α : Type} (A : Arith α) (P : α → Prop) : Prop where
  add : ∀ {a b}, P a → P b → P (A.add a b)
  sub : ∀ {a b}, P a → P b → P (A.sub a b)
  mul : ∀ a b, P (A.mul a b)

theorem fpArith_keepsValues (f : Prec) : KeepsValues (fpArith f) (FitsFormat f) where
  add ha hb := fitsFormat_fpSum (fitsFormat_nanResult _ _ _) ha hb
  sub ha hb := fitsFormat_fpSum (fitsFormat_nanResult _ _ _) ha hb.fpNeg
  mul := fitsFormat_fpMul

theorem mem_interleave {α : Type} {z : Cpx α} {es os : List (Cpx α)} (h : z ∈ interleave es os) : z ∈ es ∨ z ∈ os := by
  induction es generalizing os with
  | nil => exact absurd h (by simp [interleave])
  | cons e es ih =>
    cases os with
    | nil => exact absurd h (by simp [interleave])
    | cons o os =>
      simp only [interleave, List.mem_cons] at h ⊢
      have := ih (os := os)
      tauto

section

variable {α : Type} {A : Arith α} {P : α → Prop} (hA : KeepsValues A P)
include hA

theorem kernel4_keeps (ss : α) {a0 a1 a2 a3 : Cpx α} (h0 : P a0.1 ∧ P a0.2) (h1 : P a1.1 ∧ P a1.2) (h2 : P a2.1 ∧ P a2.2)
    (h3 : P a3.1 ∧ P a3.2) : ∀ z ∈ kernel4 A ss a0 a1 a2 a3, P z.1 ∧ P z.2 := by
  simp [kernel4, hA.add, hA.sub, hA.mul, h0, h1, h2, h3]

/-- A kernel on values in `P` gives values in `P`. -/
theorem kernel_keeps (rho : Radix) (mu : Nat) {a : List (Cpx α)} (h : ∀ z ∈ a, P z.1 ∧ P z.2) :
    ∀ z ∈ kernel A rho mu a, P z.1 ∧ P z.2 := by
  unfold kernel
  split
  · simp only [List.forall_mem_cons] at h
    simp [kernel2, cadd, csub, hA.add, hA.sub, h]
  · simp only [List.forall_mem_cons] at h
    simp [kernel3, hA.add, hA.sub, hA.mul, h]
  · simp only [List.forall_mem_cons] at h
    obtain ⟨h0, h1, h2, h3, -⟩ := h
    exact kernel4_keeps hA _ h0 h1 h2 h3
  · simp only [List.forall_mem_cons] at h
    obtain ⟨⟨_, _⟩, ⟨_, _⟩, ⟨_, _⟩, ⟨_, _⟩, ⟨_, _⟩, -⟩ := h
    intro z hz
    simp only [kernel5, List.mem_cons, List.not_mem_nil, or_false] at hz
    rcases hz with rfl | rfl | rfl | rfl | rfl <;> constructor <;> apply_rules [hA.add, hA.sub, hA.mul]
  · simp only [List.forall_mem_cons] at h
    obtain ⟨h0, h1, h2, h3, h4, h5, h6, h7, -⟩ := h
    intro z hz
    rcases mem_interleave hz with hz | hz
    · refine kernel4_keeps hA _ ?_ ?_ ?_ ?_ z hz <;> simp [cadd, hA.add, *]
    · refine kernel4_keeps hA _ ?_ ?_ ?_ ?_ z hz <;> simp [csub, cmul, hA.add, hA.sub, hA.mul, *]
  · exact h

end

/-! ### A unit that is a whole lot -/

/-- A type I pass over a unit of ρ elements is one butterfly on all of them, with no twiddles. -/
theorem passI_whole {σ α : Type} {E : UnitEnv σ α} {rho : Radix} (h : E.ni = radixVal rho) (st : σ) :
    passI E rho 1 st = storeTwiddled E 1 0 (fun c => c) 0 (butterfly E rho (fun c => c) st) st := by
  have hjs : E.ni / radixVal rho = 1 := by rw [h, Nat.div_self (radixVal_pos rho)]
  simp only [passI, hjs, loop_succ, loop_zero, Nat.zero_mul, Nat.zero_add, Nat.mul_one]

theorem ringIndex_whole {n u : Nat} (h : u < n) : ringIndex n n 1 0 u = u := by
  rw [ringIndex, Nat.zero_mul, Nat.zero_add, Nat.mul_one, Nat.mod_eq_of_lt h]

section

variable {f : Prec} {d : EngineDesc} {l : Nat} {m tw : Memory} {x : Nat → Cpx Word} {free T : Nat}

theorem LotHolds.pairFits (h : LotHolds f d l m x) {t : Nat} (ht : t < d.n) : PairFits f (x t) :=
  ⟨.of_wordAt (h t ht).1, .of_wordAt (h t ht).2⟩

theorem LotHolds.written (h : LotHolds f d l m x) : ∀ w ∈ lotWords d l, wordAt f m w ≠ none := by
  intro w hw
  obtain ⟨t, ht, hw⟩ := mem_lotWords.1 hw
  obtain ⟨hre, him⟩ := h t ht
  simp only [descWords, List.mem_cons, List.not_mem_nil, or_false] at hw
  rcases hw with rfl | rfl
  · exact ne_of_eq_of_ne hre (Option.some_ne_none _)
  · exact ne_of_eq_of_ne him (Option.some_ne_none _)

/-- The butterfly of the whole lot is the kernel of its values. -/
theorem LotHolds.butterfly_eq_kernel (h : LotHolds f d l m x) {rho : Radix} (hrho : d.n = radixVal rho) :
    butterfly (unitEnv f free tw d T d.n 1 l 0) rho (fun c => c) m =
      kernel (fpArith f) rho (residueMu 1 (radixVal rho) d.sign) ((List.range (radixVal rho)).map x) := by
  have hget : ∀ t < radixVal rho, (unitEnv f free tw d T d.n 1 l 0).store.get m t = x t := fun t ht => by
    obtain ⟨hre, him⟩ := h t (hrho ▸ ht)
    simp only [unitEnv, unitStore, ringIndex_whole (hrho ▸ ht), loadWord, hre, him]
  rw [butterfly, List.map_congr_left fun t ht => hget t (List.mem_range.1 ht)]
  rfl

/-- Storing the last elements of a lot in order, with no twiddles. -/
theorem LotHolds.storeTwiddled (h : LotHolds f d l m x) (hnd : (lotWords d l).Nodup) (la : Nat) {ys : List (Cpx Word)} {i : Nat}
    (hlen : i + ys.length = d.n) (hys : ∀ y ∈ ys, PairFits f y) :
    LotHolds f d l (storeTwiddled (unitEnv f free tw d T d.n 1 l 0) la 0 (fun c => c) i ys m)
      (fun t => if t < i then x t else ys.getD (t - i) (0, 0)) := by
  induction ys generalizing i m x with
  | nil =>
    intro t ht
    have hti : t < i := ht.trans_eq hlen.symm
    simp only [if_pos hti]
    exact h t ht
  | cons y ys ih =>
    obtain ⟨⟨hre, him⟩, hys⟩ := List.forall_mem_cons.1 hys
    rw [List.length_cons] at hlen
    have hi : i < d.n := by omega
    have hstore := h.store hnd hi y
    rw [hre.truncWord_eq, him.truncWord_eq] at hstore
    have hrest := ih hstore (i := i + 1) (by omega) hys
    have hline : (fun t => if t < i + 1 then Function.update x i y t else ys.getD (t - (i + 1)) (0, 0)) =
        fun t => if t < i then x t else (y :: ys).getD (t - i) (0, 0) := by
      funext t
      rcases Nat.lt_trichotomy t i with hlt | rfl | hgt
      · rw [if_pos (by omega), if_pos hlt, Function.update_of_ne hlt.ne]
      · rw [if_pos (by omega), if_neg (by omega), Function.update_self, Nat.sub_self, List.getD_cons_zero]
      · rw [if_neg (by omega), if_neg (by omega), show t - i = t - (i + 1) + 1 by omega, List.getD_cons_succ]
    rw [hline] at hrest
    simpa only [Machine.storeTwiddled, twid, true_or, if_true, unitEnv, unitStore, ringIndex_whole hi] using hrest

/-- An engine with one pass over an axis that is its group leaves in each lot the kernel of the lot's values. -/
theorem LotHolds.engineRun_onePass (h : LotHolds f d l m x) {b : Prime} {mm : Nat} {rho : Radix}
    (hlist : passList b mm = [⟨rho, false⟩]) (hn : d.n = primeVal b ^ mm) (hl : l < d.lot) (hapart : LotApart d l)
    (hnd : (lotWords d l).Nodup) :
    LotHolds f d l (Machine.engineRun f free tw d b mm T m) (fun t =>
      (kernel (fpArith f) rho (residueMu 1 (radixVal rho) d.sign) ((List.range (radixVal rho)).map x)).getD t (0, 0)) := by
  have hrho : d.n = radixVal rho := by
    rw [hn, ← radixProduct_passList, hlist, radixProduct_cons, radixProduct_nil, Nat.mul_one]
  have hpos : 0 < d.n := hrho ▸ radixVal_pos rho
  have hmm : mm ≠ 0 := by
    rintro rfl
    rw [hrho, Nat.pow_zero] at hn
    cases rho <;> exact absurd hn (by decide)
  refine LotHolds.congr ?_ (engineRun_agree_lotDesc f free tw b mm T hpos hl hapart fun _ _ => rfl)
  rw [engineRun_lotDesc_eq f free tw d l b T m hmm, ← hn, Nat.div_self hpos, loop_succ, loop_zero, hlist]
  change LotHolds f d l (passI (unitEnv f free tw d T d.n 1 l 0) rho 1 m) _
  rw [passI_whole hrho, h.butterfly_eq_kernel hrho]
  have hfits : ∀ y ∈ (List.range (radixVal rho)).map x, PairFits f y := fun y hy => by
    obtain ⟨t, ht, rfl⟩ := List.mem_map.1 hy
    exact h.pairFits (hrho ▸ List.mem_range.1 ht)
  have hstore := h.storeTwiddled (free := free) (tw := tw) (T := T) hnd 1 (i := 0)
    (by rw [kernel_length, List.length_map, List.length_range, Nat.zero_add, hrho])
    (kernel_keeps (fpArith_keepsValues f) rho (residueMu 1 (radixVal rho) d.sign) hfits)
  simpa only [Nat.not_lt_zero, if_false, Nat.sub_zero] using hstore

end

/-- The units of an axis that is the engine's group are its lots. -/
theorem unitGroups_whole {d : EngineDesc} {b : Prime} {mm : Nat} (hn : d.n = primeVal b ^ mm) :
    unitGroups b mm d = (List.range d.lot).map (lotWords d) := by
  have hpos : 0 < d.n := hn ▸ Nat.pow_pos (primeVal_pos b)
  have hunit : ∀ l, (List.range d.n).flatMap (fun u => descWords d l (ringIndex d.n d.n 1 0 u)) = lotWords d l := fun l =>
    List.flatMap_congr fun u hu => by rw [ringIndex_whole (List.mem_range.1 hu)]
  simp only [unitGroups, ← hn, Nat.div_self hpos, List.range_one, List.map_singleton, hunit]
  exact (List.map_eq_flatMap).symm

/-! ### Direct commands on one lot -/

section

variable {active : AxisPlan → Bool} {groups : AxisPlan → EngineDesc → List (List Nat)}
  {run : Prec → (free : Nat) → (tw : Memory) → AxisPlan → EngineDesc → Memory → Memory}
  {s : State} {axis : BitVec 2} {dir : Dir} {split : Bool} {n : Nat} {sign : Sign} {x : Nat → Cpx Word}

/-- The one lot of a command holds a line where the elements hold its values. -/
theorem lotHolds_operands_iff {m : Memory} :
    LotHolds s.par.prec (requestDesc (operandRequest axis sign split s)) 0 m x ↔
      ∀ t, t < (planAxis s.plan axis).n.toNat → holdsElement s split m (t * argUnsigned s 2) (x t) := by
  have hoff : ∀ X sc t jumpw : Nat, X + (t * (sc * argUnsigned s 2) + 0 * jumpw) = X + sc * (t * argUnsigned s 2) :=
    fun X sc t jumpw => by ring
  simp only [LotHolds, requestDesc, operandRequest, hoff]
  rfl

/-- The footprint of a command on one lot is that lot. -/
theorem directWords_oneLot (h : oneLot s axis dir split n) (sign : Sign) :
    directWords n split s = lotWords (requestDesc (operandRequest axis sign split s)) 0 := by
  have hwords := requestWords_eq_lots (operandRequest axis sign split s)
  rw [show (operandRequest axis sign split s).lot = 1 from h.lot, List.range_one, List.flatMap_singleton] at hwords
  rw [← hwords, ← h.length]
  rfl

/-- A direct command on one lot completes with success, and runs on the words of the lot. -/
theorem directCommand_oneLot (h : oneLot s axis dir split n) (hd : directionSign s.par.fwdSign dir = some sign) :
    directCommand active groups run axis dir split s =
      succeed 0#32 0#32 0#32
        (onSignal (active (planAxis s.plan axis)) (directWords n split s)
          (groups (planAxis s.plan axis) (requestDesc (operandRequest axis sign split s)))
          (run s.par.prec s.free s.tw (planAxis s.plan axis) (requestDesc (operandRequest axis sign split s))) s) := by
  obtain ⟨⟨ha, hle⟩, -, rfl, hlot, hfit, -⟩ := h
  refine directCommand_fits ha hle hd (by omega) ?_
  rwa [hlot, directEmax, Nat.sub_self, Nat.zero_mul, Nat.add_zero]

/-- A direct command that runs a one-pass engine over the whole of one written lot leaves the kernel of its elements. -/
theorem directCommand_onePass (h : singleLot s axis dir split n x) (hd : directionSign s.par.fwdSign dir = some sign)
    {b : Prime} {mm T : Nat} {rho : Radix} (hlist : passList b mm = [⟨rho, false⟩]) (hn : n = primeVal b ^ mm)
    (hin : ∀ ax d, GroupsInside d (groups ax d))
    (hrun : ∀ d, run s.par.prec s.free s.tw (planAxis s.plan axis) d = engineRun s.par.prec s.free s.tw d b mm T) :
    (directCommand active groups run axis dir split s).status.err = .ok ∧
    ∀ j, j < n → holdsElement s split (directCommand active groups run axis dir split s).sig (j * argUnsigned s 2)
      ((kernel (fpArith s.par.prec) rho (residueMu 1 (radixVal rho) sign) ((List.range (radixVal rho)).map x)).getD j
        (0, 0)) := by
  have hone := h.tooneLot
  have hlen := hone.length
  have hwords := directWords_oneLot hone sign
  have hlot : 0 < (operandRequest axis sign split s).lot := Nat.one_pos.trans_eq hone.lot.symm
  have hnd : (requestWords (operandRequest axis sign split s)).Nodup := by
    have hdistinct := hone.distinct
    rwa [← hlen] at hdistinct
  have hline : LotHolds s.par.prec (requestDesc (operandRequest axis sign split s)) 0 s.sig x :=
    lotHolds_operands_iff.2 (hlen ▸ h.holds)
  rw [directCommand_oneLot hone hd, hrun, onSignal_run _ _ s hone.distinct]
  · refine ⟨rfl, ?_⟩
    rw [← hlen]
    exact lotHolds_operands_iff.1 (hline.engineRun_onePass hlist (hlen.trans hn) hlot (lotApart_of_nodup hnd hlot)
      (hwords ▸ hone.distinct))
  · intro ws hws w hw
    have hw := mem_directWords_of_group (hin _ _) ws hws w hw
    rw [hlen, hwords] at hw
    exact hline.written w hw

/-- On one lot with an unwritten word, an engine whose group is the whole axis leaves free values in every word (R287). -/
theorem directCommand_unwritten (h : oneLot s axis dir split n) (hd : directionSign s.par.fwdSign dir = some sign)
    {b : Prime} {mm : Nat} (hn : n = primeVal b ^ mm) (hactive : active (planAxis s.plan axis) = true)
    (hgroups : groups (planAxis s.plan axis) = unitGroups b mm)
    (hun : ∃ w ∈ directWords n split s, wordAt s.par.prec s.sig w = none) :
    (directCommand active groups run axis dir split s).status.err = .ok ∧
    (directCommand active groups run axis dir split s).free = s.free + 1 ∧
    ∀ w ∈ directWords n split s, wordAt s.par.prec (directCommand active groups run axis dir split s).sig w =
      some (truncWord s.par.prec (Config.unwrittenWord s.free .sig w)) := by
  have hgroup : unitGroups b mm (requestDesc (operandRequest axis sign split s)) = [directWords n split s] := by
    rw [unitGroups_whole (h.length.trans hn), show (requestDesc (operandRequest axis sign split s)).lot = 1 from h.lot,
      List.range_one, List.map_singleton, directWords_oneLot h]
  have hwr : written s.par.prec s.sig (directWords n split s) = false := by
    obtain ⟨w, hw, hnone⟩ := hun
    rw [Bool.eq_false_iff]
    exact fun hall => written_iff.1 hall w hw hnone
  rw [directCommand_oneLot h hd, hactive, hgroups, hgroup, onSignal_distinct _ _ s h.distinct]
  refine ⟨rfl, by simp [hwr], fun w hw => ?_⟩
  rw [succeed_sig, wordAt_spoil, if_pos ⟨_, List.mem_singleton_self _, hw, hwr⟩, (fitsFormat_truncWord _ _).truncWord_eq]

end

/-! ### `RUN2` -/

/-- `RUN2` is the radix-2/4/8 engine alone (R180). -/
theorem exec_run2 (axis : BitVec 2) (dir : Dir) (split : Bool) (s : State) :
    exec (.run2 axis dir split) s =
      .next (directCommand (fun ax => ax.p != 0#5) (fun ax => unitGroups .two ax.p.toNat) engine2 axis dir split s) := rfl

/-- `RUN2` on one written lot of an axis of length 2^p, where p calls for one pass. -/
theorem exec_run2_onePass {s : State} {axis : BitVec 2} {dir : Dir} {split : Bool} {n mm : Nat} {sign : Sign}
    {x : Nat → Cpx Word} {rho : Radix} (h : singleLot s axis dir split n x)
    (hd : directionSign s.par.fwdSign dir = some sign) (hp : (planAxis s.plan axis).p.toNat = mm)
    (hlist : passList2 mm = [⟨rho, false⟩]) (hn : n = 2 ^ mm) :
    ∃ t, exec (.run2 axis dir split) s = .next t ∧ t.status.err = .ok ∧
      ∀ j, j < n → holdsElement s split t.sig (j * argUnsigned s 2)
        ((kernel (fpArith s.par.prec) rho (residueMu 1 (radixVal rho) sign) ((List.range (radixVal rho)).map x)).getD j
          (0, 0)) :=
  ⟨_, exec_run2 axis dir split s, directCommand_onePass (b := .two) h hd hlist hn (fun _ => unitGroups_inside _ _)
    fun _ => by subst hp; rfl⟩

/-- Settles O40: the one pass is of radix 2; an unwritten word spoils the lot, which is the one unit. -/
theorem run2OfLengthTwo : Obligations.Run2OfLengthTwo := by
  constructor
  · intro s axis dir split x h hp
    obtain ⟨sign, hd⟩ := directionSign_of_direction (fwd := s.par.fwdSign) h.direction
    obtain ⟨t, hexec, hok, hel⟩ := exec_run2_onePass (mm := 1) (rho := .r2) h hd (by rw [hp]; rfl) rfl rfl
    have h0 := hel 0 (by decide)
    have h1 := hel 1 (by decide)
    rw [Nat.zero_mul] at h0
    rw [Nat.one_mul] at h1
    exact ⟨t, hexec, hok, h0, h1⟩
  · intro s axis dir split h hp hun
    obtain ⟨sign, hd⟩ := directionSign_of_direction (fwd := s.par.fwdSign) h.direction
    exact ⟨_, exec_run2 axis dir split s, directCommand_unwritten (b := .two) (mm := 1) h hd rfl (by simp [hp])
      (by rw [hp]; rfl) hun⟩

/-- The constant of R185 for a unit that is a whole lot: its residue is 1 for the sign +1, and 3 for the sign -1. -/
theorem radix4Const_whole (f : Prec) (sign : Sign) :
    radix4Const (fpArith f) (residueMu 1 4 sign) = if sign = .plus then fpOne f else fpNeg f (fpOne f) := by
  cases sign <;> rfl

/-- Settles O41: the one pass is of radix 4, with the constant of the sign. -/
theorem run2OfLengthFour : Obligations.Run2OfLengthFour := by
  rintro s axis dir split x f ss t0 t1 t2 t3 u0 u1 u2 u3 h hp rfl hss rfl rfl rfl rfl rfl rfl rfl rfl
  obtain ⟨sign, hd⟩ := directionSign_of_direction (fwd := s.par.fwdSign) h.direction
  obtain rfl : ss = radix4Const (fpArith s.par.prec) (residueMu 1 4 sign) := by
    rw [radix4Const_whole, hss, hd]
    simp only [Option.some.injEq]
  obtain ⟨t, hexec, hok, hel⟩ := exec_run2_onePass (mm := 2) (rho := .r4) h hd (by rw [hp]; rfl) rfl rfl
  have h0 := hel 0 (by decide)
  have h1 := hel 1 (by decide)
  rw [Nat.zero_mul] at h0
  rw [Nat.one_mul] at h1
  exact ⟨t, hexec, hok, h0, h1, hel 2 (by decide), hel 3 (by decide)⟩

end Sys2Proof.Proofs
end

section
/-! PROOF. `RUN3` on an axis of length 3 (44_radix3_engine.md R200 to R203): the pass list is one radix-3 pass and the lot is one
unit, so the command leaves `kernel_3` of the lot's elements. -/

namespace Sys2Proof.Proofs

open Sys2Proof Sys2Proof.Machine
open Sys2Proof.Config (Prec Sign)

/-- `RUN3` is the radix-3 engine alone (R200). -/
theorem exec_run3 (axis : BitVec 2) (dir : Dir) (split : Bool) (s : State) :
    exec (.run3 axis dir split) s =
      .next (directCommand (fun ax => ax.q != 0#5) (fun ax => unitGroups .three ax.q.toNat) engine3 axis dir split s) := rfl

/-- `PassList(3, 1)` (R201) is one pass of type I. -/
theorem passList_three_one : passList .three 1 = [⟨.r3, false⟩] := rfl

/-- The constant of R203 for a unit that is a whole lot: its residue is 1 for the sign +1, and 2 for the sign -1. -/
theorem radix3Const_whole (f : Prec) (sign : Sign) :
    radix3Const (fpArith f) (residueMu 1 3 sign) = if sign = .plus then fpSin60 f else fpNeg f (fpSin60 f) := by
  cases sign <;> rfl

/-- Settles O42: the one pass is of radix 3, with the constant of the sign. -/
theorem run3OfLengthThree : Obligations.Run3OfLengthThree := by
  rintro s axis dir split x f c1 t1 t2 t3 u1 u2 u3 h hq rfl hc1 rfl rfl rfl rfl rfl rfl
  obtain ⟨sign, hd⟩ := directionSign_of_direction (fwd := s.par.fwdSign) h.direction
  obtain rfl : c1 = radix3Const (fpArith s.par.prec) (residueMu 1 3 sign) := by
    rw [radix3Const_whole, hc1, hd]
    simp only [Option.some.injEq]
  have hrun : ∀ d, engine3 s.par.prec s.free s.tw (planAxis s.plan axis) d =
      engineRun s.par.prec s.free s.tw d .three 1 (tableStart3 (planAxis s.plan axis)) := fun d => by
    funext sig
    rw [engine3, hq]
    rfl
  obtain ⟨hok, hel⟩ := directCommand_onePass (active := fun ax => ax.q != 0#5) h hd passList_three_one rfl
    (fun ax => unitGroups_inside .three ax.q.toNat) hrun
  have h0 := hel 0 (by decide)
  have h1 := hel 1 (by decide)
  rw [Nat.zero_mul] at h0
  rw [Nat.one_mul] at h1
  exact ⟨_, exec_run3 axis dir split s, hok, h0, h1, hel 2 (by decide)⟩

end Sys2Proof.Proofs
end

section
/-! PROOF. `RUN5` on an axis of length 5 (45_radix5_engine.md R210 to R213): the pass list is one radix-5 pass and the lot is one
unit, so the command leaves `kernel_5` of the lot's elements, with the constants of the row of R213 that the sign chooses. -/

namespace Sys2Proof.Proofs

open Sys2Proof Sys2Proof.Machine
open Sys2Proof.Config (Prec Sign)

/-- `RUN5` is the radix-5 engine alone (R210). -/
theorem exec_run5 (axis : BitVec 2) (dir : Dir) (split : Bool) (s : State) :
    exec (.run5 axis dir split) s =
      .next (directCommand (fun ax => ax.r != 0#5) (fun ax => unitGroups .five ax.r.toNat) engine5 axis dir split s) := rfl

/-- `PassList(5, 1)` (R211) is one pass of type I. -/
theorem passList_five_one : passList .five 1 = [⟨.r5, false⟩] := rfl

/-- The constants of R213 for a unit that is a whole lot: its residue is 1 for the sign +1, and 4 for the sign -1. -/
theorem radix5Consts_whole (f : Prec) (sign : Sign) :
    radix5Consts (fpArith f) (residueMu 1 5 sign) =
      (fpQrt5 f, if sign = .plus then fpSin72 f else fpNeg f (fpSin72 f),
        if sign = .plus then fpSin36 f else fpNeg f (fpSin36 f)) := by
  cases sign <;> rfl

/-- `kernel_ρ` for ρ = 5 is `kernel_5` with the row of R213 for the residue. -/
theorem kernel_r5 {α : Type} {A : Arith α} {mu : Nat} {c1 c2 c3 : α} (hrow : radix5Consts A mu = (c1, c2, c3))
    (a0 a1 a2 a3 a4 : Cpx α) : kernel A .r5 mu [a0, a1, a2, a3, a4] = kernel5 A c1 c2 c3 a0 a1 a2 a3 a4 := by
  rw [kernel, hrow]

/-- `RUN5` on one written lot of an axis of length 5 leaves the kernel of the one radix-5 pass. -/
theorem exec_run5_onePass {s : State} {axis : BitVec 2} {dir : Dir} {split : Bool} {sign : Sign} {x : Nat → Cpx Word}
    (h : singleLot s axis dir split 5 x) (hd : directionSign s.par.fwdSign dir = some sign)
    (hr : (planAxis s.plan axis).r = 1#5) :
    ∃ t, exec (.run5 axis dir split) s = .next t ∧ t.status.err = .ok ∧
      ∀ j, j < 5 → holdsElement s split t.sig (j * argUnsigned s 2)
        ((kernel (fpArith s.par.prec) .r5 (residueMu 1 5 sign) ((List.range 5).map x)).getD j (0, 0)) := by
  have hrun : ∀ d, engine5 s.par.prec s.free s.tw (planAxis s.plan axis) d =
      engineRun s.par.prec s.free s.tw d .five 1 (tableStart5 (planAxis s.plan axis)) := fun d => by
    funext sig
    rw [engine5, hr]
    rfl
  exact ⟨_, exec_run5 axis dir split s, directCommand_onePass (active := fun ax => ax.r != 0#5) h hd passList_five_one rfl
    (fun ax => unitGroups_inside .five ax.r.toNat) hrun⟩

/-- Settles O43: the one pass is of radix 5, with the constants of the sign; the equations for the intermediate values are those
of `kernel_5`. -/
theorem run5OfLengthFive : Obligations.Run5OfLengthFive := by
  intro s axis dir split x f c1 c2 c3 t1 t2 t3 t4 t5 t6 t7 t8 t9 t10 t11 u1 u2 u3 u4 u5 u6 u7 u8 u9 u10 u11 h hr hf hc1 hc2 hc3
  intros
  subst f
  have hlist : kernel5 (fpArith s.par.prec) c1 c2 c3 (x 0) (x 1) (x 2) (x 3) (x 4) =
      [(fpAdd s.par.prec (x 0).1 t5, fpAdd s.par.prec (x 0).2 u5),
       (fpSub s.par.prec t8 u11, fpAdd s.par.prec u8 t11),
       (fpSub s.par.prec t9 u10, fpAdd s.par.prec u9 t10),
       (fpAdd s.par.prec t9 u10, fpSub s.par.prec u9 t10),
       (fpAdd s.par.prec t8 u11, fpSub s.par.prec u8 t11)] := by
    simp only [kernel5, fpArith, *]
  obtain ⟨sign, hd⟩ := directionSign_of_direction (fwd := s.par.fwdSign) h.direction
  have hrow : radix5Consts (fpArith s.par.prec) (residueMu 1 5 sign) = (c1, c2, c3) := by
    rw [radix5Consts_whole, hc1, hc2, hc3, hd]
    simp only [Option.some.injEq]
  obtain ⟨t, hexec, hok, hel⟩ := exec_run5_onePass h hd hr
  have hkernel := (kernel_r5 hrow (x 0) (x 1) (x 2) (x 3) (x 4)).trans hlist
  rw [show (List.range 5).map x = [x 0, x 1, x 2, x 3, x 4] from rfl, hkernel] at hel
  have h0 := hel 0 (by decide)
  have h1 := hel 1 (by decide)
  rw [Nat.zero_mul] at h0
  rw [Nat.one_mul] at h1
  exact ⟨t, hexec, hok, h0, h1, hel 2 (by decide), hel 3 (by decide), hel 4 (by decide)⟩

end Sys2Proof.Proofs
end

section
/-! PROOF. The direct commands over one axis (46_dispatcher.md R220, R221, R226): how each check of the prologue fails, and that
`DISPATCH` is the three engines one after another. A command that runs leaves the words of its footprint written and the operands,
the plan and the counter of free values as they were, so the next one makes the same request. -/

namespace Sys2Proof.Proofs

open Sys2Proof Sys2Proof.Machine
open Sys2Proof.Config (Prec Sign)

/-! ### How the prologue fails (R226, in the priority of R255) -/

section

variable {axis : BitVec 2} {dir : Dir} {split : Bool} {s : State} {sign : Sign}

theorem execPrologue_axisZero : execPrologue 0#2 dir split s = .fails .illegalCommand := if_pos rfl

theorem execPrologue_unconfigured (ha : axis ≠ 0#2) (hn : s.plan.naxes < axis) :
    execPrologue axis dir split s = .fails .uninitializedPlan := by
  rw [execPrologue, if_neg ha, if_pos (.inr hn)]

theorem execPrologue_undirected (ha : axis ≠ 0#2) (hn : axis ≤ s.plan.naxes)
    (hd : directionSign s.par.fwdSign dir = none) : execPrologue axis dir split s = .fails .invalidDirection := by
  have hplan : ¬ (s.plan.naxes = 0#2 ∨ s.plan.naxes < axis) := by bv_omega
  simp only [execPrologue, if_neg ha, if_neg hplan, hd]

theorem execPrologue_capacity (ha : axis ≠ 0#2) (hn : axis ≤ s.plan.naxes)
    (hd : directionSign s.par.fwdSign dir = some sign) (hlot : argUnsigned s 4 ≠ 0)
    (hfit : ¬ fits s split
      (directEmax (planAxis s.plan axis).n.toNat (argUnsigned s 2) (argUnsigned s 3) (argUnsigned s 4))) :
    execPrologue axis dir split s = .fails .capacity := by
  rw [execPrologue_checked ha hn hd, if_neg hlot, if_neg fun h => hfit ((inRange_eq s split _).1 h)]

end

section

variable {active : AxisPlan → Bool} {groups : AxisPlan → EngineDesc → List (List Nat)}
  {run : Prec → (free : Nat) → (tw : Memory) → AxisPlan → EngineDesc → Memory → Memory}
  {axis : BitVec 2} {dir : Dir} {split : Bool} {s : State} {sign : Sign}

theorem directCommand_of_fails {e : ErrCode} (h : execPrologue axis dir split s = .fails e) :
    directCommand active groups run axis dir split s = raise e s := by
  rw [directCommand, h]

theorem directCommand_of_nothing (h : execPrologue axis dir split s = .nothing) :
    directCommand active groups run axis dir split s = succeed 0#32 0#32 0#32 s := by
  rw [directCommand, h]

end

/-- Settles O34: the clauses are the checks of the prologue, which all four commands share. -/
theorem directCommandFailures : Obligations.DirectCommandFailures := by
  rintro s axis dir split _ _ rfl rfl make hmake
  obtain ⟨active, groups, run, hexec, -⟩ := exec_direct hmake
  rw [hexec]
  refine ⟨?_, fun ha hn => ?_, fun ha hn hdir => ?_, fun ha hn hdir hlot hfit => ?_⟩
  · rintro rfl
    rw [directCommand_of_fails execPrologue_axisZero]
  · rw [directCommand_of_fails (execPrologue_unconfigured ha hn)]
  · rw [directCommand_of_fails (execPrologue_undirected ha hn (directionSign_none hdir))]
  · obtain ⟨sign, hd⟩ := directionSign_of_direction (fwd := s.par.fwdSign) hdir
    rw [directCommand_of_fails (execPrologue_capacity ha hn hd hlot hfit)]

/-! ### One command after another -/

/-- `DISPATCH` is the three engines in order (R220). -/
theorem exec_dispatch (axis : BitVec 2) (dir : Dir) (split : Bool) (s : State) :
    exec (.dispatch axis dir split) s =
      .next (directCommand axisActive (fun _ => lotGroups) dispatchCall axis dir split s) := rfl

/-- Every word of the list has a value in the memory. -/
def AllWritten (f : Prec) (words : List Nat) (m : Memory) : Prop := ∀ w ∈ words, wordAt f m w ≠ none

theorem allWritten_storeWord {f : Prec} {words : List Nat} {m : Memory} (x : Nat) (v : Word) (h : AllWritten f words m) :
    AllWritten f words (storeWord f m x v) := by
  intro w hw
  rw [wordAt_storeWord]
  split
  · exact Option.some_ne_none _
  · exact h w hw

theorem allWritten_engineRun {f : Prec} {words : List Nat} {m : Memory} (free : Nat) (tw : Memory) (d : EngineDesc) (b : Prime)
    (mm T : Nat) (h : AllWritten f words m) : AllWritten f words (engineRun f free tw d b mm T m) :=
  engineRun_keeps (AllWritten f words) f free tw d b mm T h fun _ _ _ _ _ v hm =>
    ⟨allWritten_storeWord _ v hm, allWritten_storeWord _ v hm⟩

section

variable {f : Prec} {words : List Nat} {m : Memory} (free : Nat) (tw : Memory) (ax : AxisPlan) (d : EngineDesc)

theorem allWritten_engine2 (h : AllWritten f words m) : AllWritten f words (engine2 f free tw ax d m) :=
  allWritten_engineRun free tw d .two _ _ h

theorem allWritten_engine3 (h : AllWritten f words m) : AllWritten f words (engine3 f free tw ax d m) :=
  allWritten_engineRun free tw d .three _ _ h

end

/-- The state after a command that succeeded and left `m` in `SIG`. -/
def completedWith (m : Memory) (s : State) : State := succeed 0#32 0#32 0#32 { s with sig := m }

section

variable {axis : BitVec 2} {dir : Dir} {split : Bool} {s : State} {sign : Sign}

/-- The checks of the prologue (R226) pass, with a lot to run, and the words of the footprint are distinct and written. -/
structure Runs (axis : BitVec 2) (dir : Dir) (split : Bool) (sign : Sign) (s : State) : Prop where
  encoded : axis ≠ 0#2
  configured : axis ≤ s.plan.naxes
  direction : directionSign s.par.fwdSign dir = some sign
  lot : argUnsigned s 4 ≠ 0
  inRange : fits s split
    (directEmax (planAxis s.plan axis).n.toNat (argUnsigned s 2) (argUnsigned s 3) (argUnsigned s 4))
  distinct : (directWords (planAxis s.plan axis).n.toNat split s).Nodup
  written : AllWritten s.par.prec (directWords (planAxis s.plan axis).n.toNat split s) s.sig

variable {active : AxisPlan → Bool} {groups : AxisPlan → EngineDesc → List (List Nat)}
  {run : Prec → (free : Nat) → (tw : Memory) → AxisPlan → EngineDesc → Memory → Memory}

theorem Runs.directCommand_eq (h : Runs axis dir split sign s) (hin : ∀ ax d, GroupsInside d (groups ax d)) :
    directCommand active groups run axis dir split s =
      completedWith (run s.par.prec s.free s.tw (planAxis s.plan axis) (requestDesc (operandRequest axis sign split s))
        s.sig) s := by
  rw [directCommand_fits h.encoded h.configured h.direction h.lot h.inRange, onSignal_run _ _ s h.distinct]
  · rfl
  · exact fun ws hws w hw => h.written w (mem_directWords_of_group (hin _ _) ws hws w hw)

/-- A command after one that left written words makes the same request. -/
theorem Runs.directCommand_completedWith (h : Runs axis dir split sign s) (hin : ∀ ax d, GroupsInside d (groups ax d))
    {m : Memory} (hm : AllWritten s.par.prec (directWords (planAxis s.plan axis).n.toNat split s) m) :
    directCommand active groups run axis dir split (completedWith m s) =
      completedWith (run s.par.prec s.free s.tw (planAxis s.plan axis) (requestDesc (operandRequest axis sign split s)) m) s :=
  have h' : Runs axis dir split sign (completedWith m s) :=
    ⟨h.encoded, h.configured, h.direction, h.lot, h.inRange, h.distinct, hm⟩
  h'.directCommand_eq hin

/-- The three engines, each by its own command, leave what the dispatcher call leaves. -/
theorem Runs.engines_eq_dispatchCall (h : Runs axis dir split sign s) :
    directCommand (fun ax => ax.r != 0#5) (fun ax => unitGroups .five ax.r.toNat) engine5 axis dir split
        (directCommand (fun ax => ax.q != 0#5) (fun ax => unitGroups .three ax.q.toNat) engine3 axis dir split
          (directCommand (fun ax => ax.p != 0#5) (fun ax => unitGroups .two ax.p.toNat) engine2 axis dir split s)) =
      directCommand axisActive (fun _ => lotGroups) dispatchCall axis dir split s := by
  have hin : ∀ b mm d, GroupsInside d (unitGroups b mm d) := unitGroups_inside
  have hw2 := allWritten_engine2 s.free s.tw (planAxis s.plan axis) (requestDesc (operandRequest axis sign split s)) h.written
  have hw3 := allWritten_engine3 s.free s.tw (planAxis s.plan axis) (requestDesc (operandRequest axis sign split s)) hw2
  rw [h.directCommand_eq fun _ => hin .two _, h.directCommand_completedWith (fun _ => hin .three _) hw2,
    h.directCommand_completedWith (fun _ => hin .five _) hw3, h.directCommand_eq fun _ => lotGroups_inside]
  rfl

end

/-- Settles O38: a failed check and an empty batch end all four commands in the same way; else each engine runs on what the one
before left, which is written too. -/
theorem dispatchIsRun2Run3Run5 : Obligations.DispatchIsRun2Run3Run5 := by
  intro s axis dir split hnd hcase
  refine ⟨_, _, exec_run2 axis dir split s, exec_run3 axis dir split _, ?_⟩
  rw [exec_dispatch, exec_run5]
  refine congrArg _ ?_
  cases hp : execPrologue axis dir split s with
  | fails e =>
    have hp' : execPrologue axis dir split (raise e s) = .fails e := hp
    simp only [directCommand_of_fails hp, directCommand_of_fails hp']
    exact (directCommand_of_fails hp').symm
  | nothing =>
    have hp' : execPrologue axis dir split (succeed 0#32 0#32 0#32 s) = .nothing := hp
    simp only [directCommand_of_nothing hp, directCommand_of_nothing hp']
    exact (directCommand_of_nothing hp').symm
  | run d =>
    obtain ⟨ha, hn, hd, hlot, hfit, -⟩ := execPrologue_run hp
    have hok : (directCommand axisActive (fun _ => lotGroups) dispatchCall axis dir split s).status = statusCompleted .ok := by
      rw [directCommand_fits ha hn hd hlot hfit, succeed_status]
    have hw := hcase.resolve_right fun ⟨t, ht, herr⟩ => herr (by
      rw [← Host.Outcome.next.inj ((exec_dispatch axis dir split s).symm.trans ht), hok, statusCompleted_err])
    exact (Runs.engines_eq_dispatchCall ⟨ha, hn, hd, hlot, hfit, hnd, hw⟩).symm

end Sys2Proof.Proofs
end

section
/-! PROOF. What sums, products and kernels make of one value among zeros (R160, R227). A sum of 1.0, of +0.0 or of a zero with a
zero of either sign is that value again, and a finite number times a zero is a zero; so a kernel on a value a_0 and zeros gives what
a_0 is in every output, and no finite twiddle pair makes a zero into anything else. -/

namespace Sys2Proof.Proofs

open Sys2Proof Sys2Proof.Machine
open Sys2Proof.Config (Prec Sign TwGen)

/-! ### A kernel on one value among zeros, in any arithmetic -/

section

variable {α : Type}

/-- Adding a zero to a value in `P`, or taking it off, gives a value in `P`. -/
structure Absorbs (A : Arith α) (Z P : α → Prop) : Prop where
  add : ∀ {v z}, P v → Z z → P (A.add v z)
  sub : ∀ {v z}, P v → Z z → P (A.sub v z)

/-- The zeros `Z` are closed under sums and under products with the factors `F`, and the constants of the kernels are factors. -/
structure ZeroArith (A : Arith α) (F Z : α → Prop) : Prop extends Absorbs A Z Z where
  mul : ∀ {c z}, F c → Z z → Z (A.mul c z)
  neg : ∀ {c}, F c → F (A.neg c)
  one : F A.one
  half : F A.half
  quarter : F A.quarter
  sqrtHalf : F A.sqrtHalf
  sin60 : F A.sin60
  qrt5 : F A.qrt5
  sin36 : F A.sin36
  sin72 : F A.sin72

/-- The real part is in `P`, the imaginary part in `P'`. -/
def PairIn (P P' : α → Prop) (z : Cpx α) : Prop := P z.1 ∧ P' z.2

section

variable {A : Arith α} {F Z : α → Prop} (hA : ZeroArith A F Z)
include hA

theorem radix3Const_factor (mu : Nat) : F (radix3Const A mu) := by
  unfold radix3Const
  split
  · exact hA.neg hA.sin60
  · exact hA.sin60

theorem radix4Const_factor (mu : Nat) : F (radix4Const A mu) := by
  unfold radix4Const
  split
  · exact hA.neg hA.one
  · exact hA.one

theorem radix5Consts_factor (mu : Nat) :
    F (radix5Consts A mu).1 ∧ F (radix5Consts A mu).2.1 ∧ F (radix5Consts A mu).2.2 := by
  unfold radix5Consts
  split_ifs <;> simp only [hA.neg, hA.qrt5, hA.sin36, hA.sin72, and_self]

theorem radix8Consts_factor (mu : Nat) :
    F (radix8Consts A mu).1 ∧ F (radix8Consts A mu).2.1 ∧ F (radix8Consts A mu).2.2 := by
  unfold radix8Consts
  split_ifs <;> simp only [hA.neg, hA.one, hA.sqrtHalf, and_self]

/-- Factors take zeros to zeros (R161). -/
theorem cmul_zeros {co si : α} {z : Cpx α} (hco : F co) (hsi : F si) (hz : PairIn Z Z z) : PairIn Z Z (cmul A co si z) :=
  ⟨hA.sub (hA.mul hco hz.1) (hA.mul hsi hz.2), hA.add (hA.mul hsi hz.1) (hA.mul hco hz.2)⟩

variable {P P' : α → Prop} (hP : Absorbs A Z P) (hP' : Absorbs A Z P')
include hP hP'

omit hA in
theorem kernel2_spreads {a0 a1 : Cpx α} (h0 : PairIn P P' a0) (h1 : PairIn Z Z a1) :
    ∀ y ∈ kernel2 A a0 a1, PairIn P P' y := by
  obtain ⟨⟨_, _⟩, ⟨_, _⟩⟩ := And.intro h0 h1
  simp only [kernel2, cadd, csub, List.forall_mem_cons, List.not_mem_nil, false_implies, implies_true, and_true, PairIn]
  simp only [hP.add, hP.sub, hP'.add, hP'.sub, and_self, *]

theorem kernel3_spreads {c1 : α} (hc1 : F c1) {a0 a1 a2 : Cpx α} (h0 : PairIn P P' a0) (h1 : PairIn Z Z a1)
    (h2 : PairIn Z Z a2) : ∀ y ∈ kernel3 A c1 a0 a1 a2, PairIn P P' y := by
  obtain ⟨⟨_, _⟩, ⟨_, _⟩, ⟨_, _⟩⟩ := And.intro h0 (And.intro h1 h2)
  have hhalf := hA.half
  simp only [kernel3, List.forall_mem_cons, List.not_mem_nil, false_implies, implies_true, and_true, PairIn]
  refine ⟨⟨?_, ?_⟩, ⟨?_, ?_⟩, ?_, ?_⟩ <;>
    apply_rules [hP.add, hP.sub, hP'.add, hP'.sub, hA.add, hA.sub, hA.mul]

theorem kernel4_spreads {ss : α} (hss : F ss) {a0 a1 a2 a3 : Cpx α} (h0 : PairIn P P' a0) (h1 : PairIn Z Z a1)
    (h2 : PairIn Z Z a2) (h3 : PairIn Z Z a3) : ∀ y ∈ kernel4 A ss a0 a1 a2 a3, PairIn P P' y := by
  obtain ⟨⟨_, _⟩, ⟨_, _⟩, ⟨_, _⟩, ⟨_, _⟩⟩ := And.intro h0 (And.intro h1 (And.intro h2 h3))
  simp only [kernel4, List.forall_mem_cons, List.not_mem_nil, false_implies, implies_true, and_true, PairIn]
  refine ⟨⟨?_, ?_⟩, ⟨?_, ?_⟩, ⟨?_, ?_⟩, ?_, ?_⟩ <;>
    apply_rules [hP.add, hP.sub, hP'.add, hP'.sub, hA.add, hA.sub, hA.mul]

theorem kernel5_spreads {c1 c2 c3 : α} (hc1 : F c1) (hc2 : F c2) (hc3 : F c3) {a0 a1 a2 a3 a4 : Cpx α}
    (h0 : PairIn P P' a0) (h1 : PairIn Z Z a1) (h2 : PairIn Z Z a2) (h3 : PairIn Z Z a3) (h4 : PairIn Z Z a4) :
    ∀ y ∈ kernel5 A c1 c2 c3 a0 a1 a2 a3 a4, PairIn P P' y := by
  obtain ⟨⟨_, _⟩, ⟨_, _⟩, ⟨_, _⟩, ⟨_, _⟩, ⟨_, _⟩⟩ := And.intro h0 (And.intro h1 (And.intro h2 (And.intro h3 h4)))
  have hquarter := hA.quarter
  simp only [kernel5, List.forall_mem_cons, List.not_mem_nil, false_implies, implies_true, and_true, PairIn]
  refine ⟨⟨?_, ?_⟩, ⟨?_, ?_⟩, ⟨?_, ?_⟩, ⟨?_, ?_⟩, ?_, ?_⟩ <;>
    apply_rules [hP.add, hP.sub, hP'.add, hP'.sub, hA.add, hA.sub, hA.mul]

theorem kernel8_spreads {c1 c2 c3 : α} (hc1 : F c1) (hc2 : F c2) (hc3 : F c3) {a0 a1 a2 a3 a4 a5 a6 a7 : Cpx α}
    (h0 : PairIn P P' a0) (h1 : PairIn Z Z a1) (h2 : PairIn Z Z a2) (h3 : PairIn Z Z a3) (h4 : PairIn Z Z a4)
    (h5 : PairIn Z Z a5) (h6 : PairIn Z Z a6) (h7 : PairIn Z Z a7) :
    ∀ y ∈ kernel8 A c1 c2 c3 a0 a1 a2 a3 a4 a5 a6 a7, PairIn P P' y := by
  have hadd : ∀ {a b : Cpx α}, PairIn Z Z a → PairIn Z Z b → PairIn Z Z (cadd A a b) := fun ha hb =>
    ⟨hA.add ha.1 hb.1, hA.add ha.2 hb.2⟩
  have hsub : ∀ {a b : Cpx α}, PairIn Z Z a → PairIn Z Z b → PairIn Z Z (csub A a b) := fun ha hb =>
    ⟨hA.sub ha.1 hb.1, hA.sub ha.2 hb.2⟩
  have hg2 := hsub h2 h6
  intro y hy
  rcases mem_interleave hy with hy | hy
  · exact kernel4_spreads hA hP hP' hc1 ⟨hP.add h0.1 h4.1, hP'.add h0.2 h4.2⟩ (hadd h1 h5) (hadd h2 h6) (hadd h3 h7) y hy
  · exact kernel4_spreads hA hP hP' hc1 ⟨hP.sub h0.1 h4.1, hP'.sub h0.2 h4.2⟩ (cmul_zeros hA hc2 hc3 (hsub h1 h5))
      ⟨hA.mul (hA.neg hc1) hg2.2, hA.mul hc1 hg2.1⟩ (cmul_zeros hA (hA.neg hc2) hc3 (hsub h3 h7)) y hy

/-- A kernel on a_0 and zeros gives what a_0 is in every output. -/
theorem kernel_spreads (rho : Radix) (mu : Nat) {a : Nat → Cpx α} (h0 : PairIn P P' (a 0))
    (hrest : ∀ c, 0 < c → c < radixVal rho → PairIn Z Z (a c)) :
    ∀ y ∈ kernel A rho mu ((List.range (radixVal rho)).map a), PairIn P P' y := by
  have hz : ∀ c, c + 1 < radixVal rho → PairIn Z Z (a (c + 1)) := fun c => hrest _ (Nat.succ_pos c)
  cases rho with
  | r2 => exact kernel2_spreads hP hP' h0 (hz 0 (by decide))
  | r3 => exact kernel3_spreads hA hP hP' (radix3Const_factor hA mu) h0 (hz 0 (by decide)) (hz 1 (by decide))
  | r4 =>
    exact kernel4_spreads hA hP hP' (radix4Const_factor hA mu) h0 (hz 0 (by decide)) (hz 1 (by decide)) (hz 2 (by decide))
  | r5 =>
    obtain ⟨hc1, hc2, hc3⟩ := radix5Consts_factor hA mu
    exact kernel5_spreads hA hP hP' hc1 hc2 hc3 h0 (hz 0 (by decide)) (hz 1 (by decide)) (hz 2 (by decide)) (hz 3 (by decide))
  | r8 =>
    obtain ⟨hc1, hc2, hc3⟩ := radix8Consts_factor hA mu
    exact kernel8_spreads hA hP hP' hc1 hc2 hc3 h0 (hz 0 (by decide)) (hz 1 (by decide)) (hz 2 (by decide)) (hz 3 (by decide))
      (hz 4 (by decide)) (hz 5 (by decide)) (hz 6 (by decide))

end

end

/-! ### Zeros of either sign -/

/-- The word is +0.0 or -0.0. -/
def ZeroWord (f : Prec) (v : Word) : Prop := ∃ neg, v = signed f neg 0

section

variable {f : Prec} {v z : Word}

theorem zeroWord_positive (f : Prec) : ZeroWord f 0#64 := ⟨false, rfl⟩

theorem ZeroWord.finite (h : ZeroWord f v) : fpFinite f v = true := by
  obtain ⟨neg, rfl⟩ := h
  cases f <;> cases neg <;> decide

theorem ZeroWord.magUnits_eq (h : ZeroWord f v) : magUnits f v = 0 := by
  obtain ⟨neg, rfl⟩ := h
  cases f <;> cases neg <;> decide

theorem ZeroWord.signedUnits_eq (h : ZeroWord f v) : signedUnits f v = 0 := by
  simp [signedUnits, h.magUnits_eq]

theorem ZeroWord.fpNeg (h : ZeroWord f v) : ZeroWord f (fpNeg f v) := by
  obtain ⟨neg, rfl⟩ := h
  exact ⟨!neg, by cases f <;> cases neg <;> decide⟩

theorem ZeroWord.fitsFormat (h : ZeroWord f v) : FitsFormat f v := by
  obtain ⟨neg, rfl⟩ := h
  exact fitsFormat_signed neg (by positivity)

theorem roundUnits_zero_mag (f : Prec) (k : Nat) : roundUnits f 0 k = 0 := by
  have hinf : 0 < infBits f := by cases f <;> decide
  simp [roundUnits, roundNearestEven, bitLength, hinf.ne']

/-- A finite number times a zero is a zero. -/
theorem ZeroWord.fpMul (hv : fpFinite f v = true) (hz : ZeroWord f z) : ZeroWord f (fpMul f v z) := by
  refine ⟨fpSign f v != fpSign f z, ?_⟩
  rw [fpMul_finite hv hz.finite, hz.magUnits_eq, Nat.mul_zero, roundUnits_zero_mag]

/-! ### What a zero leaves as it is -/

theorem absorbs_of_fpSum {P : Word → Prop} (h : ∀ {nan v z}, P v → ZeroWord f z → P (fpSum f nan v z)) :
    Absorbs (fpArith f) (ZeroWord f) P where
  add hv hz := h hv hz
  sub hv hz := h hv hz.fpNeg

theorem absorbs_zero (f : Prec) : Absorbs (fpArith f) (ZeroWord f) (ZeroWord f) :=
  absorbs_of_fpSum fun hv hz => by
    rw [fpSum_finite hv.finite hz.finite, hv.signedUnits_eq, hz.signedUnits_eq, add_zero, Int.natAbs_zero, roundUnits_zero]
    exact ⟨_, rfl⟩

/-- Whatever the sign of the zero it is added to, +0.0 stays positive. -/
theorem absorbs_positiveZero (f : Prec) : Absorbs (fpArith f) (ZeroWord f) (· = 0#64) :=
  absorbs_of_fpSum fun {nan v z} hv hz => by
    subst hv
    rw [fpSum_finite (zeroWord_positive f).finite hz.finite, (zeroWord_positive f).signedUnits_eq, hz.signedUnits_eq]
    cases f <;> rfl

theorem absorbs_one (f : Prec) : Absorbs (fpArith f) (ZeroWord f) (· = fpOne f) :=
  absorbs_of_fpSum fun {nan v z} hv hz => by
    subst hv
    rw [fpSum_finite (by cases f <;> decide) hz.finite, hz.signedUnits_eq]
    generalize fpSign f z = neg
    cases f <;> cases neg <;> decide +kernel

end

/-- The zeros of the block's arithmetic, with the finite words as factors. -/
theorem fpArith_zeroArith (f : Prec) : ZeroArith (fpArith f) (fpFinite f · = true) (ZeroWord f) where
  toAbsorbs := absorbs_zero f
  mul := ZeroWord.fpMul
  neg h := (fpFinite_fpNeg f _).trans h
  one := by cases f <;> decide
  half := by cases f <;> decide
  quarter := by cases f <;> decide
  sqrtHalf := by cases f <;> decide
  sin60 := by cases f <;> decide
  qrt5 := by cases f <;> decide
  sin36 := by cases f <;> decide
  sin72 := by cases f <;> decide

end Sys2Proof.Proofs
end

section
/-! PROOF. The passes on an impulse (R227). Before a pass with the product `la` the elements at the multiples of R = ni/la are
pulses and the others are zeros (`Spaced`); a butterfly meets a pulse only where k = 0, as its a_0, and there it twiddles nothing,
so after the pass the multiples of R/ρ are pulses. What a loop writes is what its rounds write on cells apart (`Turns`). -/

namespace Sys2Proof.Proofs

open Sys2Proof Sys2Proof.Machine
open Sys2Proof.Config (Prec Sign)

/-! ### What is written, and loops that write on cells apart -/

section

variable {σ β : Type} (N : Nat) (get : σ → Nat → β)

/-- From `st` to `st'` the cells of C, of those below N, were given values in `post`, and no other cell changed. -/
def Wrote (post : Nat → β → Prop) (C : Nat → Prop) (st st' : σ) : Prop :=
  ∀ x, x < N → (¬ C x → get st' x = get st x) ∧ (C x → post x (get st' x))

/-- Where the cells of C hold values in `pre`, `f` gives them values in `post`, and it leaves every other cell alone. -/
def Turns (pre post : Nat → β → Prop) (C : Nat → Prop) (f : σ → σ) : Prop :=
  ∀ st, (∀ x, x < N → C x → pre x (get st x)) → Wrote N get post C st (f st)

variable {N get} {pre post : Nat → β → Prop}

theorem Wrote.trans {C C' : Nat → Prop} {st st' st'' : σ} (h : Wrote N get post C st st') (h' : Wrote N get post C' st' st'') :
    Wrote N get post (fun x => C x ∨ C' x) st st'' := by
  intro x hx
  obtain ⟨hkeep, hwrote⟩ := h x hx
  obtain ⟨hkeep', hwrote'⟩ := h' x hx
  refine ⟨fun hC => ?_, fun hC => ?_⟩
  · rw [hkeep' fun h => hC (.inr h), hkeep fun h => hC (.inl h)]
  · by_cases hC' : C' x
    · exact hwrote' hC'
    · rw [hkeep' hC']
      exact hwrote (hC.resolve_right hC')

theorem Wrote.of_iff {C C' : Nat → Prop} {st st' : σ} (h : Wrote N get post C st st') (hC : ∀ x, x < N → (C' x ↔ C x)) :
    Wrote N get post C' st st' := fun x hx => by
  rw [hC x hx]
  exact h x hx

/-- Rounds on cells apart: each finds its cells as they were at the start. -/
theorem loop_turns {n : Nat} {f : Nat → σ → σ} {C : Nat → Nat → Prop}
    (hapart : ∀ i j, i < n → j < n → ∀ x, C i x → C j x → i = j)
    (h : ∀ i, i < n → Turns N get pre post (C i) (f i)) : Turns N get pre post (fun x => ∃ i, i < n ∧ C i x) (loop n f) := by
  intro st hpre
  induction n with
  | zero => exact fun x _ => ⟨fun _ => rfl, fun ⟨i, hi, _⟩ => absurd hi (Nat.not_lt_zero i)⟩
  | succ n ih =>
    have hbefore := ih (fun i j hi hj => hapart i j (by omega) (by omega)) (fun i hi => h i (by omega))
      fun x hx ⟨i, hi, hC⟩ => hpre x hx ⟨i, by omega, hC⟩
    have hround := h n (by omega) (loop n f st) fun x hx hC => by
      rw [(hbefore x hx).1 fun ⟨i, hi, hCi⟩ => hi.ne (hapart i n (by omega) (by omega) x hCi hC)]
      exact hpre x hx ⟨n, by omega, hC⟩
    refine (hbefore.trans hround).of_iff fun x _ => ⟨fun ⟨i, hi, hC⟩ => ?_, ?_⟩
    · rcases Nat.lt_succ_iff_lt_or_eq.1 hi with hi | rfl
      · exact .inl ⟨i, hi, hC⟩
      · exact .inr hC
    · rintro (⟨i, hi, hC⟩ | hC)
      · exact ⟨i, by omega, hC⟩
      · exact ⟨n, by omega, hC⟩

end

/-! ### Pulses at the multiples of R -/

section

variable {α : Type}

/-- A pulse at the multiples of R, a zero elsewhere. -/
def Spaced (Z P P' : α → Prop) (R x : Nat) (v : Cpx α) : Prop :=
  (R ∣ x → PairIn P P' v) ∧ (¬ R ∣ x → PairIn Z Z v)

theorem Spaced.pulse {Z P P' : α → Prop} {R x : Nat} {v : Cpx α} (hx : R ∣ x) (h : PairIn P P' v) : Spaced Z P P' R x v :=
  ⟨fun _ => h, fun hR => absurd hx hR⟩

theorem Spaced.zero {Z P P' : α → Prop} {R x : Nat} {v : Cpx α} (hx : ¬ R ∣ x) (h : PairIn Z Z v) : Spaced Z P P' R x v :=
  ⟨fun hR => absurd hR hx, fun _ => h⟩

theorem dvd_digits {js k : Nat} (y : Nat) : js ∣ k + js * y ↔ js ∣ k :=
  Nat.dvd_add_left (Nat.dvd_mul_right js y)

/-- Which of the two stands at an element depends on its index modulo R. -/
theorem Spaced.shift {Z P P' : α → Prop} {js k : Nat} {v : Cpx α} (h : Spaced Z P P' js k v) (y : Nat) :
    Spaced Z P P' js (k + js * y) v := by
  rwa [Spaced, dvd_digits]

/-- A unit whose arithmetic and twiddles leave zeros zeros, with pulses that absorb them, and a store that gives back a pulse for a
pulse and a zero for a zero. -/
structure PulseUnit {σ : Type} (E : UnitEnv σ α) (F Z P P' : α → Prop) : Prop where
  arith : ZeroArith E.A F Z
  re : Absorbs E.A Z P
  im : Absorbs E.A Z P'
  twiddle : ∀ idx, F (E.twiddle idx).1 ∧ F (E.twiddle idx).2
  get_set_pulse : ∀ st {u v}, u < E.ni → PairIn P P' v → PairIn P P' (E.store.get (E.store.set st u v) u)
  get_set_zero : ∀ st {u v}, u < E.ni → PairIn Z Z v → PairIn Z Z (E.store.get (E.store.set st u v) u)
  get_set_ne : ∀ st {u u'} v, u < E.ni → u' < E.ni → u' ≠ u → E.store.get (E.store.set st u v) u' = E.store.get st u'

section

variable {σ : Type} {E : UnitEnv σ α} {F Z P P' : α → Prop} (hE : PulseUnit E F Z P P')
include hE

theorem PulseUnit.get_set_spaced (st : σ) {R x u : Nat} {v : Cpx α} (hu : u < E.ni) (h : Spaced Z P P' R x v) :
    Spaced Z P P' R x (E.store.get (E.store.set st u v) u) :=
  ⟨fun hR => hE.get_set_pulse st hu (h.1 hR), fun hR => hE.get_set_zero st hu (h.2 hR)⟩

/-- A twiddle leaves a zero a zero, whatever the pair and the sign (R157). -/
theorem PulseUnit.twid_zero (la k d : Nat) {y : Cpx α} (hy : PairIn Z Z y) : PairIn Z Z (twid E la k d y) := by
  obtain ⟨hco, hsi⟩ := hE.twiddle (la * k * d)
  unfold twid
  split
  · exact hy
  · refine cmul_zeros hE.arith hco ?_ hy
    cases E.sign with
    | plus => exact hsi
    | minus => exact hE.arith.neg hsi

/-- A twiddled butterfly on a group of a pass, whose inputs stand at k + js·(c + ρ·B). Where k = 0 the first of them is a pulse
and nothing is twiddled; else all are zeros. -/
theorem PulseUnit.twid_butterfly (rho : Radix) {la js k B : Nat} (hk : k < js) {st : σ}
    (hin : ∀ c, c < radixVal rho → Spaced Z P P' (js * radixVal rho) (k + js * (c + radixVal rho * B))
      (E.store.get st (k + js * (c + radixVal rho * B)))) :
    ∀ y ∈ butterfly E rho (fun c => k + js * (c + radixVal rho * B)) st, ∀ d, Spaced Z P P' js k (twid E la k d y) := by
  intro y hy d
  have hrho := radixVal_pos rho
  rcases Nat.eq_zero_or_pos k with rfl | hpos
  · have hdvd : ∀ c, js * radixVal rho ∣ 0 + js * (c + radixVal rho * B) ↔ radixVal rho ∣ c := fun c => by
      rw [Nat.zero_add, Nat.mul_dvd_mul_iff_left hk, Nat.dvd_add_left (Nat.dvd_mul_right _ _)]
    have hpulse := kernel_spreads hE.arith hE.re hE.im rho _ ((hin 0 hrho).1 ((hdvd 0).2 (dvd_zero _)))
      (fun c hc hlt => (hin c hlt).2 fun h => Nat.not_dvd_of_pos_of_lt hc hlt ((hdvd c).1 h)) y hy
    rw [twid, if_pos (.inl rfl)]
    exact .pulse (dvd_zero _) hpulse
  · have hndvd : ¬ js ∣ k := Nat.not_dvd_of_pos_of_lt hpos hk
    have hzeros : ∀ c, c < radixVal rho → PairIn Z Z (E.store.get st (k + js * (c + radixVal rho * B))) := fun c hc =>
      (hin c hc).2 fun h => hndvd ((dvd_digits _).1 ((Nat.dvd_mul_right js _).trans h))
    have hzero := kernel_spreads hE.arith hE.arith.toAbsorbs hE.arith.toAbsorbs rho _ (hzeros 0 hrho)
      (fun c _ hc => hzeros c hc) y hy
    exact .zero hndvd (hE.twid_zero la k d hzero)

/-! ### What the stores of a round write -/

theorem PulseUnit.storeTwiddled_wrote {la js k : Nat} {place : Nat → Nat} (ys : List (Cpx α)) (d : Nat) (st : σ)
    (hplace : ∀ i, i < ys.length → place (d + i) < E.ni) (hys : ∀ y ∈ ys, ∀ d, Spaced Z P P' js k (twid E la k d y)) :
    Wrote E.ni E.store.get (fun _ => Spaced Z P P' js k) (fun x => ∃ i, i < ys.length ∧ x = place (d + i)) st
      (storeTwiddled E la k place d ys st) := by
  induction ys generalizing d st with
  | nil => exact fun x _ => ⟨fun _ => rfl, fun ⟨i, hi, _⟩ => absurd hi (Nat.not_lt_zero i)⟩
  | cons y ys ih =>
    obtain ⟨hy, hys⟩ := List.forall_mem_cons.1 hys
    have hfirst : Wrote E.ni E.store.get (fun _ => Spaced Z P P' js k) (· = place d) st
        (E.store.set st (place d) (twid E la k d y)) := fun x hx =>
      ⟨fun hne => hE.get_set_ne st _ (hplace 0 (Nat.succ_pos _)) hx hne, by rintro rfl; exact hE.get_set_spaced st hx (hy d)⟩
    have hshift : ∀ i, place (d + 1 + i) = place (d + (i + 1)) := fun i => by rw [Nat.add_assoc, Nat.add_comm 1]
    have hrest := ih (d + 1) (E.store.set st (place d) (twid E la k d y))
      (fun i hi => hshift i ▸ hplace (i + 1) (Nat.succ_lt_succ hi)) hys
    refine (hfirst.trans hrest).of_iff fun x _ => ?_
    simp only [hshift, List.length_cons]
    exact Nat.exists_lt_succ_left

theorem PulseUnit.storeSquare_wrote {la js k base rho : Nat} (rows : List (List (Cpx α))) (e : Nat) (st : σ)
    (hplace : ∀ i, i < rows.length → ∀ d, d < rho → base + (e + i) * js + d * la < E.ni)
    (hlen : ∀ row ∈ rows, row.length = rho)
    (hrows : ∀ row ∈ rows, ∀ y ∈ row, ∀ d, Spaced Z P P' js k (twid E la k d y)) :
    Wrote E.ni E.store.get (fun _ => Spaced Z P P' js k)
      (fun x => ∃ i, i < rows.length ∧ ∃ d, d < rho ∧ x = base + (e + i) * js + d * la) st
      (storeSquare E la k js base e rows st) := by
  induction rows generalizing e st with
  | nil => exact fun x _ => ⟨fun _ => rfl, fun ⟨i, hi, _⟩ => absurd hi (Nat.not_lt_zero i)⟩
  | cons row rows ih =>
    obtain ⟨hrow, hrows⟩ := List.forall_mem_cons.1 hrows
    obtain ⟨hhead, hlen⟩ := List.forall_mem_cons.1 hlen
    have hfirst := hE.storeTwiddled_wrote (place := fun d => base + e * js + d * la) row 0 st
      (fun i hi => by simpa using hplace 0 (Nat.succ_pos _) i (hhead ▸ hi)) hrow
    have hshift : ∀ i, e + 1 + i = e + (i + 1) := fun i => by omega
    have hrest := ih (e + 1) (storeTwiddled E la k (fun d => base + e * js + d * la) 0 row st)
      (fun i hi => hshift i ▸ hplace (i + 1) (Nat.succ_lt_succ hi)) hlen hrows
    refine (hfirst.trans hrest).of_iff fun x _ => ?_
    simp only [hshift, List.length_cons, hhead, Nat.zero_add]
    exact Nat.exists_lt_succ_left

end

end

/-! ### The cells of the rounds of a pass -/

section

variable {js rho la nb : Nat}

theorem digits_lt {k y m : Nat} (hk : k < js) (hy : y < m) : k + js * y < js * m := by
  calc k + js * y < js * (y + 1) := by rw [Nat.mul_succ]; omega
    _ ≤ js * m := Nat.mul_le_mul_left _ hy

/-- The places of the round (blk, k) of a type I pass (R155). -/
def CellI (js rho blk k x : Nat) : Prop := ∃ c, c < rho ∧ x = k + js * (c + rho * blk)

/-- The places of the round (k, bl, g) of a type II pass (R156). -/
def CellII (js rho nb k bl g x : Nat) : Prop :=
  ∃ e, e < rho ∧ ∃ d, d < rho ∧ x = k + js * (e + rho * (bl + nb * (d + rho * g)))

theorem CellI.keys {blk k x : Nat} (hk : k < js) (h : CellI js rho blk k x) : x % js = k ∧ x / js / rho = blk := by
  obtain ⟨c, hc, rfl⟩ := h
  rw [digits_mod hk, digits_div hk, digits_div hc]
  exact ⟨rfl, rfl⟩

theorem CellII.keys {k bl g x : Nat} (hk : k < js) (hbl : bl < nb) (h : CellII js rho nb k bl g x) :
    x % js = k ∧ x / js / rho % nb = bl ∧ x / js / rho / nb / rho = g := by
  obtain ⟨e, he, d, hd, rfl⟩ := h
  rw [digits_mod hk, digits_div hk, digits_div he, digits_mod hbl, digits_div hbl, digits_div hd]
  exact ⟨rfl, rfl, rfl⟩

theorem exists_cellI {x : Nat} (hx : x < js * rho * la) : ∃ blk, blk < la ∧ ∃ k, k < js ∧ CellI js rho blk k x := by
  have hjs : 0 < js := Nat.pos_of_ne_zero fun h0 => by simp [h0] at hx
  have hrho : 0 < rho := Nat.pos_of_ne_zero fun h0 => by simp [h0] at hx
  rw [mul_assoc] at hx
  exact ⟨x / js / rho, Nat.div_lt_of_lt_mul (Nat.div_lt_of_lt_mul hx), x % js, Nat.mod_lt _ hjs, x / js % rho,
    Nat.mod_lt _ hrho, by rw [Nat.mod_add_div, Nat.mod_add_div]⟩

theorem exists_cellII {x : Nat} (hx : x < js * (rho * (nb * (rho * js)))) :
    ∃ k, k < js ∧ ∃ bl, bl < nb ∧ ∃ g, g < js ∧ CellII js rho nb k bl g x := by
  have hjs : 0 < js := Nat.pos_of_ne_zero fun h0 => by simp [h0] at hx
  have hrho : 0 < rho := Nat.pos_of_ne_zero fun h0 => by simp [h0] at hx
  have hnb : 0 < nb := Nat.pos_of_ne_zero fun h0 => by simp [h0] at hx
  have hg := Nat.div_lt_of_lt_mul (Nat.div_lt_of_lt_mul (Nat.div_lt_of_lt_mul (Nat.div_lt_of_lt_mul hx)))
  refine ⟨x % js, Nat.mod_lt _ hjs, x / js / rho % nb, Nat.mod_lt _ hnb, x / js / rho / nb / rho, hg, x / js % rho,
    Nat.mod_lt _ hrho, x / js / rho / nb % rho, Nat.mod_lt _ hrho, ?_⟩
  rw [Nat.mod_add_div, Nat.mod_add_div, Nat.mod_add_div, Nat.mod_add_div]

end

/-! ### What a pass makes of pulses (R155, R156) -/

section

variable {σ α : Type} {E : UnitEnv σ α} {F Z P P' : α → Prop} (hE : PulseUnit E F Z P P') (rho : Radix) {la js : Nat}
  (hni : E.ni = js * radixVal rho * la)
include hE hni

/-- A round of a type I pass. -/
theorem PulseUnit.roundI {blk k : Nat} (hblk : blk < la) (hk : k < js) :
    Turns E.ni E.store.get (Spaced Z P P' (js * radixVal rho)) (Spaced Z P P' js) (CellI js (radixVal rho) blk k)
      (fun st => storeTwiddled E la k (fun c => blk * radixVal rho * js + k + c * js) 0
        (butterfly E rho (fun c => blk * radixVal rho * js + k + c * js) st) st) := by
  intro st hst
  have hplace : ∀ c, c < radixVal rho → k + js * (c + radixVal rho * blk) < E.ni := fun c hc => by
    rw [hni, mul_assoc]
    exact digits_lt hk (digits_lt hc hblk)
  have hout := hE.twid_butterfly rho (la := la) hk fun c hc => hst _ (hplace c hc) ⟨c, hc, rfl⟩
  have hwrote := hE.storeTwiddled_wrote (place := fun c => k + js * (c + radixVal rho * blk)) _ 0 st
    (by simpa [butterfly_length] using hplace) hout
  simp only [butterfly_length, Nat.zero_add] at hwrote
  simp only [placeI_eq]
  intro x hx
  obtain ⟨hkeep, hspaced⟩ := hwrote x hx
  refine ⟨hkeep, fun hC => ?_⟩
  obtain ⟨c, hc, rfl⟩ := hC
  exact (hspaced ⟨c, hc, rfl⟩).shift _

/-- A round of a type II pass: every row has its pulse, if any, in its first place. -/
theorem PulseUnit.roundII {nb k bl g : Nat} (hla : la = js * radixVal rho * nb) (hk : k < js) (hbl : bl < nb) (hg : g < js) :
    Turns E.ni E.store.get (Spaced Z P P' (js * radixVal rho)) (Spaced Z P P' js) (CellII js (radixVal rho) nb k bl g)
      (fun st => storeSquare E la k js (k + bl * radixVal rho * js + g * radixVal rho * la) 0
        ((List.range (radixVal rho)).map fun e => butterfly E rho
          (fun c => k + bl * radixVal rho * js + g * radixVal rho * la + c * js + e * la) st) st) := by
  obtain ⟨base, hbase⟩ : ∃ base, base = k + bl * radixVal rho * js + g * radixVal rho * la := ⟨_, rfl⟩
  have hplaceEq : ∀ e d, base + e * js + d * la = k + js * (e + radixVal rho * (bl + nb * (d + radixVal rho * g))) :=
    fun e d => by rw [hbase, hla, placeII_eq]
  have hplace : ∀ e, e < radixVal rho → ∀ d, d < radixVal rho → base + e * js + d * la < E.ni := fun e he d hd => by
    rw [hplaceEq, hni, hla]
    exact (digits_lt hk (digits_lt he (digits_lt hbl (digits_lt hd hg)))).trans_eq (by ring)
  rw [← hbase]
  intro st hst
  have hout : ∀ row ∈ (List.range (radixVal rho)).map (fun e => butterfly E rho (fun c => base + c * js + e * la) st),
      row.length = radixVal rho ∧ ∀ y ∈ row, ∀ d, Spaced Z P P' js k (twid E la k d y) := by
    intro row hrow
    obtain ⟨e, he, rfl⟩ := List.mem_map.1 hrow
    rw [List.mem_range] at he
    refine ⟨butterfly_length .., ?_⟩
    simp only [hplaceEq] at hplace ⊢
    exact hE.twid_butterfly rho hk fun c hc => hst _ (hplace c hc e he) ⟨c, hc, e, he, rfl⟩
  have hwrote := hE.storeSquare_wrote (base := base) (rho := radixVal rho) _ 0 st (by simpa using hplace)
    (fun row hrow => (hout row hrow).1) (fun row hrow => (hout row hrow).2)
  simp only [List.length_map, List.length_range, Nat.zero_add, hplaceEq] at hwrote
  intro x hx
  obtain ⟨hkeep, hspaced⟩ := hwrote x hx
  simp only [hplaceEq]
  refine ⟨hkeep, fun hC => ?_⟩
  obtain ⟨e, he, d, hd, rfl⟩ := hC
  exact (hspaced ⟨e, he, d, hd, rfl⟩).shift _

theorem PulseUnit.passI (st : σ) (hst : ∀ x, x < E.ni → Spaced Z P P' (js * radixVal rho) x (E.store.get st x)) :
    ∀ x, x < E.ni → Spaced Z P P' js x (E.store.get (passI E rho la st) x) := by
  intro x hx
  have hcell := exists_cellI (hx.trans_eq hni)
  have hla : 0 < la := Nat.pos_of_ne_zero fun h0 => by simp [hni, h0] at hx
  have hjs : E.ni / (radixVal rho * la) = js := by
    rw [hni, mul_assoc, Nat.mul_div_cancel _ (Nat.mul_pos (radixVal_pos rho) hla)]
  have hloops := loop_turns (n := la)
    (fun _ _ _ _ y ⟨_, hk, h⟩ ⟨_, hk', h'⟩ => (h.keys hk).2.symm.trans (h'.keys hk').2) fun blk hblk =>
      loop_turns (n := js) (fun _ _ hi hj y h h' => (h.keys hi).1.symm.trans (h'.keys hj).1) fun k hk =>
        hE.roundI rho hni hblk hk
  simp only [Machine.passI, hjs]
  exact (hloops st (fun y hy _ => hst y hy) x hx).2 hcell

theorem PulseUnit.passII {nb : Nat} (hla : la = js * radixVal rho * nb) (st : σ)
    (hst : ∀ x, x < E.ni → Spaced Z P P' (js * radixVal rho) x (E.store.get st x)) :
    ∀ x, x < E.ni → Spaced Z P P' js x (E.store.get (passII E rho la st) x) := by
  intro x hx
  have hcell := exists_cellII (x := x) (js := js) (rho := radixVal rho) (nb := nb)
    (hx.trans_eq (by rw [hni, hla]; ring))
  have hla0 : 0 < la := Nat.pos_of_ne_zero fun h0 => by simp [hni, h0] at hx
  have hjs0 : 0 < js := Nat.pos_of_ne_zero fun h0 => by simp [hni, h0] at hx
  have hjs : E.ni / (radixVal rho * la) = js := by
    rw [hni, mul_assoc, Nat.mul_div_cancel _ (Nat.mul_pos (radixVal_pos rho) hla0)]
  have hnb : la / (radixVal rho * js) = nb := by
    rw [hla, Nat.mul_comm js, Nat.mul_div_cancel_left _ (Nat.mul_pos (radixVal_pos rho) hjs0)]
  have hloops := loop_turns (n := js)
    (fun _ _ hi hj y ⟨_, hbl, _, _, h⟩ ⟨_, hbl', _, _, h'⟩ => (h.keys hi hbl).1.symm.trans (h'.keys hj hbl').1) fun k hk =>
      loop_turns (n := nb)
        (fun _ _ hi hj y ⟨_, _, h⟩ ⟨_, _, h'⟩ => (h.keys hk hi).2.1.symm.trans (h'.keys hk hj).2.1) fun bl hbl =>
          loop_turns (n := js) (fun _ _ _ _ y h h' => (h.keys hk hbl).2.2.symm.trans (h'.keys hk hbl).2.2) fun g hg =>
            hE.roundII rho hni hla hk hbl hg
  simp only [Machine.passII, hjs, hnb]
  exact (hloops st (fun y hy _ => hst y hy) x hx).2 hcell

end

/-! ### All passes of a unit -/

section

variable {σ α : Type} {E : UnitEnv σ α} {F Z P P' : α → Prop} (hE : PulseUnit E F Z P P')
include hE

/-- The passes that are left, with a type II pass only where its groups are square (R154), take pulses at the multiples of the
product of their radices to pulses everywhere. -/
theorem PulseUnit.runPasses (ps : List Pass) {la : Nat} (st : σ) (hni : E.ni = radixProduct ps * la)
    (hsquare : ∀ before p after, ps = before ++ p :: after → p.typeII = true → E.ni ∣ (la * radixProduct before) ^ 2)
    (hst : ∀ x, x < E.ni → Spaced Z P P' (radixProduct ps) x (E.store.get st x)) :
    ∀ x, x < E.ni → PairIn P P' (E.store.get (runPasses E ps la st) x) := by
  induction ps generalizing la st with
  | nil => exact fun x hx => (hst x hx).1 (one_dvd x)
  | cons p ps ih =>
    have hni' : E.ni = radixProduct ps * radixVal p.radix * la := by rw [hni, radixProduct_cons, Nat.mul_comm (radixVal _)]
    rw [radixProduct_cons, Nat.mul_comm] at hst
    refine ih (runPass E p la st) (by rw [hni']; ring) (fun before q after heq hq => ?_) ?_
    · have hrest := hsquare (p :: before) q after (congrArg (p :: ·) heq) hq
      rwa [radixProduct_cons, ← mul_assoc] at hrest
    · unfold runPass
      split
      · next hII =>
        have hdvd := hsquare [] p ps rfl hII
        rw [radixProduct_nil, Nat.mul_one, sq, hni'] at hdvd
        intro x hx
        have hla : 0 < la := Nat.pos_of_ne_zero fun h0 => by simp [hni', h0] at hx
        obtain ⟨nb, hnb⟩ := (Nat.mul_dvd_mul_iff_right hla).1 hdvd
        exact hE.passII p.radix hni' hnb st hst x hx
      · exact hE.passI p.radix hni' st hst

end

end Sys2Proof.Proofs
end

section
/-! PROOF. Every entry of a twiddle table is a finite word (R143, R144): the exact ones are, and the fixed-point value of another is
below 2, so that neither its rounding nor an encoding within the bound of R143 reaches the exponent of the infinities. -/

namespace Sys2Proof.Proofs

open Sys2Proof Sys2Proof.Machine
open Sys2Proof.Config (Prec TwGen)

section

variable {f : Prec} {c : Int}

/-- Only a finite word has fewer units than the exponent field of the infinities gives. -/
theorem finite_of_magUnits_lt {v : Word} (h : magUnits f v < 2 ^ fracBits f * 2 ^ (expMax f - 1)) : fpFinite f v = true := by
  have hlt : fpExp f v < expMax f + 1 := expMax_add_one f ▸ Nat.mod_lt _ (by positivity)
  have hpos : 0 < expMax f := by cases f <;> decide
  refine decide_eq_true (Nat.lt_of_le_of_ne (by omega) fun heq => h.not_ge ?_)
  rw [magUnits, heq, if_neg hpos.ne']
  exact Nat.mul_le_mul_right _ (Nat.le_add_left _ _)

theorem natAbs_signedUnits (f : Prec) (v : Word) : (signedUnits f v).natAbs = magUnits f v := by
  unfold signedUnits
  split <;> simp

theorem two_pow_bitLength_le (x : Nat) : 2 ^ bitLength x ≤ 2 * x + 1 := by
  unfold bitLength
  split
  · exact Nat.le_add_left _ _
  · next hx =>
    have := Nat.log2_self_le hx
    rw [pow_succ]
    omega

theorem natAbs_le_of_near {x : ℝ} (h : Near c x) (hx : |x| ≤ 1) : c.natAbs ≤ 2 * 2 ^ fixBits := by
  have hS : (0 : ℝ) < 2 ^ fixBits := by positivity
  have hscaled := h.scaled
  rw [slack_eq] at hscaled
  have hx' : |x * 2 ^ fixBits| ≤ 2 ^ fixBits := by
    rw [abs_mul, abs_of_pos hS]
    exact mul_le_of_le_one_left hS.le hx
  have hc : |(c : ℝ)| ≤ 2 * 2 ^ fixBits := by
    have hsub := abs_sub_abs_le_abs_sub (c : ℝ) (x * 2 ^ fixBits)
    rw [abs_sub_comm] at hsub
    nlinarith
  have hcast : ((c.natAbs : Nat) : ℝ) ≤ ((2 * 2 ^ fixBits : Nat) : ℝ) := by
    push_cast [Nat.cast_natAbs]
    exact hc
  exact_mod_cast hcast

/-- Below the overflow threshold a rounded number is finite. -/
theorem finite_signed_roundUnits (neg : Bool) {m k : Nat} (h : m < overflowUnits f * 2 ^ k) :
    fpFinite f (signed f neg (roundUnits f m k)) = true := by
  have hrounds := roundsTo_signed f neg m k
  have habs : (if neg then -(m : ℤ) else m).natAbs = m := by cases neg <;> simp
  rw [roundsTo, habs, if_neg h.not_ge] at hrounds
  exact hrounds.1

theorem finite_roundFix (hc : c.natAbs ≤ 2 * 2 ^ fixBits) : fpFinite f (roundFix f c) = true := by
  have hroom : 2 * 2 ^ unitExp f < overflowUnits f := by cases f <;> decide +kernel
  refine finite_signed_roundUnits _ ?_
  calc c.natAbs * 2 ^ unitExp f ≤ 2 * 2 ^ fixBits * 2 ^ unitExp f := Nat.mul_le_mul_right _ hc
    _ = 2 * 2 ^ unitExp f * 2 ^ fixBits := by ring
    _ < overflowUnits f * 2 ^ fixBits := Nat.mul_lt_mul_of_pos_right hroom (by positivity)

theorem finite_of_withinUlp {v : Word} (hc : c.natAbs ≤ 2 * 2 ^ fixBits) (h : withinUlp f c v = true) :
    fpFinite f v = true := by
  have hS : 0 < 2 ^ fixBits := by positivity
  have hroom : 6 * 2 ^ unitExp f + 1 < 2 ^ fracBits f * 2 ^ (expMax f - 1) := by cases f <;> decide +kernel
  have hquot : c.natAbs * 2 ^ unitExp f / 2 ^ fixBits ≤ 2 * 2 ^ unitExp f := by
    refine Nat.div_le_of_le_mul ?_
    calc c.natAbs * 2 ^ unitExp f ≤ 2 * 2 ^ fixBits * 2 ^ unitExp f := Nat.mul_le_mul_right _ hc
      _ = 2 ^ fixBits * (2 * 2 ^ unitExp f) := by ring
  have hulp : ulpUnits f c ≤ 4 * 2 ^ unitExp f + 1 := by
    have hpow := two_pow_bitLength_le (c.natAbs * 2 ^ unitExp f / 2 ^ fixBits)
    have hle : ulpUnits f c ≤ 2 ^ bitLength (c.natAbs * 2 ^ unitExp f / 2 ^ fixBits) :=
      Nat.pow_le_pow_right two_pos (Nat.sub_le _ _)
    omega
  refine finite_of_magUnits_lt (lt_of_le_of_lt (Nat.le_of_mul_le_mul_right ?_ hS) hroom)
  have hsplit : (signedUnits f v * 2 ^ fixBits).natAbs ≤
      (signedUnits f v * 2 ^ fixBits - c * 2 ^ unitExp f).natAbs + (c * 2 ^ unitExp f).natAbs := by
    omega
  have hpow : ∀ (a : Int) (k : Nat), (a * 2 ^ k).natAbs = a.natAbs * 2 ^ k := fun a k => by
    rw [Int.natAbs_mul, Int.natAbs_pow]
    rfl
  rw [hpow, hpow, natAbs_signedUnits] at hsplit
  calc magUnits f v * 2 ^ fixBits
      ≤ ulpUnits f c * 2 ^ fixBits + c.natAbs * 2 ^ unitExp f := hsplit.trans (Nat.add_le_add_right (of_decide_eq_true h) _)
    _ ≤ (4 * 2 ^ unitExp f + 1) * 2 ^ fixBits + 2 * 2 ^ fixBits * 2 ^ unitExp f :=
        Nat.add_le_add (Nat.mul_le_mul_right _ hulp) (Nat.mul_le_mul_right _ hc)
    _ = (6 * 2 ^ unitExp f + 1) * 2 ^ fixBits := by ring

theorem finite_generated (g : TwGen) (sine : Bool) (K ni : Nat) (hc : c.natAbs ≤ 2 * 2 ^ fixBits) :
    fpFinite f (generated g f sine K ni c) = true := by
  rcases generated_cases g f sine K ni c with h | h
  · rw [h]
    exact finite_roundFix hc
  · exact finite_of_withinUlp hc h

end

section

variable (g : TwGen) (f : Prec) {K ni : Nat} (hK : K < ni)
include hK

theorem finite_twgenCos : fpFinite f (twgenCos g f K ni) = true := by
  cases h : exactCos f K ni with
  | some v =>
    rw [twgenCos_of_exact h]
    exact (encodes_exactCos (by omega) h).1
  | none =>
    rw [twgenCos_of_inexact h]
    exact finite_generated g false K ni (natAbs_le_of_near (near_cosFix hK) (Real.abs_cos_le_one _))

theorem finite_twgenSin : fpFinite f (twgenSin g f K ni) = true := by
  cases h : exactSin f K ni with
  | some v =>
    rw [twgenSin_of_exact h]
    exact (encodes_exactSin (by omega) h).1
  | none =>
    rw [twgenSin_of_inexact h]
    exact finite_generated g true K ni (natAbs_le_of_near (near_sinFix hK) (Real.abs_sin_le_one _))

end

end Sys2Proof.Proofs
end

section
/-! PROOF. The transform of an impulse (46_dispatcher.md R227). In the axis the engine of b turns pulses at the multiples of b^mm·C
into pulses at the multiples of C: a coset holds one of them, as its element 0, or none. The three engines of a dispatcher call take
the impulse, a pulse at the multiples of n, to pulses everywhere; a pulse is (1.0, +0.0) throughout, since 1.0 and +0.0 absorb the
zeros of either sign. -/

namespace Sys2Proof.Proofs

open Sys2Proof Sys2Proof.Machine
open Sys2Proof.Config (Prec Sign TwGen)

/-! ### Which elements of a coset stand at the multiples -/

section

variable {ni inq C : Nat}

theorem dvd_ringIndex_iff (hco : Nat.Coprime ni inq) (hC : C ∣ inq) (hni : 0 < ni) (nu u : Nat) :
    ni * C ∣ ringIndex (ni * inq) ni inq nu u ↔ C ∣ nu ∧ ni ∣ u := by
  obtain ⟨m, rfl⟩ := hC
  rw [ringIndex, Nat.dvd_mod_iff (Nat.mul_dvd_mul_left ni (Nat.dvd_mul_right C m))]
  have hunit : ∀ w, nu * ni + ni * w * (C * m) = ni * (nu + C * (w * m)) := fun w => by ring
  constructor
  · intro h
    have hu : ni ∣ u := hco.dvd_of_dvd_mul_right
      ((Nat.dvd_add_right (Nat.dvd_mul_left ni nu)).1 ((Nat.dvd_mul_right ni C).trans h))
    obtain ⟨w, rfl⟩ := hu
    rw [hunit, Nat.mul_dvd_mul_iff_left hni, dvd_digits] at h
    exact ⟨h, Nat.dvd_mul_right ni w⟩
  · rintro ⟨hnu, w, rfl⟩
    rwa [hunit, Nat.mul_dvd_mul_iff_left hni, dvd_digits]

theorem dvd_ringIndex_coset_iff (hco : Nat.Coprime ni inq) (hC : C ∣ inq) (nu u : Nat) :
    C ∣ ringIndex (ni * inq) ni inq nu u ↔ C ∣ nu := by
  rw [ringIndex, Nat.dvd_mod_iff (hC.mul_left ni), Nat.dvd_add_left (hC.mul_left u)]
  exact (hco.coprime_dvd_right hC).symm.dvd_mul_right

theorem ringIndex_mod (nu u : Nat) : ringIndex (ni * inq) ni inq nu (u % ni) = ringIndex (ni * inq) ni inq nu u := by
  have h : u % ni * inq ≡ u * inq [MOD ni * inq] := (Nat.mod_modEq u ni).mul_right' inq
  exact h.add_left (nu * ni)

end

/-! ### Units of a line -/

section

variable {f : Prec} (g : TwGen) (sign : Sign) {ni inq nu C : Nat} {P P' : Word → Prop}

theorem lineUnit_pulseUnit (hP : Absorbs (fpArith f) (ZeroWord f) P) (hP' : Absorbs (fpArith f) (ZeroWord f) P')
    (hfits : ∀ {v}, PairIn P P' v → PairFits f v) (hco : Nat.Coprime ni inq) (hni : 0 < ni) (hnu : nu < inq) :
    PulseUnit (lineUnit f g sign (ni * inq) ni inq nu) (fpFinite f · = true) (ZeroWord f) P P' where
  arith := fpArith_zeroArith f
  re := hP
  im := hP'
  twiddle idx := ⟨finite_twgenCos g f (Nat.mod_lt _ hni), finite_twgenSin g f (Nat.mod_lt _ hni)⟩
  get_set_pulse z u v _ hv := by
    obtain ⟨hre, him⟩ := hfits hv
    simpa [lineUnit, hre.truncWord_eq, him.truncWord_eq] using hv
  get_set_zero z u v _ hv := by
    simpa [lineUnit, hv.1.fitsFormat.truncWord_eq, hv.2.fitsFormat.truncWord_eq] using hv
  get_set_ne z u u' v hu hu' hne :=
    Function.update_of_ne (fun heq => hne (ringIndex_inj hco hnu hnu hu' hu heq).2) _ _

/-- A unit that holds a pulse in its element 0, among zeros, holds pulses after its passes. -/
theorem lineUnit_runPasses {b : Prime} {mm : Nat} (hP : Absorbs (fpArith f) (ZeroWord f) P)
    (hP' : Absorbs (fpArith f) (ZeroWord f) P') (hfits : ∀ {v}, PairIn P P' v → PairFits f v) (hmm : 0 < mm)
    (hco : Nat.Coprime (primeVal b ^ mm) inq) (hnu : nu < inq) {z : Nat → Cpx Word}
    (hz : ∀ u, u < primeVal b ^ mm → Spaced (ZeroWord f) P P' (primeVal b ^ mm) u
      (z (ringIndex (primeVal b ^ mm * inq) (primeVal b ^ mm) inq nu u))) :
    ∀ u, u < primeVal b ^ mm → PairIn P P' (runPasses (lineUnit f g sign (primeVal b ^ mm * inq) (primeVal b ^ mm) inq nu)
      (passList b mm) 1 z (ringIndex (primeVal b ^ mm * inq) (primeVal b ^ mm) inq nu u)) := by
  have hE := lineUnit_pulseUnit g sign hP hP' hfits hco (unit_pos b mm) hnu
  have hprod := radixProduct_passList b mm
  refine hE.runPasses (passList b mm) z (by rw [hprod, Nat.mul_one]; rfl) (fun before p after heq hp => ?_) (by rwa [hprod])
  rw [Nat.one_mul]
  exact ((((passListsMultiplyToGroup.1 b mm hmm).2 before after p heq).2 hp).2)

end

/-! ### Engines on a line -/

/-- The elements of coset ν in an axis of ni·inq (R152). -/
def InCoset (ni inq nu t : Nat) : Prop := ∃ u, u < ni ∧ t = ringIndex (ni * inq) ni inq nu u

section

variable {f : Prec} (g : TwGen) (sign : Sign) {inq C : Nat} {P P' : Word → Prop} (hP : Absorbs (fpArith f) (ZeroWord f) P)
  (hP' : Absorbs (fpArith f) (ZeroWord f) P') (hfits : ∀ {v}, PairIn P P' v → PairFits f v)
include hP hP' hfits

/-- The passes of a coset: it holds a pulse where ν is a multiple of C, and stays all zero elsewhere. -/
theorem lineUnit_turns {b : Prime} {mm nu : Nat} (hmm : 0 < mm) (hco : Nat.Coprime (primeVal b ^ mm) inq) (hC : C ∣ inq)
    (hnu : nu < inq) :
    Turns (primeVal b ^ mm * inq) (fun (z : Nat → Cpx Word) t => z t) (Spaced (ZeroWord f) P P' (primeVal b ^ mm * C))
      (Spaced (ZeroWord f) P P' C) (InCoset (primeVal b ^ mm) inq nu)
      (runPasses (lineUnit f g sign (primeVal b ^ mm * inq) (primeVal b ^ mm) inq nu) (passList b mm) 1) := by
  have hni : 0 < primeVal b ^ mm := unit_pos b mm
  have hlt := fun u => ringIndex_lt (primeVal b ^ mm) inq nu u (Nat.mul_pos hni (Nat.zero_lt_of_lt hnu))
  intro z hz t ht
  have hcell : ∀ u, u < primeVal b ^ mm → Spaced (ZeroWord f) P P' (primeVal b ^ mm * C)
      (ringIndex (primeVal b ^ mm * inq) (primeVal b ^ mm) inq nu u)
      (z (ringIndex (primeVal b ^ mm * inq) (primeVal b ^ mm) inq nu u)) := fun u hu => hz _ (hlt u) ⟨u, hu, rfl⟩
  simp only [Spaced, dvd_ringIndex_iff hco hC hni] at hcell
  refine ⟨fun hout => runPasses_keeps _ (fun y : Nat → Cpx Word => y t = z t) (fun y u v hy => ?_) _ _ _ rfl, ?_⟩
  · refine (Function.update_of_ne (fun heq => hout ⟨u % primeVal b ^ mm, Nat.mod_lt _ hni, ?_⟩) _ _).trans hy
    rw [ringIndex_mod, heq]
  · rintro ⟨u, hu, rfl⟩
    by_cases hdvd : C ∣ nu
    · exact .pulse ((dvd_ringIndex_coset_iff hco hC nu u).2 hdvd)
        (lineUnit_runPasses g sign hP hP' hfits hmm hco hnu (fun u hu => by simpa [Spaced, hdvd] using hcell u hu) u hu)
    · exact .zero (fun h => hdvd ((dvd_ringIndex_coset_iff hco hC nu u).1 h))
        (lineUnit_runPasses g sign (absorbs_zero f) (absorbs_zero f) (fun hv => ⟨hv.1.fitsFormat, hv.2.fitsFormat⟩) hmm hco hnu
          (fun u hu => by simpa [Spaced, hdvd] using hcell u hu) u hu)

/-- An engine makes pulses at the multiples of b^mm·C into pulses at the multiples of C. -/
theorem lineEngine_spaced {b : Prime} {mm n : Nat} (hn : n = primeVal b ^ mm * inq) (hco : Nat.Coprime (primeVal b ^ mm) inq)
    (hC : C ∣ inq) {x : Nat → Cpx Word} (hx : ∀ t, t < n → Spaced (ZeroWord f) P P' (primeVal b ^ mm * C) t (x t)) :
    ∀ t, t < n → Spaced (ZeroWord f) P P' C t (lineEngine f g sign n b mm x t) := by
  subst hn
  intro t ht
  unfold lineEngine
  split
  · next h0 =>
    have hpulses := hx t ht
    rwa [h0, Nat.pow_zero, Nat.one_mul] at hpulses
  · next hmm =>
    have hloop := loop_turns (n := inq)
      (fun _ _ hi hj y ⟨u, hu, h⟩ ⟨u', hu', h'⟩ => (ringIndex_inj hco hi hj hu hu' (h.symm.trans h')).1) fun nu hnu =>
        lineUnit_turns g sign hP hP' hfits (Nat.pos_of_ne_zero hmm) hco hC hnu
    obtain ⟨⟨nu, u⟩, ⟨hnu, hu, rfl⟩, -⟩ := (ringIndexIsBijection _ inq _ hco rfl (Nat.zero_lt_of_lt ht)).2 t ht
    rw [Nat.mul_div_cancel_left _ (unit_pos b mm)]
    exact (hloop x (fun y hy _ => hx y hy) _ ht).2 ⟨nu, hnu, u, hu, rfl⟩

/-- A dispatcher call makes a pulse at 0, among zeros, into pulses everywhere. -/
theorem lineCall_spreads {ax : AxisPlan} (hg : ax.good) {x : Nat → Cpx Word} (h0 : PairIn P P' (x 0))
    (hrest : ∀ t, 0 < t → t < ax.n.toNat → PairIn (ZeroWord f) (ZeroWord f) (x t)) :
    ∀ t, t < ax.n.toNat → PairIn P P' (lineCall f g sign ax x t) := by
  obtain ⟨hn, -⟩ := hg
  have h23 : Nat.Coprime (2 ^ ax.p.toNat) (3 ^ ax.q.toNat) := Nat.Coprime.pow _ _ (by decide)
  have h25 : Nat.Coprime (2 ^ ax.p.toNat) (5 ^ ax.r.toNat) := Nat.Coprime.pow _ _ (by decide)
  have h35 : Nat.Coprime (3 ^ ax.q.toNat) (5 ^ ax.r.toNat) := Nat.Coprime.pow _ _ (by decide)
  have hx : ∀ t, t < ax.n.toNat →
      Spaced (ZeroWord f) P P' (2 ^ ax.p.toNat * (3 ^ ax.q.toNat * 5 ^ ax.r.toNat)) t (x t) := fun t ht => by
    rw [← mul_assoc, ← hn]
    rcases Nat.eq_zero_or_pos t with rfl | hpos
    · exact .pulse (dvd_zero _) h0
    · exact .zero (Nat.not_dvd_of_pos_of_lt hpos ht) (hrest t hpos ht)
  have hx2 := lineEngine_spaced g sign hP hP' hfits (b := .two) (hn.trans (mul_assoc ..)) (h23.mul_right h25) dvd_rfl hx
  have hx3 := lineEngine_spaced g sign hP hP' hfits (b := .three) (inq := 2 ^ ax.p.toNat * 5 ^ ax.r.toNat)
    (hn.trans (by simp only [primeVal]; ring)) (h23.symm.mul_right h35) (Nat.dvd_mul_left _ _) hx2
  have hx5 := lineEngine_spaced g sign hP hP' hfits (b := .five) (C := 1) (inq := 2 ^ ax.p.toNat * 3 ^ ax.q.toNat)
    (hn.trans (by simp only [primeVal]; ring)) (h25.symm.mul_right h35.symm) (one_dvd _)
    (by rw [Nat.mul_one]; exact hx3)
  exact fun t ht => (hx5 t ht).1 (one_dvd t)

end

/-! ### The transform of an impulse -/

/-- The line of a unit impulse: 1.0 at index 0, +0.0 elsewhere. -/
def impulse (f : Prec) (t : Nat) : Cpx Word := if t = 0 then (fpOne f, 0#64) else (0#64, 0#64)

theorem lineCall_impulse (f : Prec) (g : TwGen) (sign : Sign) {ax : AxisPlan} (hg : ax.good) {t : Nat}
    (ht : t < ax.n.toNat) : lineCall f g sign ax (impulse f) t = (fpOne f, 0#64) := by
  have hfits : ∀ {v : Cpx Word}, PairIn (· = fpOne f) (· = 0#64) v → PairFits f v := by
    rintro ⟨_, _⟩ ⟨rfl, rfl⟩
    refine ⟨?_, (zeroWord_positive f).fitsFormat⟩
    unfold FitsFormat
    cases f <;> decide
  have hrest : ∀ t, 0 < t → t < ax.n.toNat → PairIn (ZeroWord f) (ZeroWord f) (impulse f t) := fun t hpos _ => by
    rw [impulse, if_neg hpos.ne']
    exact ⟨zeroWord_positive f, zeroWord_positive f⟩
  obtain ⟨hre, him⟩ := lineCall_spreads g sign (absorbs_one f) (absorbs_positiveZero f) hfits hg (x := impulse f)
    ⟨rfl, rfl⟩ hrest t ht
  exact Prod.ext hre him

section

variable {s : State} {split : Bool} (hn : s.plan.naxes = 1#2)
include hn

theorem axisLength_one : axisLength s.plan 1#2 = s.plan.axis1.n.toNat := axisLength_configured (by rw [hn]; decide)

/-- On one axis `Emax` is the last index (R240). -/
theorem planEmax_one : planEmax s = s.plan.axis1.n.toNat - 1 := by
  rw [planEmax, hn, ← axisLength_one hn]
  rfl

/-- On one axis the elements of the signal are those of a line, in order (R231). -/
theorem signalHolds_one_iff {m : Memory} (x : Nat → Cpx Word) :
    SignalHolds s split m (fun i => x (i 1#2)) ↔ ∀ t, t < s.plan.axis1.n.toNat → holdsElement s split m t (x t) := by
  have helement : ∀ i1 i2 i3, planElement s i1 i2 i3 = i1 := fun i1 i2 i3 => by rw [planElement, hn, elementIndex_one]
  have h2 : axisLength s.plan 2#2 = 1 := axisLength_absent (by rw [hn]; decide)
  have h3 : axisLength s.plan 3#2 = 1 := axisLength_absent (by rw [hn]; decide)
  simp only [SignalHolds, helement, axisLength_one hn, h2, h3]
  exact ⟨fun h t ht => h (logicalIndex t 0 0) ⟨ht, Nat.one_pos, Nat.one_pos⟩, fun h i ⟨hi, _⟩ => h _ hi⟩

/-- A `TRANSFORM` on one axis is the dispatcher call on its line (R233). -/
theorem transformSignal_one (sign : Sign) (x : Nat → Cpx Word) :
    transformSignal s.par s.plan sign (fun i => x (i 1#2)) =
      fun i => lineCall s.par.prec s.par.twgen sign s.plan.axis1 x (i 1#2) := by
  have haxes : axesDown s.plan.naxes = [1#2] := by rw [hn]; rfl
  rw [transformSignal, haxes]
  funext i
  simp only [alongAxes, List.foldl_cons, List.foldl_nil, alongAxis, Function.update_self]
  rfl

end

/-- A `TRANSFORM` that passes its checks succeeds (R230). -/
theorem transform_status {s : State} {dir : Dir} {split : Bool} {sign : Sign} (hn : s.plan.naxes ≠ 0#2)
    (hd : directionSign s.par.fwdSign dir = some sign) (hfit : fits s split (planEmax s)) :
    (transform dir split s).status = statusCompleted .ok := by
  rw [transform_checked hn hd, if_pos ((inRange_eq s split _).2 hfit), succeed_status]

/-- Settles O44: the impulse is a line, and a `TRANSFORM` on one axis is the dispatcher call on it. -/
theorem impulseIsExact : Obligations.ImpulseIsExact := by
  intro s dir split hg hn hdir htable hfit hnd h0 hrest
  obtain ⟨sign, hd⟩ := directionSign_of_direction (fwd := s.par.fwdSign) hdir
  have hne : s.plan.naxes ≠ 0#2 := by rw [hn]; decide
  have haxes := axes_of_naxes_one hn
  rw [← planEmax_one hn] at hfit
  have hsignal : SignalHolds s split s.sig fun i => impulse s.par.prec (i 1#2) := by
    refine (signalHolds_one_iff hn _).2 fun t ht => ?_
    rcases Nat.eq_zero_or_pos t with rfl | hpos
    · exact h0
    · rw [impulse, if_neg hpos.ne']
      exact hrest t hpos ht
  obtain ⟨t, hexec, hafter⟩ := exec_transform_signalHolds hne hd hfit hnd (by simpa [haxes] using htable) hsignal
  obtain rfl : transform dir split s = t := Host.Outcome.next.inj hexec
  rw [transformSignal_one hn, signalHolds_one_iff hn] at hafter
  refine ⟨_, hexec, by rw [transform_status hne hd hfit, statusCompleted_err], fun j hj => ?_⟩
  have hgood : s.plan.axis1.good := hg.axes _ (by simp [haxes])
  rw [← lineCall_impulse s.par.prec s.par.twgen sign hgood hj]
  exact hafter j hj

end Sys2Proof.Proofs
end

section
/-! PROOF. The orchestrator's index arithmetic (47_orchestrator.md R231, R236, R240): the largest element index is that of the last
logical element, and the schedule's calls reach logical elements only. -/

namespace Sys2Proof.Proofs

open Sys2Proof Sys2Proof.Machine

section

variable {naxes : BitVec 2} {rm : Bool} {n1 n2 n3 ld : Nat}

/-- In a table of n rows of m columns the last column of the last row comes last. -/
theorem rowColumn_last {n m : Nat} (hn : 0 < n) (hm : 0 < m) : (n - 1) * m + (m - 1) = n * m - 1 := by
  obtain ⟨n, rfl⟩ := Nat.exists_eq_add_of_lt hn
  simp only [Nat.zero_add, Nat.add_sub_cancel, Nat.succ_mul]
  omega

/-- `Emax` is the index of the last logical element (R240). -/
theorem elementIndex_last (hn : naxes ≠ 0#2) (h1 : 0 < n1) (h2 : 0 < n2) (h3 : 0 < n3) :
    elementIndex naxes rm n2 ld (n1 - 1) (n2 - 1) (n3 - 1) = transformEmax naxes rm n1 n2 n3 ld := by
  rcases naxes_cases hn with rfl | rfl | rfl
  · rfl
  · cases rm <;> rfl
  · cases rm with
    | false =>
      have hlast : n2 - 1 + n2 * (n3 - 1) = n2 * n3 - 1 := by
        rw [Nat.add_comm, Nat.mul_comm n2, Nat.mul_comm n2, rowColumn_last h3 h2]
      rw [elementIndex_three_columns, hlast]
      rfl
    | true =>
      rw [elementIndex_three_rows, rowColumn_last h1 h2]
      rfl

end

/-- Settles O50: the last logical element attains the bound. -/
theorem emaxIsLargestIndex : Obligations.EmaxIsLargestIndex := by
  intro naxes rm n1 n2 n3 ld hn h1 h2 h3 _ _
  refine ⟨mem_transformElements.2 ⟨n1 - 1, ?_, n2 - 1, ?_, n3 - 1, ?_, elementIndex_last hn h1 h2 h3⟩,
    fun _ he => transformElements_le_emax hn he⟩
  all_goals omega

/-- Settles O51: an entry of a call is an element of a line that the call covers. -/
theorem scheduleStaysInside : Obligations.ScheduleStaysInside := by
  intro naxes rm n1 n2 n3 ld hn _ h2 h3 _ _ c hc t l ht hl
  obtain ⟨-, -, hinside⟩ := schedule_inside hn h2 h3 c hc
  rw [Nat.add_assoc]
  exact hinside t l ht hl

end Sys2Proof.Proofs
end

section
/-! PROOF. `TRANSFORM` (47_orchestrator.md R230, R236, R240): how its checks fail, and what it leaves where they pass. -/

namespace Sys2Proof.Proofs

open Sys2Proof Sys2Proof.Machine
open Sys2Proof.Config (Prec Sign)

/-! ### The lengths that the rules name -/

section

variable {pl : Plan}

theorem axisLength_first (h : 1#2 ≤ pl.naxes) : axisLength pl 1#2 = pl.axis1.n.toNat := axisLength_configured h

theorem axisLength_second (h : 2#2 ≤ pl.naxes) : axisLength pl 2#2 = pl.axis2.n.toNat := axisLength_configured h

theorem axisLength_third (h : 3#2 ≤ pl.naxes) : axisLength pl 3#2 = pl.axis3.n.toNat := axisLength_configured h

end

/-- `Emax` as the table of R240 writes it, for the number of axes of the plan. -/
theorem planEmax_eq {s : State} {n1 n2 n3 ld emax : Nat} (hn : s.plan.naxes ≠ 0#2)
    (h1 : n1 = s.plan.axis1.n.toNat) (h2 : n2 = s.plan.axis2.n.toNat) (h3 : n3 = s.plan.axis3.n.toNat)
    (hld : ld = s.leadDim.toNat)
    (hone : s.plan.naxes = 1#2 → emax = n1 - 1)
    (htwo : s.plan.naxes = 2#2 → emax = if s.rowMajor then (n1 - 1) * ld + (n2 - 1) else n1 - 1 + (n2 - 1) * ld)
    (hthree : s.plan.naxes = 3#2 →
      emax = if s.rowMajor then (n1 * n2 - 1) * ld + (n3 - 1) else n1 - 1 + ld * (n2 * n3 - 1)) :
    planEmax s = emax := by
  subst h1 h2 h3 hld
  rcases naxes_cases hn with h | h | h
  · rw [hone h, planEmax_one h]
  · rw [htwo h, planEmax, axisLength_first (by rw [h]; decide), axisLength_second (by rw [h]; decide), h]
    rfl
  · rw [hthree h, planEmax, axisLength_first (by rw [h]; decide), axisLength_second (by rw [h]; decide),
      axisLength_third (by rw [h]; decide), h]
    rfl

/-! ### How the checks fail (R230, in the priority of R255) -/

section

variable {dir : Dir} {split : Bool} {s : State} {sign : Sign}

theorem transform_unplanned (hn : s.plan.naxes = 0#2) : transform dir split s = raise .uninitializedPlan s := if_pos hn

theorem transform_undirected (hn : s.plan.naxes ≠ 0#2) (hd : directionSign s.par.fwdSign dir = none) :
    transform dir split s = raise .invalidDirection s := by
  simp only [transform, if_neg hn, hd]

theorem transform_capacity (hn : s.plan.naxes ≠ 0#2) (hd : directionSign s.par.fwdSign dir = some sign)
    (hfit : ¬ fits s split (planEmax s)) : transform dir split s = raise .capacity s := by
  rw [transform_checked hn hd, if_neg fun h => hfit ((inRange_eq s split _).1 h)]

theorem transform_fits (hn : s.plan.naxes ≠ 0#2) (hd : directionSign s.par.fwdSign dir = some sign)
    (hfit : fits s split (planEmax s)) :
    transform dir split s = succeed 0#32 0#32 0#32 (runTransform (signalShape split s) sign s) := by
  rw [transform_checked hn hd, if_pos ((inRange_eq s split _).2 hfit)]

end

theorem exec_transform (dir : Dir) (split : Bool) (s : State) :
    exec (.transform dir split) s = .next (transform dir split s) := rfl

/-- Settles O33: the clauses are the checks of `transform`, in its order. -/
theorem transformFailures : Obligations.TransformFailures := by
  intro s dir split n1 n2 n3 ld emax h1 h2 h3 hld hone htwo hthree
  rw [exec_transform]
  refine ⟨fun hn => ?_, fun hn hdir => ?_, fun hn hdir hfit => ?_⟩
  · rw [transform_unplanned hn]
  · rw [transform_undirected hn (directionSign_none hdir)]
  · obtain ⟨sign, hd⟩ := directionSign_of_direction (fwd := s.par.fwdSign) hdir
    rw [← planEmax_eq hn h1 h2 h3 hld hone htwo hthree] at hfit
    rw [transform_capacity hn hd hfit]

/-! ### What it leaves where the checks pass -/

/-- Settles O35: every store is into a word of the footprint, and where those are distinct and written the command is the run of
its schedule, which leaves no free value. -/
theorem transformCompletes : Obligations.TransformCompletes := by
  intro s dir split hg hn hdir hfit
  obtain ⟨sign, hd⟩ := directionSign_of_direction (fwd := s.par.fwdSign) hdir
  refine ⟨_, exec_transform dir split s, ?_, fun x hx => ?_, fun hnd hw => ?_⟩
  · have hframe := transform_frame dir split s
    rwa [transform_status hn hd hfit] at hframe
  · rw [transform_fits hn hd hfit, succeed_sig]
    refine runTransform_keeps (fun m => memRead m x = memRead s.sig x) hg hn sign rfl fun w hw m v hm => ?_
    rw [memRead_storeWord_outside _ _ _ _ fun he => hx (by rwa [inWords, he]), hm]
  · rw [transform_fits hn hd hfit, succeed_free, runTransform_run sign hnd hw]

end Sys2Proof.Proofs
end

section
/-! PROOF. `TRANSFORM` is its schedule (47_orchestrator.md R232 to R235), each call made by a `DISPATCH`. The operands of such a
call are cut to 32 bits; that changes none but the element stride on an axis of length 1, and no engine runs there. -/

namespace Sys2Proof.Proofs

open Sys2Proof Sys2Proof.Machine
open Sys2Proof.Config (Prec Sign)

/-! ### The schedule of a plan -/

/-- The schedule that a `TRANSFORM` on the state runs (R230). -/
abbrev planSchedule (s : State) : List Call :=
  schedule s.plan.naxes s.rowMajor (axisLength s.plan 1#2) (axisLength s.plan 2#2) (axisLength s.plan 3#2) s.leadDim.toNat

section

variable {s : State} {n1 n2 n3 ld : Nat} (h1 : n1 = s.plan.axis1.n.toNat) (h2 : n2 = s.plan.axis2.n.toNat)
  (h3 : n3 = s.plan.axis3.n.toNat) (hld : ld = s.leadDim.toNat)

theorem planSchedule_one (hn : s.plan.naxes = 1#2) :
    planSchedule s = [{ axis := 1#2, off := 0, inc := 1, jump := 0, lot := 1 }] := by
  rw [planSchedule, hn]
  rfl

include h1 h2 hld

theorem planSchedule_two (hn : s.plan.naxes = 2#2) : planSchedule s = schedule 2#2 s.rowMajor n1 n2 1 ld := by
  rw [planSchedule, axisLength_first (by rw [hn]; decide), axisLength_second (by rw [hn]; decide),
    axisLength_absent (axis := 3#2) (by rw [hn]; decide), hn, h1, h2, hld]

include h3

theorem planSchedule_three (hn : s.plan.naxes = 3#2) : planSchedule s = schedule 3#2 s.rowMajor n1 n2 n3 ld := by
  rw [planSchedule, axisLength_first (by rw [hn]; decide), axisLength_second (by rw [hn]; decide),
    axisLength_third (by rw [hn]; decide), hn, h1, h2, h3, hld]

end

/-- Every call has a lot, and its lots are 0, 1 or `ld` elements apart. -/
theorem schedule_lot_jump {naxes : BitVec 2} {rm : Bool} {n1 n2 n3 ld : Nat} (hn : naxes ≠ 0#2) (h1 : 0 < n1) (h2 : 0 < n2)
    (h3 : 0 < n3) : ∀ c ∈ schedule naxes rm n1 n2 n3 ld, 0 < c.lot ∧ c.jump ∈ [0, 1, ld] := by
  rcases naxes_cases hn with rfl | rfl | rfl
  · simp [schedule]
  · cases rm <;> simp [schedule, h1, h2]
  · cases rm
    · simp [schedule_three_columns, or_imp, forall_and, h1, h2, h3]
    · simp [schedule_three_rows, or_imp, forall_and, h1, h2, h3]

/-- Every call of the schedule belongs to the phase of an axis. -/
theorem exists_phase {s : State} (hn : s.plan.naxes ≠ 0#2) {c : Call} (hc : c ∈ planSchedule s) :
    ∃ a ∈ axesDown s.plan.naxes, ∃ cs, c ∈ cs ∧
      Phase s.plan.naxes s.rowMajor (axisLength s.plan 1#2) (axisLength s.plan 2#2) (axisLength s.plan 3#2) s.leadDim.toNat
        a cs := by
  obtain ⟨phases, hsched, hphases⟩ := schedule_phases (naxes := s.plan.naxes) (rm := s.rowMajor)
    (n1 := axisLength s.plan 1#2) (n2 := axisLength s.plan 2#2) (n3 := axisLength s.plan 3#2) (ld := s.leadDim.toNat) hn
    (fun h => ⟨axisLength_absent (by rw [h]; decide), axisLength_absent (by rw [h]; decide)⟩)
    (fun h => axisLength_absent (by rw [h]; decide))
  rw [planSchedule, hsched] at hc
  obtain ⟨cs, hcs, hc⟩ := List.mem_flatten.1 hc
  obtain ⟨k, hk, rfl⟩ := List.getElem_of_mem hcs
  have hk' : k < (axesDown s.plan.naxes).length := hphases.length_eq ▸ hk
  exact ⟨_, List.getElem_mem hk', _, hc, hphases.get hk' hk⟩

/-! ### A call of the schedule, made by `DISPATCH` -/

theorem fits_lt {s : State} {split : Bool} {emax : Nat} (h : fits s split emax) : emax < 2 ^ 32 := by
  have hdepth := s.par.sigDepth.isLt
  cases split <;> simp only [fits, if_true, Bool.false_eq_true, if_false] at h <;> omega

/-- What the calls of a `TRANSFORM` that passes its checks have in common: `DISPATCH` takes the call, its operands but the element
stride fit a register, and its words are distinct words of the signal. -/
structure CallFits (sign : Sign) (split : Bool) (s : State) (c : Call) : Prop where
  encoded : c.axis ≠ 0#2
  configured : c.axis ≤ s.plan.naxes
  jump_lt : c.jump < 2 ^ 32
  lot_pos : 0 < c.lot
  lot_lt : c.lot < 2 ^ 32
  inside : c.off + directEmax (planAxis s.plan c.axis).n.toNat c.inc c.jump c.lot ≤ planEmax s
  distinct : (requestWords (callRequest s.plan (signalShape split s) sign c)).Nodup
  words : requestWords (callRequest s.plan (signalShape split s) sign c) ⊆ planWords split s

section

variable {sign : Sign} {dir : Dir} {split : Bool} {s : State} {c : Call} {m : Memory}

/-- Every call of the schedule is such a call: its words are distinct and lie in `SIG`, so there are fewer than 2^32 lots. -/
theorem callFits_of_mem (hg : s.plan.good) (hn : s.plan.naxes ≠ 0#2) (hfit : fits s split (planEmax s))
    (hnd : (planWords split s).Nodup) (hc : c ∈ planSchedule s) : CallFits sign split s c := by
  have hpos : ∀ {axis : BitVec 2}, axis ≠ 0#2 → 0 < axisLength s.plan axis := axisLength_pos hg
  obtain ⟨ha, hle, hin⟩ := schedule_inside hn (hpos (by decide)) (hpos (by decide)) c hc
  obtain ⟨hlot, hjump⟩ := schedule_lot_jump hn (hpos (by decide)) (hpos (by decide)) (hpos (by decide)) c hc
  rw [lengthOf_axisLength ha, axisLength_configured hle] at hin
  have hlen : 0 < (planAxis s.plan c.axis).n.toNat := (hpos ha).trans_eq (axisLength_configured hle)
  have hsub : requestWords (callRequest s.plan (signalShape split s) sign c) ⊆ planWords split s := by
    intro w hw
    obtain ⟨l, hl, hw⟩ := mem_requestWords.1 hw
    obtain ⟨t, ht, hw⟩ := mem_lotWords.1 hw
    rw [requestDesc_callRequest, descWords_callDesc] at hw
    obtain ⟨e, he, hw⟩ := mem_elementWords.1 hw
    exact mem_elementWords.2 ⟨e, List.mem_singleton.1 he ▸ hin t l ht hl, hw⟩
  have hdistinct : (requestWords (callRequest s.plan (signalShape split s) sign c)).Nodup := by
    obtain ⟨a, haxis, cs, hcs, hphase⟩ := exists_phase hn hc
    obtain ⟨ha', hle'⟩ := mem_axesDown hn a haxis
    have hall := hphase.callsWords_nodup (sh := signalShape split s) (sign := sign) ha'
      (by rw [lengthOf_axisLength ha', axisLength_configured hle']) hnd
    exact (List.nodup_flatMap.1 hall).1 c hcs
  have hcount : c.lot * (planAxis s.plan c.axis).n.toNat * 2 ≤ s.par.sigDepth.toNat := by
    have hrange : requestWords (callRequest s.plan (signalShape split s) sign c) ⊆ List.range s.par.sigDepth.toNat :=
      fun w hw => List.mem_range.2 (planWords_lt hn hfit w (hsub hw))
    have hle := (List.subperm_of_subset hdistinct hrange).length_le
    rwa [requestWords_length, List.length_range] at hle
  refine ⟨ha, hle, ?_, hlot, ?_, ?_, hdistinct, hsub⟩
  · have hld := s.leadDim.isLt
    simp only [List.mem_cons, List.not_mem_nil, or_false] at hjump
    omega
  · have hdepth := s.par.sigDepth.isLt
    have := Nat.le_mul_of_pos_right c.lot hlen
    omega
  · exact transformElements_le_emax hn (hin _ _ (Nat.sub_one_lt_of_lt hlen) (Nat.sub_one_lt_of_lt hlot))

theorem argUnsigned_withCall (split : Bool) (c : Call) (s : State) :
    argUnsigned (withCall split c s) 2 = c.inc % 2 ^ 32 ∧ argUnsigned (withCall split c s) 3 = c.jump % 2 ^ 32 ∧
      argUnsigned (withCall split c s) 4 = c.lot % 2 ^ 32 :=
  ⟨BitVec.toNat_ofNat .., BitVec.toNat_ofNat .., BitVec.toNat_ofNat ..⟩

theorem CallFits.jump_eq (h : CallFits sign split s c) : argUnsigned (withCall split c s) 3 = c.jump :=
  (argUnsigned_withCall split c s).2.1.trans (Nat.mod_eq_of_lt h.jump_lt)

theorem CallFits.lot_eq (h : CallFits sign split s c) : argUnsigned (withCall split c s) 4 = c.lot :=
  (argUnsigned_withCall split c s).2.2.trans (Nat.mod_eq_of_lt h.lot_lt)

/-- The element stride of a call on a longer axis is at most `Emax`, so it fits its register. -/
theorem CallFits.inc_eq (h : CallFits sign split s c) (hfit : fits s split (planEmax s))
    (hlen : 1 < (planAxis s.plan c.axis).n.toNat) : argUnsigned (withCall split c s) 2 = c.inc := by
  have hinc : c.inc ≤ ((planAxis s.plan c.axis).n.toNat - 1) * c.inc := Nat.le_mul_of_pos_left _ (by omega)
  have hinside := h.inside
  have hemax := fits_lt hfit
  simp only [directEmax] at hinside
  exact (argUnsigned_withCall split c s).1.trans (Nat.mod_eq_of_lt (by omega))

/-- On an axis of length 1 the element stride does not count. -/
theorem directEmax_one (inc inc' jump lot : Nat) : directEmax 1 inc jump lot = directEmax 1 inc' jump lot := by
  simp only [directEmax, Nat.sub_self, Nat.zero_mul]

theorem CallFits.directEmax_eq (h : CallFits sign split s c) (hfit : fits s split (planEmax s))
    (hlen : 0 < (planAxis s.plan c.axis).n.toNat) :
    directEmax (planAxis s.plan c.axis).n.toNat (argUnsigned (withCall split c s) 2) (argUnsigned (withCall split c s) 3)
      (argUnsigned (withCall split c s) 4) = directEmax (planAxis s.plan c.axis).n.toNat c.inc c.jump c.lot := by
  rw [h.jump_eq, h.lot_eq]
  rcases Nat.eq_or_lt_of_le hlen with hone | hlong
  · rw [← hone]
    exact directEmax_one ..
  · rw [h.inc_eq hfit hlong]

/-- The range check of the `DISPATCH` passes. -/
theorem CallFits.inRange (h : CallFits sign split s c) (hfit : fits s split (planEmax s))
    (hlen : 0 < (planAxis s.plan c.axis).n.toNat) :
    fits (withCall split c s) split (directEmax (planAxis s.plan c.axis).n.toNat (argUnsigned (withCall split c s) 2)
      (argUnsigned (withCall split c s) 3) (argUnsigned (withCall split c s) 4)) :=
  fits_withCall hfit (h.directEmax_eq hfit hlen ▸ h.inside)

/-- On a longer axis the `DISPATCH` makes the request of the call. -/
theorem CallFits.operandRequest_eq (h : CallFits sign split s c) (hfit : fits s split (planEmax s))
    (hlen : 1 < (planAxis s.plan c.axis).n.toNat) :
    operandRequest c.axis sign split (withCall split c s) = callRequest s.plan (signalShape split s) sign c := by
  have hoff : c.off ≤ planEmax s := (Nat.le_add_right _ _).trans h.inside
  rw [operandRequest, signalShape_withCall hfit hoff, h.inc_eq hfit hlen, h.jump_eq, h.lot_eq]
  rfl

/-- The call's `DISPATCH` leaves what the dispatcher call leaves. -/
theorem CallFits.directCommand_eq (h : CallFits sign split s c) (hg : s.plan.good) (hdir : dir = .forward ∨ dir = .inverse)
    (hd : directionSign s.par.fwdSign dir = some sign) (hfit : fits s split (planEmax s))
    (hw : AllWritten s.par.prec (planWords split s) s.sig) :
    directCommand axisActive (fun _ => lotGroups) dispatchCall c.axis dir split (withCall split c s) =
      completedWith (dispatchCall s.par.prec s.free s.tw (planAxis s.plan c.axis)
        (callDesc s.plan (signalShape split s) sign c) s.sig) (withCall split c s) := by
  have hax : (planAxis s.plan c.axis).good := hg.axes _ (planAxis_mem_axes h.encoded h.configured)
  have hlen : 0 < (planAxis s.plan c.axis).n.toNat :=
    (axisLength_pos hg h.encoded).trans_eq (axisLength_configured h.configured)
  rcases Nat.eq_or_lt_of_le hlen with hone | hlong
  · have hactive := axisActive_of_length_one hax (BitVec.eq_of_toNat_eq hone.symm)
    rw [dispatchCall_inactive _ _ _ _ _ hactive]
    exact directCommand_inactive (s := withCall split c s) h.encoded h.configured hdir (h.inRange hfit hlen) hactive
      fun f free tw d sig => dispatchCall_inactive f free tw d sig hactive
  · have hrequest := h.operandRequest_eq hfit hlong
    have hwords : directWords (planAxis s.plan c.axis).n.toNat split (withCall split c s) =
        requestWords (callRequest s.plan (signalShape split s) sign c) := by rw [← hrequest]; rfl
    have hruns : Runs c.axis dir split sign (withCall split c s) :=
      ⟨h.encoded, h.configured, hd, h.lot_eq ▸ h.lot_pos.ne', h.inRange hfit hlen, hwords ▸ h.distinct,
        fun w hmem => hw w (h.words (hwords ▸ hmem))⟩
    rw [hruns.directCommand_eq fun _ => lotGroups_inside, hrequest]
    rfl

theorem CallFits.withSig (h : CallFits sign split s c) (m : Memory) : CallFits sign split { s with sig := m } c :=
  ⟨h.encoded, h.configured, h.jump_lt, h.lot_pos, h.lot_lt, h.inside, h.distinct, h.words⟩

end

/-! ### The calls one after another -/

theorem allWritten_dispatchCall {f : Prec} {words : List Nat} {m : Memory} (free : Nat) (tw : Memory) (ax : AxisPlan)
    (d : EngineDesc) (h : AllWritten f words m) : AllWritten f words (dispatchCall f free tw ax d m) :=
  dispatchCall_keeps (AllWritten f words) f free tw ax d h fun _ _ _ _ _ v hm =>
    ⟨allWritten_storeWord _ v hm, allWritten_storeWord _ v hm⟩

/-- The calls, each made by a `DISPATCH`, leave what the calls leave. -/
theorem dispatchAll_eq_runCalls {sign : Sign} {dir : Dir} {split : Bool} {s : State} (hg : s.plan.good)
    (hdir : dir = .forward ∨ dir = .inverse) (hd : directionSign s.par.fwdSign dir = some sign)
    (hfit : fits s split (planEmax s)) {cs : List Call} (hcs : ∀ c ∈ cs, CallFits sign split s c) {m : Memory}
    (hw : AllWritten s.par.prec (planWords split s) m) :
    dispatchAll dir split s cs m = some (runCalls s.par.prec s.free s.tw s.plan (signalShape split s) sign cs m) := by
  induction cs generalizing m with
  | nil => rfl
  | cons c cs ih =>
    obtain ⟨hc, hcs⟩ := List.forall_mem_cons.1 hcs
    have hcall := (hc.withSig m).directCommand_eq hg hdir hd hfit hw
    simp only [dispatchAll, exec_dispatch, hcall]
    exact (if_pos rfl).trans (ih hcs (allWritten_dispatchCall _ _ _ _ hw))

/-- Settles O39: on distinct written words the command is the run of its schedule, and each call of the schedule is the
`DISPATCH` with its operands. -/
theorem transformIsItsSchedule : Obligations.TransformIsItsSchedule := by
  intro s dir split n1 n2 n3 ld calls hg _ hn hdir hfit hnd hw h1 h2 h3 hld hone htworows htwocolumns hthreerows hthreecolumns
  have hcalls : calls = planSchedule s := by
    rcases naxes_cases hn with h | h | h
    · rw [hone h, planSchedule_one h]
    · rw [planSchedule_two h1 h2 hld h]
      cases hrm : s.rowMajor with
      | false => exact htwocolumns h hrm
      | true => exact htworows h hrm
    · rw [planSchedule_three h1 h2 h3 hld h]
      cases hrm : s.rowMajor with
      | false => exact hthreecolumns h hrm
      | true => exact hthreerows h hrm
  obtain ⟨sign, hd⟩ := directionSign_of_direction (fwd := s.par.fwdSign) hdir
  refine ⟨_, exec_transform dir split s, by rw [transform_status hn hd hfit, statusCompleted_err], ?_⟩
  rw [hcalls, dispatchAll_eq_runCalls hg hdir hd hfit (fun c hc => callFits_of_mem hg hn hfit hnd hc) hw,
    transform_fits hn hd hfit, succeed_sig, runTransform_run sign hnd hw]

end Sys2Proof.Proofs
end

section
/-! PROOF. Failures (60_exceptions.md R252, R253), and the block between commands and inside one (R265, R286). -/

namespace Sys2Proof.Proofs

open Sys2Proof Sys2Proof.Machine

/-- Settles O18: of the five ways to complete only the failure leaves a code other than 0. -/
theorem failureChangesNothing : Obligations.FailureChangesNothing := by
  intro i s t h herr
  cases completes_of_exec h with
  | failed e he => rfl
  | answered r0 r1 r2 => exact absurd rfl herr
  | planned lengths axes hi hk hplan hfit => exact absurd rfl herr
  | laidOut rm ld hi hn hld => exact absurd rfl herr
  | ran sig free hsig => exact absurd rfl herr

/-- Settles O7: no access is pending. -/
theorem idleBlockKeepsState : Obligations.IdleBlockKeepsState := by
  intro s hhost
  simp only [step, hhost]

section

variable {s : State} (hbusy : s.status.busy = true)
include hbusy

theorem hostWriteCtrl_busy {offset : Nat} (v : Reg) (hin : ctrlInside offset = true) :
    hostWriteCtrl offset v s = .next s := by
  simp [hostWriteCtrl, hin, hbusy]

theorem hostWriteSig_busy (index : Nat) (v : Word) : hostWriteSig index v s = s := by
  simp [hostWriteSig, hbusy]

end

/-- `STATUS` has a value in every state (R286). -/
theorem hostReadCtrl_status (s : State) :
    hostReadCtrl 0x04 s = .next (returnWord ((statusWord s.status).setWidth 64) s) := by
  simp [hostReadCtrl, ctrlInside, ctrlValue]

/-- Settles O14: of these accesses a busy block answers the read of `STATUS` and ignores the writes. -/
theorem busyBlockIgnoresHost : Obligations.BusyBlockIgnoresHost := by
  intro s rest hbusy
  have hbusy : { s with host := rest }.status.busy = true := hbusy
  refine ⟨fun offset v haligned hlt hhost => ?_, fun a v hhost => ?_, fun hhost => ?_⟩
  · rw [step_cons hhost, hostStep, hostWriteCtrl_busy hbusy v (ctrlInside_iff.2 ⟨haligned, hlt⟩)]
  · rw [step_cons hhost, hostStep, hostWriteSig_busy hbusy]
  · rw [step_cons hhost, hostStep, hostReadCtrl_status]
    rfl

end Sys2Proof.Proofs
end
